-- ==== Sys2Proof/Word.lean ====
section
/-! DEFINITION. The two word types of the spec: bytes and 32-bit words (00 R10, R11). All values are unsigned. -/

namespace Sys2Proof

/-- "A byte is an 8-bit unsigned value." (00 R11) -/
abbrev Byte := BitVec 8

/-- "Every CSR is 32 bits wide." (00 R9) -/
abbrev Word := BitVec 32

end Sys2Proof
end

