-- ==== Sys2Proof/Config.lean ====
section
/-! DEFINITION. What an implementation fixes: the constants of 00 R7, the parameters of 00 R8, and the free values,
opaque constants that nothing can evaluate. -/

namespace Sys2Proof

/-- `TABLE_SIZE_RULE` (00 R8, 41 R157). -/
inductive TableSizeRule where
  | floor
  | ceil
deriving DecidableEq, Repr

/-- `LARGE_WRITE_MODE` (00 R8, 42 R208, R210). -/
inductive LargeWriteMode where
  | block
  | wholePiece
deriving DecidableEq, Repr

/-- The parameters of 00 R8. A state carries them, and no step changes them (log 1). -/
structure Params where
  /-- `CSR_BASE`, the host byte address of the 256-byte window. -/
  csrBase : Word
  /-- The address of the last byte of host memory: `HOST_MEM_SIZE` is one more, so 1 ≤ `HOST_MEM_SIZE` ≤ 2^32. -/
  hostMemTop : Word
  tableSizeRule : TableSizeRule
  largeWriteMode : LargeWriteMode
  splitUncompressedTransfer : Bool
deriving DecidableEq, Repr

/-- `HOST_MEM_SIZE` (00 R8). -/
def Params.hostMemSize (p : Params) : Nat := p.hostMemTop.toNat + 1

/-- The defaults of 00 R8. DESIGN CHOICE (log 1) for the two the spec leaves OPEN: the window at 0, the largest memory. -/
def Params.default : Params where
  csrBase := 0
  hostMemTop := 0xFFFFFFFF
  tableSizeRule := .floor
  largeWriteMode := .block
  splitUncompressedTransfer := false

namespace Config

/-- `MAX_BLOCK_SIZE` (00 R7). -/
def maxBlockSize : Nat := 65536
/-- `INPUT_MARGIN` (00 R7). -/
def inputMargin : Nat := 15
/-- `MIN_NON_LITERAL_BLOCK_SIZE` (00 R7). -/
def minNonLiteralBlockSize : Nat := 17
/-- `MIN_TABLE_SIZE` (00 R7). -/
def minTableSize : Nat := 256
/-- `MAX_TABLE_SIZE` (00 R7). -/
def maxTableSize : Nat := 16384
/-- The hash multiplier (00 R7). -/
def hashMultiplier : Word := 0x1e35a7bd
/-- The initial `skip` (00 R7). -/
def initialSkip : Nat := 32
/-- The CRC mask constant (00 R7). -/
def crcMaskConstant : Word := 0xa282ead8
/-- The payload of the stream-identifier chunk, "sNaPpY" (30 R109). -/
def streamIdPayload : List Byte := [0x73, 0x4E, 0x61, 0x50, 0x70, 0x59]
/-- `MAGIC_CHUNK` (00 R7, 30 R109). -/
def magicChunk : List Byte := [0xFF, 0x06, 0x00, 0x00] ++ streamIdPayload
/-- The capacity of `OBUF` (00 R9, 10 R43). -/
def obufCapacity : Nat := 76508

/-- A free byte: one draw of a host-memory or transfer byte the spec leaves open (70 R270, R261). No value is chosen (log 22). -/
opaque freeByte : Nat → Byte
/-- A free word: the `RESULT` of a raced command (70 R270). No value is chosen (log 22). -/
opaque freeWord : Nat → Word
/-- A free number: which of several admitted values is taken (10 R28), and the length of a raced transfer (70 R270). No value
is chosen (log 22). -/
opaque freeNat : Nat → Nat

end Config

end Sys2Proof
end

