-- ==== Sys2Proof/Syntax.lean ====
section
/-! DEFINITION. The instructions: one constructor for each row of spec/opcode_table.json. A command takes its operands from the
argument latch (30 R93), so its constructor carries only what its word holds. An element or chunk carries the fields of its
encoding (30 R97 to R112). -/

namespace Sys2Proof

/-- The writer's mode, the `MODE` bit of INIT_WRITER (30 R90) and `WMODE` (10 R30). -/
inductive WriterMode where
  | unbuffered
  | buffered
deriving DecidableEq, Repr

/-- Which of the three encodings an instruction belongs to: the command word (30 R90), the elements of an encoded block
(30 R97), or the chunks of a framed stream (30 R108). -/
inductive Layer where
  | command
  | element
  | chunk
deriving DecidableEq, Repr

/-- The rows of the opcode table. -/
inductive Instr where
  /-- ENCODE (30 R91, 41 R180). -/
  | encode
  /-- MAXLEN (30 R91, 41 R182). -/
  | maxlen
  /-- INIT_WRITER, with its `MODE` bit (30 R90, 42 R206). -/
  | initWriter (mode : WriterMode)
  /-- WRITE (30 R91, 42 R207 to R211). -/
  | write
  /-- FLUSH (30 R91, 42 R212). -/
  | flush
  /-- CLOSE (30 R91, 42 R213). -/
  | close
  /-- RESET_STREAM (30 R91, 42 R216). -/
  | resetStream
  /-- ILLEGAL: any other word (30 R92). -/
  | illegal (word : Word)
  /-- LIT_INLINE (30 R98): 1 to 60 literal bytes. -/
  | litInline (lit : List Byte)
  /-- LIT_1 (30 R99): tag 0xF0 and a one-byte length. -/
  | lit1 (lit : List Byte)
  /-- LIT_2 (30 R100): tag 0xF4 and a two-byte length. -/
  | lit2 (lit : List Byte)
  /-- LIT_3 (30 R101): tag 0xF8 and a three-byte length. -/
  | lit3 (lit : List Byte)
  /-- LIT_4 (30 R101): tag 0xFC and a four-byte length. -/
  | lit4 (lit : List Byte)
  /-- COPY_1 (30 R102): an 11-bit offset and `length − 4`. -/
  | copy1 (offset : BitVec 11) (lenField : BitVec 3)
  /-- COPY_2 (30 R103): a 16-bit offset and `length − 1`. -/
  | copy2 (offset : BitVec 16) (lenField : BitVec 6)
  /-- COPY_4 (30 R104): a 32-bit offset and `length − 1`. -/
  | copy4 (offset : BitVec 32) (lenField : BitVec 6)
  /-- CHUNK_STREAM_ID (30 R109), with its payload as it stands. -/
  | chunkStreamId (payload : List Byte)
  /-- CHUNK_COMPRESSED (30 R110): the masked CRC and the encoded block. -/
  | chunkCompressed (crc : Word) (data : List Byte)
  /-- CHUNK_UNCOMPRESSED (30 R111): the masked CRC and the raw bytes. -/
  | chunkUncompressed (crc : Word) (data : List Byte)
deriving DecidableEq, Repr

/-- The layer of an instruction. -/
def Instr.layer : Instr → Layer
  | .encode | .maxlen | .initWriter _ | .write | .flush | .close | .resetStream | .illegal _ => .command
  | .litInline _ | .lit1 _ | .lit2 _ | .lit3 _ | .lit4 _ | .copy1 _ _ | .copy2 _ _ | .copy4 _ _ => .element
  | .chunkStreamId _ | .chunkCompressed _ _ | .chunkUncompressed _ _ => .chunk

end Sys2Proof
end

