-- ==== Sys2Proof/WellFormed.lean ====
section
/-! DEFINITION. When an instruction's fields are ones its encoding can hold (30 R92, R98 to R112). An element here may be one the
format allows and the engine never emits (30 R116); `Instr.engineEmits` in Machine/Reader.lean tells those apart. -/

namespace Sys2Proof

/-- The legal command words: "exactly 0x00000001, 0x00000002, 0x00000010, 0x00000110, 0x00000011, 0x00000012, 0x00000013 and
0x00000014" (95 V-C3, by 30 R91). -/
def legalWords : List Word := [0x001, 0x002, 0x010, 0x110, 0x011, 0x012, 0x013, 0x014]

/-- A literal's length lies in 1 .. `most`. -/
def literalFits (most : Nat) (lit : List Byte) : Bool := 0 < lit.length && lit.length ≤ most

/-- The fields of the instruction are ones its encoding holds. -/
def Instr.wellFormed : Instr → Bool
  | .encode | .maxlen | .initWriter _ | .write | .flush | .close | .resetStream => true
  | .illegal w => !legalWords.contains w
  | .litInline lit => literalFits 60 lit
  | .lit1 lit => literalFits 256 lit
  | .lit2 lit => literalFits 65536 lit
  | .lit3 lit => literalFits (2 ^ 24) lit
  | .lit4 lit => literalFits (2 ^ 32) lit
  | .copy1 offset _ => offset ≠ 0
  | .copy2 offset _ => offset ≠ 0
  | .copy4 offset _ => offset ≠ 0
  | .chunkStreamId payload => payload = Config.streamIdPayload
  | .chunkCompressed _ data => 4 + data.length < 2 ^ 24
  | .chunkUncompressed _ data => 4 + data.length < 2 ^ 24

end Sys2Proof
end

