-- ==== Sys2Proof/Decode.lean ====
section
/-! DEFINITION. The decoders of the three layers (30 R90 to R92, R97 to R104, R108 to R112), total on any bytes and rejecting by
name, then the encoder written from the same tables. Everything multi-byte is little-endian (20 R64, R65). -/

namespace Sys2Proof

/-- `le_bytes_N(v)` (00 R11). -/
def leBytes : Nat → Nat → List Byte
  | 0, _ => []
  | n + 1, v => BitVec.ofNat 8 v :: leBytes n (v / 256)

/-- The number a little-endian byte sequence holds (00 R11). -/
def leValue : List Byte → Nat
  | [] => 0
  | b :: bs => b.toNat + 256 * leValue bs

/-- The first `n` bytes and the rest, or nothing when there are fewer. -/
def takeBytes : Nat → List Byte → Option (List Byte × List Byte)
  | 0, bs => some ([], bs)
  | _ + 1, [] => none
  | n + 1, b :: bs => (takeBytes n bs).map fun p => (b :: p.1, p.2)

/-- Why bytes are no instruction of a layer. -/
inductive DecodeError where
  /-- Fewer bytes than the encoding needs. -/
  | truncated
  /-- A framing chunk type 0x02 to 0xFE, which this spec gives no meaning to (30 R114). -/
  | unknownChunkType (type : Byte)
  /-- A data chunk whose length does not even cover its CRC (30 R112). -/
  | chunkTooShort
deriving DecidableEq, Repr

/-- What a decoder answers. -/
inductive Decoded where
  | ok (i : Instr) (rest : List Byte)
  | reject (e : DecodeError)
deriving DecidableEq, Repr

/-- The command map of 30 R90 to R92: `OPCODE` in bits 7:0, `MODE` in bit 8, bits 31:9 reserved. Every other word is
illegal, so this is total. -/
def decodeCommand (w : Word) : Instr :=
  let opcode := w.extractLsb' 0 8
  let mode := w.extractLsb' 8 1
  let reserved := w.extractLsb' 9 23
  if reserved ≠ 0 then .illegal w
  else if opcode = 0x10 then .initWriter (if mode = 1 then .buffered else .unbuffered)
  else if mode ≠ 0 then .illegal w
  else if opcode = 0x01 then .encode
  else if opcode = 0x02 then .maxlen
  else if opcode = 0x11 then .write
  else if opcode = 0x12 then .flush
  else if opcode = 0x13 then .close
  else if opcode = 0x14 then .resetStream
  else .illegal w

/-- A literal of `n + 1` bytes after its header (30 R98 to R101). -/
def decodeLiteral (make : List Byte → Instr) (n : Nat) (bs : List Byte) : Decoded :=
  match takeBytes (n + 1) bs with
  | some (lit, rest) => .ok (make lit) rest
  | none => .reject .truncated

/-- A literal whose length stands in `k` little-endian bytes after the tag (30 R99 to R101). -/
def decodeLongLiteral (make : List Byte → Instr) (k : Nat) (bs : List Byte) : Decoded :=
  match takeBytes k bs with
  | some (len, rest) => decodeLiteral make (leValue len) rest
  | none => .reject .truncated

/-- A literal, by the high six bits of its tag (30 R98 to R101). -/
def decodeLiteralTag (n : Nat) (bs : List Byte) : Decoded :=
  if n < 60 then decodeLiteral .litInline n bs
  else if n = 60 then decodeLongLiteral .lit1 1 bs
  else if n = 61 then decodeLongLiteral .lit2 2 bs
  else if n = 62 then decodeLongLiteral .lit3 3 bs
  else decodeLongLiteral .lit4 4 bs

/-- A copy, by its kind bits (30 R102 to R104). -/
def decodeCopyTag (tag : Byte) (bs : List Byte) : Decoded :=
  if tag.extractLsb' 0 2 = 1 then
    match takeBytes 1 bs with
    | some (lo, rest) =>
      .ok (.copy1 (tag.extractLsb' 5 3 ++ BitVec.ofNat 8 (leValue lo)) (tag.extractLsb' 2 3)) rest
    | none => .reject .truncated
  else if tag.extractLsb' 0 2 = 2 then
    match takeBytes 2 bs with
    | some (off, rest) => .ok (.copy2 (BitVec.ofNat 16 (leValue off)) (tag.extractLsb' 2 6)) rest
    | none => .reject .truncated
  else
    match takeBytes 4 bs with
    | some (off, rest) => .ok (.copy4 (BitVec.ofNat 32 (leValue off)) (tag.extractLsb' 2 6)) rest
    | none => .reject .truncated

/-- One element of an encoded block, told by its tag byte's low two bits (30 R97, R106). -/
def decodeElement : List Byte → Decoded
  | [] => .reject .truncated
  | tag :: bs =>
    if tag.extractLsb' 0 2 = 0 then decodeLiteralTag (tag.extractLsb' 2 6).toNat bs else decodeCopyTag tag bs

/-- A data chunk's payload: the masked CRC, then the data (30 R112). -/
def decodeDataChunk (make : Word → List Byte → Instr) (payload rest : List Byte) : Decoded :=
  match takeBytes 4 payload with
  | some (crc, data) => .ok (make (BitVec.ofNat 32 (leValue crc)) data) rest
  | none => .reject .chunkTooShort

/-- One chunk: `[type] ++ le_bytes_3(chunkLen) ++ payload` (30 R108 to R112, R114). -/
def decodeChunk : List Byte → Decoded
  | [] => .reject .truncated
  | type :: bs =>
    if type = 0x00 ∨ type = 0x01 ∨ type = 0xFF then
      match takeBytes 3 bs with
      | none => .reject .truncated
      | some (len, bs) =>
        match takeBytes (leValue len) bs with
        | none => .reject .truncated
        | some (payload, rest) =>
          if type = 0xFF then .ok (.chunkStreamId payload) rest
          else if type = 0x00 then decodeDataChunk .chunkCompressed payload rest
          else decodeDataChunk .chunkUncompressed payload rest
    else .reject (.unknownChunkType type)

/-- The decoder of a layer. A command word is its four bytes in the CSRs' byte order (20 R65). -/
def decode : Layer → List Byte → Decoded
  | .command, bs =>
    match takeBytes 4 bs with
    | some (w, rest) => .ok (decodeCommand (BitVec.ofNat 32 (leValue w))) rest
    | none => .reject .truncated
  | .element, bs => decodeElement bs
  | .chunk, bs => decodeChunk bs

/-- A command word's four bytes (30 R90, 20 R65). -/
def encodeWord (w : Word) : List Byte := leBytes 4 w.toNat

/-- A literal with its length in `k` bytes after the tag `tag` (30 R99 to R101). -/
def encodeLongLiteral (tag : Byte) (k : Nat) (lit : List Byte) : List Byte :=
  tag :: leBytes k (lit.length - 1) ++ lit

/-- A chunk's header and payload (30 R108). -/
def encodeChunk (type : Byte) (payload : List Byte) : List Byte :=
  type :: leBytes 3 payload.length ++ payload

/-- The bytes of an instruction (30 R90, R98 to R104, R108 to R112). -/
def encodeInstr : Instr → List Byte
  | .encode => encodeWord 0x00000001
  | .maxlen => encodeWord 0x00000002
  | .initWriter .unbuffered => encodeWord 0x00000010
  | .initWriter .buffered => encodeWord 0x00000110
  | .write => encodeWord 0x00000011
  | .flush => encodeWord 0x00000012
  | .close => encodeWord 0x00000013
  | .resetStream => encodeWord 0x00000014
  | .illegal w => encodeWord w
  | .litInline lit => BitVec.ofNat 8 ((lit.length - 1) <<< 2) :: lit
  | .lit1 lit => encodeLongLiteral 0xF0 1 lit
  | .lit2 lit => encodeLongLiteral 0xF4 2 lit
  | .lit3 lit => encodeLongLiteral 0xF8 3 lit
  | .lit4 lit => encodeLongLiteral 0xFC 4 lit
  | .copy1 offset len => [offset.extractLsb' 8 3 ++ len ++ 0b01#2, offset.extractLsb' 0 8]
  | .copy2 offset len => (len ++ 0b10#2) :: leBytes 2 offset.toNat
  | .copy4 offset len => (len ++ 0b11#2) :: leBytes 4 offset.toNat
  | .chunkStreamId payload => encodeChunk 0xFF payload
  | .chunkCompressed crc data => encodeChunk 0x00 (leBytes 4 crc.toNat ++ data)
  | .chunkUncompressed crc data => encodeChunk 0x01 (leBytes 4 crc.toNat ++ data)

/-- The layer the host's table word is read in: one of 32 bits is a command; any other is an element, but for 0xFF, which is the
stream identifier's type. The first bytes 0x00 and 0x01 begin both an element and a data chunk; DESIGN CHOICE (log 14). -/
def tableLayer (nbits w : Nat) : Layer :=
  if nbits = 0 ∨ 24 < nbits ∧ nbits ≤ 32 then .command
  else if w % 256 = 0xFF then .chunk
  else .element

/-- How many zero bytes may follow a table word: enough for the literal its length bits can ask for. -/
def tablePad (nbits : Nat) : Nat := if nbits ≤ 8 then 64 else if nbits ≤ 16 then 256 else 65536

/-- The bytes of a table word, first byte first: `nbits` bits of `w`, then zeros. -/
def tableBytes (nbits w : Nat) : List Byte :=
  leBytes (max 4 ((nbits + 7) / 8)) (if nbits = 0 then w else w % 2 ^ nbits) ++ List.replicate (tablePad nbits) 0

/-- The instruction the decoder reads from a table word (log 14). -/
def decodeTableWord (nbits w : Nat) : Option Instr :=
  match decode (tableLayer nbits w) (tableBytes nbits w) with
  | .ok i _ => some i
  | .reject _ => none

end Sys2Proof
end

