-- ==== Sys2Proof/Machine/State.lean ====
section
/-! DEFINITION. The state of the machine as plain data: the CSRs (10 R20 to R38), the writer (10 R30), the internal memories
and registers (10 R40 to R44), the engine's control state (10 R45), host memory (20 R61), the sink port (20 R70), the marks
(00 R18), the reader of 30 R105, and the schedule of what happens next. -/

namespace Sys2Proof.Machine

/-- `WSTATE` (10 R28, R30). -/
inductive WState where
  | fresh
  | streaming
  | errored
  | closed
deriving DecidableEq, Repr

/-- The result codes of 60 R230; no reserved code is ever produced. -/
inductive ResultCode where
  | ok
  | illegalCmd
  | address
  | tooLarge
  | dstTooSmall
  | overlap
  | closed
  | sink
deriving DecidableEq, Repr

/-- The writer state (10 R30). -/
structure Writer where
  wstate : WState
  wmode : WriterMode
  hdr : Bool
  ibuf : List Byte
  sinkErr : Word
deriving DecidableEq, Repr

/-- What the host can see of the writer: the fields of `STATUS` and `SINK_ERR`, `IBUF_LEN` (10 R28, R37, R38). -/
structure WriterView where
  wstate : WState
  wmode : WriterMode
  hdr : Bool
  sinkErr : Word
  ibufLen : Nat
deriving DecidableEq, Repr

/-- The argument latch (10 R40). -/
structure Args where
  opcode : BitVec 8
  mode : BitVec 1
  srcAddr : Word
  srcLen : Word
  dstAddr : Word
  dstCap : Word
deriving DecidableEq, Repr

/-- The hash table `TABLE` (10 R41): the slots that do not hold 0, by rising slot number. -/
abbrev Table := List (Nat × BitVec 16)

/-- The datapath registers (10 R44), not host-visible. -/
structure Datapath where
  s : Word
  nextS : Word
  nextEmit : Word
  skip : Word
  candidate : Word
  base : Word
  i : Word
  shift : Word
  sLimit : Word
  d : Word
deriving DecidableEq, Repr

/-- Host memory (20 R61): the bytes that differ from what an unlisted byte reads as, by rising address. -/
abbrev Memory := List Host.Cell

/-- The nonzero 32-bit code of an `ERR(code)` response (20 R70). -/
structure SinkCode where
  val : Word
  nonzero : val ≠ 0
deriving DecidableEq, Repr

/-- The sink's answer to one transfer (20 R70 to R72): on an error, how many of the transfer's bytes it had consumed. -/
inductive SinkAnswer where
  | ok
  | err (code : SinkCode) (consumed : Nat)
deriving DecidableEq, Repr

/-- How a transfer ended: answered, or abandoned by hardware reset after some prefix was delivered (70 R261). -/
inductive TransferEnd where
  | answered (a : SinkAnswer)
  | abandoned (consumed : Nat)
deriving DecidableEq, Repr

/-- The sink port's record (00 R17): the transfers with their responses, and where a new stream begins (30 R113). -/
inductive SinkEvent where
  | newStream
  | transfer (bytes : List Byte) (ending : TransferEnd)
deriving DecidableEq, Repr

/-- What a command does once the sink has answered the chunk it awaits (42 R207 to R213). -/
inductive After where
  /-- WRITE: the input left, the bytes absorbed so far, the bytes this chunk adds if it succeeds, and whether the rest is
  framed directly (42 R207, R210) or through the buffer (42 R208). -/
  | write (rest : List Byte) (absorbed gain : Nat) (direct : Bool)
  | flush
  | close
deriving DecidableEq, Repr

/-- A transfer offered to the sink and not yet answered (20 R70), with the second transfer of a split chunk still to come (`[]`
when there is none, 42 R202). -/
structure Pending where
  bytes : List Byte
  payload : List Byte
  after : After
deriving DecidableEq, Repr

/-- Where a matcher run stands (10 R45, 41 R174): entering Phase A, in its loop, in Phase B or C, at the tail, or over. -/
inductive Phase where
  | enterA
  | probe
  | b
  | c
  | tail
  | ended
deriving DecidableEq, Repr

/-- The matcher's registers during a run, as numbers that do not wrap (10 R44, 41 R172; log 28), its table and the elements
emitted so far. -/
structure Matcher where
  phase : Phase
  s : Nat
  nextS : Nat
  nextEmit : Nat
  skip : Nat
  candidate : Nat
  base : Nat
  i : Nat
  table : Table
  out : List Instr
deriving DecidableEq, Repr

/-- A matcher run in progress: its segment, its registers, and the turns left of its bound (log 20). -/
structure Run where
  seg : List Byte
  matcher : Matcher
  turns : Nat
deriving DecidableEq, Repr

/-- `encode(src)` in progress (41 R166): the input's length, the elements of the segments done, the input not yet cut, and the
matcher run of the segment at hand, if it has one. -/
structure EncodeProgress where
  len : Nat
  elements : List Instr
  rest : List Byte
  run : Option Run
deriving DecidableEq, Repr

/-- The engine's control state: `IDLE`, or `EXEC` with its progress (10 R45). -/
inductive Ctrl where
  | idle
  /-- The start of the command the argument latch holds. -/
  | accepted
  /-- ENCODE, in a segment of its source (41 R180). -/
  | encoding (e : EncodeProgress)
  /-- A command of the writer, in the encoding of a chunk of bytes `u` (42 R201). -/
  | framing (u : List Byte) (after : After) (e : EncodeProgress)
  /-- The header of a split chunk was taken, and its payload is to be offered (42 R202). -/
  | sending (payload : List Byte) (after : After)
  /-- The engine's only wait: a transfer is offered and not yet answered (00 R16, 20 R70). -/
  | waiting (p : Pending)
  /-- A WRITE begins, or the sink has taken a command's chunk, and the rule goes on (42 R207 to R213). -/
  | resuming (after : After)
deriving DecidableEq, Repr

/-- What the reader takes its input for: the elements of one encoded block (30 R107), or the chunks of a framed stream
(30 R113). -/
inductive ReaderMode where
  | block
  | stream
deriving DecidableEq, Repr

/-- The conforming decoder of 00 R2 and 30 R105: the bytes not yet read, the decoded output `out`, whether the stream
identifier was seen (30 R113), and whether an element was read that the engine never emits (30 R116). -/
structure Reader where
  mode : ReaderMode
  input : List Byte
  out : List Byte
  headed : Bool
  neverEmitted : Bool
deriving DecidableEq, Repr

/-- The width of a host access to the CSR window (20 R66). -/
inductive AccessWidth where
  | byte
  | half
  | word
  | double
deriving DecidableEq, Repr

/-- One step of the host: an access to the CSR window's part of the address space (20 R66) or to one byte of host memory
(20 R61). -/
inductive HostOp where
  | csrLoad (addr : Word) (width : AccessWidth)
  | csrStore (addr : Word) (width : AccessWidth) (value : Word)
  | memLoad (addr : Word)
  | memStore (addr : Word) (value : Byte)
deriving DecidableEq, Repr

/-- What a hardware reset leaves open when it abandons a command (70 R261): how much of a pending transfer was delivered, and
which bytes of ENCODE's destination range had already been written, by index. -/
structure ResetDraw where
  consumed : Nat
  written : List Nat
deriving DecidableEq, Repr

/-- One scheduled step of one agent (00 R16, 70 R260). -/
inductive Event where
  /-- The host makes an access. -/
  | host (op : HostOp)
  /-- The engine runs on to its `finish` or to a transfer without an answer (log 6). -/
  | engine
  /-- The engine takes one small step of its rule (10 R45; log 6). -/
  | tick
  /-- The sink gives its next answer. -/
  | sink (a : SinkAnswer)
  /-- Hardware reset. -/
  | hardReset (d : ResetDraw)
  /-- The reader is given bytes to read. -/
  | readerOpen (mode : ReaderMode) (bytes : List Byte)
  /-- The reader reads its next element or chunk. -/
  | reader
deriving DecidableEq, Repr

/-- The whole machine. -/
structure State where
  /-- The parameters of 00 R8; no step changes them (log 1). -/
  params : Params
  /-- `CTRL.IRQ_EN` (10 R22). -/
  irqEn : Bool
  /-- `STATUS.DONE` (10 R26). -/
  done : Bool
  /-- `STATUS.CMD_OVERRUN` (10 R27). -/
  cmdOverrun : Bool
  /-- `STATUS.RESULT_CODE` (10 R29). -/
  resultCode : ResultCode
  /-- `SRC_ADDR` (10 R32). -/
  srcAddr : Word
  /-- `SRC_LEN` (10 R33). -/
  srcLen : Word
  /-- `DST_ADDR` (10 R34). -/
  dstAddr : Word
  /-- `DST_CAP` (10 R35). -/
  dstCap : Word
  /-- `RESULT` (10 R36). -/
  result : Word
  /-- `WSTATE`, `WMODE`, `HDR`, `IBUF`, `SINK_ERR` (10 R30, R37, R42). -/
  writer : Writer
  /-- `ARGS` (10 R40). -/
  args : Args
  /-- `TABLE` (10 R41). -/
  table : Table
  /-- `OBUF` (10 R43). -/
  obuf : List Byte
  /-- The datapath registers (10 R44). -/
  dp : Datapath
  /-- The engine's control state (10 R45). `STATUS.BUSY` is computed from it (10 R25). -/
  ctrl : Ctrl
  /-- Host memory (20 R61). -/
  mem : Memory
  /-- The sink transfers with their responses (00 R17). -/
  sinkLog : List SinkEvent
  /-- The refusal mark (00 R18, 20 R66). -/
  refusalMark : Bool
  /-- The race mark (00 R18, 70 R270). -/
  raceMark : Bool
  /-- The reader (30 R105). -/
  reader : Reader
  /-- The model's own: the value of the last host load (log 17). -/
  busData : Word
  /-- The model's own: the sink's answers the engine has not yet taken, in order (log 5). -/
  answers : List SinkAnswer
  /-- The model's own: the running command's source range was written by the host (log 9). -/
  raced : Bool
  /-- The model's own: destination bytes of the running ENCODE that the host wrote (log 9). -/
  racedBytes : List Nat
  /-- The model's own: where the running command's transfers begin in the sink's record (log 9). -/
  logMark : Nat
  /-- The model's own: what the writer has looked like since the last acceptance, oldest first (log 8). -/
  trail : List WriterView
  /-- The model's own: the schedule, next step first (log 4). -/
  events : List Event
  /-- The model's own: how many free values have been drawn (log 22). -/
  draws : Nat
deriving DecidableEq, Repr

/-- Why a step has no next state. -/
inductive Fault where
  /-- Raised by the step when a transfer is pending, the sink has given no answer and nothing is scheduled: the stuck outcome
  (00 R18, 20 R73). Safe. -/
  | stuckOnSink
  /-- Raised by the reader when its input is no element or chunk, or does not begin with a varint (30 R107). Safe. -/
  | unreadable
  /-- Raised by a copy whose offset is 0 or reaches before the decoded output (30 R105). Safe. -/
  | copyOutOfRange
  /-- Raised by a stream-identifier chunk with another payload (30 R109). Safe. -/
  | badStreamId
  /-- Raised by a second stream identifier on one stream (30 R113). Safe. -/
  | repeatedStreamId
  /-- Raised by a data chunk before the stream identifier (30 R113). Safe. -/
  | missingStreamId
  /-- Raised by a compressed chunk whose data is no valid encoded block (30 R107, R110). Safe. -/
  | badBlock
  /-- Raised by a data chunk whose uncompressed bytes do not have the CRC it holds (42 R194). Safe. -/
  | crcMismatch
deriving DecidableEq, Repr

/-- Why an instruction has no meaning. -/
inductive Refusal where
  /-- Raised by the dispatch for an instruction not modelled yet. Safe. -/
  | notModelled (mnemonic : String)
deriving DecidableEq, Repr

/-- The writer after hardware reset (10 R49). -/
def Writer.reset : Writer where
  wstate := .fresh
  wmode := .unbuffered
  hdr := false
  ibuf := []
  sinkErr := 0

/-- DESIGN CHOICE (log 3): the spec leaves `ARGS` unspecified after reset, and never reads it before an acceptance. -/
def Args.zero : Args := ⟨0, 0, 0, 0, 0, 0⟩

/-- DESIGN CHOICE (log 3): the spec leaves the datapath registers unspecified after reset, and never observable. -/
def Datapath.zero : Datapath := ⟨0, 0, 0, 0, 0, 0, 0, 0, 0, 0⟩

/-- DESIGN CHOICE (log 12): the reader starts with nothing to read; its `out` is initially `[]` (30 R105). -/
def Reader.reset : Reader := ⟨.block, [], [], false, false⟩

/-- The machine after hardware reset (10 R49), with the parameters of log 1, no host memory listed (log 2), nothing on the sink
port and nothing scheduled (log 4). -/
def State.reset : State where
  params := Params.default
  irqEn := false
  done := false
  cmdOverrun := false
  resultCode := .ok
  srcAddr := 0
  srcLen := 0
  dstAddr := 0
  dstCap := 0
  result := 0
  writer := Writer.reset
  args := Args.zero
  table := []
  obuf := []
  dp := Datapath.zero
  ctrl := .idle
  mem := []
  sinkLog := []
  refusalMark := false
  raceMark := false
  reader := Reader.reset
  busData := 0
  answers := []
  raced := false
  racedBytes := []
  logMark := 0
  trail := []
  events := []
  draws := 0

end Sys2Proof.Machine
end

