-- ==== Sys2Proof/Machine/Ops.lean ====
section
/-! DEFINITION. The named operations every meaning is built from: sparse cells in canonical form, host memory, the hash table,
free values, the writer's updates, the acceptance of a command (60 R235) and its completion (60 R236). The engine raises no
exception (60 R238): acceptance is its one shared entry and `finish` its one shared exit, with or without an error code. -/

namespace Sys2Proof.Machine

/-! ### Sparse cells in one canonical form -/

/-- The value at a key: `dflt` where no cell is listed. -/
def cellsGet {α : Type} (dflt : α) : List (Nat × α) → Nat → α
  | [], _ => dflt
  | (k, v) :: cells, a => if k = a then v else cellsGet dflt cells a

/-- Stores a value, keeping the keys rising and listing no cell that holds `dflt`. -/
def cellsPut {α : Type} [DecidableEq α] (dflt : α) : List (Nat × α) → Nat → α → List (Nat × α)
  | [], a, v => if v = dflt then [] else [(a, v)]
  | (k, w) :: cells, a, v =>
    if k < a then (k, w) :: cellsPut dflt cells a v
    else if k = a then (if v = dflt then cells else (a, v) :: cells)
    else if v = dflt then (k, w) :: cells else (a, v) :: (k, w) :: cells

/-- The canonical form: keys strictly rising, no cell holding `dflt`. -/
abbrev CellsWf {α : Type} (dflt : α) (cells : List (Nat × α)) : Prop :=
  cells.Pairwise (fun x y => x.1 < y.1) ∧ ∀ c ∈ cells, c.2 ≠ dflt

/-! ### Host memory (20 R61) -/

/-- What a byte of host memory that nothing has written reads as. DESIGN CHOICE, unsafe (log 2). -/
def unlistedByte : Byte := 0

/-- `HM[a]`. -/
def memGet (m : Memory) (a : Nat) : Byte := cellsGet unlistedByte m a

/-- `HM[a] <- b`. -/
def memPut (m : Memory) (a : Nat) (b : Byte) : Memory := cellsPut unlistedByte m a b

/-- The memory is in its canonical form. -/
abbrev Memory.wf (m : Memory) : Prop := CellsWf unlistedByte m

/-- `MemRead(a, n)` (20 R61). -/
def memRead (m : Memory) (a n : Nat) : List Byte := (List.range n).map fun k => memGet m (a + k)

/-- `MemWrite(a, n, b)` (20 R61). -/
def memWrite (m : Memory) (a : Nat) : List Byte → Memory
  | [] => m
  | b :: bs => memWrite (memPut m a b) (a + 1) bs

/-! ### The hash table (10 R41) -/

/-- `TABLE[k]`. -/
def tableGet (t : Table) (k : Nat) : Nat := (cellsGet 0 t k).toNat

/-- `TABLE[k] <- v`, a 16-bit slot. -/
def tablePut (t : Table) (k v : Nat) : Table := cellsPut 0 t k (BitVec.ofNat 16 v)

/-- `for k in 0 .. n-1: TABLE[k] <- 0` (41 R168). -/
def tableClear (t : Table) (n : Nat) : Table := t.filter fun c => n ≤ c.1

/-- The table is in its canonical form and lists only slots it has. -/
abbrev Table.wf (t : Table) : Prop := CellsWf 0 t ∧ ∀ c ∈ t, c.1 < Config.maxTableSize

/-! ### Free values (log 22) -/

/-- Draws `n` free bytes. -/
def drawBytes (n : Nat) (s : State) : List Byte × State :=
  ((List.range n).map fun k => Config.freeByte (s.draws + k), { s with draws := s.draws + n })

/-- Draws a free word. -/
def drawWord (s : State) : Word × State := (Config.freeWord s.draws, { s with draws := s.draws + 1 })

/-- Draws a free number below `n` (0 when `n` is 0). -/
def drawBelow (n : Nat) (s : State) : Nat × State := (Config.freeNat s.draws % n, { s with draws := s.draws + 1 })

/-! ### The writer -/

/-- What the host can see of the writer (10 R28, R37, R38). -/
def Writer.view (w : Writer) : WriterView := ⟨w.wstate, w.wmode, w.hdr, w.sinkErr, w.ibuf.length⟩

/-- Updates the writer and adds what it now looks like to the trail (10 R28, log 8). -/
def State.setWriter (s : State) (w : Writer) : State := { s with writer := w, trail := s.trail ++ [w.view] }

/-- `WSTATE <- v`. -/
def State.setWState (s : State) (v : WState) : State := s.setWriter { s.writer with wstate := v }

/-- `WMODE <- v`. -/
def State.setWMode (s : State) (v : WriterMode) : State := s.setWriter { s.writer with wmode := v }

/-- `HDR <- v`. -/
def State.setHdr (s : State) (v : Bool) : State := s.setWriter { s.writer with hdr := v }

/-- `IBUF <- v`. -/
def State.setIbuf (s : State) (v : List Byte) : State := s.setWriter { s.writer with ibuf := v }

/-- `SINK_ERR <- v`. -/
def State.setSinkErr (s : State) (v : Word) : State := s.setWriter { s.writer with sinkErr := v }

/-- The engine's memories and registers after a run of the encoder (41 R166, R168). -/
def State.setInternals (s : State) (t : Table) (dp : Datapath) : State := { s with table := t, dp := dp }

/-- Adds to the sink port's record. -/
def State.logSink (s : State) (e : SinkEvent) : State := { s with sinkLog := s.sinkLog ++ [e] }

/-! ### Acceptance and completion -/

/-- The acceptance of a word, up to the command's own rule (60 R235): the argument latch is filled, `DONE` cleared, `BUSY` set. -/
def accept (w : Word) (s : State) : State :=
  { s with
    args := ⟨w.extractLsb' 0 8, w.extractLsb' 8 1, s.srcAddr, s.srcLen, s.dstAddr, s.dstCap⟩
    done := false
    ctrl := .accepted
    raced := false
    racedBytes := []
    logMark := s.sinkLog.length
    trail := [s.writer.view] }

/-- `finish(code, result)`, one atomic step (60 R236): `BUSY` is cleared because the control state is `IDLE` (10 R25). -/
def finish (code : ResultCode) (result : Word) (s : State) : State :=
  { s with result := result, resultCode := code, done := true, ctrl := .idle }

/-- `finish` of a command with a source range: after a race `RESULT` is a draw (70 R270; log 24). -/
def finishData (code : ResultCode) (result : Nat) (s : State) : State :=
  if s.raced then finish code (drawWord s).1 (drawWord s).2 else finish code (BitVec.ofNat 32 result) s

end Sys2Proof.Machine
end

