-- ==== Sys2Proof/Machine/Operands.lean ====
section
/-! DEFINITION. Where operands come from (30 R93, R117): the latched command and its host-memory ranges (20 R62, R63), the
address forms of a host access (10 R20, 20 R66), and the written forms of commands (30 R117). -/

namespace Sys2Proof.Machine

/-! ### The latched command -/

/-- The accepted word, as far as the latch keeps it: `OPCODE` and `MODE` (10 R40). A legal word has no other bit (30 R90). -/
def Args.word (a : Args) : Word := (0 : BitVec 23) ++ a.mode ++ a.opcode

/-- The command the latch holds. -/
def Args.instr (a : Args) : Instr := decodeCommand a.word

/-! ### Ranges of host memory -/

/-- A range `(a, n)` is valid: `a + n ≤ HOST_MEM_SIZE` in exact arithmetic, and any range of no bytes is (20 R62). -/
def rangeValid (p : Params) (a : Word) (n : Nat) : Bool := n = 0 || a.toNat + n ≤ p.hostMemSize

/-- Two ranges intersect (41 R180). -/
def overlap (a : Word) (n : Nat) (b : Word) (c : Nat) : Bool := a.toNat < b.toNat + c && b.toNat < a.toNat + n

/-- The address lies in the range `(a, n)`. -/
def inRange (x : Nat) (a : Word) (n : Nat) : Bool := a.toNat ≤ x && x < a.toNat + n

/-- The latched command reads its source range (20 R63). -/
def Args.readsSource (a : Args) : Bool := a.instr = .encode || a.instr = .write

/-- The latched command writes its destination range (20 R63). -/
def Args.writesDest (a : Args) : Bool := a.instr = .encode

/-! ### CSR addresses -/

/-- How many bytes an access covers. -/
def AccessWidth.bytes : AccessWidth → Nat
  | .byte => 1
  | .half => 2
  | .word => 4
  | .double => 8

/-- The offset of an address from `CSR_BASE` (10 R20). -/
def csrOffset (p : Params) (addr : Word) : Nat := (addr - p.csrBase).toNat

/-- Some byte of the access lies in the 256-byte window. -/
def touchesWindow (p : Params) (addr : Word) (w : AccessWidth) : Bool :=
  (List.range w.bytes).any fun k => csrOffset p (addr + BitVec.ofNat 32 k) < 256

/-- "A host access to the CSR window must be a 32-bit load or store at an offset that is a multiple of 4." (20 R66) -/
def csrAccessDefined (p : Params) (addr : Word) (w : AccessWidth) : Bool :=
  w = .word && csrOffset p addr < 256 && csrOffset p addr % 4 = 0

/-! ### Written forms (30 R117) -/

/-- A command as this spec writes it. `WAIT` is a pseudo-form whose expansion repeats; it is one poll here. -/
inductive WrittenForm where
  | encode (src len dst cap : Word)
  | maxlen (n : Word)
  | initWriter (mode : WriterMode)
  | write (src len : Word)
  | flush
  | close
  | resetStream
  | waitPoll
  | ack
deriving DecidableEq, Repr

/-- A 32-bit store to the CSR at an offset. -/
def csrWrite (p : Params) (offset : Nat) (v : Word) : HostOp := .csrStore (p.csrBase + BitVec.ofNat 32 offset) .word v

/-- The CSR accesses a written form stands for (30 R117). -/
def WrittenForm.expand (p : Params) : WrittenForm → List HostOp
  | .encode src len dst cap =>
    [csrWrite p 0x14 src, csrWrite p 0x18 len, csrWrite p 0x1C dst, csrWrite p 0x20 cap, csrWrite p 0x0C 0x00000001]
  | .maxlen n => [csrWrite p 0x18 n, csrWrite p 0x0C 0x00000002]
  | .initWriter .unbuffered => [csrWrite p 0x0C 0x00000010]
  | .initWriter .buffered => [csrWrite p 0x0C 0x00000110]
  | .write src len => [csrWrite p 0x14 src, csrWrite p 0x18 len, csrWrite p 0x0C 0x00000011]
  | .flush => [csrWrite p 0x0C 0x00000012]
  | .close => [csrWrite p 0x0C 0x00000013]
  | .resetStream => [csrWrite p 0x0C 0x00000014]
  | .waitPoll => [.csrLoad (p.csrBase + 0x10) .word]
  | .ack => [csrWrite p 0x10 0x00000002]

end Sys2Proof.Machine
end

