-- ==== Sys2Proof/Machine/Flags.lean ====
section
/-! DEFINITION. The flags and what the CSRs read as: `BUSY` (10 R25), the result codes (60 R230), `STATUS` (10 R24), the interrupt
output (60 R237), and the read value of every offset of the window (10 R20 to R39). -/

namespace Sys2Proof.Machine

/-- The number of a result code (60 R230). -/
def ResultCode.code : ResultCode → BitVec 8
  | .ok => 0x00
  | .illegalCmd => 0x01
  | .address => 0x02
  | .tooLarge => 0x03
  | .dstTooSmall => 0x04
  | .overlap => 0x05
  | .closed => 0x06
  | .sink => 0x07

/-- `WSTATE` encodes Fresh = 0, Streaming = 1, Errored = 2, Closed = 3 (10 R28). -/
def WState.code : WState → BitVec 2
  | .fresh => 0
  | .streaming => 1
  | .errored => 2
  | .closed => 3

/-- `WMODE` = 1 means buffered (10 R28). -/
def modeBit : WriterMode → BitVec 1
  | .unbuffered => 0
  | .buffered => 1

/-- `STATUS.BUSY`: 1 from the acceptance of a command until its `finish` (10 R25). -/
def State.busy (s : State) : Bool := s.ctrl ≠ .idle

/-- `IRQ = STATUS.DONE & CTRL.IRQ_EN` (60 R237). -/
def State.irq (s : State) : Bool := s.done && s.irqEn

/-- The word `STATUS` reads as (10 R24), most significant field first, with the writer fields of a view. -/
def statusWord (s : State) (v : WriterView) : Word :=
  (0 : BitVec 16) ++ s.resultCode.code ++ BitVec.ofBool v.hdr ++ modeBit v.wmode ++ v.wstate.code ++ (0 : BitVec 1)
    ++ BitVec.ofBool s.cmdOverrun ++ BitVec.ofBool s.done ++ BitVec.ofBool s.busy

/-- The word a CSR reads as, the writer's part of it taken from a view (10 R20). -/
def csrValue (s : State) (v : WriterView) (offset : Nat) : Word :=
  if offset = 0x00 then 0x59504E53
  else if offset = 0x04 then 0x00000001
  else if offset = 0x08 then (BitVec.ofBool s.irqEn).setWidth 32
  else if offset = 0x10 then statusWord s v
  else if offset = 0x14 then s.srcAddr
  else if offset = 0x18 then s.srcLen
  else if offset = 0x1C then s.dstAddr
  else if offset = 0x20 then s.dstCap
  else if offset = 0x24 then s.result
  else if offset = 0x28 then v.sinkErr
  else if offset = 0x2C then (BitVec.ofNat 17 v.ibufLen).setWidth 32
  else 0

/-- `STATUS` as it stands. -/
def State.status (s : State) : Word := statusWord s s.writer.view

/-- The effect of a word on a CSR other than `CMD` (10 R20 to R39): read-only and reserved offsets ignore it. -/
def csrStoreValue (offset : Nat) (w : Word) (s : State) : State :=
  if offset = 0x08 then { s with irqEn := w.getLsbD 0 }
  else if offset = 0x10 then { s with done := s.done && !w.getLsbD 1, cmdOverrun := s.cmdOverrun && !w.getLsbD 2 }
  else if offset = 0x14 then { s with srcAddr := w }
  else if offset = 0x18 then { s with srcLen := w }
  else if offset = 0x1C then { s with dstAddr := w }
  else if offset = 0x20 then { s with dstCap := w }
  else s

end Sys2Proof.Machine
end

