-- ==== Sys2Proof/Machine/Emitters.lean ====
section
/-! DEFINITION. The leaf units (file 40): the literal-run emitter, the copy-reference emitter and the varint encoder. An emitter
gives the elements it appends; their bytes are the encoder's (Decode.lean). -/

namespace Sys2Proof.Machine

/-- The literal element of a run: "Chooses the shortest tag encoding for `n = len(lit) - 1`" (40 R130). -/
def literalElement (lit : List Byte) : Instr :=
  if lit.length - 1 < 60 then .litInline lit
  else if lit.length - 1 < 256 then .lit1 lit
  else .lit2 lit

/-- `emit_literal(lit)` (40 R130). -/
def emitLiteral (lit : List Byte) : List Byte := encodeInstr (literalElement lit)

/-- The `COPY_2` element of an offset and a length (30 R103). -/
def copy2Element (offset length : Nat) : Instr := .copy2 (BitVec.ofNat 16 offset) (BitVec.ofNat 6 (length - 1))

/-- The final element of a copy (40 R132, R133). -/
def finalCopy (offset length : Nat) : Instr :=
  if 12 ≤ length ∨ 2048 ≤ offset then copy2Element offset length
  else .copy1 (BitVec.ofNat 11 offset) (BitVec.ofNat 3 (length - 4))

/-- After the length-64 loop: the length-60 peel and the final element (40 R132). -/
def lastCopies (offset length : Nat) : List Instr :=
  if 64 < length then [copy2Element offset 60, finalCopy offset (length - 60)] else [finalCopy offset length]

/-- The length-64 loop of 40 R132; the first argument bounds its turns. -/
def copyLoop : Nat → Nat → Nat → List Instr
  | 0, offset, length => lastCopies offset length
  | n + 1, offset, length =>
    if 68 ≤ length then copy2Element offset 64 :: copyLoop n offset (length - 64) else lastCopies offset length

/-- The elements of `emit_copy(offset, length)` (40 R132). -/
def copyElements (offset length : Nat) : List Instr := copyLoop (length / 64) offset length

/-- `emit_copy(offset, length)` (40 R132). -/
def emitCopy (offset length : Nat) : List Byte := (copyElements offset length).flatMap encodeInstr

/-- The loop of 40 R140; the first argument bounds its turns. -/
def varintLoop : Nat → Nat → List Byte
  | 0, n => [BitVec.ofNat 8 n]
  | k + 1, n => if 0x80 ≤ n then BitVec.ofNat 8 (n % 0x80 + 0x80) :: varintLoop k (n / 0x80) else [BitVec.ofNat 8 n]

/-- `put_varint(n)` for n < 2^32, at most five bytes (40 R140, R141). -/
def putVarint (n : Nat) : List Byte := varintLoop 4 n

end Sys2Proof.Machine
end

