-- ==== Sys2Proof/Machine/Matcher.lean ====
section
/-! DEFINITION. The hash-table matcher and the block driver (file 41, R150 to R175). Positions are numbers: no register wraps
(41 R172, 92 D42). -/

namespace Sys2Proof.Machine

/-- `max_encoded_len(n)` in exact arithmetic; `none` is the source's −1 (41 R150). -/
def maxEncodedLen (n : Nat) : Option Nat :=
  if 2 ^ 32 - 1 < n then none
  else if 2 ^ 32 - 1 < 32 + n + n / 6 then none
  else some (32 + n + n / 6)

/-- `load_le_u32(seg, i)` (00 R11). The matcher only asks where four bytes stand (41 R153, R172); log 21. -/
def loadLe32 (seg : List Byte) (i : Nat) : Word :=
  match seg.drop i with
  | a :: b :: c :: d :: _ => d ++ c ++ b ++ a
  | _ => 0

/-- `hash(u, shift)`: the product modulo 2^32, then the shift (41 R152). -/
def hash (u : Word) (shift : Nat) : Nat := ((u * Config.hashMultiplier) >>> shift).toNat

/-- log2 of `tsize(L)` (41 R157): `FLOOR`, the largest power of two not exceeding L; `CEIL`, the smallest not below it; both
within 256 .. 16384. -/
def tableBits (rule : TableSizeRule) (len : Nat) : Nat :=
  match rule with
  | .floor => max 8 (min 14 (Nat.log2 len))
  | .ceil => max 8 (min 14 (Nat.log2 (len - 1) + 1))

/-- `tsize(L)` (41 R157). -/
def tsize (rule : TableSizeRule) (len : Nat) : Nat := 2 ^ tableBits rule len

/-- `shift = 32 - log2(tsize(L))` (41 R157). -/
def tableShift (rule : TableSizeRule) (len : Nat) : Nat := 32 - tableBits rule len

/-- What a run keeps fixed: the segment and its shift (41 R167, R168). -/
structure Segment where
  bytes : List Byte
  shift : Nat
deriving DecidableEq, Repr

/-- `s_limit = L − 15` (41 R167). -/
def Segment.limit (g : Segment) : Nat := g.bytes.length - Config.inputMargin

/-- The bytes `seg[a..b]` (00 R11). -/
def Segment.slice (g : Segment) (a b : Nat) : List Byte := (g.bytes.drop a).take (b - a)

/-- The slot the window at a position hashes to. -/
def Segment.slot (g : Segment) (pos : Nat) : Nat := hash (loadLe32 g.bytes pos) g.shift

/-- The four bytes at two positions are equal. -/
def Segment.sameWindow (g : Segment) (a b : Nat) : Bool := loadLe32 g.bytes a = loadLe32 g.bytes b

/-- How many bytes two sequences agree on from their start: the extension loop of 41 R170. -/
def matchLength : List Byte → List Byte → Nat
  | x :: xs, y :: ys => if x = y then matchLength xs ys + 1 else 0
  | _, _ => 0

/-- Entering Phase A: `skip = 32`, `next_s = s` (41 R169). -/
def stepEnterA (m : Matcher) : Matcher := { m with skip := Config.initialSkip, nextS := m.s, phase := .probe }

/-- One turn of Phase A's loop; on a match the pending literal is emitted (41 R169). -/
def stepProbe (g : Segment) (m : Matcher) : Matcher :=
  let s := m.nextS
  let nextS := s + m.skip / 32
  let skip := m.skip + m.skip / 32
  if g.limit < nextS then { m with s := s, nextS := nextS, skip := skip, phase := .tail }
  else
    let candidate := tableGet m.table (g.slot s)
    let table := tablePut m.table (g.slot s) s
    if g.sameWindow s candidate then
      { m with s := s, nextS := nextS, skip := skip, candidate := candidate, table := table,
               out := m.out ++ [literalElement (g.slice m.nextEmit s)], phase := .b }
    else { m with s := s, nextS := nextS, skip := skip, candidate := candidate, table := table }

/-- Phase B: extend the match and emit the copy (41 R170). -/
def stepB (g : Segment) (m : Matcher) : Matcher :=
  let n := matchLength (g.bytes.drop (m.candidate + 4)) (g.bytes.drop (m.s + 4))
  let s := m.s + 4 + n
  { m with base := m.s, s := s, i := m.candidate + 4 + n, nextEmit := s,
           out := m.out ++ copyElements (m.s - m.candidate) (s - m.s),
           phase := if g.limit ≤ s then .tail else .c }

/-- Phase C: store `s − 1`, read the slot of `s`, store `s`, and try a chained copy (41 R171). -/
def stepC (g : Segment) (m : Matcher) : Matcher :=
  let table1 := tablePut m.table (g.slot (m.s - 1)) (m.s - 1)
  let candidate := tableGet table1 (g.slot m.s)
  let table2 := tablePut table1 (g.slot m.s) m.s
  if g.sameWindow m.s candidate then { m with candidate := candidate, table := table2, phase := .b }
  else { m with candidate := candidate, table := table2, s := m.s + 1, phase := .enterA }

/-- The tail literal, if any (41 R173). -/
def stepTail (g : Segment) (m : Matcher) : Matcher :=
  { m with out := if m.nextEmit < g.bytes.length then m.out ++ [literalElement (g.slice m.nextEmit g.bytes.length)] else m.out,
           phase := .ended }

/-- One step of a matcher run (41 R174). -/
def stepMatcher (g : Segment) (m : Matcher) : Matcher :=
  match m.phase with
  | .enterA => stepEnterA m
  | .probe => stepProbe g m
  | .b => stepB g m
  | .c => stepC g m
  | .tail => stepTail g m
  | .ended => m

/-- The run, its steps bounded by the first argument (41 R174); log 20. -/
def runMatcher (g : Segment) : Nat → Matcher → Matcher
  | 0, m => if m.phase = .ended then m else stepTail g m
  | n + 1, m => if m.phase = .ended then m else runMatcher g n (stepMatcher g m)

/-- The steps a run of length `L` is given: at most `L` probes, and for each of at most `L / 4` copies a Phase B, a Phase C and
an entry to Phase A (41 R174). -/
def matcherBound (len : Nat) : Nat := 4 * len + 8

/-- Matcher initialisation (41 R168): the slots the run uses are zeroed. DESIGN CHOICE (log 28): `next_s`, `skip`, `candidate`,
`base` and `i`, which the rule does not set, start at 0. -/
def initMatcher (rule : TableSizeRule) (len : Nat) (table : Table) : Matcher where
  phase := .enterA
  s := 1
  nextS := 0
  nextEmit := 0
  skip := 0
  candidate := 0
  base := 0
  i := 0
  table := tableClear table (tsize rule len)
  out := []

/-- `encode_block(seg)` (41 R167 to R173). -/
def encodeBlock (rule : TableSizeRule) (seg : List Byte) (table : Table) : Matcher :=
  runMatcher ⟨seg, tableShift rule seg.length⟩ (matcherBound seg.length) (initMatcher rule seg.length table)

/-- The elements emitted so far, and the engine's memories and registers. -/
structure Encoding where
  elements : List Instr
  table : Table
  dp : Datapath
deriving DecidableEq, Repr

/-- A run's registers at their 32 bits (10 R44). DESIGN CHOICE (log 28): they keep a run's last values after it. -/
def Matcher.registers (m : Matcher) (shift limit : Nat) (d : Word) : Datapath where
  s := BitVec.ofNat 32 m.s
  nextS := BitVec.ofNat 32 m.nextS
  nextEmit := BitVec.ofNat 32 m.nextEmit
  skip := BitVec.ofNat 32 m.skip
  candidate := BitVec.ofNat 32 m.candidate
  base := BitVec.ofNat 32 m.base
  i := BitVec.ofNat 32 m.i
  shift := BitVec.ofNat 32 shift
  sLimit := BitVec.ofNat 32 limit
  d := d

/-- One segment: a literal when it is shorter than 17 bytes, else a matcher run (41 R166). -/
def encodeSegment (rule : TableSizeRule) (e : Encoding) (seg : List Byte) : Encoding :=
  if seg.length < Config.minNonLiteralBlockSize then { e with elements := e.elements ++ [literalElement seg] }
  else
    let m := encodeBlock rule seg e.table
    { elements := e.elements ++ m.out, table := m.table,
      dp := m.registers (tableShift rule seg.length) (seg.length - Config.inputMargin) e.dp.d }

/-- The pieces of at most 65536 bytes, in order; the first argument bounds their number (41 R166). -/
def segmentLoop : Nat → List Byte → List (List Byte)
  | 0, _ => []
  | n + 1, p => if p = [] then [] else p.take Config.maxBlockSize :: segmentLoop n (p.drop Config.maxBlockSize)

/-- The segments of an input, and the pieces an unbuffered WRITE frames (41 R166, 42 R207). -/
def segmentsOf (src : List Byte) : List (List Byte) := segmentLoop (src.length / Config.maxBlockSize + 1) src

/-- The encoded block of a list of elements (30 R94). -/
def blockBytes (len : Nat) (elements : List Instr) : List Byte := putVarint len ++ elements.flatMap encodeInstr

/-- The elements of `encode(src)`, and what the run leaves in the engine (41 R166). -/
def encodeRun (rule : TableSizeRule) (src : List Byte) (table : Table) (dp : Datapath) : Encoding :=
  (segmentsOf src).foldl (encodeSegment rule) ⟨[], table, dp⟩

/-- The bytes of `encode(src)`, and the engine's memories and registers after it; `d` counts the bytes produced (10 R44). -/
structure Encoded where
  bytes : List Byte
  table : Table
  dp : Datapath
deriving DecidableEq, Repr

/-- The encoded block of an input of `len` bytes, from its elements (41 R166). -/
def closeBlock (len : Nat) (e : Encoding) : Encoded :=
  let bytes := blockBytes len e.elements
  ⟨bytes, e.table, { e.dp with d := BitVec.ofNat 32 bytes.length }⟩

/-- `encode(src)` (41 R166), on the engine's table and registers. -/
def encodeSrc (rule : TableSizeRule) (src : List Byte) (table : Table) (dp : Datapath) : Encoded :=
  closeBlock src.length (encodeRun rule src table dp)

/-- `encode(src)` as a pure function of the source bytes (00 R13, R19). -/
def encodeBytes (rule : TableSizeRule) (src : List Byte) : List Byte := (encodeSrc rule src [] Datapath.zero).bytes

/-! ### The encoder in small steps (10 R45) -/

/-- `encode(src)` in progress, with the engine's table and registers. -/
structure Encoder where
  progress : EncodeProgress
  table : Table
  dp : Datapath
deriving DecidableEq, Repr

/-- The elements produced so far. -/
def EncodeProgress.produced (e : EncodeProgress) : List Instr :=
  match e.run with
  | none => e.elements
  | some r => e.elements ++ r.matcher.out

/-- Sets `d` to the bytes produced so far (10 R44). -/
def Encoder.count (x : Encoder) : Encoder :=
  { x with dp := { x.dp with d := BitVec.ofNat 32 (blockBytes x.progress.len x.progress.produced).length } }

/-- The start of `encode(src)`: its varint is put, and nothing is cut yet (41 R166). -/
def beginEncoder (src : List Byte) (table : Table) (dp : Datapath) : Encoder :=
  Encoder.count ⟨⟨src.length, [], src, none⟩, table, dp⟩

/-- All input is cut and no run is in progress. -/
def EncodeProgress.done (e : EncodeProgress) : Bool := e.run = none && e.rest = []

/-- The segment of a run (41 R167). -/
def Run.segment (rule : TableSizeRule) (r : Run) : Segment := ⟨r.seg, tableShift rule r.seg.length⟩

/-- The registers of a run (10 R44). -/
def Run.registers (rule : TableSizeRule) (r : Run) (d : Word) : Datapath :=
  r.matcher.registers (tableShift rule r.seg.length) (r.seg.length - Config.inputMargin) d

/-- Puts a run at its place, and the table and the registers at what it holds. -/
def Encoder.setRun (rule : TableSizeRule) (x : Encoder) (r : Run) : Encoder :=
  ⟨{ x.progress with run := some r }, r.matcher.table, r.registers rule x.dp.d⟩

/-- Cuts the next segment: a short one becomes a literal, any other begins a matcher run (41 R166, R168). -/
def cutSegment (rule : TableSizeRule) (x : Encoder) : Encoder :=
  let seg := x.progress.rest.take Config.maxBlockSize
  let cut : Encoder := { x with progress := { x.progress with rest := x.progress.rest.drop Config.maxBlockSize } }
  if x.progress.rest = [] then x
  else if seg.length < Config.minNonLiteralBlockSize then
    { cut with progress := { cut.progress with elements := cut.progress.elements ++ [literalElement seg] } }
  else cut.setRun rule ⟨seg, initMatcher rule seg.length x.table, matcherBound seg.length⟩

/-- One step of a run (41 R174). -/
def stepRun (rule : TableSizeRule) (r : Run) : Run :=
  match r.turns with
  | 0 => { r with matcher := stepTail (r.segment rule) r.matcher }
  | n + 1 => { r with matcher := stepMatcher (r.segment rule) r.matcher, turns := n }

/-- A run that is over gives its elements to the block. -/
def closeRun (rule : TableSizeRule) (x : Encoder) (r : Run) : Encoder :=
  ⟨{ x.progress with elements := x.progress.elements ++ r.matcher.out, run := none }, r.matcher.table, r.registers rule x.dp.d⟩

/-- One small step of `encode(src)` (10 R45, 41 R166, R174). -/
def stepEncoder (rule : TableSizeRule) (x : Encoder) : Encoder :=
  Encoder.count <|
    match x.progress.run with
    | none => cutSegment rule x
    | some r => if r.matcher.phase = .ended then closeRun rule x r else x.setRun rule (stepRun rule r)

/-- The elements, table and registers once the run in progress, if any, is over. -/
def finishRun (rule : TableSizeRule) (x : Encoder) : Encoding :=
  match x.progress.run with
  | none => ⟨x.progress.elements, x.table, x.dp⟩
  | some r =>
    let m := runMatcher (r.segment rule) r.turns r.matcher
    ⟨x.progress.elements ++ m.out, m.table, Run.registers rule { r with matcher := m } x.dp.d⟩

/-- What `encode(src)` in progress ends with. -/
def finishEncoder (rule : TableSizeRule) (x : Encoder) : Encoded :=
  closeBlock x.progress.len ((segmentsOf x.progress.rest).foldl (encodeSegment rule) (finishRun rule x))

end Sys2Proof.Machine
end

