-- ==== Sys2Proof/Machine/Framer.lean ====
section
/-! DEFINITION. CRC-32C and its mask (42 R190 to R193), chunk selection and the block framer (42 R200, R201). -/

namespace Sys2Proof.Machine

/-- One bit of the CRC register (42 R191). -/
def crcBit (c : Word) : Word := if c &&& 1 = 1 then (c >>> 1) ^^^ 0x82F63B78 else c >>> 1

/-- One byte into the CRC register: eight bits, least significant first (42 R191). -/
def crcByte (c : Word) (x : Byte) : Word := Nat.repeat crcBit 8 (c ^^^ x.setWidth 32)

/-- `crc32c(bytes)` (42 R190, R191). -/
def crc32c (bytes : List Byte) : Word := bytes.foldl crcByte 0xFFFFFFFF ^^^ 0xFFFFFFFF

/-- `rotr32(v, k)` for 0 < k < 32 (00 R10). -/
def rotr32 (v : Word) (k : Nat) : Word := (v >>> k) ||| (v <<< (32 - k))

/-- `mask(c)` (42 R192). -/
def mask (c : Word) : Word := rotr32 c 15 + Config.crcMaskConstant

/-- `unmask(m)` (42 R193); the engine never computes it. -/
def unmask (m : Word) : Word :=
  let v := m - Config.crcMaskConstant
  (v <<< 15) ||| (v >>> 17)

/-- The CRC field of a data chunk of uncompressed bytes `u` (42 R194). -/
def crcField (u : List Byte) : Word := mask (crc32c u)

/-- The chunk is compressed: `len(e) < len(u) − len(u)/8` (42 R200). -/
def selectsCompressed (encodedLen rawLen : Nat) : Bool := encodedLen < rawLen - rawLen / 8

/-- A framed chunk with the engine's memories and registers after the framing. -/
structure Framed where
  chunk : Instr
  table : Table
  dp : Datapath
deriving DecidableEq, Repr

/-- The chunk of `u`, whose encoded block is at hand (42 R200, R201). -/
def frameEncoded (u : List Byte) (e : Encoded) : Framed :=
  ⟨if selectsCompressed e.bytes.length u.length then .chunkCompressed (crcField u) e.bytes
   else .chunkUncompressed (crcField u) u, e.table, e.dp⟩

/-- `frame_chunk(u)` (42 R201), on the engine's table and registers. -/
def frameChunk (rule : TableSizeRule) (u : List Byte) (table : Table) (dp : Datapath) : Framed :=
  frameEncoded u (encodeSrc rule u table dp)

/-- `frame_chunk(u)` as a pure function of the bytes (00 R13). -/
def frameBytes (rule : TableSizeRule) (u : List Byte) : List Byte :=
  encodeInstr (frameChunk rule u [] Datapath.zero).chunk

/-- The chunk is of type 0x01 (42 R202). -/
def isUncompressedChunk : Instr → Bool
  | .chunkUncompressed _ _ => true
  | _ => false

end Sys2Proof.Machine
end

