-- ==== Sys2Proof/Machine/Block.lean ====
section
/-! DEFINITION. The meanings of ENCODE and MAXLEN (41 R180 to R182) and of an illegal word (30 R92, 60 R235). -/

namespace Sys2Proof.Machine

/-- ENCODE's checks in their order (41 R180, 60 R232): the first that fails, if any. -/
def encodeCheck (p : Params) (a : Args) : Option ResultCode :=
  match maxEncodedLen a.srcLen.toNat with
  | none => some .tooLarge
  | some m =>
    if !rangeValid p a.srcAddr a.srcLen.toNat then some .address
    else if !rangeValid p a.dstAddr a.dstCap.toNat then some .address
    else if a.dstCap.toNat < m then some .dstTooSmall
    else if 0 < a.srcLen.toNat && overlap a.srcAddr a.srcLen.toNat a.dstAddr a.dstCap.toNat then some .overlap
    else none

/-- `src = MemRead(ARGS.src_addr, n)` (41 R180). -/
def State.source (s : State) : List Byte := memRead s.mem s.args.srcAddr.toNat s.args.srcLen.toNat

/-- The encoder's run on the latched source (41 R180). -/
def State.encodeOutput (s : State) : Encoded := encodeSrc s.params.tableSizeRule s.source s.table s.dp

/-- `MemWrite(ARGS.dst_addr, …)` of the bytes ENCODE stores: its output, or, after a race on the source, free bytes over the
whole destination range (70 R270). -/
def State.storeOutput (s : State) (out : List Byte) : State :=
  if s.raced then
    let d := drawBytes s.args.dstCap.toNat s
    { d.2 with mem := memWrite s.mem s.args.dstAddr.toNat d.1 }
  else { s with mem := memWrite s.mem s.args.dstAddr.toNat out }

/-- A destination byte the host wrote during the run ends as a free byte (70 R270). -/
def State.drawRacedBytes (s : State) : List Nat → State
  | [] => s
  | a :: rest =>
    let d := drawBytes 1 s
    State.drawRacedBytes { d.2 with mem := memPut s.mem a (d.1.headD 0) } rest

/-- The end of ENCODE: its encoded block is stored and reported (41 R180). -/
def storeEncoded (e : Encoded) (s : State) : State :=
  finishData .ok e.bytes.length (((s.setInternals e.table e.dp).storeOutput e.bytes).drawRacedBytes s.racedBytes)

/-- `ENCODE` (41 R180). -/
def execEncode (s : State) : Host.Outcome State Fault Refusal :=
  match encodeCheck s.params s.args with
  | some code => .next (finishData code 0 s)
  | none => .next (storeEncoded s.encodeOutput s)

/-- `MAXLEN`: the bound, or the sentinel 0xFFFFFFFF with result code OK (41 R182). -/
def execMaxlen (s : State) : Host.Outcome State Fault Refusal :=
  match maxEncodedLen s.args.srcLen.toNat with
  | none => .next (finish .ok 0xFFFFFFFF s)
  | some m => .next (finish .ok (BitVec.ofNat 32 m) s)

/-- An illegal word: `finish(ERR_ILLEGAL_CMD, 0)` and nothing else, whatever the word (30 R92, 60 R235). -/
def execIllegal (s : State) : Host.Outcome State Fault Refusal := .next (finish .illegalCmd 0 s)

end Sys2Proof.Machine
end

