-- ==== Sys2Proof/Machine/Writer.lean ====
section
/-! DEFINITION. The framed writer (42 R202 to R219): offering a transfer, taking the sink's answer, and the meanings of
INIT_WRITER, WRITE, FLUSH, CLOSE and RESET_STREAM. A command runs to its `finish` or to a transfer the sink has not answered,
the engine's only wait (00 R16, 20 R70; log 6). -/

namespace Sys2Proof.Machine

/-! ### Transfers -/

/-- A raced command's transfer is a draw: a free, nonempty byte sequence that fits `OBUF` (70 R270, log 9). -/
def drawTransfer (s : State) : List Byte × State :=
  let n := drawBelow Config.obufCapacity s
  drawBytes (n.1 + 1) n.2

/-- The bytes of a transfer as they leave: those staged, or a draw after a race. -/
def raceBytes (bytes : List Byte) (s : State) : List Byte × State :=
  if s.raced then drawTransfer s else (bytes, s)

/-- Offers one transfer to the sink and waits (20 R70). -/
def offer (bytes payload : List Byte) (after : After) (s : State) : State :=
  let b := raceBytes bytes s
  { b.2 with ctrl := .waiting ⟨b.1, payload, after⟩ }

/-- The chunk of `u`, framed on the engine's table and registers (42 R201). -/
def State.frame (s : State) (u : List Byte) : Framed := frameChunk s.params.tableSizeRule u s.table s.dp

/-- The bytes `emit_chunk` puts in `OBUF`: `MAGIC_CHUNK` stands before a stream's first chunk (42 R202). -/
def stagedBytes (f : Framed) (s : State) : List Byte := (if s.writer.hdr then [] else Config.magicChunk) ++ encodeInstr f.chunk

/-- Puts a framed chunk into `OBUF` and sets `HDR` (42 R202). -/
def stageChunk (f : Framed) (s : State) : State :=
  { (s.setInternals f.table f.dp).setHdr true with obuf := stagedBytes f s }

/-- The chunk goes to the sink as two transfers (42 R202). -/
def splitsChunk (f : Framed) (s : State) : Bool := s.params.splitUncompressedTransfer && isUncompressedChunk f.chunk

/-- `emit_chunk` of bytes `u` once they are framed, up to its first transfer (42 R202): a split chunk's payload is left for a
second transfer. -/
def emitFramed (u : List Byte) (f : Framed) (after : After) (s : State) : State :=
  let staged := stageChunk f s
  if splitsChunk f s then offer (staged.obuf.take (staged.obuf.length - u.length)) u after staged
  else offer staged.obuf [] after staged

/-- `emit_chunk(u)` up to its first transfer (42 R202). -/
def emitChunk (u : List Byte) (after : After) (s : State) : State := emitFramed u (s.frame u) after s

/-- `emit_chunk(u)` in small steps: its encoding begins (10 R45, 42 R201). -/
def beginChunk (u : List Byte) (after : After) (s : State) : State :=
  let x := beginEncoder u s.table s.dp
  { s.setInternals x.table x.dp with ctrl := .framing u after x.progress }

/-! ### The rest of a WRITE -/

/-- The input bytes as the engine sees them: after a race, each is a draw (70 R270). -/
def raceInput (p : List Byte) (s : State) : List Byte × State :=
  if s.raced then drawBytes p.length s else (p, s)

/-- The rest of a WRITE is framed directly: by an unbuffered writer (42 R207), or once a WHOLE_PIECE write found the buffer
empty and more than one block left (42 R210). -/
def goesDirect (p : List Byte) (direct : Bool) (s : State) : Bool :=
  direct || (s.params.largeWriteMode = .wholePiece && s.writer.ibuf = [] && Config.maxBlockSize < p.length)

/-- In `BLOCK` mode a whole block passes an empty buffer by (42 R208). -/
def passesThrough (p : List Byte) (s : State) : Bool :=
  s.params.largeWriteMode = .block && s.writer.ibuf = [] && Config.maxBlockSize ≤ p.length

/-- Emits the next block of `p`, which counts as absorbed once the sink has taken it (42 R207, R208). The first argument emits a
chunk at once (`emitChunk`) or begins to (`beginChunk`); so it does in the definitions below. -/
def writeBlock (emit : List Byte → After → State → State) (p : List Byte) (absorbed : Nat) (direct : Bool) (s : State) : State :=
  let u := p.take Config.maxBlockSize
  emit u (.write (p.drop Config.maxBlockSize) absorbed u.length direct) s

/-- Fills the buffer from `p`; a buffer that becomes full is emptied and emitted at once (42 R208, R209). -/
def fillBuffer (emit : List Byte → After → State → State) (p : List Byte) (absorbed : Nat) (s : State) : State :=
  let k := min p.length (Config.maxBlockSize - s.writer.ibuf.length)
  let filled := s.setIbuf (s.writer.ibuf ++ p.take k)
  if filled.writer.ibuf.length = Config.maxBlockSize then
    emit filled.writer.ibuf (.write (p.drop k) (absorbed + k) 0 false) (filled.setIbuf [])
  else finishData .ok (absorbed + k) filled

/-- The loop of a WRITE, up to its next chunk or its `finish` (42 R207, R208, R210). A turn that neither frames nor fills the
buffer has taken all the input, so no turn repeats before the next transfer. -/
def continueWrite (emit : List Byte → After → State → State) (input : List Byte) (absorbed : Nat) (direct : Bool) (s0 : State) :
    State :=
  let p := (raceInput input s0).1
  let s := (raceInput input s0).2
  if p = [] then finishData .ok absorbed s
  else if goesDirect p direct s then writeBlock emit p absorbed true s
  else if passesThrough p s then writeBlock emit p absorbed false s
  else fillBuffer emit p absorbed s

/-! ### The sink's answer -/

/-- What a command does when its chunk was taken (42 R207 to R213). -/
def afterOk (emit : List Byte → After → State → State) (after : After) (s : State) : State :=
  match after with
  | .write rest absorbed gain direct => continueWrite emit rest (absorbed + gain) direct s
  | .flush => finish .ok 0 s
  | .close => finish .ok 0 (s.setWState .closed)

/-- What a command does when its chunk failed (42 R203, R207 to R213). -/
def afterErr (after : After) (s : State) : State :=
  match after with
  | .write _ absorbed _ _ => finishData .sink absorbed s
  | .flush => finish .sink 0 s
  | .close => finish .sink 0 (s.setWState .closed)

/-- The engine takes the answer to its pending transfer (42 R202, R203). -/
def takeAnswer (a : SinkAnswer) (p : Pending) (s0 : State) : State :=
  let s := s0.logSink (.transfer p.bytes (.answered a))
  match a with
  | .ok =>
    if p.payload = [] then afterOk emitChunk p.after (s.setWState .streaming)
    else offer p.payload [] p.after s
  | .err code _ => afterErr p.after ((s.setWState .errored).setSinkErr code.val)

/-- The engine takes the answer as one small step (10 R45): what follows an `OK` is left for the next one. -/
def noteAnswer (a : SinkAnswer) (p : Pending) (s0 : State) : State :=
  match a with
  | .ok =>
    let s := s0.logSink (.transfer p.bytes (.answered a))
    if p.payload = [] then { s.setWState .streaming with ctrl := .resuming p.after }
    else { s with ctrl := .sending p.payload p.after }
  | .err _ _ => takeAnswer a p s0

/-- The engine takes answers as long as it awaits one and the sink has given one. -/
def takeAnswers : List SinkAnswer → State → State
  | [], s => { s with answers := [] }
  | a :: rest, s =>
    match s.ctrl with
    | .waiting p => takeAnswers rest (takeAnswer a p s)
    | .idle | .accepted | .encoding _ | .framing _ _ _ | .sending _ _ | .resuming _ => { s with answers := a :: rest }

/-- Runs a command on, over the answers already given, to its `finish` or its next wait. -/
def settle (s : State) : State := takeAnswers s.answers s

/-! ### The commands -/

/-- The latched-state short-circuit: "Before any other check, WRITE, FLUSH and CLOSE test the writer state" (42 R214). -/
def latchedError (w : Writer) : Option ResultCode :=
  match w.wstate with
  | .closed => some .closed
  | .errored => some .sink
  | .fresh => none
  | .streaming => none

/-- `INIT_WRITER` (42 R206). -/
def execInitWriter (mode : WriterMode) (s : State) : Host.Outcome State Fault Refusal :=
  .next (finish .ok 0
    (((((s.logSink .newStream).setWState .fresh).setWMode mode).setHdr false).setIbuf [] |>.setSinkErr 0))

/-- WRITE's checks in their order: the writer's state, then the source range (42 R207, R214): the first that fails, if any. -/
def writeCheck (s : State) : Option ResultCode :=
  match latchedError s.writer with
  | some code => some code
  | none => if rangeValid s.params s.args.srcAddr s.args.srcLen.toNat then none else some .address

/-- A WRITE is framed directly from its start by an unbuffered writer (42 R207). -/
def Writer.writesDirect (w : Writer) : Bool := w.wmode = .unbuffered

/-- `WRITE` (42 R207 to R211). -/
def execWrite (s : State) : Host.Outcome State Fault Refusal :=
  match writeCheck s with
  | some code => .next (finishData code 0 s)
  | none => .next (settle (continueWrite emitChunk s.source 0 s.writer.writesDirect s))

/-- Frames the buffered bytes as one chunk; the buffer is emptied first (42 R212, R213). -/
def emitBuffered (after : After) (s : State) : State := emitChunk s.writer.ibuf after (s.setIbuf [])

/-- `FLUSH` (42 R212). -/
def execFlush (s : State) : Host.Outcome State Fault Refusal :=
  match latchedError s.writer with
  | some code => .next (finish code 0 s)
  | none =>
    if s.writer.wmode = .unbuffered ∨ s.writer.ibuf = [] then .next (finish .ok 0 s)
    else .next (settle (emitBuffered .flush s))

/-- `CLOSE` (42 R213). -/
def execClose (s : State) : Host.Outcome State Fault Refusal :=
  match s.writer.wstate with
  | .closed => .next (finish .closed 0 s)
  | .errored => .next (finish .sink 0 (s.setWState .closed))
  | .fresh | .streaming =>
    if s.writer.wmode = .buffered ∧ s.writer.ibuf ≠ [] then .next (settle (emitBuffered .close s))
    else .next (finish .ok 0 (s.setWState .closed))

/-- `RESET_STREAM`: as INIT_WRITER, but `WMODE` is kept (42 R216). -/
def execResetStream (s : State) : Host.Outcome State Fault Refusal :=
  .next (finish .ok 0 ((((s.logSink .newStream).setWState .fresh).setHdr false).setIbuf [] |>.setSinkErr 0))

end Sys2Proof.Machine
end

