-- ==== Sys2Proof/Machine/Reader.lean ====
section
/-! DEFINITION. The reader, the conforming decoder the engine's output is held to (00 R2, 30 R105 to R107, R113): the meanings of
the element and chunk rows. An element appends to the decoded output (30 R105), a chunk appends its uncompressed content
(20 R83). -/

namespace Sys2Proof.Machine

/-! ### Elements -/

/-- Appends `length` bytes one at a time, each the byte `offset` back (30 R105). -/
def copyBytes (offset : Nat) : Nat → List Byte → List Byte
  | 0, out => out
  | k + 1, out => copyBytes offset k (out ++ [out.getD (out.length - offset) 0])

/-- A copy element at decoded position `len(out)`: it requires 1 ≤ offset ≤ `len(out)` (30 R105). -/
def applyCopy (offset length : Nat) (out : List Byte) : Option (List Byte) :=
  if 1 ≤ offset ∧ offset ≤ out.length then some (copyBytes offset length out) else none

/-- The meaning of an element: the output it leaves, or nothing for a copy that reaches outside it (30 R105). -/
def applyElement (i : Instr) (out : List Byte) : Option (List Byte) :=
  match i with
  | .litInline lit | .lit1 lit | .lit2 lit | .lit3 lit | .lit4 lit => some (out ++ lit)
  | .copy1 offset len => applyCopy offset.toNat (len.toNat + 4) out
  | .copy2 offset len => applyCopy offset.toNat (len.toNat + 1) out
  | .copy4 offset len => applyCopy offset.toNat (len.toNat + 1) out
  | .encode | .maxlen | .initWriter _ | .write | .flush | .close | .resetStream | .illegal _ => none
  | .chunkStreamId _ | .chunkCompressed _ _ | .chunkUncompressed _ _ => none

/-- The elements applied in order from an output. -/
def applyElements : List Instr → List Byte → Option (List Byte)
  | [], out => some out
  | i :: rest, out => (applyElement i out).bind (applyElements rest)

/-- The engine may emit this element (30 R98 to R104, R116). -/
def engineEmits : Instr → Bool
  | .litInline lit => literalFits 60 lit
  | .lit1 lit => 61 ≤ lit.length && lit.length ≤ 256
  | .lit2 lit => 257 ≤ lit.length && lit.length ≤ 65536
  | .lit3 _ => false
  | .lit4 _ => false
  | .copy1 offset _ => offset ≠ 0
  | .copy2 offset len => offset ≠ 0 && 4 ≤ len.toNat + 1 && (12 ≤ len.toNat + 1 || 2048 ≤ offset.toNat)
  | .copy4 _ _ => false
  | .encode | .maxlen | .initWriter _ | .write | .flush | .close | .resetStream | .illegal _ => false
  | .chunkStreamId _ | .chunkCompressed _ _ | .chunkUncompressed _ _ => false

/-- The reader applies one element; it marks one the engine never emits (30 R105, R116). -/
def readElement (i : Instr) (s : State) : Host.Outcome State Fault Refusal :=
  match applyElement i s.reader.out with
  | some out => .next { s with reader := { s.reader with out := out, neverEmitted := s.reader.neverEmitted || !engineEmits i } }
  | none => .fault .copyOutOfRange

/-- `LIT_INLINE` (30 R98, R105). -/
def execLitInline (lit : List Byte) (s : State) : Host.Outcome State Fault Refusal := readElement (.litInline lit) s

/-- `LIT_1` (30 R99, R105). -/
def execLit1 (lit : List Byte) (s : State) : Host.Outcome State Fault Refusal := readElement (.lit1 lit) s

/-- `LIT_2` (30 R100, R105). -/
def execLit2 (lit : List Byte) (s : State) : Host.Outcome State Fault Refusal := readElement (.lit2 lit) s

/-- `LIT_3` (30 R101, R105). -/
def execLit3 (lit : List Byte) (s : State) : Host.Outcome State Fault Refusal := readElement (.lit3 lit) s

/-- `LIT_4` (30 R101, R105). -/
def execLit4 (lit : List Byte) (s : State) : Host.Outcome State Fault Refusal := readElement (.lit4 lit) s

/-- `COPY_1` (30 R102, R105). -/
def execCopy1 (offset : BitVec 11) (len : BitVec 3) (s : State) : Host.Outcome State Fault Refusal :=
  readElement (.copy1 offset len) s

/-- `COPY_2` (30 R103, R105). -/
def execCopy2 (offset : BitVec 16) (len : BitVec 6) (s : State) : Host.Outcome State Fault Refusal :=
  readElement (.copy2 offset len) s

/-- `COPY_4` (30 R104, R105). -/
def execCopy4 (offset : BitVec 32) (len : BitVec 6) (s : State) : Host.Outcome State Fault Refusal :=
  readElement (.copy4 offset len) s

/-! ### Encoded blocks -/

/-- The varint at the head of a block, at most `k` bytes, and the rest (30 R96). -/
def takeVarint : Nat → List Byte → Option (Nat × List Byte)
  | 0, _ => none
  | _ + 1, [] => none
  | k + 1, b :: bs =>
    if b.toNat < 0x80 then some (b.toNat, bs)
    else (takeVarint k bs).map fun p => (b.toNat - 0x80 + 0x80 * p.1, p.2)

/-- The head of a valid block is `put_varint` of its length (30 R107): the shortest form, of a value below 2^32 (30 R95, R96). -/
def takeBlockHead (bs : List Byte) : Option (Nat × List Byte) :=
  match takeVarint 5 bs with
  | some (n, rest) => if n < 2 ^ 32 ∧ bs = putVarint n ++ rest then some (n, rest) else none
  | none => none

/-- Reads elements to the end of the bytes, their number bounded by the first argument (30 R106, R107). DESIGN CHOICE (log 26):
one that the engine never emits is read here without a mark. -/
def readElements : Nat → List Byte → List Byte → Option (List Byte)
  | _, [], out => some out
  | 0, _ :: _, _ => none
  | n + 1, b :: bs, out =>
    match decodeElement (b :: bs) with
    | .ok i rest => (applyElement i out).bind (readElements n rest)
    | .reject _ => none

/-- The bytes an encoded block is a valid encoding of, if it is one (30 R107). -/
def decodeBlock (bs : List Byte) : Option (List Byte) :=
  match takeBlockHead bs with
  | some (n, rest) =>
    match readElements rest.length rest [] with
    | some out => if out.length = n then some out else none
    | none => none
  | none => none

/-! ### Chunks -/

/-- `CHUNK_STREAM_ID`: it stands once, at the head of a stream (30 R109, R113). DESIGN CHOICE (log 13): a stream that ends after
it, which 30 R113 makes no stream of the engine, is read to its end without a stop. -/
def execChunkStreamId (payload : List Byte) (s : State) : Host.Outcome State Fault Refusal :=
  if payload ≠ Config.streamIdPayload then .fault .badStreamId
  else if s.reader.headed then .fault .repeatedStreamId
  else .next { s with reader := { s.reader with headed := true } }

/-- A data chunk of uncompressed bytes `u`: after the identifier, its CRC over `u` (30 R113, 42 R194). The reader's output grows
by `u` (20 R83), whatever its length: 30 R115 bounds only what the engine emits. -/
def readChunk (crc : Word) (u : List Byte) (s : State) : Host.Outcome State Fault Refusal :=
  if !s.reader.headed then .fault .missingStreamId
  else if crc ≠ crcField u then .fault .crcMismatch
  else .next { s with reader := { s.reader with out := s.reader.out ++ u } }

/-- `CHUNK_COMPRESSED`: its data is an encoded block (30 R110). -/
def execChunkCompressed (crc : Word) (data : List Byte) (s : State) : Host.Outcome State Fault Refusal :=
  match decodeBlock data with
  | some u => readChunk crc u s
  | none => .fault .badBlock

/-- `CHUNK_UNCOMPRESSED`: its data is the bytes themselves (30 R111). -/
def execChunkUncompressed (crc : Word) (data : List Byte) (s : State) : Host.Outcome State Fault Refusal :=
  readChunk crc data s

/-! ### The reader's own steps -/

/-- The reader is given bytes: an encoded block, whose varint it reads first (30 R107), or a framed stream (30 R113). DESIGN
CHOICE (log 13): read step by step, a block whose output does not have the varint's length is read to its end without a stop;
a compressed chunk's block is checked (`decodeBlock`). -/
def openReader (mode : ReaderMode) (bytes : List Byte) (s : State) : Host.Outcome State Fault Refusal :=
  match mode with
  | .stream => .next { s with reader := ⟨.stream, bytes, [], false, false⟩ }
  | .block =>
    match takeBlockHead bytes with
    | some (_, rest) => .next { s with reader := ⟨.block, rest, [], false, false⟩ }
    | none => .fault .unreadable

/-- The layer the reader decodes its input in. -/
def Reader.layer (r : Reader) : Layer :=
  match r.mode with
  | .block => .element
  | .stream => .chunk

end Sys2Proof.Machine
end

