-- ==== Sys2Proof/Machine/Dispatch.lean ====
section
/-! DEFINITION. One arm for each constructor of `Instr`, each one direct call of the instruction's meaning. -/

namespace Sys2Proof.Machine

def exec (i : Instr) (s : State) : Host.Outcome State Fault Refusal :=
  match i with
  -- command words (Block.lean, Writer.lean)
  | .encode => Sys2Proof.Machine.execEncode s
  | .maxlen => Sys2Proof.Machine.execMaxlen s
  | .initWriter mode => Sys2Proof.Machine.execInitWriter mode s
  | .write => Sys2Proof.Machine.execWrite s
  | .flush => Sys2Proof.Machine.execFlush s
  | .close => Sys2Proof.Machine.execClose s
  | .resetStream => Sys2Proof.Machine.execResetStream s
  | .illegal _ => Sys2Proof.Machine.execIllegal s
  -- elements of an encoded block (Reader.lean)
  | .litInline lit => Sys2Proof.Machine.execLitInline lit s
  | .lit1 lit => Sys2Proof.Machine.execLit1 lit s
  | .lit2 lit => Sys2Proof.Machine.execLit2 lit s
  | .lit3 lit => Sys2Proof.Machine.execLit3 lit s
  | .lit4 lit => Sys2Proof.Machine.execLit4 lit s
  | .copy1 offset len => Sys2Proof.Machine.execCopy1 offset len s
  | .copy2 offset len => Sys2Proof.Machine.execCopy2 offset len s
  | .copy4 offset len => Sys2Proof.Machine.execCopy4 offset len s
  -- chunks of a framed stream (Reader.lean)
  | .chunkStreamId payload => Sys2Proof.Machine.execChunkStreamId payload s
  | .chunkCompressed crc data => Sys2Proof.Machine.execChunkCompressed crc data s
  | .chunkUncompressed crc data => Sys2Proof.Machine.execChunkUncompressed crc data s

end Sys2Proof.Machine
end

