-- ==== Sys2Proof/Machine/Engine.lean ====
section
/-! DEFINITION. What one step of each agent does: the engine, at once or in small steps (10 R45), the reader (30 R105),
the host (10 R20 to R39, 20 R66, 60 R235, 70 R270) and hardware reset (70 R260, R261). -/

namespace Sys2Proof.Machine

/-! ### The engine -/

/-- A command in progress, up to its `finish` or its next wait: the end of its encoding, its payload, or the rest of its rule. -/
def advance (s : State) : State :=
  match s.ctrl with
  | .encoding e => storeEncoded (finishEncoder s.params.tableSizeRule ⟨e, s.table, s.dp⟩) s
  | .framing u after e => emitFramed u (frameEncoded u (finishEncoder s.params.tableSizeRule ⟨e, s.table, s.dp⟩)) after s
  | .sending payload after => offer payload [] after s
  | .resuming after => afterOk emitChunk after s
  | .idle | .accepted | .waiting _ => s

/-- The engine runs on. An accepted command is fetched from the argument latch and run; one in progress goes on, over the answers
the sink has given; an idle engine keeps all state (60 R248). -/
def engineStep (s : State) : Host.Outcome State Fault Refusal :=
  match s.ctrl with
  | .idle => .next s
  | .accepted => exec s.args.instr s
  | .encoding _ | .framing _ _ _ | .sending _ _ | .resuming _ | .waiting _ => .next (settle (advance s))

/-! ### The engine in small steps (10 R45) -/

/-- ENCODE's start: its source is read once (20 R68), after its checks (41 R180). -/
def startEncode (s : State) : State :=
  match encodeCheck s.params s.args with
  | some code => finishData code 0 s
  | none =>
    let x := beginEncoder s.source s.table s.dp
    { s.setInternals x.table x.dp with ctrl := .encoding x.progress }

/-- WRITE's start: its source is read once (20 R68), after its checks (42 R207, R214). -/
def startWrite (s : State) : State :=
  match writeCheck s with
  | some code => finishData code 0 s
  | none => { s with ctrl := .resuming (.write s.source 0 0 s.writer.writesDirect) }

/-- FLUSH or CLOSE has buffered bytes to frame (42 R212, R213). -/
def Writer.framesBuffer (w : Writer) : Bool := latchedError w = none && w.wmode = .buffered && w.ibuf ≠ []

/-- The first small step of an accepted command. One that frames and encodes nothing is run at once. -/
def startCommand (s : State) : Host.Outcome State Fault Refusal :=
  match s.args.instr with
  | .encode => .next (startEncode s)
  | .write => .next (startWrite s)
  | .flush => if s.writer.framesBuffer then .next (beginChunk s.writer.ibuf .flush (s.setIbuf [])) else exec .flush s
  | .close => if s.writer.framesBuffer then .next (beginChunk s.writer.ibuf .close (s.setIbuf [])) else exec .close s
  | .maxlen => exec .maxlen s
  | .initWriter mode => exec (.initWriter mode) s
  | .resetStream => exec .resetStream s
  | .illegal w => exec (.illegal w) s
  | .litInline lit => exec (.litInline lit) s
  | .lit1 lit => exec (.lit1 lit) s
  | .lit2 lit => exec (.lit2 lit) s
  | .lit3 lit => exec (.lit3 lit) s
  | .lit4 lit => exec (.lit4 lit) s
  | .copy1 offset len => exec (.copy1 offset len) s
  | .copy2 offset len => exec (.copy2 offset len) s
  | .copy4 offset len => exec (.copy4 offset len) s
  | .chunkStreamId payload => exec (.chunkStreamId payload) s
  | .chunkCompressed crc data => exec (.chunkCompressed crc data) s
  | .chunkUncompressed crc data => exec (.chunkUncompressed crc data) s

/-- The engine's table and registers, and its place in the encoding, after one step of it. -/
def State.encoderStep (s : State) (e : EncodeProgress) : Encoder := stepEncoder s.params.tableSizeRule ⟨e, s.table, s.dp⟩

/-- One small step of the engine (10 R45): a step of the matcher or the block driver, the end of an encoding, the offer of a
transfer, the taking of an answer, or a turn of WRITE's loop. -/
def tickStep (s : State) : Host.Outcome State Fault Refusal :=
  match s.ctrl with
  | .idle => .next s
  | .accepted => startCommand s
  | .encoding e =>
    if e.done then .next (advance s)
    else
      let x := s.encoderStep e
      .next { s.setInternals x.table x.dp with ctrl := .encoding x.progress }
  | .framing u after e =>
    if e.done then .next (advance s)
    else
      let x := s.encoderStep e
      .next { s.setInternals x.table x.dp with ctrl := .framing u after x.progress }
  | .sending _ _ => .next (advance s)
  | .resuming after => .next (afterOk beginChunk after s)
  | .waiting p =>
    match s.answers with
    | [] => .next s
    | a :: rest => .next (noteAnswer a p { s with answers := rest })

/-! ### The reader -/

/-- The reader's next step: the next element or chunk of its input, if any is left. -/
def readerStep (s : State) : Host.Outcome State Fault Refusal :=
  if s.reader.input = [] then .next s
  else
    match decode s.reader.layer s.reader.input with
    | .ok i rest => exec i { s with reader := { s.reader with input := rest } }
    | .reject _ => .fault .unreadable

/-! ### The host -/

/-- The views of the writer a read while busy may return: those since the acceptance, and those the engine reaches without
another answer (10 R28, 70 R273; log 8). -/
def busyViews (s : State) : List WriterView :=
  match engineStep s with
  | .next t => t.trail
  | .fault _ => s.trail
  | .refused _ => s.trail

/-- A load from the CSR window (10 R20, 20 R66). While busy, the writer's part of the value is a draw (10 R28). -/
def csrLoad (addr : Word) (width : AccessWidth) (s : State) : State :=
  if csrAccessDefined s.params addr width then
    let offset := csrOffset s.params addr
    if s.busy then
      let views := busyViews s
      let k := drawBelow views.length s
      { k.2 with busData := csrValue s (views.getD k.1 s.writer.view) offset }
    else { s with busData := csrValue s s.writer.view offset }
  else if touchesWindow s.params addr width then { s with refusalMark := true }
  else s

/-- A write of a word to `CMD` (60 R235): dropped while busy; else accepted, and an illegal word finishes at once. -/
def cmdStore (w : Word) (s : State) : Host.Outcome State Fault Refusal :=
  if s.busy then .next { s with cmdOverrun := true }
  else
    match decodeCommand w with
    | .illegal v => exec (.illegal v) (accept w s)
    | _ => .next (accept w s)

/-- A store to the CSR window (10 R20 to R39, 20 R66). -/
def csrStore (addr : Word) (width : AccessWidth) (w : Word) (s : State) : Host.Outcome State Fault Refusal :=
  if csrAccessDefined s.params addr width then
    if csrOffset s.params addr = 0x0C then cmdStore w s else .next (csrStoreValue (csrOffset s.params addr) w s)
  else if touchesWindow s.params addr width then .next { s with refusalMark := true }
  else .next s

/-- The host reads a byte of host memory; a destination byte of a running ENCODE reads as a free byte (70 R270). A byte that
host memory does not have gives the access no meaning: it is refused (00 R18, 20 R61; log 16). -/
def memLoad (addr : Word) (s : State) : Host.Outcome State Fault Refusal :=
  if s.params.hostMemSize ≤ addr.toNat then .next { s with refusalMark := true }
  else if s.busy && s.args.writesDest && inRange addr.toNat s.args.dstAddr s.args.dstCap.toNat then
    let d := drawBytes 1 s
    .next { d.2 with busData := (d.1.headD 0).setWidth 32 }
  else .next { s with busData := (memGet s.mem addr.toNat).setWidth 32 }

/-- The host wrote a byte of the running command's source range (70 R270). -/
def racesSource (addr : Word) (s : State) : Bool :=
  s.busy && s.args.readsSource && inRange addr.toNat s.args.srcAddr s.args.srcLen.toNat

/-- The host wrote a byte of the running command's destination range (70 R270). -/
def racesDest (addr : Word) (s : State) : Bool :=
  s.busy && s.args.writesDest && inRange addr.toNat s.args.dstAddr s.args.dstCap.toNat

/-- The byte a host store leaves: its own, or a free byte in the destination range of a running ENCODE (70 R270). -/
def storeHostByte (addr : Word) (b : Byte) (s : State) : State :=
  if racesDest addr s then
    let d := drawBytes 1 s
    { d.2 with mem := memPut s.mem addr.toNat (d.1.headD 0), raceMark := true, racedBytes := s.racedBytes ++ [addr.toNat] }
  else { s with mem := memPut s.mem addr.toNat b }

/-- Transfers already recorded become draws; their answers stay (70 R270). -/
def redrawLog (s : State) : List SinkEvent → List SinkEvent × State
  | [] => ([], s)
  | .newStream :: rest =>
    let r := redrawLog s rest
    (.newStream :: r.1, r.2)
  | .transfer _ ending :: rest =>
    let d := drawTransfer s
    let r := redrawLog d.2 rest
    (.transfer d.1 ending :: r.1, r.2)

/-- The transfers the running command has made become draws. -/
def redrawMade (s : State) : State :=
  let r := redrawLog s (s.sinkLog.drop s.logMark)
  { r.2 with sinkLog := s.sinkLog.take s.logMark ++ r.1 }

/-- The transfer the running command has pending becomes a draw. -/
def redrawPending (s : State) : State :=
  match s.ctrl with
  | .waiting p => offer p.bytes p.payload p.after s
  | .idle | .accepted | .encoding _ | .framing _ _ _ | .sending _ _ | .resuming _ => s

/-- A race on the source range (70 R270): the mark is set, and every output of the command is a draw (log 9): its transfers at
once, what is still to come as it is put out. -/
def markRace (s : State) : State := redrawPending (redrawMade { s with raced := true, raceMark := true })

/-- The host writes a byte of host memory; in a range the running command owns, that is a race (70 R270). A byte that host memory
does not have is refused, as in `memLoad`. -/
def memStore (addr : Word) (b : Byte) (s : State) : Host.Outcome State Fault Refusal :=
  if s.params.hostMemSize ≤ addr.toNat then .next { s with refusalMark := true }
  else if racesSource addr s then .next (markRace (storeHostByte addr b s))
  else .next (storeHostByte addr b s)

/-- One step of the host. -/
def hostStep (op : HostOp) (s : State) : Host.Outcome State Fault Refusal :=
  match op with
  | .csrLoad addr width => .next (csrLoad addr width s)
  | .csrStore addr width w => csrStore addr width w s
  | .memLoad addr => memLoad addr s
  | .memStore addr b => memStore addr b s

/-! ### Hardware reset -/

/-- The bytes of an abandoned ENCODE's destination range that had already been written, by index: each holds the value the
command would have written (70 R261), a free byte after a race. -/
def landBytes (out : List Byte) (s : State) : List Nat → State
  | [] => s
  | k :: rest =>
    if s.raced then
      if k < s.args.dstCap.toNat then
        let d := drawBytes 1 s
        landBytes out { d.2 with mem := memPut s.mem (s.args.dstAddr.toNat + k) (d.1.headD 0) } rest
      else landBytes out s rest
    else
      match out[k]? with
      | some b => landBytes out { s with mem := memPut s.mem (s.args.dstAddr.toNat + k) b } rest
      | none => landBytes out s rest

/-- What the running ENCODE would have written. -/
def State.pendingOutput (s : State) : Encoded :=
  match s.ctrl with
  | .encoding e => finishEncoder s.params.tableSizeRule ⟨e, s.table, s.dp⟩
  | .idle | .accepted | .framing _ _ _ | .sending _ _ | .resuming _ | .waiting _ => s.encodeOutput

/-- The control states of a command that can write host memory. -/
def Ctrl.encodes : Ctrl → Bool
  | .accepted | .encoding _ => true
  | .idle | .framing _ _ _ | .sending _ _ | .resuming _ | .waiting _ => false

/-- What an abandoned command leaves in host memory (70 R261): only an ENCODE whose checks pass can have begun to write. -/
def abandonMemory (written : List Nat) (s : State) : State :=
  if s.ctrl.encodes ∧ s.args.writesDest ∧ encodeCheck s.params s.args = none then
    landBytes s.pendingOutput.bytes s written
  else s

/-- How a transfer ends at a reset (70 R261): as the sink answered it, if it has; else abandoned, after some prefix. -/
def resetEnding (consumed : Nat) : List SinkAnswer → TransferEnd
  | [] => .abandoned consumed
  | a :: _ => .answered a

/-- What a transfer that the engine awaits leaves on the sink port (70 R261). An answer that was given belongs to it. -/
def abandonTransfer (consumed : Nat) (s : State) : State :=
  match s.ctrl with
  | .waiting p => { s.logSink (.transfer p.bytes (resetEnding consumed s.answers)) with answers := s.answers.drop 1 }
  | .idle | .accepted | .encoding _ | .framing _ _ _ | .sending _ _ | .resuming _ => s

/-- Every piece of the block's state takes its reset value (10 R49, 70 R260). Host memory, the sink port's record and the marks
are outside the block and stay (00 R18). -/
def resetBlock (s : State) : State :=
  { s with
    irqEn := false, done := false, cmdOverrun := false, resultCode := .ok
    srcAddr := 0, srcLen := 0, dstAddr := 0, dstCap := 0, result := 0
    writer := Writer.reset, args := Args.zero, table := [], obuf := [], dp := Datapath.zero, ctrl := .idle
    raced := false, racedBytes := [], logMark := 0, trail := [] }

/-- Hardware reset, at any step (70 R260 to R262). -/
def hardReset (d : ResetDraw) (s : State) : State :=
  (resetBlock (abandonTransfer d.consumed (abandonMemory d.written s))).logSink .newStream

/-! ### Every event -/

/-- One scheduled step. -/
def runEvent (e : Event) (s : State) : Host.Outcome State Fault Refusal :=
  match e with
  | .host op => hostStep op s
  | .engine => engineStep s
  | .tick => tickStep s
  | .sink a => .next { s with answers := s.answers ++ [a] }
  | .hardReset d => .next (hardReset d s)
  | .readerOpen mode bytes => openReader mode bytes s
  | .reader => readerStep s

/-- A step with nothing scheduled: the engine goes on by itself (70 R275), an idle one stays idle (60 R248), and one that
awaits a silent sink is stuck (20 R73). -/
def runUnscheduled (s : State) : Host.Outcome State Fault Refusal :=
  match s.ctrl with
  | .idle => .next s
  | .waiting _ => if s.answers = [] then .fault .stuckOnSink else engineStep s
  | .accepted | .encoding _ | .framing _ _ _ | .sending _ _ | .resuming _ => engineStep s

/-- The state in which the very next step runs the instruction of a table word (log 15): a legal command stands accepted in the
latch, an illegal word is about to be written to `CMD` (60 R235), an element or chunk is next in the reader's input. -/
def placeWord (s : State) (nbits w : Nat) : State :=
  match tableLayer nbits w with
  | .command =>
    match decodeCommand (BitVec.ofNat 32 w) with
    | .illegal v => { s with ctrl := .idle, events := .host (csrWrite s.params 0x0C v) :: s.events }
    | _ => { accept (BitVec.ofNat 32 w) s with events := .engine :: s.events }
  | .element =>
    { s with reader := { s.reader with mode := .block, input := tableBytes nbits w }, events := .reader :: s.events }
  | .chunk =>
    { s with reader := { s.reader with mode := .stream, input := tableBytes nbits w }, events := .reader :: s.events }

end Sys2Proof.Machine
end

