-- ==== Sys2Proof/Machine/Step.lean ====
section
/-! DEFINITION. One step of the machine: the next scheduled agent moves (00 R16). -/

namespace Sys2Proof.Machine

/-- One step: the first scheduled event, or what the machine does with nothing scheduled (log 4). -/
def step (s : State) : Host.Outcome State Fault Refusal :=
  match s.events with
  | [] => runUnscheduled s
  | e :: rest => runEvent e { s with events := rest }

/-- The state in which the very next step runs the instruction of a table word (log 15). -/
def State.withFetchWord (s : State) (nbits w : Nat) : State := placeWord s nbits w

end Sys2Proof.Machine
end

