-- ==== Sys2Proof/Safety.lean ====
section
/-! DEFINITION. The terms claims use: what a claim observes (00 R17), when a run has ended (70 R277), the stuck outcome (00 R18),
and the invariants of the machine (10 R31, R41, R43; 20 R61, R70). -/

namespace Sys2Proof.Machine

/-! ### The sink port's record -/

/-- The transfers of the sink port's record, with their responses (00 R17). -/
def transfersOf : List SinkEvent → List (List Byte × TransferEnd)
  | [] => []
  | .newStream :: rest => transfersOf rest
  | .transfer bytes ending :: rest => (bytes, ending) :: transfersOf rest

/-- The bytes of one transfer the sink has consumed (20 R71, R72; 70 R261). -/
def deliveredBytes (bytes : List Byte) : TransferEnd → List Byte
  | .answered .ok => bytes
  | .answered (.err _ consumed) => bytes.take consumed
  | .abandoned consumed => bytes.take consumed

/-- The bytes the sink has consumed, in order (20 R71). -/
def received (log : List SinkEvent) : List Byte := (transfersOf log).flatMap fun t => deliveredBytes t.1 t.2

/-- The transfers of the current stream: those since the last stream began (30 R113). -/
def currentStream (log : List SinkEvent) : List (List Byte × TransferEnd) :=
  log.foldl (fun acc e =>
    match e with
    | .newStream => []
    | .transfer bytes ending => acc ++ [(bytes, ending)]) []

/-- The last sink response on the current stream was `ERR` (10 R31). -/
def streamFailed (log : List SinkEvent) : Prop :=
  ∃ bytes code consumed, (currentStream log).getLast? = some (bytes, .answered (.err code consumed))

/-- The transfers offered on the current stream, the pending one last (20 R70). -/
def State.offered (s : State) : List (List Byte) :=
  (currentStream s.sinkLog).map Prod.fst ++
    match s.ctrl with
    | .waiting p => [p.bytes]
    | .idle | .accepted | .encoding _ | .framing _ _ _ | .sending _ _ | .resuming _ => []

/-- The transfers of one chunk: `MAGIC_CHUNK` first when `HDR` is clear; a split uncompressed chunk goes as two (42 R202). -/
def chunkTransfers (p : Params) (hdr : Bool) (u : List Byte) : List (List Byte) :=
  let bytes := (if hdr then [] else Config.magicChunk) ++ frameBytes p.tableSizeRule u
  if p.splitUncompressedTransfer && isUncompressedChunk (frameChunk p.tableSizeRule u [] Datapath.zero).chunk then
    [bytes.take (bytes.length - u.length), u]
  else [bytes]

/-- The transfers of pieces framed one chunk each; only the first can stand without `HDR` (42 R202, R204). -/
def streamTransfers (p : Params) : Bool → List (List Byte) → List (List Byte)
  | _, [] => []
  | hdr, u :: us => chunkTransfers p hdr u ++ streamTransfers p true us

/-- The record of transfers that the sink took. -/
def takenLog (transfers : List (List Byte)) : List SinkEvent := transfers.map fun b => .transfer b (.answered .ok)

/-- The transfers a command has made or has pending (42 R202, 70 R276). -/
def State.transferCount (s : State) : Nat :=
  (transfersOf s.sinkLog).length +
    match s.ctrl with
    | .waiting _ => 1
    | .idle | .accepted | .encoding _ | .framing _ _ _ | .sending _ _ | .resuming _ => 0

/-- The chunks a WRITE of `src` frames (42 R207 to R210). -/
def writePieces (p : Params) (w : Writer) (src : List Byte) : List (List Byte) :=
  let x := w.ibuf ++ src
  let room := Config.maxBlockSize - w.ibuf.length
  if w.wmode = .unbuffered then segmentsOf src
  else
    match p.largeWriteMode with
    | .block => (segmentsOf x).take (x.length / Config.maxBlockSize)
    | .wholePiece =>
      if w.ibuf = [] then if src.length < Config.maxBlockSize then [] else segmentsOf src
      else if src.length < room then []
      else x.take Config.maxBlockSize ::
        if src.length - room < Config.maxBlockSize then [] else segmentsOf (src.drop room)

/-- Of the chunks a buffered WRITE frames, the one after `us` goes through the buffer, so that its bytes count as absorbed even if
it fails (42 R208 to R210). -/
def goesThroughBuffer (p : Params) (w : Writer) (src : List Byte) (us : List (List Byte)) : Bool :=
  match p.largeWriteMode with
  | .block => us = [] && w.ibuf ≠ []
  | .wholePiece =>
    if us = [] then w.ibuf ≠ [] || src.length = Config.maxBlockSize
    else w.ibuf ≠ [] && src.length - (Config.maxBlockSize - w.ibuf.length) = Config.maxBlockSize

/-- A command waits on the transfer `b`, after the sink has taken the transfers `taken` and no more (20 R70). -/
def waitsOn (i : Instr) (s : State) (taken : List (List Byte)) (b : List Byte) : Prop :=
  ∃ t p, exec i s = .next t ∧ t.ctrl = .waiting p ∧ p.bytes = b ∧ t.busy = true
    ∧ t.sinkLog = s.sinkLog ++ takenLog taken ∧ t.answers = [] ∧ t.writer.hdr = true ∧ t.mem = s.mem
    ∧ t.result = s.result ∧ t.resultCode = s.resultCode ∧ t.done = s.done

/-- Two outcomes of a WRITE that differ at most in the bytes of its transfers and of the buffer, in `RESULT`, and in what a chunk's
content leaves inside the engine (70 R270). -/
def sameTransitions (s t : State) : Prop :=
  s.writer.wstate = t.writer.wstate ∧ s.writer.wmode = t.writer.wmode ∧ s.writer.hdr = t.writer.hdr
    ∧ s.writer.sinkErr = t.writer.sinkErr ∧ s.writer.ibuf.length = t.writer.ibuf.length ∧ s.resultCode = t.resultCode
    ∧ s.done = t.done ∧ s.busy = t.busy ∧ s.answers = t.answers ∧ s.mem = t.mem
    ∧ (transfersOf s.sinkLog).map Prod.snd = (transfersOf t.sinkLog).map Prod.snd

/-! ### What ENCODE requires -/

/-- The latched operands pass ENCODE's checks, in the spec's own arithmetic (20 R62, 41 R180). -/
def encodePasses (p : Params) (a : Args) : Prop :=
  a.srcLen.toNat ≤ 3681400511
    ∧ (a.srcLen = 0 ∨ a.srcAddr.toNat + a.srcLen.toNat ≤ p.hostMemSize)
    ∧ a.dstAddr.toNat + a.dstCap.toNat ≤ p.hostMemSize
    ∧ 32 + a.srcLen.toNat + a.srcLen.toNat / 6 ≤ a.dstCap.toNat
    ∧ (a.srcLen = 0 ∨ a.dstAddr.toNat + a.dstCap.toNat ≤ a.srcAddr.toNat
        ∨ a.srcAddr.toNat + a.srcLen.toNat ≤ a.dstAddr.toNat)

/-! ### Observation -/

/-- What a claim about a run is stated through (00 R17). -/
structure Observation where
  transfers : List (List Byte × TransferEnd)
  mem : Memory
  csrs : List Word
  refusalMark : Bool
  raceMark : Bool
deriving DecidableEq, Repr

/-- The offsets of the assigned CSRs (10 R20). -/
def assignedOffsets : List Nat := [0x00, 0x04, 0x08, 0x0C, 0x10, 0x14, 0x18, 0x1C, 0x20, 0x24, 0x28, 0x2C]

/-- The observation of a state (00 R17). -/
def observe (s : State) : Observation where
  transfers := transfersOf s.sinkLog
  mem := s.mem
  csrs := assignedOffsets.map (csrValue s s.writer.view)
  refusalMark := s.refusalMark
  raceMark := s.raceMark

/-- A run ends where `BUSY` = 0 and nothing is scheduled (70 R277). -/
def State.runEnded (s : State) : Bool := !s.busy && s.events = []

/-- Neither mark is set: the premise "no refusal, no race" of a claim (00 R18, 70 R270). -/
def State.clean (s : State) : Bool := !s.refusalMark && !s.raceMark

/-- The engine awaits a sink that has not answered (20 R73). -/
def State.awaitsSink (s : State) : Bool :=
  match s.ctrl with
  | .waiting _ => s.answers = []
  | .idle | .accepted | .encoding _ | .framing _ _ _ | .sending _ _ | .resuming _ => false

/-! ### Invariants -/

/-- The writer invariants that hold whatever the engine does (10 R31). -/
def WriterInv (w : Writer) : Prop :=
  (w.wmode = .unbuffered → w.ibuf = []) ∧ w.ibuf.length < Config.maxBlockSize
    ∧ (w.wstate = .streaming → w.hdr = true)
    ∧ (w.wstate = .errored → w.hdr = true ∧ w.sinkErr ≠ 0)
    ∧ (w.wstate = .fresh ∨ w.wstate = .streaming → w.sinkErr = 0)

/-- The writer takes data: it is Fresh or Streaming (42 R214). -/
def Writer.live (w : Writer) : Prop := w.wstate = .fresh ∨ w.wstate = .streaming

/-- The part of a WRITE still to come goes through the buffer only for a buffered writer; FLUSH and CLOSE frame only buffered
bytes (42 R207 to R213). -/
def AfterInv (w : Writer) : After → Prop
  | .write _ _ _ direct => direct = false → w.wmode = .buffered
  | .flush => w.wmode = .buffered
  | .close => w.wmode = .buffered

/-- A rule that goes on with direct framing has nothing in the buffer (42 R207, R210). -/
def ResumeInv (w : Writer) : After → Prop
  | .write _ _ _ direct => direct = true → w.ibuf = []
  | .flush => True
  | .close => True

/-- What holds of the writer in each control state: no Fresh writer has `HDR` set but while its first transfer is under way
(10 R31, 42 R202), a transfer is nonempty (20 R70), and the buffer was emptied before its bytes were framed (42 R209). -/
def CtrlInv (w : Writer) : Ctrl → Prop
  | .idle | .accepted | .encoding _ => w.wstate = .fresh → w.hdr = false
  | .framing u after _ =>
    w.live ∧ (w.wstate = .fresh → w.hdr = false) ∧ w.ibuf = [] ∧ u.length ≤ Config.maxBlockSize ∧ AfterInv w after
  | .sending payload after => w.live ∧ w.hdr = true ∧ w.ibuf = [] ∧ payload ≠ [] ∧ AfterInv w after
  | .waiting p => w.live ∧ w.hdr = true ∧ w.ibuf = [] ∧ p.bytes ≠ [] ∧ AfterInv w p.after
  | .resuming after => w.live ∧ (w.wstate = .fresh → w.hdr = false) ∧ AfterInv w after ∧ ResumeInv w after

/-- The encoding in progress, if any (10 R45). -/
def Ctrl.progress : Ctrl → Option EncodeProgress
  | .encoding e => some e
  | .framing _ _ e => some e
  | .idle | .accepted | .sending _ _ | .waiting _ | .resuming _ => none

/-- During a matcher run `TABLE` and the datapath registers show it (10 R41, R44). -/
def RunInv (s : State) : Prop :=
  ∀ e r, s.ctrl.progress = some e → e.run = some r →
    s.table = r.matcher.table ∧ ∃ d, s.dp = r.registers s.params.tableSizeRule d

/-- The invariant of the machine: memory and table in canonical form, `OBUF` within its capacity (10 R43), the writer's
invariants, and the matcher's. -/
def MachineInv (s : State) : Prop :=
  s.mem.wf ∧ s.table.wf ∧ s.obuf.length ≤ Config.obufCapacity ∧ WriterInv s.writer ∧ CtrlInv s.writer s.ctrl ∧ RunInv s

/-- `SINK_ERR` is nonzero exactly when the last response on the current stream was `ERR` (10 R31). -/
def SinkErrInv (s : State) : Prop := MachineInv s ∧ (s.writer.sinkErr ≠ 0 ↔ streamFailed s.sinkLog)

/-- While no race was marked, a stream has no bytes until `HDR` is set, and its first transfer then begins with `MAGIC_CHUNK`
(30 R113, 42 R204). -/
def StreamHeadInv (s : State) : Prop :=
  MachineInv s ∧ (s.raced = true → s.raceMark = true)
    ∧ (s.raceMark = false →
        (s.writer.hdr = false → s.offered = [])
        ∧ (s.writer.hdr = true → ∃ b rest, s.offered = b :: rest ∧ Config.magicChunk <+: b))

/-- Nothing is listed outside host memory (20 R61), and an ENCODE in progress will store within its destination range (20 R63). -/
def MemoryBoundInv (s : State) : Prop :=
  (∀ c ∈ s.mem, c.1 < s.params.hostMemSize) ∧ (∀ a ∈ s.racedBytes, a < s.params.hostMemSize)
    ∧ ∀ e, s.ctrl = .encoding e →
      encodeCheck s.params s.args = none ∧ s.pendingOutput.bytes.length ≤ s.args.dstCap.toNat

end Sys2Proof.Machine
end

