-- ==== Sys2Proof/Laws/Bytes.lean ====
section
/-! SUPPORT. The laws of byte sequences in the decoder and encoder: little-endian numbers, and taking what was put. -/

namespace Sys2Proof

@[simp] theorem leBytes_length (n v : Nat) : (leBytes n v).length = n := by
  induction n generalizing v with
  | zero => rfl
  | succ n ih => simp [leBytes, ih]

/-- `le_bytes_N(v)` holds `v mod 2^(8N)` (00 R11). -/
theorem leValue_leBytes (n v : Nat) : leValue (leBytes n v) = v % 256 ^ n := by
  induction n generalizing v with
  | zero => simp [leBytes, leValue, Nat.mod_one]
  | succ n ih => simp [leBytes, leValue, ih, Nat.pow_succ', Nat.mod_mul]

theorem takeBytes_append (bs rest : List Byte) : takeBytes bs.length (bs ++ rest) = some (bs, rest) := by
  induction bs with
  | nil => rfl
  | cons b bs ih => simp [takeBytes, ih]

/-- Taking the `n` bytes that stand at the head. -/
theorem takeBytes_of_length {n : Nat} {bs : List Byte} (h : bs.length = n) (rest : List Byte) :
    takeBytes n (bs ++ rest) = some (bs, rest) := by subst h; exact takeBytes_append bs rest

theorem takeBytes_leBytes (n v : Nat) (rest : List Byte) : takeBytes n (leBytes n v ++ rest) = some (leBytes n v, rest) :=
  takeBytes_of_length (leBytes_length n v) rest

/-- What was taken and what is left make up the bytes. -/
theorem takeBytes_eq_some {n : Nat} {bs taken rest : List Byte} (h : takeBytes n bs = some (taken, rest)) :
    bs = taken ++ rest ∧ taken.length = n := by
  induction n generalizing bs taken rest with
  | zero => simp only [takeBytes, Option.some.injEq, Prod.mk.injEq] at h; simp [← h.1, ← h.2]
  | succ n ih =>
    cases bs with
    | nil => simp [takeBytes] at h
    | cons b bs =>
      simp only [takeBytes, Option.map_eq_some_iff, Prod.mk.injEq] at h
      obtain ⟨⟨x, y⟩, hx, h1, h2⟩ := h
      have := ih hx
      subst h1 h2
      simp [this.1, this.2]

end Sys2Proof
end

