-- ==== Sys2Proof/Laws/PerInstr.lean ====
section
/-! SUPPORT. The per-instruction law: the bytes of an instruction are as many as the spec's tables say (30 R90, R106, R112). -/

namespace Sys2Proof.Laws.EncodedSize

/-- How many bytes an instruction takes: a command word four (30 R90), an element as 30 R106 lists, a chunk its four header bytes
and its payload (30 R108, R112). -/
def size : Instr → Nat
  | .encode | .maxlen | .initWriter _ | .write | .flush | .close | .resetStream | .illegal _ => 4
  | .litInline lit => 1 + lit.length
  | .lit1 lit => 2 + lit.length
  | .lit2 lit => 3 + lit.length
  | .lit3 lit => 4 + lit.length
  | .lit4 lit => 5 + lit.length
  | .copy1 _ _ => 2
  | .copy2 _ _ => 3
  | .copy4 _ _ => 5
  | .chunkStreamId _ => 10
  | .chunkCompressed _ data => 8 + data.length
  | .chunkUncompressed _ data => 8 + data.length

/-- A well-formed instruction's bytes are as many as its size. -/
def Statement (i : Instr) : Prop := i.wellFormed = true → (encodeInstr i).length = size i

theorem word (w : Word) : (encodeWord w).length = 4 := by simp [encodeWord]

theorem longLiteral (tag : Byte) (k : Nat) (lit : List Byte) : (encodeLongLiteral tag k lit).length = 1 + k + lit.length := by
  simp [encodeLongLiteral]; omega

theorem chunk (type : Byte) (payload : List Byte) : (encodeChunk type payload).length = 4 + payload.length := by
  simp [encodeChunk]; omega

theorem encode : Statement .encode := fun _ => word _
theorem maxlen : Statement .maxlen := fun _ => word _
theorem initWriter (mode : WriterMode) : Statement (.initWriter mode) := by cases mode <;> exact fun _ => word _
theorem write : Statement .write := fun _ => word _
theorem flush : Statement .flush := fun _ => word _
theorem close : Statement .close := fun _ => word _
theorem resetStream : Statement .resetStream := fun _ => word _
theorem illegal (w : Word) : Statement (.illegal w) := fun _ => word w
theorem litInline (lit : List Byte) : Statement (.litInline lit) := fun _ => by simp [encodeInstr, size]; omega
theorem lit1 (lit : List Byte) : Statement (.lit1 lit) := fun _ => longLiteral _ 1 lit
theorem lit2 (lit : List Byte) : Statement (.lit2 lit) := fun _ => longLiteral _ 2 lit
theorem lit3 (lit : List Byte) : Statement (.lit3 lit) := fun _ => longLiteral _ 3 lit
theorem lit4 (lit : List Byte) : Statement (.lit4 lit) := fun _ => longLiteral _ 4 lit
theorem copy1 (offset : BitVec 11) (len : BitVec 3) : Statement (.copy1 offset len) := fun _ => rfl
theorem copy2 (offset : BitVec 16) (len : BitVec 6) : Statement (.copy2 offset len) := fun _ => by simp [encodeInstr, size]
theorem copy4 (offset : BitVec 32) (len : BitVec 6) : Statement (.copy4 offset len) := fun _ => by simp [encodeInstr, size]
theorem chunkStreamId (payload : List Byte) : Statement (.chunkStreamId payload) := fun h => by
  simp only [Instr.wellFormed, decide_eq_true_eq] at h
  subst h
  decide
theorem chunkCompressed (crc : Word) (data : List Byte) : Statement (.chunkCompressed crc data) := fun _ => by
  simp [encodeInstr, size, chunk]; omega
theorem chunkUncompressed (crc : Word) (data : List Byte) : Statement (.chunkUncompressed crc data) := fun _ => by
  simp [encodeInstr, size, chunk]; omega

end Sys2Proof.Laws.EncodedSize
end

