-- ==== Sys2Proof/Certificates/Slice0/Obligations.lean ====
section
/-! DEFINITION. The statements about this model, each of one or more numbered rules of the spec. -/

open Sys2Proof Sys2Proof.Machine

/-! ### Encodings (file 30) -/

/-- Decoding the bytes of a well-formed instruction of any layer gives it back and leaves what follows (30 R90 to R112). -/
def Obligations.DecodeEncodeAgree : Prop :=
  ∀ (i : Instr) (rest : List Byte), i.wellFormed = true → decode i.layer (encodeInstr i ++ rest) = .ok i rest

/-- The match and mask pairs of 30 R91, over the whole word; `MODE` is bit 8 of INIT_WRITER (30 R90). -/
def Obligations.CommandMapExact : Prop :=
  ∀ w : Word,
    (decodeCommand w = .encode ↔ w &&& 0xFFFFFFFF = 0x00000001)
      ∧ (decodeCommand w = .maxlen ↔ w &&& 0xFFFFFFFF = 0x00000002)
      ∧ (∀ mode, decodeCommand w = .initWriter mode ↔
          w &&& 0xFFFFFEFF = 0x00000010 ∧ mode = (if w.getLsbD 8 then .buffered else .unbuffered))
      ∧ (decodeCommand w = .write ↔ w &&& 0xFFFFFFFF = 0x00000011)
      ∧ (decodeCommand w = .flush ↔ w &&& 0xFFFFFFFF = 0x00000012)
      ∧ (decodeCommand w = .close ↔ w &&& 0xFFFFFFFF = 0x00000013)
      ∧ (decodeCommand w = .resetStream ↔ w &&& 0xFFFFFFFF = 0x00000014)

/-- Every other word is illegal; accepted, it finishes at once with `ERR_ILLEGAL_CMD` and 0, and nothing else changes (30 R92). -/
def Obligations.IllegalWordFinishes : Prop :=
  (∀ w : Word, decodeCommand w = .illegal w ↔
      w.extractLsb' 9 23 ≠ 0 ∨ (w.getLsbD 8 = true ∧ w.extractLsb' 0 8 ≠ 0x10)
        ∨ w.extractLsb' 0 8 ∉ [(0x01 : BitVec 8), 0x02, 0x10, 0x11, 0x12, 0x13, 0x14])
    ∧ (∀ w v : Word, decodeCommand w = .illegal v → v = w)
    ∧ ∀ (w : Word) (s : State),
        exec (.illegal w) s = .next { s with result := 0, resultCode := .illegalCmd, done := true, ctrl := .idle }

/-- Words written out from the spec's encodings decode to the instructions they stand for (30 R91, R98 to R112). -/
def Obligations.SpecWordsDecode : Prop :=
  decodeCommand 0x00000110 = .initWriter .buffered ∧ decodeCommand 0x00000111 = .illegal 0x00000111
    ∧ decode .element [0x00, 0x61] = .ok (.litInline [0x61]) []
    ∧ decode .element [0x42, 0x01, 0x00] = .ok (.copy2 1 16) []
    ∧ decode .element [0x1D, 0x01] = .ok (.copy1 1 7) []
    ∧ decode .chunk Config.magicChunk = .ok (.chunkStreamId Config.streamIdPayload) []
    ∧ decode .chunk [0x01, 0x05, 0x00, 0x00, 0x78, 0x6E, 0xE4, 0x28, 0x61] = .ok (.chunkUncompressed 0x28E46E78 [0x61]) []

/-! ### The step and the instruction it runs -/

/-- A step of the engine runs the command the latch holds; a step of the reader runs the instruction its input begins with. The
schedule, and that a step runs a command as far as it can, are the model's (log 4, log 6, log 12). -/
def Obligations.StepRunsInstruction : Prop :=
  (∀ s : State, s.events = [] → s.ctrl = .accepted → step s = exec s.args.instr s)
    ∧ (∀ (s : State) (rest : List Event), s.events = .engine :: rest → s.ctrl = .accepted →
        step s = exec s.args.instr { s with events := rest })
    ∧ (∀ (s : State) (w : Word), w ∈ legalWords → (accept w s).args.instr = decodeCommand w)
    ∧ (∀ (s : State) (addr w : Word) (rest : List Event), s.events = .host (.csrStore addr .word w) :: rest →
        csrOffset s.params addr = 0x0C → s.busy = false → w ∉ legalWords →
        step s = exec (.illegal w) (accept w { s with events := rest }))
    ∧ ∀ (s : State) (rest : List Event) (i : Instr) (left : List Byte), s.events = .reader :: rest →
        decode s.reader.layer s.reader.input = .ok i left →
        step s = exec i { s with events := rest, reader := { s.reader with input := left } }

/-- A word written to `CMD` is dropped while busy; else it is latched with the argument CSRs, and an illegal one finishes at once
(60 R235). What becomes of `raced`, `racedBytes`, `logMark` and `trail` is the
model's (log 8, log 9). -/
def Obligations.CommandAcceptance : Prop :=
  ∀ (s : State) (addr w : Word), csrOffset s.params addr = 0x0C →
    (s.busy = true → hostStep (.csrStore addr .word w) s = .next { s with cmdOverrun := true })
      ∧ (s.busy = false →
          hostStep (.csrStore addr .word w) s = .next
            { s with
              args := ⟨w.extractLsb' 0 8, w.extractLsb' 8 1, s.srcAddr, s.srcLen, s.dstAddr, s.dstCap⟩
              done := if w ∈ legalWords then false else true
              ctrl := if w ∈ legalWords then .accepted else .idle
              result := if w ∈ legalWords then s.result else 0
              resultCode := if w ∈ legalWords then s.resultCode else .illegalCmd
              raced := false
              racedBytes := []
              logMark := s.sinkLog.length
              trail := [s.writer.view] })

/-! ### Emitters (file 40) -/

/-- `emit_literal` gives the shortest header and then the bytes, and its length is as 40 R131 says (40 R130). -/
def Obligations.EmitLiteral : Prop :=
  ∀ lit : List Byte, 1 ≤ lit.length → lit.length ≤ 65536 →
    emitLiteral lit =
        (if lit.length - 1 < 60 then [BitVec.ofNat 8 ((lit.length - 1) <<< 2)]
         else if lit.length - 1 < 256 then [0xF0, BitVec.ofNat 8 (lit.length - 1)]
         else [0xF4, BitVec.ofNat 8 ((lit.length - 1) % 256), BitVec.ofNat 8 ((lit.length - 1) >>> 8)]) ++ lit
      ∧ (emitLiteral lit).length =
          lit.length + (if lit.length ≤ 60 then 1 else if lit.length ≤ 256 then 2 else 3)

/-- The shape of `emit_copy`: length-64 copies, then a length-60 one, then the final element (40 R133, R134). -/
def Obligations.EmitCopyShape : Prop :=
  ∀ offset length : Nat, 1 ≤ offset → offset ≤ 65535 → 4 ≤ length → length ≤ 65535 →
    ∀ k r1 r : Nat, k = (if length < 68 then 0 else (length - 68) / 64 + 1) → r1 = length - 64 * k →
      r = (if 65 ≤ r1 then r1 - 60 else r1) →
      4 ≤ r1 ∧ r1 ≤ 67
        ∧ copyElements offset length =
            List.replicate k (.copy2 (BitVec.ofNat 16 offset) 63) ++
              (if 65 ≤ r1 then [.copy2 (BitVec.ofNat 16 offset) 59] else []) ++
              [if r ≤ 11 ∧ offset ≤ 2047 then .copy1 (BitVec.ofNat 11 offset) (BitVec.ofNat 3 (r - 4))
               else .copy2 (BitVec.ofNat 16 offset) (BitVec.ofNat 6 (r - 1))]
        ∧ (emitCopy offset length).length =
            3 * k + (if 65 ≤ r1 then 3 else 0) + (if r ≤ 11 ∧ offset ≤ 2047 then 2 else 3)

/-- `put_varint` puts seven bits a byte, least significant first, in as many bytes as 40 R141 says (40 R140). -/
def Obligations.VarintEncoder : Prop :=
  ∀ n : Nat, n < 2 ^ 32 →
    putVarint n = (if 0x80 ≤ n then BitVec.ofNat 8 ((n &&& 0x7F) ||| 0x80) :: putVarint (n >>> 7) else [BitVec.ofNat 8 n])
      ∧ (putVarint n).length =
          (if n < 2 ^ 7 then 1 else if n < 2 ^ 14 then 2 else if n < 2 ^ 21 then 3 else if n < 2 ^ 28 then 4 else 5)

/-! ### The block encoder (file 41) -/

/-- `MAXLEN` finishes with the expansion bound, or the sentinel, and with nothing else changed (41 R150, R182). -/
def Obligations.MaxlenCommand : Prop :=
  (∀ n m : Nat, maxEncodedLen n = some m ↔ n ≤ 3681400511 ∧ m = 32 + n + n / 6)
    ∧ ∀ s : State,
        exec .maxlen s = .next
          { s with
            result :=
              if s.args.srcLen.toNat ≤ 3681400511 then
                BitVec.ofNat 32 (32 + s.args.srcLen.toNat + s.args.srcLen.toNat / 6)
              else 0xFFFFFFFF
            resultCode := .ok
            done := true
            ctrl := .idle }

/-- The table size is the power of two that 41 R157 says, and a hash is a slot of it (41 R152). -/
def Obligations.TableSizeAndHash : Prop :=
  ∀ len : Nat, 17 ≤ len → len ≤ 65536 →
    (∀ rule, 256 ≤ tsize rule len ∧ tsize rule len ≤ 16384 ∧ 18 ≤ tableShift rule len ∧ tableShift rule len ≤ 24
        ∧ tsize rule len = 2 ^ (32 - tableShift rule len))
      ∧ (256 ≤ len → tsize .floor len ≤ len) ∧ (∀ k, 2 ^ k ≤ len → 2 ^ k ≤ 16384 → 2 ^ k ≤ tsize .floor len)
      ∧ (len < 256 → tsize .floor len = 256)
      ∧ (len ≤ 16384 → len ≤ tsize .ceil len) ∧ (∀ k, len ≤ 2 ^ k → 256 ≤ 2 ^ k → tsize .ceil len ≤ 2 ^ k)
      ∧ (16384 < len → tsize .ceil len = 16384)
      ∧ ∀ rule (u : Word),
          hash u (tableShift rule len) = u.toNat * 0x1e35a7bd % 2 ^ 32 / 2 ^ tableShift rule len
            ∧ hash u (tableShift rule len) < tsize rule len

/-- A matcher run begins with a literal, emits only forms the engine may emit, and decodes to its segment (41 R176). -/
def Obligations.SegmentEncoding : Prop :=
  ∀ (rule : TableSizeRule) (seg : List Byte) (t : Table), 17 ≤ seg.length → seg.length ≤ 65536 → t.wf →
    (∃ lit rest, (encodeBlock rule seg t).out = literalElement lit :: rest ∧ lit ≠ [])
      ∧ (∀ i ∈ (encodeBlock rule seg t).out, engineEmits i = true)
      ∧ applyElements (encodeBlock rule seg t).out [] = some seg

/-- What `TABLE` and the datapath registers held before does not reach the encoder's output (41 R178). -/
def Obligations.EncodeIgnoresTable : Prop :=
  ∀ (rule : TableSizeRule) (src : List Byte) (t : Table) (dp : Datapath), t.wf →
    (encodeSrc rule src t dp).bytes = encodeBytes rule src

/-- Decoding an encoded block gives back its input (41 R179, 30 R107). -/
def Obligations.BlockRoundTrip : Prop :=
  ∀ (rule : TableSizeRule) (src : List Byte), (maxEncodedLen src.length).isSome = true →
    decodeBlock (encodeBytes rule src) = some src

/-- An encoded block is no longer than the expansion bound (41 R151). -/
def Obligations.EncodedLengthBound : Prop :=
  ∀ (rule : TableSizeRule) (src : List Byte) (m : Nat), maxEncodedLen src.length = some m →
    (encodeBytes rule src).length ≤ m

/-! ### ENCODE (file 41) -/

/-- ENCODE reports the first check that fails, and otherwise stores its output and finishes with its length (41 R180). -/
def Obligations.EncodeCommand : Prop :=
  ∀ (s : State) (n cap : Nat) (out : List Byte), n = s.args.srcLen.toNat → cap = s.args.dstCap.toNat →
    out = encodeBytes s.params.tableSizeRule (memRead s.mem s.args.srcAddr.toNat n) →
    s.table.wf → s.raced = false → s.racedBytes = [] →
    if 3681400511 < n then exec .encode s = .next (finish .tooLarge 0 s)
    else if n ≠ 0 ∧ s.params.hostMemSize < s.args.srcAddr.toNat + n then exec .encode s = .next (finish .address 0 s)
    else if cap ≠ 0 ∧ s.params.hostMemSize < s.args.dstAddr.toNat + cap then exec .encode s = .next (finish .address 0 s)
    else if cap < 32 + n + n / 6 then exec .encode s = .next (finish .dstTooSmall 0 s)
    else if n ≠ 0 ∧ s.args.srcAddr.toNat < s.args.dstAddr.toNat + cap ∧ s.args.dstAddr.toNat < s.args.srcAddr.toNat + n then
      exec .encode s = .next (finish .overlap 0 s)
    else
      ∃ table dp, exec .encode s = .next
        { s with
          mem := memWrite s.mem s.args.dstAddr.toNat out
          table := table
          dp := dp
          result := BitVec.ofNat 32 out.length
          resultCode := .ok
          done := true
          ctrl := .idle }

/-- ENCODE leaves its output at the destination and every other byte as it was (20 R78). -/
def Obligations.EncodeLeavesOtherBytes : Prop :=
  ∀ (s : State) (out : List Byte), out = encodeBytes s.params.tableSizeRule s.source →
    s.mem.wf → s.table.wf → s.raced = false → s.racedBytes = [] → encodePasses s.params s.args →
    ∃ t, exec .encode s = .next t ∧ t.resultCode = .ok
      ∧ (∀ k, k < out.length → memGet t.mem (s.args.dstAddr.toNat + k) = out.getD k 0)
      ∧ ∀ a, ¬(s.args.dstAddr.toNat ≤ a ∧ a < s.args.dstAddr.toNat + out.length) → memGet t.mem a = memGet s.mem a

/-- ENCODE and MAXLEN neither read nor write the writer, and never use the sink port (42 R217). -/
def Obligations.EncodeIgnoresWriter : Prop :=
  ∀ (s : State) (w : Writer) (i : Instr), i = .encode ∨ i = .maxlen →
    ∃ t, exec i s = .next t ∧ exec i { s with writer := w } = .next { t with writer := w }
      ∧ t.writer = s.writer ∧ t.sinkLog = s.sinkLog ∧ t.answers = s.answers ∧ t.ctrl = .idle

/-- A command raced on its source still finishes, with a free `RESULT` whatever its code; a raced WRITE whose chunks go whole makes
the transitions, takes the answers and waits as the unraced one would (70 R270). The form and length of the draws, and that a failed
check reports a draw, are the model's (log 9, log 24). -/
def Obligations.RacedCommandsFinish : Prop :=
  (∀ s : State, s.raced = true → encodePasses s.params s.args →
      ∃ m table dp j k, exec .encode s = .next
        { s with
          mem := m, table := table, dp := dp, result := Config.freeWord j, draws := k
          resultCode := .ok, done := true, ctrl := .idle })
    ∧ (∀ (s : State) (i : Instr) (code : ResultCode), s.raced = true →
        i = .encode ∧ encodeCheck s.params s.args = some code ∨ i = .write ∧ writeCheck s = some code →
        ∃ j k, exec i s = .next
          { s with result := Config.freeWord j, draws := k, resultCode := code, done := true, ctrl := .idle })
    ∧ (∀ (s : State) (n : Nat) (rest : List SinkAnswer), n = s.args.srcLen.toNat → s.raced = true →
        s.params.splitUncompressedTransfer = false → s.writer.wmode = .unbuffered →
        s.writer.wstate = .fresh ∨ s.writer.wstate = .streaming → n = 0 ∨ s.args.srcAddr.toNat + n ≤ s.params.hostMemSize →
        s.answers = List.replicate ((n + 65535) / 65536) .ok ++ rest →
        ∃ ts table obuf dp trail j k, ts.length = (n + 65535) / 65536 ∧ exec .write s = .next
          { s with
            writer := { s.writer with
              wstate := if n = 0 then s.writer.wstate else .streaming
              hdr := s.writer.hdr || n ≠ 0 }
            sinkLog := s.sinkLog ++ takenLog ts
            answers := rest
            table := table, obuf := obuf, dp := dp, trail := trail, result := Config.freeWord j, draws := k
            resultCode := .ok, done := true, ctrl := .idle })
    ∧ ∀ s t : State, s.raced = false → s.params.splitUncompressedTransfer = false → exec .write s = .next t →
        ∃ r, exec .write { s with raced := true } = .next r ∧ sameTransitions t r
          ∧ (t.busy = false → ∃ j, r.result = Config.freeWord j)

/-! ### CRC mask and framing (file 42) -/

/-- Unmasking recovers the CRC (42 R193). -/
def Obligations.MaskUnmask : Prop :=
  ∀ c : Word, unmask c = (c - 0xa282ead8) <<< 15 ||| (c - 0xa282ead8) >>> 17 ∧ unmask (mask c) = c

/-- A chunk is compressed exactly when its encoding is below 7/8 of its bytes (42 R200). -/
def Obligations.ChunkSelection : Prop :=
  ∀ (rule : TableSizeRule) (u : List Byte) (t : Table) (dp : Datapath) (e : List Byte), t.wf → e = encodeBytes rule u →
    (frameChunk rule u t dp).chunk =
        (if e.length < u.length - u.length / 8 then .chunkCompressed (crcField u) e else .chunkUncompressed (crcField u) u)
      ∧ (e.length < u.length - u.length / 8 ↔ 8 * e.length < 7 * u.length)
      ∧ (u.length ≤ 7 → (frameChunk rule u t dp).chunk = .chunkUncompressed (crcField u) u)

/-- The bytes of a data chunk, and the range of its length field (42 R201, 30 R115). -/
def Obligations.DataChunkBytes : Prop :=
  ∀ (rule : TableSizeRule) (u : List Byte), 1 ≤ u.length → u.length ≤ 65536 →
    ∃ (type : Byte) (data : List Byte),
      frameBytes rule u = type :: leBytes 3 (4 + data.length) ++ leBytes 4 (mask (crc32c u)).toNat ++ data
        ∧ 5 ≤ 4 + data.length ∧ 4 + data.length ≤ 65540
        ∧ (type = 0x00 ∧ data = encodeBytes rule u ∧ 4 + data.length < 4 + u.length - u.length / 8
            ∨ type = 0x01 ∧ data = u ∧ u.length - u.length / 8 ≤ (encodeBytes rule u).length)

/-! ### The framed writer (file 42) -/

/-- INIT_WRITER and RESET_STREAM leave a Fresh writer with nothing buffered; RESET_STREAM keeps the mode (42 R206, R216). The
mark in the sink's record is the model's (log 18). -/
def Obligations.WriterResets : Prop :=
  (∀ (s : State) (mode : WriterMode), ∃ trail, exec (.initWriter mode) s = .next
      { s with
        writer := { wstate := .fresh, wmode := mode, hdr := false, ibuf := [], sinkErr := 0 }
        sinkLog := s.sinkLog ++ [.newStream], trail := trail
        result := 0, resultCode := .ok, done := true, ctrl := .idle })
    ∧ ∀ s : State, ∃ trail, exec .resetStream s = .next
      { s with
        writer := { wstate := .fresh, wmode := s.writer.wmode, hdr := false, ibuf := [], sinkErr := 0 }
        sinkLog := s.sinkLog ++ [.newStream], trail := trail
        result := 0, resultCode := .ok, done := true, ctrl := .idle }

/-- WRITE on a Closed or Errored writer, or of an invalid source range, only finishes with its code (42 R207, R214); after a race
see `RacedCommandsFinish`. -/
def Obligations.WritePreChecks : Prop :=
  ∀ s : State, s.raced = false →
    (s.writer.wstate = .closed → exec .write s = .next (finish .closed 0 s))
      ∧ (s.writer.wstate = .errored → exec .write s = .next (finish .sink 0 s))
      ∧ (s.writer.wstate = .fresh ∨ s.writer.wstate = .streaming → s.args.srcLen ≠ 0 →
          s.params.hostMemSize < s.args.srcAddr.toNat + s.args.srcLen.toNat →
          exec .write s = .next (finish .address 0 s))

/-- An unbuffered WRITE whose transfers the sink takes frames each 65536 bytes as one chunk and absorbs all (42 R207).
Answers that stand ready before the transfers are the model's (log 5). -/
def Obligations.UnbufferedWrite : Prop :=
  ∀ (s : State) (ts : List (List Byte)) (rest : List SinkAnswer),
    s.writer.wstate = .fresh ∨ s.writer.wstate = .streaming → s.writer.wmode = .unbuffered →
    s.args.srcLen = 0 ∨ s.args.srcAddr.toNat + s.args.srcLen.toNat ≤ s.params.hostMemSize →
    s.table.wf → s.raced = false →
    ts = streamTransfers s.params s.writer.hdr (segmentsOf s.source) →
    s.answers = List.replicate ts.length .ok ++ rest →
    ∃ table obuf dp trail, exec .write s = .next
      { s with
        writer := { s.writer with
          wstate := if s.args.srcLen = 0 then s.writer.wstate else .streaming
          hdr := s.writer.hdr || s.args.srcLen ≠ 0 }
        sinkLog := s.sinkLog ++ takenLog ts
        answers := rest
        table := table, obuf := obuf, dp := dp, trail := trail
        result := s.args.srcLen, resultCode := .ok, done := true, ctrl := .idle }

/-- A buffered WRITE in `BLOCK` mode frames every full block of what was buffered and what it was given, and buffers the rest
(42 R208, R209; log 5). -/
def Obligations.BufferedWrite : Prop :=
  ∀ (s : State) (x : List Byte) (k : Nat) (ts : List (List Byte)) (rest : List SinkAnswer),
    s.writer.wstate = .fresh ∨ s.writer.wstate = .streaming → s.writer.wmode = .buffered →
    s.params.largeWriteMode = .block → s.writer.ibuf.length < 65536 →
    s.args.srcLen = 0 ∨ s.args.srcAddr.toNat + s.args.srcLen.toNat ≤ s.params.hostMemSize →
    s.table.wf → s.raced = false →
    x = s.writer.ibuf ++ s.source → k = x.length / 65536 →
    ts = streamTransfers s.params s.writer.hdr ((segmentsOf x).take k) →
    s.answers = List.replicate ts.length .ok ++ rest →
    ∃ table obuf dp trail, exec .write s = .next
      { s with
        writer := { s.writer with
          wstate := if k = 0 then s.writer.wstate else .streaming
          hdr := s.writer.hdr || k ≠ 0
          ibuf := x.drop (65536 * k) }
        sinkLog := s.sinkLog ++ takenLog ts
        answers := rest
        table := table, obuf := obuf, dp := dp, trail := trail
        result := s.args.srcLen, resultCode := .ok, done := true, ctrl := .idle }

/-- In `WHOLE_PIECE` mode a WRITE of more than a block into an empty buffer is framed whole; one that does not fill the buffer is
buffered; one that fills it frames it, then frames whole what is left if that is a block or more, and buffers it if less (42 R210;
log 5). -/
def Obligations.WholePieceWrite : Prop :=
  ∀ (s : State) (ts : List (List Byte)) (rest : List SinkAnswer),
    s.writer.wstate = .fresh ∨ s.writer.wstate = .streaming → s.writer.wmode = .buffered →
    s.params.largeWriteMode = .wholePiece →
    s.args.srcLen = 0 ∨ s.args.srcAddr.toNat + s.args.srcLen.toNat ≤ s.params.hostMemSize →
    s.table.wf → s.raced = false →
    (s.writer.ibuf = [] → 65536 < s.args.srcLen.toNat →
        ts = streamTransfers s.params s.writer.hdr (segmentsOf s.source) →
        s.answers = List.replicate ts.length .ok ++ rest →
        ∃ table obuf dp trail, exec .write s = .next
          { s with
            writer := { s.writer with wstate := .streaming, hdr := true }
            sinkLog := s.sinkLog ++ takenLog ts
            answers := rest
            table := table, obuf := obuf, dp := dp, trail := trail
            result := s.args.srcLen, resultCode := .ok, done := true, ctrl := .idle })
      ∧ (s.writer.ibuf.length + s.args.srcLen.toNat < 65536 →
        ∃ trail, exec .write s = .next
          { s with
            writer := { s.writer with ibuf := s.writer.ibuf ++ s.source }
            trail := trail, result := s.args.srcLen, resultCode := .ok, done := true, ctrl := .idle })
      ∧ ∀ (room : Nat) (p : List Byte), room = 65536 - s.writer.ibuf.length → 1 ≤ room → room ≤ s.args.srcLen.toNat →
        s.writer.ibuf ≠ [] ∨ s.args.srcLen.toNat = 65536 → p = s.source.drop room →
        ts = streamTransfers s.params s.writer.hdr
          ((s.writer.ibuf ++ s.source.take room) :: if p.length < 65536 then [] else segmentsOf p) →
        s.answers = List.replicate ts.length .ok ++ rest →
        ∃ table obuf dp trail, exec .write s = .next
          { s with
            writer := { s.writer with wstate := .streaming, hdr := true, ibuf := if p.length < 65536 then p else [] }
            sinkLog := s.sinkLog ++ takenLog ts
            answers := rest
            table := table, obuf := obuf, dp := dp, trail := trail
            result := s.args.srcLen, resultCode := .ok, done := true, ctrl := .idle }

/-- An unbuffered WRITE whose transfer fails latches the code and counts the chunks before it (42 R203, R207, R211;
log 5). -/
def Obligations.FailedUnbufferedWrite : Prop :=
  ∀ (s : State) (us vs : List (List Byte)) (u : List Byte) (ok ts : List (List Byte)) (b : List Byte) (k : Nat)
    (code : SinkCode) (consumed : Nat) (rest : List SinkAnswer),
    s.writer.wstate = .fresh ∨ s.writer.wstate = .streaming → s.writer.wmode = .unbuffered →
    s.args.srcAddr.toNat + s.args.srcLen.toNat ≤ s.params.hostMemSize → s.table.wf → s.raced = false →
    segmentsOf s.source = us ++ u :: vs →
    ok = streamTransfers s.params s.writer.hdr us →
    ts = chunkTransfers s.params (s.writer.hdr || us ≠ []) u → ts[k]? = some b →
    s.answers = List.replicate (ok.length + k) .ok ++ .err code consumed :: rest →
    ∃ table obuf dp trail, exec .write s = .next
      { s with
        writer := { s.writer with wstate := .errored, hdr := true, sinkErr := code.val }
        sinkLog := s.sinkLog ++ takenLog (ok ++ ts.take k) ++ [.transfer b (.answered (.err code consumed))]
        answers := rest
        table := table, obuf := obuf, dp := dp, trail := trail
        result := BitVec.ofNat 32 us.flatten.length, resultCode := .sink, done := true, ctrl := .idle }

/-- A buffered WRITE whose transfer fails, at any chunk and in both modes, latches the code and counts the bytes of the chunks
before it; those of the failed chunk count if they were copied into the buffer, which is empty afterwards (42 R203, R208 to R210;
log 5). -/
def Obligations.FailedBufferedWrite : Prop :=
  ∀ (s : State) (us vs : List (List Byte)) (u : List Byte) (ok ts : List (List Byte)) (b : List Byte) (k : Nat)
    (code : SinkCode) (consumed : Nat) (rest : List SinkAnswer),
    s.writer.wstate = .fresh ∨ s.writer.wstate = .streaming → s.writer.wmode = .buffered → s.writer.ibuf.length < 65536 →
    s.args.srcAddr.toNat + s.args.srcLen.toNat ≤ s.params.hostMemSize → s.table.wf → s.raced = false →
    writePieces s.params s.writer s.source = us ++ u :: vs →
    ok = streamTransfers s.params s.writer.hdr us →
    ts = chunkTransfers s.params (s.writer.hdr || us ≠ []) u → ts[k]? = some b →
    s.answers = List.replicate (ok.length + k) .ok ++ .err code consumed :: rest →
    ∃ table obuf dp trail, exec .write s = .next
      { s with
        writer := { s.writer with wstate := .errored, hdr := true, ibuf := [], sinkErr := code.val }
        sinkLog := s.sinkLog ++ takenLog (ok ++ ts.take k) ++ [.transfer b (.answered (.err code consumed))]
        answers := rest
        table := table, obuf := obuf, dp := dp, trail := trail
        result := BitVec.ofNat 32
          ((us ++ if goesThroughBuffer s.params s.writer s.source us then [u] else []).flatten.length - s.writer.ibuf.length)
        resultCode := .sink, done := true, ctrl := .idle }

/-- A WRITE, FLUSH or CLOSE with fewer answers than transfers waits on the next one, `RESULT` and `RESULT_CODE` as they were
(20 R70, R73, 10 R36; log 5, log 6). -/
def Obligations.WriteWaits : Prop :=
  (∀ (s : State) (ts : List (List Byte)) (b : List Byte) (k : Nat),
      s.writer.wstate = .fresh ∨ s.writer.wstate = .streaming → s.writer.ibuf.length < 65536 →
      s.args.srcAddr.toNat + s.args.srcLen.toNat ≤ s.params.hostMemSize → s.table.wf → s.raced = false →
      ts = streamTransfers s.params s.writer.hdr (writePieces s.params s.writer s.source) → ts[k]? = some b →
      s.answers = List.replicate k .ok → waitsOn .write s (ts.take k) b)
    ∧ ∀ (s : State) (i : Instr) (ts : List (List Byte)) (b : List Byte) (k : Nat), i = .flush ∨ i = .close →
      s.writer.wstate = .fresh ∨ s.writer.wstate = .streaming → s.writer.wmode = .buffered → s.writer.ibuf ≠ [] →
      s.table.wf → s.raced = false →
      ts = chunkTransfers s.params s.writer.hdr s.writer.ibuf → ts[k]? = some b →
      s.answers = List.replicate k .ok → waitsOn i s (ts.take k) b

/-- FLUSH: the latched error, the no-op, or one chunk of the buffered bytes, taken or failed (42 R212; log 5). -/
def Obligations.FlushCommand : Prop :=
  ∀ (s : State) (ts : List (List Byte)), ts = chunkTransfers s.params s.writer.hdr s.writer.ibuf →
    (s.writer.wstate = .closed → exec .flush s = .next (finish .closed 0 s))
      ∧ (s.writer.wstate = .errored → exec .flush s = .next (finish .sink 0 s))
      ∧ (s.writer.wstate = .fresh ∨ s.writer.wstate = .streaming → s.writer.wmode = .unbuffered ∨ s.writer.ibuf = [] →
          exec .flush s = .next (finish .ok 0 s))
      ∧ (s.writer.wstate = .fresh ∨ s.writer.wstate = .streaming → s.writer.wmode = .buffered → s.writer.ibuf ≠ [] →
          s.table.wf → s.raced = false →
          (∀ rest, s.answers = List.replicate ts.length .ok ++ rest →
              ∃ table obuf dp trail, exec .flush s = .next
                { s with
                  writer := { s.writer with wstate := .streaming, hdr := true, ibuf := [] }
                  sinkLog := s.sinkLog ++ takenLog ts, answers := rest
                  table := table, obuf := obuf, dp := dp, trail := trail
                  result := 0, resultCode := .ok, done := true, ctrl := .idle })
            ∧ ∀ k b code consumed rest, ts[k]? = some b →
                s.answers = List.replicate k .ok ++ .err code consumed :: rest →
                ∃ table obuf dp trail, exec .flush s = .next
                  { s with
                    writer := { s.writer with wstate := .errored, hdr := true, ibuf := [], sinkErr := code.val }
                    sinkLog := s.sinkLog ++ takenLog (ts.take k) ++ [.transfer b (.answered (.err code consumed))]
                    answers := rest
                    table := table, obuf := obuf, dp := dp, trail := trail
                    result := 0, resultCode := .sink, done := true, ctrl := .idle })

/-- CLOSE: the latched error, the empty close, or a last chunk, taken or failed; but for `ERR_CLOSED` the writer ends Closed
(42 R213; log 5). -/
def Obligations.CloseCommand : Prop :=
  ∀ (s : State) (ts : List (List Byte)), ts = chunkTransfers s.params s.writer.hdr s.writer.ibuf →
    (s.writer.wstate = .closed → exec .close s = .next (finish .closed 0 s))
      ∧ (s.writer.wstate = .errored →
          ∃ trail, exec .close s = .next
            { s with
              writer := { s.writer with wstate := .closed }
              trail := trail, result := 0, resultCode := .sink, done := true, ctrl := .idle })
      ∧ (s.writer.wstate = .fresh ∨ s.writer.wstate = .streaming → s.writer.wmode = .unbuffered ∨ s.writer.ibuf = [] →
          ∃ trail, exec .close s = .next
            { s with
              writer := { s.writer with wstate := .closed }
              trail := trail, result := 0, resultCode := .ok, done := true, ctrl := .idle })
      ∧ (s.writer.wstate = .fresh ∨ s.writer.wstate = .streaming → s.writer.wmode = .buffered → s.writer.ibuf ≠ [] →
          s.table.wf → s.raced = false →
          (∀ rest, s.answers = List.replicate ts.length .ok ++ rest →
              ∃ table obuf dp trail, exec .close s = .next
                { s with
                  writer := { s.writer with wstate := .closed, hdr := true, ibuf := [] }
                  sinkLog := s.sinkLog ++ takenLog ts, answers := rest
                  table := table, obuf := obuf, dp := dp, trail := trail
                  result := 0, resultCode := .ok, done := true, ctrl := .idle })
            ∧ ∀ k b code consumed rest, ts[k]? = some b →
                s.answers = List.replicate k .ok ++ .err code consumed :: rest →
                ∃ table obuf dp trail, exec .close s = .next
                  { s with
                    writer := { s.writer with wstate := .closed, hdr := true, ibuf := [], sinkErr := code.val }
                    sinkLog := s.sinkLog ++ takenLog (ts.take k) ++ [.transfer b (.answered (.err code consumed))]
                    answers := rest
                    table := table, obuf := obuf, dp := dp, trail := trail
                    result := 0, resultCode := .sink, done := true, ctrl := .idle })

/-- How the sink's answers are spread over the engine's steps changes nothing (00 R16, 20 R70). That the model may
batch them is its own choice (log 5, log 6). -/
def Obligations.AnswersInAnyBatches : Prop :=
  ∀ (s : State) (as : List SinkAnswer),
    settle { s with answers := s.answers ++ as } = settle { settle s with answers := (settle s).answers ++ as }

/-- While the sink has given no answer the engine stays where it is; with nothing else scheduled the machine is stuck
(20 R73). That stuck is a fault of an empty schedule is the model's (log 4, log 7). -/
def Obligations.SilentSinkBlocks : Prop :=
  ∀ (s : State) (p : Pending) (rest : List Event), s.ctrl = .waiting p → s.answers = [] →
    (s.events = [] → step s = .fault .stuckOnSink)
      ∧ (s.events = .engine :: rest ∨ s.events = .tick :: rest → step s = .next { s with events := rest })

/-- Small steps of the engine agree with running on: after one the engine still ends where it would have, and enough of them reach
the command's `finish` or its next wait, from where the answers given lead to the same (10 R45, 00 R16, 70 R276). How far one step
goes is the model's (log 6). -/
def Obligations.SmallStepsAgree : Prop :=
  (∀ s t : State, tickStep s = .next t → engineStep t = engineStep s)
    ∧ ∀ s : State, ∃ n t,
        Host.Core.run Sys2Proof.core n { s with events := List.replicate n .tick ++ s.events } = .next t
          ∧ (t.ctrl = .idle ∨ ∃ p, t.ctrl = .waiting p) ∧ engineStep s = .next (settle t)

/-- How many transfers a command offers at most (70 R276). -/
def Obligations.TransfersBounded : Prop :=
  ∀ (s t : State) (i : Instr) (per : Nat), i.layer = .command → MachineInv s → s.ctrl = .accepted →
    per = (if s.params.splitUncompressedTransfer then 2 else 1) → exec i s = .next t →
    t.transferCount ≤ s.transferCount +
      (if i = .write then per * ((s.args.srcLen.toNat + 65535) / 65536 + 1)
       else if i = .flush ∨ i = .close then per else 0)

/-! ### Invariants -/

/-- Every step keeps the machine's invariant (10 R31, R41, R43; 20 R61). -/
def Obligations.MachineInvKept : Prop := ∀ s t : State, MachineInv s → step s = .next t → MachineInv t

/-- Every step keeps: `SINK_ERR` is nonzero exactly when the last response on the stream was `ERR` (10 R31). -/
def Obligations.SinkErrInvKept : Prop := ∀ s t : State, SinkErrInv s → step s = .next t → SinkErrInv t

/-- Every step keeps: a stream is empty while `HDR` is clear, and begins with `MAGIC_CHUNK` once it is set (30 R113, 42 R204). -/
def Obligations.StreamHeadInvKept : Prop := ∀ s t : State, StreamHeadInv s → step s = .next t → StreamHeadInv t

/-- Every step keeps: nothing is stored outside host memory (20 R61, R62). -/
def Obligations.MemoryBoundInvKept : Prop :=
  ∀ s t : State, MachineInv s → MemoryBoundInv s → step s = .next t → MemoryBoundInv t

/-- The machine after reset meets the invariants (10 R49). -/
def Obligations.ResetMeetsInvariants : Prop :=
  MachineInv State.reset ∧ SinkErrInv State.reset ∧ StreamHeadInv State.reset ∧ MemoryBoundInv State.reset

/-! ### Rules of the whole machine -/

/-- No command touches host memory outside its ranges; only ENCODE writes at all (20 R63). -/
def Obligations.CommandsStayInRanges : Prop :=
  ∀ (s t : State) (i : Instr), i.layer = .command → MachineInv s → exec i s = .next t →
    (i ≠ .encode → ∀ a, memGet t.mem a = memGet s.mem a)
      ∧ (i = .encode → ∀ a, a ∉ s.racedBytes →
          ¬(s.args.dstAddr.toNat ≤ a ∧ a < s.args.dstAddr.toNat + s.args.dstCap.toNat) → memGet t.mem a = memGet s.mem a)
      ∧ (i = .encode → s.raced = false → t.resultCode = .ok → t.result.toNat ≤ s.args.dstCap.toNat)

/-- What no command changes, what only the writer's commands change, and what only those that frame or encode change
(10 R47, 42 R217, 70 R263). -/
def Obligations.CommandFrame : Prop :=
  ∀ (s t : State) (i : Instr), i.layer = .command → exec i s = .next t →
    (t.params = s.params ∧ t.irqEn = s.irqEn ∧ t.cmdOverrun = s.cmdOverrun ∧ t.srcAddr = s.srcAddr ∧ t.srcLen = s.srcLen
        ∧ t.dstAddr = s.dstAddr ∧ t.dstCap = s.dstCap ∧ t.args = s.args ∧ t.refusalMark = s.refusalMark
        ∧ t.raceMark = s.raceMark ∧ t.reader = s.reader ∧ t.busData = s.busData ∧ t.events = s.events)
      ∧ (i ≠ .encode → ∀ a, memGet t.mem a = memGet s.mem a)
      ∧ (i = .encode ∨ i = .maxlen ∨ (∃ w, i = .illegal w) →
          t.writer = s.writer ∧ t.sinkLog = s.sinkLog ∧ t.obuf = s.obuf)
      ∧ (i ≠ .encode ∧ i ≠ .write ∧ i ≠ .flush ∧ i ≠ .close → t.table = s.table ∧ t.dp = s.dp)
      ∧ ((∀ mode, i ≠ .initWriter mode) → t.writer.wmode = s.writer.wmode)

/-- The refusal and race marks are never cleared (00 R18, 70 R270). -/
def Obligations.MarksSticky : Prop :=
  ∀ s t : State, step s = .next t → (s.refusalMark = true → t.refusalMark = true) ∧ (s.raceMark = true → t.raceMark = true)

/-- `CMD_OVERRUN` is set by a `CMD` write while busy, and stays until a `STATUS` write with bit 2 or hardware reset (10 R27). -/
def Obligations.OverrunSticky : Prop :=
  (∀ (s : State) (addr w : Word) (rest : List Event), s.events = .host (.csrStore addr .word w) :: rest →
      csrOffset s.params addr = 0x0C → s.busy = true → step s = .next { s with events := rest, cmdOverrun := true })
    ∧ ∀ s t : State, s.cmdOverrun = true → step s = .next t →
        t.cmdOverrun = true ∨ (∃ d rest, s.events = .hardReset d :: rest)
          ∨ ∃ addr w rest, s.events = .host (.csrStore addr .word w) :: rest ∧ csrOffset s.params addr = 0x10
              ∧ w.getLsbD 2 = true

/-- `RESULT` and `RESULT_CODE` change only at hardware reset or at a `finish`: of a running command, or of an illegal word written
to `CMD` (10 R29, R36, 60 R235). -/
def Obligations.ResultChangesAtFinish : Prop :=
  ∀ s t : State, step s = .next t → (∀ d rest, s.events ≠ .hardReset d :: rest) →
    (t.result = s.result ∧ t.resultCode = s.resultCode)
      ∨ (t.busy = false ∧ t.done = true
          ∧ (s.busy = true ∨ ∃ addr w rest, s.events = .host (.csrStore addr .word w) :: rest
              ∧ csrOffset s.params addr = 0x0C ∧ w ∉ legalWords))

/-- Only INIT_WRITER, RESET_STREAM and hardware reset clear `HDR` or `SINK_ERR` (42 R204, 10 R37). -/
def Obligations.HeaderAndErrorCleared : Prop :=
  ∀ s t : State, MachineInv s → step s = .next t →
    ((s.writer.hdr = true → t.writer.hdr = true) ∧ (s.writer.sinkErr ≠ 0 → t.writer.sinkErr = s.writer.sinkErr))
      ∨ (∃ d rest, s.events = .hardReset d :: rest)
      ∨ (s.ctrl = .accepted ∧ (s.args.instr = .resetStream ∨ ∃ mode, s.args.instr = .initWriter mode))

/-- Writes to the argument CSRs and to `CTRL` do not reach the running command (10 R40, 70 R273). -/
def Obligations.ArgumentsAreLatched : Prop :=
  ∀ (s t : State) (a b c d : Word) (q : Bool) (move : State → Host.Outcome State Fault Refusal),
    move = engineStep ∨ move = tickStep → move s = .next t →
    move { s with srcAddr := a, srcLen := b, dstAddr := c, dstCap := d, irqEn := q } =
      .next { t with srcAddr := a, srcLen := b, dstAddr := c, dstCap := d, irqEn := q }

/-! ### The host's accesses (files 10, 20, 60, 70) -/

/-- An access to the window that is no aligned 32-bit one sets the refusal mark and has no effect (20 R66). -/
def Obligations.CsrAccessRefused : Prop :=
  ∀ (s : State) (addr w : Word) (width : AccessWidth),
    (csrOffset s.params addr < 256 → width ≠ .word ∨ csrOffset s.params addr % 4 ≠ 0 →
        hostStep (.csrLoad addr width) s = .next { s with refusalMark := true }
          ∧ hostStep (.csrStore addr width w) s = .next { s with refusalMark := true })
      ∧ (csrOffset s.params addr < 256 → width = .word → csrOffset s.params addr % 4 = 0 → ∀ t,
          hostStep (.csrLoad addr width) s = .next t ∨ hostStep (.csrStore addr width w) s = .next t →
          t.refusalMark = s.refusalMark)

/-- The fields of `STATUS` (10 R24 to R29). -/
def Obligations.StatusLayout : Prop :=
  ∀ (s : State) (v : WriterView),
    (statusWord s v).getLsbD 0 = s.busy ∧ (statusWord s v).getLsbD 1 = s.done
      ∧ (statusWord s v).getLsbD 2 = s.cmdOverrun ∧ (statusWord s v).getLsbD 3 = false
      ∧ (statusWord s v).extractLsb' 4 2 =
          (match v.wstate with
            | .fresh => 0
            | .streaming => 1
            | .errored => 2
            | .closed => 3)
      ∧ (statusWord s v).getLsbD 6 = (v.wmode = .buffered : Bool) ∧ (statusWord s v).getLsbD 7 = v.hdr
      ∧ (statusWord s v).extractLsb' 8 8 =
          (match s.resultCode with
            | .ok => 0x00
            | .illegalCmd => 0x01
            | .address => 0x02
            | .tooLarge => 0x03
            | .dstTooSmall => 0x04
            | .overlap => 0x05
            | .closed => 0x06
            | .sink => 0x07)
      ∧ (statusWord s v).extractLsb' 16 16 = 0

/-- What a read of each CSR of an idle engine returns, and what a write to each but `CMD` does (10 R20 to R39). Where the
read value stands is the model's (log 17). -/
def Obligations.CsrRegisters : Prop :=
  ∀ (s : State) (addr w : Word) (off : Nat), csrOffset s.params addr = off → off < 256 → off % 4 = 0 →
    (s.busy = false →
        hostStep (.csrLoad addr .word) s = .next
          { s with
            busData :=
              if off = 0x00 then 0x59504E53 else if off = 0x04 then 0x00000001
              else if off = 0x08 then (if s.irqEn then 1 else 0)
              else if off = 0x10 then s.status
              else if off = 0x14 then s.srcAddr else if off = 0x18 then s.srcLen
              else if off = 0x1C then s.dstAddr else if off = 0x20 then s.dstCap
              else if off = 0x24 then s.result else if off = 0x28 then s.writer.sinkErr
              else if off = 0x2C then BitVec.ofNat 32 (s.writer.ibuf.length % 2 ^ 17)
              else 0 })
      ∧ (off ≠ 0x0C →
        hostStep (.csrStore addr .word w) s = .next
          { s with
            irqEn := if off = 0x08 then w.getLsbD 0 else s.irqEn
            done := if off = 0x10 then s.done && !w.getLsbD 1 else s.done
            cmdOverrun := if off = 0x10 then s.cmdOverrun && !w.getLsbD 2 else s.cmdOverrun
            srcAddr := if off = 0x14 then w else s.srcAddr
            srcLen := if off = 0x18 then w else s.srcLen
            dstAddr := if off = 0x1C then w else s.dstAddr
            dstCap := if off = 0x20 then w else s.dstCap })

/-- A read while busy shows the writer as it was at some point of the command; the rest is as it stands, so `RESULT` and
`RESULT_CODE` are the previous command's (10 R28, R36, 70 R273). Which points those are is the model's (log 8). -/
def Obligations.BusyReads : Prop :=
  ∀ (s : State) (addr : Word), s.busy = true → csrOffset s.params addr < 256 → csrOffset s.params addr % 4 = 0 →
    ∃ v, (v ∈ busyViews s ∨ v = s.writer.view) ∧
      hostStep (.csrLoad addr .word) s = .next
        { s with busData := csrValue s v (csrOffset s.params addr), draws := s.draws + 1 }

/-- When the interrupt output rises and falls (60 R237). -/
def Obligations.Interrupt : Prop :=
  ∀ (s : State) (code : ResultCode) (r w : Word) (d : ResetDraw),
    s.irq = (s.done && s.irqEn) ∧ (finish code r s).irq = s.irqEn ∧ (accept w s).irq = false ∧ (hardReset d s).irq = false
      ∧ (csrStoreValue 0x08 w s).irq = (s.done && w.getLsbD 0)
      ∧ (csrStoreValue 0x10 w s).irq = (s.done && !w.getLsbD 1 && s.irqEn)

/-- Hardware reset gives every piece of the block's state its reset value; an abandoned command leaves its pending transfer as
answered, or cut short, and, for ENCODE, destination bytes that are old or its own (10 R49, 70 R260, R261). What outside the block stays, that the
sink's record marks the new stream, and that the draws are the event's are the model's (log 11, log 18, log 27). -/
def Obligations.HardwareReset : Prop :=
  (∀ (s : State) (d : ResetDraw) (rest : List Event), s.events = .hardReset d :: rest →
      step s = .next (hardReset d { s with events := rest }))
    ∧ ∀ (s t : State) (d : ResetDraw), t = hardReset d s →
      (t.irqEn = false ∧ t.status = 0 ∧ t.done = false ∧ t.cmdOverrun = false ∧ t.resultCode = .ok ∧ t.srcAddr = 0
          ∧ t.srcLen = 0 ∧ t.dstAddr = 0 ∧ t.dstCap = 0 ∧ t.result = 0 ∧ t.writer = ⟨.fresh, .unbuffered, false, [], 0⟩
          ∧ t.ctrl = .idle ∧ t.irq = false)
        ∧ (∀ p, s.ctrl = .waiting p →
            t.sinkLog = s.sinkLog ++ [.transfer p.bytes (match s.answers with
                | [] => .abandoned d.consumed
                | a :: _ => .answered a), .newStream] ∧ t.mem = s.mem)
        ∧ ((∀ p, s.ctrl ≠ .waiting p) → t.sinkLog = s.sinkLog ++ [.newStream])
        ∧ (s.ctrl = .idle → t.mem = s.mem)
        ∧ (s.mem.wf → s.raced = false → ∀ a, memGet t.mem a = memGet s.mem a
            ∨ (s.args.instr = .encode ∧ ∃ k, a = s.args.dstAddr.toNat + k
                ∧ s.pendingOutput.bytes[k]? = some (memGet t.mem a)))
        ∧ t.params = s.params ∧ t.refusalMark = s.refusalMark ∧ t.raceMark = s.raceMark

/-- A host store in a range the running command owns sets the race mark; any other stores its byte and sets none, and a load
never does (70 R270); an access past the end of host memory is refused (00 R18). That an ENCODE owns the whole of (`dst_addr`,
`dst_cap`), what a race records, where the loaded value stands, and the refusal are the model's (log 9, log 10, log 16, log 17). -/
def Obligations.HostMemoryRaces : Prop :=
  ∀ (s : State) (addr : Word) (b : Byte) (src dst : Prop),
    (src ↔ s.busy = true ∧ (s.args.instr = .encode ∨ s.args.instr = .write)
        ∧ s.args.srcAddr.toNat ≤ addr.toNat ∧ addr.toNat < s.args.srcAddr.toNat + s.args.srcLen.toNat) →
    (dst ↔ s.busy = true ∧ s.args.instr = .encode
        ∧ s.args.dstAddr.toNat ≤ addr.toNat ∧ addr.toNat < s.args.dstAddr.toNat + s.args.dstCap.toNat) →
    (s.params.hostMemSize ≤ addr.toNat →
        hostStep (.memStore addr b) s = .next { s with refusalMark := true }
          ∧ hostStep (.memLoad addr) s = .next { s with refusalMark := true })
      ∧ (addr.toNat < s.params.hostMemSize →
        (∃ t, hostStep (.memStore addr b) s = .next t ∧ (src ∨ dst → t.raceMark = true) ∧ (src → t.raced = true)
            ∧ (dst → addr.toNat ∈ t.racedBytes)
            ∧ (src → t.sinkLog.take s.logMark = s.sinkLog.take s.logMark
                ∧ (transfersOf t.sinkLog).map Prod.snd = (transfersOf s.sinkLog).map Prod.snd)
            ∧ (¬src → ¬dst → t = { s with mem := memPut s.mem addr.toNat b }))
          ∧ ∃ v k, hostStep (.memLoad addr) s = .next { s with busData := v, draws := k }
            ∧ (¬dst → v = (memGet s.mem addr.toNat).setWidth 32))

/-! ### The reader (30 R105 to R113) -/

/-- A literal element appends its bytes (30 R105). The mark of a form the engine never emits is the model's (log 26). -/
def Obligations.LiteralsAppend : Prop :=
  ∀ (s : State) (lit : List Byte),
    (1 ≤ lit.length → lit.length ≤ 60 →
        exec (.litInline lit) s = .next { s with reader := { s.reader with out := s.reader.out ++ lit } })
      ∧ (1 ≤ lit.length → lit.length ≤ 256 →
        exec (.lit1 lit) s = .next { s with reader := { s.reader with
          out := s.reader.out ++ lit, neverEmitted := s.reader.neverEmitted || lit.length < 61 } })
      ∧ (1 ≤ lit.length → lit.length ≤ 65536 →
        exec (.lit2 lit) s = .next { s with reader := { s.reader with
          out := s.reader.out ++ lit, neverEmitted := s.reader.neverEmitted || lit.length < 257 } })
      ∧ exec (.lit3 lit) s = .next { s with reader := { s.reader with out := s.reader.out ++ lit, neverEmitted := true } }
      ∧ exec (.lit4 lit) s = .next { s with reader := { s.reader with out := s.reader.out ++ lit, neverEmitted := true } }

/-- A copy element appends, one at a time, the bytes `offset` back; one that reaches before the output stops (30 R105).
The stop's name and the mark are the model's (log 13, log 26). -/
def Obligations.CopiesAppend : Prop :=
  ∀ (s : State) (i : Instr) (offset length : Nat) (odd : Bool),
    (∃ o l, i = .copy1 o l ∧ offset = o.toNat ∧ length = l.toNat + 4 ∧ odd = false)
      ∨ (∃ o l, i = .copy2 o l ∧ offset = o.toNat ∧ length = l.toNat + 1
          ∧ odd = decide (length < 4 ∨ length < 12 ∧ offset < 2048))
      ∨ (∃ o l, i = .copy4 o l ∧ offset = o.toNat ∧ length = l.toNat + 1 ∧ odd = true) →
    (1 ≤ offset → offset ≤ s.reader.out.length →
        ∃ out, exec i s = .next { s with reader := { s.reader with
              out := out, neverEmitted := s.reader.neverEmitted || odd } }
          ∧ out.length = s.reader.out.length + length
          ∧ (∀ j, j < s.reader.out.length → out[j]? = s.reader.out[j]?)
          ∧ ∀ k, k < length → out[s.reader.out.length + k]? = out[s.reader.out.length - offset + k]?)
      ∧ (offset = 0 ∨ s.reader.out.length < offset → exec i s = .fault .copyOutOfRange)

/-- The stream identifier stands once at the head; a data chunk after it appends its checked content (30 R109 to R113). On anything
else the reader stops: that it does, and the stops' names, are the model's (log 13). -/
def Obligations.ChunksRead : Prop :=
  ∀ (s : State) (crc : Word) (payload data u : List Byte),
    (payload = [0x73, 0x4E, 0x61, 0x50, 0x70, 0x59] →
        (s.reader.headed = false →
            exec (.chunkStreamId payload) s = .next { s with reader := { s.reader with headed := true } })
          ∧ (s.reader.headed = true → exec (.chunkStreamId payload) s = .fault .repeatedStreamId))
      ∧ (payload ≠ [0x73, 0x4E, 0x61, 0x50, 0x70, 0x59] → exec (.chunkStreamId payload) s = .fault .badStreamId)
      ∧ (s.reader.headed = true → crc = mask (crc32c u) →
        exec (.chunkUncompressed crc u) s = .next { s with reader := { s.reader with out := s.reader.out ++ u } }
          ∧ (decodeBlock data = some u →
              exec (.chunkCompressed crc data) s = .next { s with reader := { s.reader with out := s.reader.out ++ u } }))
      ∧ (s.reader.headed = false → exec (.chunkUncompressed crc u) s = .fault .missingStreamId
          ∧ (decodeBlock data = some u → exec (.chunkCompressed crc data) s = .fault .missingStreamId))
      ∧ (s.reader.headed = true → crc ≠ mask (crc32c u) → exec (.chunkUncompressed crc u) s = .fault .crcMismatch
          ∧ (decodeBlock data = some u → exec (.chunkCompressed crc data) s = .fault .crcMismatch))
      ∧ (decodeBlock data = none → exec (.chunkCompressed crc data) s = .fault .badBlock)

/-- The reader reads every chunk the framer makes as the bytes it was made from (00 R2, 42 R201, 20 R83; log 12). -/
def Obligations.FramedChunkReads : Prop :=
  ∀ (rule : TableSizeRule) (u : List Byte) (t : Table) (dp : Datapath) (s : State), 1 ≤ u.length → u.length ≤ 65536 → t.wf →
    s.reader.headed = true →
    exec (frameChunk rule u t dp).chunk s = .next { s with reader := { s.reader with out := s.reader.out ++ u } }

/-- Reading a whole framed stream, step by step, gives the bytes it was framed from (00 R2, 30 R113, 20 R83; log 12). -/
def Obligations.StreamReadsBack : Prop :=
  ∀ (s : State) (p : Params) (us : List (List Byte)), us ≠ [] → (∀ u ∈ us, 1 ≤ u.length ∧ u.length ≤ 65536) →
    s.events = List.replicate (us.length + 1) .reader →
    s.reader = ⟨.stream, (streamTransfers p false us).flatten, [], false, false⟩ →
    Host.Core.run Sys2Proof.core (us.length + 1) s =
      .next { s with events := [], reader := ⟨.stream, [], us.flatten, true, false⟩ }
end

