-- ==== Sys2Proof/Laws/Cells.lean ====
section
/-! SUPPORT. The laws of the sparse cells, and of host memory and the hash table over them: a read after a write, and that every
operation keeps the canonical form. -/

namespace Sys2Proof.Machine

/-! ### Cells -/

theorem cellsGet_eq_dflt {α : Type} {dflt : α} {cells : List (Nat × α)} {a : Nat} (h : ∀ c ∈ cells, c.1 ≠ a) :
    cellsGet dflt cells a = dflt := by
  induction cells with
  | nil => rfl
  | cons c cells ih =>
    rw [cellsGet, if_neg (h c (by simp)), ih fun c hc => h c (by simp [hc])]

/-- A read after a write to the same key gives the value written, and a write leaves every other key alone. -/
theorem cellsGet_cellsPut {α : Type} [DecidableEq α] {dflt : α} {cells : List (Nat × α)} (h : CellsWf dflt cells) (a b : Nat)
    (v : α) : cellsGet dflt (cellsPut dflt cells a v) b = if a = b then v else cellsGet dflt cells b := by
  induction cells with
  | nil => by_cases hv : v = dflt <;> simp [cellsPut, cellsGet, hv]
  | cons c cells ih =>
    obtain ⟨k, w⟩ := c
    have hc := List.pairwise_cons.1 h.1
    have ih := ih ⟨hc.2, fun c hc => h.2 c (by simp [hc])⟩
    have hrest : ∀ x, x ≤ k → cellsGet dflt cells x = dflt := fun x hx =>
      cellsGet_eq_dflt fun c hcm => by have := hc.1 c hcm; simp only at this; omega
    simp only [cellsPut]
    split
    · rename_i hka
      simp only [cellsGet, ih]
      split
      · subst_vars; rw [if_neg (by omega)]
      · rfl
    · split
      · subst_vars
        split
        · subst_vars
          by_cases hkb : k = b
          · subst hkb; simp [hrest k (Nat.le_refl _)]
          · simp [cellsGet, hkb]
        · by_cases hkb : k = b <;> simp [cellsGet, hkb]
      · split
        · subst_vars
          by_cases hab : a = b
          · subst hab
            have : k ≠ a := by omega
            simp [cellsGet, this, hrest a (by omega)]
          · simp [hab]
        · by_cases hab : a = b <;> simp [cellsGet, hab]

/-- What a write lists: the new cell and old ones. -/
theorem mem_cellsPut {α : Type} [DecidableEq α] {dflt : α} {cells : List (Nat × α)} {a : Nat} {v : α} {c : Nat × α}
    (h : c ∈ cellsPut dflt cells a v) : c ∈ cells ∨ (c = (a, v) ∧ v ≠ dflt) := by
  induction cells with
  | nil => simp only [cellsPut] at h; split at h <;> simp_all
  | cons d cells ih =>
    obtain ⟨k, w⟩ := d
    simp only [cellsPut] at h
    split at h
    · rcases List.mem_cons.1 h with h | h
      · exact .inl (by simp [h])
      · rcases ih h with h | h
        · exact .inl (by simp [h])
        · exact .inr h
    · split at h
      · split at h
        · exact .inl (by simp [h])
        · rcases List.mem_cons.1 h with h | h
          · exact .inr ⟨h, by assumption⟩
          · exact .inl (by simp [h])
      · split at h
        · exact .inl h
        · rcases List.mem_cons.1 h with h | h
          · exact .inr ⟨h, by assumption⟩
          · exact .inl h

/-- A write keeps the canonical form. -/
theorem cellsPut_wf {α : Type} [DecidableEq α] {dflt : α} {cells : List (Nat × α)} (h : CellsWf dflt cells) (a : Nat) (v : α) :
    CellsWf dflt (cellsPut dflt cells a v) := by
  refine ⟨?_, fun c hc => ?_⟩
  · induction cells with
    | nil => simp only [cellsPut]; split <;> simp
    | cons d cells ih =>
      obtain ⟨k, w⟩ := d
      have hc := List.pairwise_cons.1 h.1
      have ih := ih ⟨hc.2, fun c hc => h.2 c (by simp [hc])⟩
      simp only [cellsPut]
      split
      · refine List.pairwise_cons.2 ⟨fun c hcm => ?_, ih⟩
        rcases mem_cellsPut hcm with hcm | ⟨rfl, -⟩
        · exact hc.1 c hcm
        · assumption
      · split
        · split
          · exact hc.2
          · subst_vars; exact List.pairwise_cons.2 ⟨hc.1, hc.2⟩
        · split
          · exact h.1
          · refine List.pairwise_cons.2 ⟨fun c hcm => ?_, h.1⟩
            rcases List.mem_cons.1 hcm with rfl | hcm
            · simp only; omega
            · have := hc.1 c hcm; simp only at this ⊢; omega
  · rcases mem_cellsPut hc with hc | ⟨rfl, hv⟩
    · exact h.2 c hc
    · exact hv

/-- Dropping cells keeps the canonical form. -/
theorem filter_wf {α : Type} {dflt : α} {cells : List (Nat × α)} (h : CellsWf dflt cells) (p : Nat × α → Bool) :
    CellsWf dflt (cells.filter p) :=
  ⟨h.1.filter p, fun c hc => h.2 c (List.mem_of_mem_filter hc)⟩

/-! ### Host memory -/

theorem memGet_memPut {m : Memory} (h : m.wf) (a b : Nat) (v : Byte) : memGet (memPut m a v) b = if a = b then v else memGet m b :=
  cellsGet_cellsPut h a b v

theorem memPut_wf {m : Memory} (h : m.wf) (a : Nat) (v : Byte) : (memPut m a v).wf := cellsPut_wf h a v

theorem memWrite_wf {m : Memory} (h : m.wf) (a : Nat) (bs : List Byte) : (memWrite m a bs).wf := by
  induction bs generalizing m a with
  | nil => exact h
  | cons b bs ih => exact ih (memPut_wf h a b) (a + 1)

/-- `MemWrite` stores its bytes in order from `a` and leaves every other byte alone (20 R61). -/
theorem memGet_memWrite {m : Memory} (h : m.wf) (a : Nat) (bs : List Byte) (x : Nat) :
    memGet (memWrite m a bs) x = if a ≤ x ∧ x < a + bs.length then bs.getD (x - a) 0 else memGet m x := by
  induction bs generalizing m a with
  | nil => rw [memWrite, if_neg (by simp only [List.length_nil]; omega)]
  | cons b bs ih =>
    rw [memWrite, ih (memPut_wf h a b), memGet_memPut h]
    simp only [List.length_cons]
    by_cases hx : x = a
    · subst hx; rw [if_neg (by omega), if_pos rfl, if_pos (by omega)]; simp
    · by_cases hr : a + 1 ≤ x ∧ x < a + 1 + bs.length
      · rw [if_pos hr, if_pos (by omega), show x - a = (x - (a + 1)) + 1 by omega, List.getD_cons_succ]
      · rw [if_neg hr, if_neg (Ne.symm hx), if_neg (by omega)]

@[simp] theorem memRead_length (m : Memory) (a n : Nat) : (memRead m a n).length = n := by simp [memRead]

theorem memRead_getD (m : Memory) (a n k : Nat) (h : k < n) : (memRead m a n).getD k 0 = memGet m (a + k) := by
  simp [memRead, List.getD_eq_getElem?_getD, h]

theorem reset_mem_wf : State.reset.mem.wf := by decide

/-! ### The hash table -/

theorem tablePut_wf {t : Table} (h : t.wf) {k : Nat} (hk : k < Config.maxTableSize) (v : Nat) : (tablePut t k v).wf := by
  refine ⟨cellsPut_wf h.1 k _, fun c hc => ?_⟩
  rcases mem_cellsPut hc with hc | ⟨rfl, -⟩
  · exact h.2 c hc
  · exact hk

theorem tableClear_wf {t : Table} (h : t.wf) (n : Nat) : (tableClear t n).wf :=
  ⟨filter_wf h.1 _, fun c hc => h.2 c (List.mem_of_mem_filter hc)⟩

theorem tableGet_tablePut {t : Table} (h : CellsWf 0 t) (k j v : Nat) :
    tableGet (tablePut t k v) j = if k = j then v % 65536 else tableGet t j := by
  rw [tableGet, tablePut, cellsGet_cellsPut h]
  split
  · simp [BitVec.toNat_ofNat]
  · rfl

/-- Every slot a run uses is zero at its start (41 R168). -/
theorem tableGet_tableClear (t : Table) {n k : Nat} (hk : k < n) : tableGet (tableClear t n) k = 0 := by
  rw [tableGet, cellsGet_eq_dflt]
  · rfl
  · intro c hc
    have := (List.mem_filter.1 hc).2
    simp only [decide_eq_true_eq] at this
    omega

theorem reset_table_wf : State.reset.table.wf := by decide

end Sys2Proof.Machine
end

