-- ==== Sys2Proof/Laws/Block.lean ====
section
/-! SUPPORT. What ENCODE's stores can do, and what a hardware reset leaves of them. -/

namespace Sys2Proof.Machine

/-- Outside a race ENCODE stores its output at the latched destination (41 R180). -/
theorem storeOutput_eq {s : State} (h : s.raced = false) (out : List Byte) :
    s.storeOutput out = { s with mem := memWrite s.mem s.args.dstAddr.toNat out } := by simp [State.storeOutput, h]

/-- Raced or not, ENCODE stores some bytes at the latched destination: its output, or as many as the capacity. -/
theorem storeOutput_cases (s : State) (out : List Byte) :
    ∃ bs k, s.storeOutput out = { s with mem := memWrite s.mem s.args.dstAddr.toNat bs, draws := k }
      ∧ (bs = out ∨ bs.length = s.args.dstCap.toNat) := by
  unfold State.storeOutput
  split
  · exact ⟨_, _, rfl, .inr (by simp [drawBytes])⟩
  · exact ⟨out, s.draws, rfl, .inl rfl⟩

/-- The bytes the host raced on change, and only those; a draw is taken for each. -/
theorem drawRacedBytes_cases (s : State) (as : List Nat) :
    ∃ m k, s.drawRacedBytes as = { s with mem := m, draws := k } ∧ (s.mem.wf → m.wf)
      ∧ (s.mem.wf → ∀ x, x ∉ as → memGet m x = memGet s.mem x) ∧ ∀ c ∈ m, c ∈ s.mem ∨ c.1 ∈ as := by
  induction as generalizing s with
  | nil => exact ⟨s.mem, s.draws, rfl, id, fun _ _ _ => rfl, fun c hc => .inl hc⟩
  | cons a as ih =>
    obtain ⟨m, k, h, hw, hg, hm⟩ :=
      ih { (drawBytes 1 s).2 with mem := memPut s.mem a ((drawBytes 1 s).1.headD 0) }
    refine ⟨m, k, ?_, fun hs => hw (memPut_wf hs _ _), fun hs x hx => ?_, fun c hc => ?_⟩
    · simp only [State.drawRacedBytes, h]; rfl
    · rw [hg (memPut_wf hs _ _) x (by simp_all)]
      simp only [memGet_memPut hs]
      rw [if_neg (by simp_all [eq_comm])]
    · rcases hm c hc with hc | hc
      · rcases mem_cellsPut hc with hc | ⟨rfl, -⟩
        · exact .inl hc
        · exact .inr (by simp)
      · exact .inr (by simp [hc])

/-- A reset during ENCODE changes bytes of the destination only, each within what the command would have written, or within
the capacity after a race (70 R261). -/
theorem landBytes_cases (out : List Byte) (s : State) (ks : List Nat) :
    ∃ m k, landBytes out s ks = { s with mem := m, draws := k } ∧ (s.mem.wf → m.wf)
      ∧ ∀ c ∈ m, c ∈ s.mem ∨ ∃ j, c.1 = s.args.dstAddr.toNat + j ∧ (j < out.length ∨ j < s.args.dstCap.toNat) := by
  induction ks generalizing s with
  | nil => exact ⟨s.mem, s.draws, rfl, id, fun c hc => .inl hc⟩
  | cons j ks ih =>
    unfold landBytes
    split
    · split
      · obtain ⟨m, k, h, hw, hm⟩ := ih
          { (drawBytes 1 s).2 with mem := memPut s.mem (s.args.dstAddr.toNat + j) ((drawBytes 1 s).1.headD 0) }
        refine ⟨m, k, by simp only [h]; rfl, fun hs => hw (memPut_wf hs _ _), fun c hc => ?_⟩
        rcases hm c hc with hc | hc
        · rcases mem_cellsPut hc with hc | ⟨rfl, -⟩
          · exact .inl hc
          · exact .inr ⟨j, rfl, .inr (by assumption)⟩
        · exact .inr hc
      · exact ih s
    · split
      · rename_i b hb
        obtain ⟨m, k, h, hw, hm⟩ := ih { s with mem := memPut s.mem (s.args.dstAddr.toNat + j) b }
        refine ⟨m, k, by simp only [h], fun hs => hw (memPut_wf hs _ _), fun c hc => ?_⟩
        rcases hm c hc with hc | hc
        · rcases mem_cellsPut hc with hc | ⟨rfl, -⟩
          · exact .inl hc
          · exact .inr ⟨j, rfl, .inl (by simpa using (List.getElem?_eq_some_iff.1 hb).1)⟩
        · exact .inr hc
      · exact ih s

end Sys2Proof.Machine
end

