-- ==== Sys2Proof/Laws/State.lean ====
section
/-! SUPPORT. What each named update of the state does to each field: one lemma per field per update, true by rfl. -/

namespace Sys2Proof.Machine

/-! ### `setWriter` -/

@[simp] theorem setWriter_params (s : State) (w : Writer) : (s.setWriter w).params = s.params := rfl
@[simp] theorem setWriter_irqEn (s : State) (w : Writer) : (s.setWriter w).irqEn = s.irqEn := rfl
@[simp] theorem setWriter_done (s : State) (w : Writer) : (s.setWriter w).done = s.done := rfl
@[simp] theorem setWriter_cmdOverrun (s : State) (w : Writer) : (s.setWriter w).cmdOverrun = s.cmdOverrun := rfl
@[simp] theorem setWriter_resultCode (s : State) (w : Writer) : (s.setWriter w).resultCode = s.resultCode := rfl
@[simp] theorem setWriter_srcAddr (s : State) (w : Writer) : (s.setWriter w).srcAddr = s.srcAddr := rfl
@[simp] theorem setWriter_srcLen (s : State) (w : Writer) : (s.setWriter w).srcLen = s.srcLen := rfl
@[simp] theorem setWriter_dstAddr (s : State) (w : Writer) : (s.setWriter w).dstAddr = s.dstAddr := rfl
@[simp] theorem setWriter_dstCap (s : State) (w : Writer) : (s.setWriter w).dstCap = s.dstCap := rfl
@[simp] theorem setWriter_result (s : State) (w : Writer) : (s.setWriter w).result = s.result := rfl
@[simp] theorem setWriter_writer (s : State) (w : Writer) : (s.setWriter w).writer = w := rfl
@[simp] theorem setWriter_args (s : State) (w : Writer) : (s.setWriter w).args = s.args := rfl
@[simp] theorem setWriter_table (s : State) (w : Writer) : (s.setWriter w).table = s.table := rfl
@[simp] theorem setWriter_obuf (s : State) (w : Writer) : (s.setWriter w).obuf = s.obuf := rfl
@[simp] theorem setWriter_dp (s : State) (w : Writer) : (s.setWriter w).dp = s.dp := rfl
@[simp] theorem setWriter_ctrl (s : State) (w : Writer) : (s.setWriter w).ctrl = s.ctrl := rfl
@[simp] theorem setWriter_mem (s : State) (w : Writer) : (s.setWriter w).mem = s.mem := rfl
@[simp] theorem setWriter_sinkLog (s : State) (w : Writer) : (s.setWriter w).sinkLog = s.sinkLog := rfl
@[simp] theorem setWriter_refusalMark (s : State) (w : Writer) : (s.setWriter w).refusalMark = s.refusalMark := rfl
@[simp] theorem setWriter_raceMark (s : State) (w : Writer) : (s.setWriter w).raceMark = s.raceMark := rfl
@[simp] theorem setWriter_reader (s : State) (w : Writer) : (s.setWriter w).reader = s.reader := rfl
@[simp] theorem setWriter_busData (s : State) (w : Writer) : (s.setWriter w).busData = s.busData := rfl
@[simp] theorem setWriter_answers (s : State) (w : Writer) : (s.setWriter w).answers = s.answers := rfl
@[simp] theorem setWriter_raced (s : State) (w : Writer) : (s.setWriter w).raced = s.raced := rfl
@[simp] theorem setWriter_racedBytes (s : State) (w : Writer) : (s.setWriter w).racedBytes = s.racedBytes := rfl
@[simp] theorem setWriter_logMark (s : State) (w : Writer) : (s.setWriter w).logMark = s.logMark := rfl
@[simp] theorem setWriter_trail (s : State) (w : Writer) : (s.setWriter w).trail = s.trail ++ [w.view] := rfl
@[simp] theorem setWriter_events (s : State) (w : Writer) : (s.setWriter w).events = s.events := rfl
@[simp] theorem setWriter_draws (s : State) (w : Writer) : (s.setWriter w).draws = s.draws := rfl

/-! ### `setWState` -/

@[simp] theorem setWState_params (s : State) (v : WState) : (s.setWState v).params = s.params := rfl
@[simp] theorem setWState_irqEn (s : State) (v : WState) : (s.setWState v).irqEn = s.irqEn := rfl
@[simp] theorem setWState_done (s : State) (v : WState) : (s.setWState v).done = s.done := rfl
@[simp] theorem setWState_cmdOverrun (s : State) (v : WState) : (s.setWState v).cmdOverrun = s.cmdOverrun := rfl
@[simp] theorem setWState_resultCode (s : State) (v : WState) : (s.setWState v).resultCode = s.resultCode := rfl
@[simp] theorem setWState_srcAddr (s : State) (v : WState) : (s.setWState v).srcAddr = s.srcAddr := rfl
@[simp] theorem setWState_srcLen (s : State) (v : WState) : (s.setWState v).srcLen = s.srcLen := rfl
@[simp] theorem setWState_dstAddr (s : State) (v : WState) : (s.setWState v).dstAddr = s.dstAddr := rfl
@[simp] theorem setWState_dstCap (s : State) (v : WState) : (s.setWState v).dstCap = s.dstCap := rfl
@[simp] theorem setWState_result (s : State) (v : WState) : (s.setWState v).result = s.result := rfl
@[simp] theorem setWState_writer (s : State) (v : WState) : (s.setWState v).writer = { s.writer with wstate := v } := rfl
@[simp] theorem setWState_args (s : State) (v : WState) : (s.setWState v).args = s.args := rfl
@[simp] theorem setWState_table (s : State) (v : WState) : (s.setWState v).table = s.table := rfl
@[simp] theorem setWState_obuf (s : State) (v : WState) : (s.setWState v).obuf = s.obuf := rfl
@[simp] theorem setWState_dp (s : State) (v : WState) : (s.setWState v).dp = s.dp := rfl
@[simp] theorem setWState_ctrl (s : State) (v : WState) : (s.setWState v).ctrl = s.ctrl := rfl
@[simp] theorem setWState_mem (s : State) (v : WState) : (s.setWState v).mem = s.mem := rfl
@[simp] theorem setWState_sinkLog (s : State) (v : WState) : (s.setWState v).sinkLog = s.sinkLog := rfl
@[simp] theorem setWState_refusalMark (s : State) (v : WState) : (s.setWState v).refusalMark = s.refusalMark := rfl
@[simp] theorem setWState_raceMark (s : State) (v : WState) : (s.setWState v).raceMark = s.raceMark := rfl
@[simp] theorem setWState_reader (s : State) (v : WState) : (s.setWState v).reader = s.reader := rfl
@[simp] theorem setWState_busData (s : State) (v : WState) : (s.setWState v).busData = s.busData := rfl
@[simp] theorem setWState_answers (s : State) (v : WState) : (s.setWState v).answers = s.answers := rfl
@[simp] theorem setWState_raced (s : State) (v : WState) : (s.setWState v).raced = s.raced := rfl
@[simp] theorem setWState_racedBytes (s : State) (v : WState) : (s.setWState v).racedBytes = s.racedBytes := rfl
@[simp] theorem setWState_logMark (s : State) (v : WState) : (s.setWState v).logMark = s.logMark := rfl
@[simp] theorem setWState_trail (s : State) (v : WState) : (s.setWState v).trail = s.trail ++ [Writer.view { s.writer with wstate := v }] := rfl
@[simp] theorem setWState_events (s : State) (v : WState) : (s.setWState v).events = s.events := rfl
@[simp] theorem setWState_draws (s : State) (v : WState) : (s.setWState v).draws = s.draws := rfl

/-! ### `setWMode` -/

@[simp] theorem setWMode_params (s : State) (v : WriterMode) : (s.setWMode v).params = s.params := rfl
@[simp] theorem setWMode_irqEn (s : State) (v : WriterMode) : (s.setWMode v).irqEn = s.irqEn := rfl
@[simp] theorem setWMode_done (s : State) (v : WriterMode) : (s.setWMode v).done = s.done := rfl
@[simp] theorem setWMode_cmdOverrun (s : State) (v : WriterMode) : (s.setWMode v).cmdOverrun = s.cmdOverrun := rfl
@[simp] theorem setWMode_resultCode (s : State) (v : WriterMode) : (s.setWMode v).resultCode = s.resultCode := rfl
@[simp] theorem setWMode_srcAddr (s : State) (v : WriterMode) : (s.setWMode v).srcAddr = s.srcAddr := rfl
@[simp] theorem setWMode_srcLen (s : State) (v : WriterMode) : (s.setWMode v).srcLen = s.srcLen := rfl
@[simp] theorem setWMode_dstAddr (s : State) (v : WriterMode) : (s.setWMode v).dstAddr = s.dstAddr := rfl
@[simp] theorem setWMode_dstCap (s : State) (v : WriterMode) : (s.setWMode v).dstCap = s.dstCap := rfl
@[simp] theorem setWMode_result (s : State) (v : WriterMode) : (s.setWMode v).result = s.result := rfl
@[simp] theorem setWMode_writer (s : State) (v : WriterMode) : (s.setWMode v).writer = { s.writer with wmode := v } := rfl
@[simp] theorem setWMode_args (s : State) (v : WriterMode) : (s.setWMode v).args = s.args := rfl
@[simp] theorem setWMode_table (s : State) (v : WriterMode) : (s.setWMode v).table = s.table := rfl
@[simp] theorem setWMode_obuf (s : State) (v : WriterMode) : (s.setWMode v).obuf = s.obuf := rfl
@[simp] theorem setWMode_dp (s : State) (v : WriterMode) : (s.setWMode v).dp = s.dp := rfl
@[simp] theorem setWMode_ctrl (s : State) (v : WriterMode) : (s.setWMode v).ctrl = s.ctrl := rfl
@[simp] theorem setWMode_mem (s : State) (v : WriterMode) : (s.setWMode v).mem = s.mem := rfl
@[simp] theorem setWMode_sinkLog (s : State) (v : WriterMode) : (s.setWMode v).sinkLog = s.sinkLog := rfl
@[simp] theorem setWMode_refusalMark (s : State) (v : WriterMode) : (s.setWMode v).refusalMark = s.refusalMark := rfl
@[simp] theorem setWMode_raceMark (s : State) (v : WriterMode) : (s.setWMode v).raceMark = s.raceMark := rfl
@[simp] theorem setWMode_reader (s : State) (v : WriterMode) : (s.setWMode v).reader = s.reader := rfl
@[simp] theorem setWMode_busData (s : State) (v : WriterMode) : (s.setWMode v).busData = s.busData := rfl
@[simp] theorem setWMode_answers (s : State) (v : WriterMode) : (s.setWMode v).answers = s.answers := rfl
@[simp] theorem setWMode_raced (s : State) (v : WriterMode) : (s.setWMode v).raced = s.raced := rfl
@[simp] theorem setWMode_racedBytes (s : State) (v : WriterMode) : (s.setWMode v).racedBytes = s.racedBytes := rfl
@[simp] theorem setWMode_logMark (s : State) (v : WriterMode) : (s.setWMode v).logMark = s.logMark := rfl
@[simp] theorem setWMode_trail (s : State) (v : WriterMode) : (s.setWMode v).trail = s.trail ++ [Writer.view { s.writer with wmode := v }] := rfl
@[simp] theorem setWMode_events (s : State) (v : WriterMode) : (s.setWMode v).events = s.events := rfl
@[simp] theorem setWMode_draws (s : State) (v : WriterMode) : (s.setWMode v).draws = s.draws := rfl

/-! ### `setHdr` -/

@[simp] theorem setHdr_params (s : State) (v : Bool) : (s.setHdr v).params = s.params := rfl
@[simp] theorem setHdr_irqEn (s : State) (v : Bool) : (s.setHdr v).irqEn = s.irqEn := rfl
@[simp] theorem setHdr_done (s : State) (v : Bool) : (s.setHdr v).done = s.done := rfl
@[simp] theorem setHdr_cmdOverrun (s : State) (v : Bool) : (s.setHdr v).cmdOverrun = s.cmdOverrun := rfl
@[simp] theorem setHdr_resultCode (s : State) (v : Bool) : (s.setHdr v).resultCode = s.resultCode := rfl
@[simp] theorem setHdr_srcAddr (s : State) (v : Bool) : (s.setHdr v).srcAddr = s.srcAddr := rfl
@[simp] theorem setHdr_srcLen (s : State) (v : Bool) : (s.setHdr v).srcLen = s.srcLen := rfl
@[simp] theorem setHdr_dstAddr (s : State) (v : Bool) : (s.setHdr v).dstAddr = s.dstAddr := rfl
@[simp] theorem setHdr_dstCap (s : State) (v : Bool) : (s.setHdr v).dstCap = s.dstCap := rfl
@[simp] theorem setHdr_result (s : State) (v : Bool) : (s.setHdr v).result = s.result := rfl
@[simp] theorem setHdr_writer (s : State) (v : Bool) : (s.setHdr v).writer = { s.writer with hdr := v } := rfl
@[simp] theorem setHdr_args (s : State) (v : Bool) : (s.setHdr v).args = s.args := rfl
@[simp] theorem setHdr_table (s : State) (v : Bool) : (s.setHdr v).table = s.table := rfl
@[simp] theorem setHdr_obuf (s : State) (v : Bool) : (s.setHdr v).obuf = s.obuf := rfl
@[simp] theorem setHdr_dp (s : State) (v : Bool) : (s.setHdr v).dp = s.dp := rfl
@[simp] theorem setHdr_ctrl (s : State) (v : Bool) : (s.setHdr v).ctrl = s.ctrl := rfl
@[simp] theorem setHdr_mem (s : State) (v : Bool) : (s.setHdr v).mem = s.mem := rfl
@[simp] theorem setHdr_sinkLog (s : State) (v : Bool) : (s.setHdr v).sinkLog = s.sinkLog := rfl
@[simp] theorem setHdr_refusalMark (s : State) (v : Bool) : (s.setHdr v).refusalMark = s.refusalMark := rfl
@[simp] theorem setHdr_raceMark (s : State) (v : Bool) : (s.setHdr v).raceMark = s.raceMark := rfl
@[simp] theorem setHdr_reader (s : State) (v : Bool) : (s.setHdr v).reader = s.reader := rfl
@[simp] theorem setHdr_busData (s : State) (v : Bool) : (s.setHdr v).busData = s.busData := rfl
@[simp] theorem setHdr_answers (s : State) (v : Bool) : (s.setHdr v).answers = s.answers := rfl
@[simp] theorem setHdr_raced (s : State) (v : Bool) : (s.setHdr v).raced = s.raced := rfl
@[simp] theorem setHdr_racedBytes (s : State) (v : Bool) : (s.setHdr v).racedBytes = s.racedBytes := rfl
@[simp] theorem setHdr_logMark (s : State) (v : Bool) : (s.setHdr v).logMark = s.logMark := rfl
@[simp] theorem setHdr_trail (s : State) (v : Bool) : (s.setHdr v).trail = s.trail ++ [Writer.view { s.writer with hdr := v }] := rfl
@[simp] theorem setHdr_events (s : State) (v : Bool) : (s.setHdr v).events = s.events := rfl
@[simp] theorem setHdr_draws (s : State) (v : Bool) : (s.setHdr v).draws = s.draws := rfl

/-! ### `setIbuf` -/

@[simp] theorem setIbuf_params (s : State) (v : List Byte) : (s.setIbuf v).params = s.params := rfl
@[simp] theorem setIbuf_irqEn (s : State) (v : List Byte) : (s.setIbuf v).irqEn = s.irqEn := rfl
@[simp] theorem setIbuf_done (s : State) (v : List Byte) : (s.setIbuf v).done = s.done := rfl
@[simp] theorem setIbuf_cmdOverrun (s : State) (v : List Byte) : (s.setIbuf v).cmdOverrun = s.cmdOverrun := rfl
@[simp] theorem setIbuf_resultCode (s : State) (v : List Byte) : (s.setIbuf v).resultCode = s.resultCode := rfl
@[simp] theorem setIbuf_srcAddr (s : State) (v : List Byte) : (s.setIbuf v).srcAddr = s.srcAddr := rfl
@[simp] theorem setIbuf_srcLen (s : State) (v : List Byte) : (s.setIbuf v).srcLen = s.srcLen := rfl
@[simp] theorem setIbuf_dstAddr (s : State) (v : List Byte) : (s.setIbuf v).dstAddr = s.dstAddr := rfl
@[simp] theorem setIbuf_dstCap (s : State) (v : List Byte) : (s.setIbuf v).dstCap = s.dstCap := rfl
@[simp] theorem setIbuf_result (s : State) (v : List Byte) : (s.setIbuf v).result = s.result := rfl
@[simp] theorem setIbuf_writer (s : State) (v : List Byte) : (s.setIbuf v).writer = { s.writer with ibuf := v } := rfl
@[simp] theorem setIbuf_args (s : State) (v : List Byte) : (s.setIbuf v).args = s.args := rfl
@[simp] theorem setIbuf_table (s : State) (v : List Byte) : (s.setIbuf v).table = s.table := rfl
@[simp] theorem setIbuf_obuf (s : State) (v : List Byte) : (s.setIbuf v).obuf = s.obuf := rfl
@[simp] theorem setIbuf_dp (s : State) (v : List Byte) : (s.setIbuf v).dp = s.dp := rfl
@[simp] theorem setIbuf_ctrl (s : State) (v : List Byte) : (s.setIbuf v).ctrl = s.ctrl := rfl
@[simp] theorem setIbuf_mem (s : State) (v : List Byte) : (s.setIbuf v).mem = s.mem := rfl
@[simp] theorem setIbuf_sinkLog (s : State) (v : List Byte) : (s.setIbuf v).sinkLog = s.sinkLog := rfl
@[simp] theorem setIbuf_refusalMark (s : State) (v : List Byte) : (s.setIbuf v).refusalMark = s.refusalMark := rfl
@[simp] theorem setIbuf_raceMark (s : State) (v : List Byte) : (s.setIbuf v).raceMark = s.raceMark := rfl
@[simp] theorem setIbuf_reader (s : State) (v : List Byte) : (s.setIbuf v).reader = s.reader := rfl
@[simp] theorem setIbuf_busData (s : State) (v : List Byte) : (s.setIbuf v).busData = s.busData := rfl
@[simp] theorem setIbuf_answers (s : State) (v : List Byte) : (s.setIbuf v).answers = s.answers := rfl
@[simp] theorem setIbuf_raced (s : State) (v : List Byte) : (s.setIbuf v).raced = s.raced := rfl
@[simp] theorem setIbuf_racedBytes (s : State) (v : List Byte) : (s.setIbuf v).racedBytes = s.racedBytes := rfl
@[simp] theorem setIbuf_logMark (s : State) (v : List Byte) : (s.setIbuf v).logMark = s.logMark := rfl
@[simp] theorem setIbuf_trail (s : State) (v : List Byte) : (s.setIbuf v).trail = s.trail ++ [Writer.view { s.writer with ibuf := v }] := rfl
@[simp] theorem setIbuf_events (s : State) (v : List Byte) : (s.setIbuf v).events = s.events := rfl
@[simp] theorem setIbuf_draws (s : State) (v : List Byte) : (s.setIbuf v).draws = s.draws := rfl

/-! ### `setSinkErr` -/

@[simp] theorem setSinkErr_params (s : State) (v : Word) : (s.setSinkErr v).params = s.params := rfl
@[simp] theorem setSinkErr_irqEn (s : State) (v : Word) : (s.setSinkErr v).irqEn = s.irqEn := rfl
@[simp] theorem setSinkErr_done (s : State) (v : Word) : (s.setSinkErr v).done = s.done := rfl
@[simp] theorem setSinkErr_cmdOverrun (s : State) (v : Word) : (s.setSinkErr v).cmdOverrun = s.cmdOverrun := rfl
@[simp] theorem setSinkErr_resultCode (s : State) (v : Word) : (s.setSinkErr v).resultCode = s.resultCode := rfl
@[simp] theorem setSinkErr_srcAddr (s : State) (v : Word) : (s.setSinkErr v).srcAddr = s.srcAddr := rfl
@[simp] theorem setSinkErr_srcLen (s : State) (v : Word) : (s.setSinkErr v).srcLen = s.srcLen := rfl
@[simp] theorem setSinkErr_dstAddr (s : State) (v : Word) : (s.setSinkErr v).dstAddr = s.dstAddr := rfl
@[simp] theorem setSinkErr_dstCap (s : State) (v : Word) : (s.setSinkErr v).dstCap = s.dstCap := rfl
@[simp] theorem setSinkErr_result (s : State) (v : Word) : (s.setSinkErr v).result = s.result := rfl
@[simp] theorem setSinkErr_writer (s : State) (v : Word) : (s.setSinkErr v).writer = { s.writer with sinkErr := v } := rfl
@[simp] theorem setSinkErr_args (s : State) (v : Word) : (s.setSinkErr v).args = s.args := rfl
@[simp] theorem setSinkErr_table (s : State) (v : Word) : (s.setSinkErr v).table = s.table := rfl
@[simp] theorem setSinkErr_obuf (s : State) (v : Word) : (s.setSinkErr v).obuf = s.obuf := rfl
@[simp] theorem setSinkErr_dp (s : State) (v : Word) : (s.setSinkErr v).dp = s.dp := rfl
@[simp] theorem setSinkErr_ctrl (s : State) (v : Word) : (s.setSinkErr v).ctrl = s.ctrl := rfl
@[simp] theorem setSinkErr_mem (s : State) (v : Word) : (s.setSinkErr v).mem = s.mem := rfl
@[simp] theorem setSinkErr_sinkLog (s : State) (v : Word) : (s.setSinkErr v).sinkLog = s.sinkLog := rfl
@[simp] theorem setSinkErr_refusalMark (s : State) (v : Word) : (s.setSinkErr v).refusalMark = s.refusalMark := rfl
@[simp] theorem setSinkErr_raceMark (s : State) (v : Word) : (s.setSinkErr v).raceMark = s.raceMark := rfl
@[simp] theorem setSinkErr_reader (s : State) (v : Word) : (s.setSinkErr v).reader = s.reader := rfl
@[simp] theorem setSinkErr_busData (s : State) (v : Word) : (s.setSinkErr v).busData = s.busData := rfl
@[simp] theorem setSinkErr_answers (s : State) (v : Word) : (s.setSinkErr v).answers = s.answers := rfl
@[simp] theorem setSinkErr_raced (s : State) (v : Word) : (s.setSinkErr v).raced = s.raced := rfl
@[simp] theorem setSinkErr_racedBytes (s : State) (v : Word) : (s.setSinkErr v).racedBytes = s.racedBytes := rfl
@[simp] theorem setSinkErr_logMark (s : State) (v : Word) : (s.setSinkErr v).logMark = s.logMark := rfl
@[simp] theorem setSinkErr_trail (s : State) (v : Word) : (s.setSinkErr v).trail = s.trail ++ [Writer.view { s.writer with sinkErr := v }] := rfl
@[simp] theorem setSinkErr_events (s : State) (v : Word) : (s.setSinkErr v).events = s.events := rfl
@[simp] theorem setSinkErr_draws (s : State) (v : Word) : (s.setSinkErr v).draws = s.draws := rfl

/-! ### `setInternals` -/

@[simp] theorem setInternals_params (s : State) (t : Table) (dp : Datapath) : (s.setInternals t dp).params = s.params := rfl
@[simp] theorem setInternals_irqEn (s : State) (t : Table) (dp : Datapath) : (s.setInternals t dp).irqEn = s.irqEn := rfl
@[simp] theorem setInternals_done (s : State) (t : Table) (dp : Datapath) : (s.setInternals t dp).done = s.done := rfl
@[simp] theorem setInternals_cmdOverrun (s : State) (t : Table) (dp : Datapath) : (s.setInternals t dp).cmdOverrun = s.cmdOverrun := rfl
@[simp] theorem setInternals_resultCode (s : State) (t : Table) (dp : Datapath) : (s.setInternals t dp).resultCode = s.resultCode := rfl
@[simp] theorem setInternals_srcAddr (s : State) (t : Table) (dp : Datapath) : (s.setInternals t dp).srcAddr = s.srcAddr := rfl
@[simp] theorem setInternals_srcLen (s : State) (t : Table) (dp : Datapath) : (s.setInternals t dp).srcLen = s.srcLen := rfl
@[simp] theorem setInternals_dstAddr (s : State) (t : Table) (dp : Datapath) : (s.setInternals t dp).dstAddr = s.dstAddr := rfl
@[simp] theorem setInternals_dstCap (s : State) (t : Table) (dp : Datapath) : (s.setInternals t dp).dstCap = s.dstCap := rfl
@[simp] theorem setInternals_result (s : State) (t : Table) (dp : Datapath) : (s.setInternals t dp).result = s.result := rfl
@[simp] theorem setInternals_writer (s : State) (t : Table) (dp : Datapath) : (s.setInternals t dp).writer = s.writer := rfl
@[simp] theorem setInternals_args (s : State) (t : Table) (dp : Datapath) : (s.setInternals t dp).args = s.args := rfl
@[simp] theorem setInternals_table (s : State) (t : Table) (dp : Datapath) : (s.setInternals t dp).table = t := rfl
@[simp] theorem setInternals_obuf (s : State) (t : Table) (dp : Datapath) : (s.setInternals t dp).obuf = s.obuf := rfl
@[simp] theorem setInternals_dp (s : State) (t : Table) (dp : Datapath) : (s.setInternals t dp).dp = dp := rfl
@[simp] theorem setInternals_ctrl (s : State) (t : Table) (dp : Datapath) : (s.setInternals t dp).ctrl = s.ctrl := rfl
@[simp] theorem setInternals_mem (s : State) (t : Table) (dp : Datapath) : (s.setInternals t dp).mem = s.mem := rfl
@[simp] theorem setInternals_sinkLog (s : State) (t : Table) (dp : Datapath) : (s.setInternals t dp).sinkLog = s.sinkLog := rfl
@[simp] theorem setInternals_refusalMark (s : State) (t : Table) (dp : Datapath) : (s.setInternals t dp).refusalMark = s.refusalMark := rfl
@[simp] theorem setInternals_raceMark (s : State) (t : Table) (dp : Datapath) : (s.setInternals t dp).raceMark = s.raceMark := rfl
@[simp] theorem setInternals_reader (s : State) (t : Table) (dp : Datapath) : (s.setInternals t dp).reader = s.reader := rfl
@[simp] theorem setInternals_busData (s : State) (t : Table) (dp : Datapath) : (s.setInternals t dp).busData = s.busData := rfl
@[simp] theorem setInternals_answers (s : State) (t : Table) (dp : Datapath) : (s.setInternals t dp).answers = s.answers := rfl
@[simp] theorem setInternals_raced (s : State) (t : Table) (dp : Datapath) : (s.setInternals t dp).raced = s.raced := rfl
@[simp] theorem setInternals_racedBytes (s : State) (t : Table) (dp : Datapath) : (s.setInternals t dp).racedBytes = s.racedBytes := rfl
@[simp] theorem setInternals_logMark (s : State) (t : Table) (dp : Datapath) : (s.setInternals t dp).logMark = s.logMark := rfl
@[simp] theorem setInternals_trail (s : State) (t : Table) (dp : Datapath) : (s.setInternals t dp).trail = s.trail := rfl
@[simp] theorem setInternals_events (s : State) (t : Table) (dp : Datapath) : (s.setInternals t dp).events = s.events := rfl
@[simp] theorem setInternals_draws (s : State) (t : Table) (dp : Datapath) : (s.setInternals t dp).draws = s.draws := rfl

/-! ### `logSink` -/

@[simp] theorem logSink_params (s : State) (e : SinkEvent) : (s.logSink e).params = s.params := rfl
@[simp] theorem logSink_irqEn (s : State) (e : SinkEvent) : (s.logSink e).irqEn = s.irqEn := rfl
@[simp] theorem logSink_done (s : State) (e : SinkEvent) : (s.logSink e).done = s.done := rfl
@[simp] theorem logSink_cmdOverrun (s : State) (e : SinkEvent) : (s.logSink e).cmdOverrun = s.cmdOverrun := rfl
@[simp] theorem logSink_resultCode (s : State) (e : SinkEvent) : (s.logSink e).resultCode = s.resultCode := rfl
@[simp] theorem logSink_srcAddr (s : State) (e : SinkEvent) : (s.logSink e).srcAddr = s.srcAddr := rfl
@[simp] theorem logSink_srcLen (s : State) (e : SinkEvent) : (s.logSink e).srcLen = s.srcLen := rfl
@[simp] theorem logSink_dstAddr (s : State) (e : SinkEvent) : (s.logSink e).dstAddr = s.dstAddr := rfl
@[simp] theorem logSink_dstCap (s : State) (e : SinkEvent) : (s.logSink e).dstCap = s.dstCap := rfl
@[simp] theorem logSink_result (s : State) (e : SinkEvent) : (s.logSink e).result = s.result := rfl
@[simp] theorem logSink_writer (s : State) (e : SinkEvent) : (s.logSink e).writer = s.writer := rfl
@[simp] theorem logSink_args (s : State) (e : SinkEvent) : (s.logSink e).args = s.args := rfl
@[simp] theorem logSink_table (s : State) (e : SinkEvent) : (s.logSink e).table = s.table := rfl
@[simp] theorem logSink_obuf (s : State) (e : SinkEvent) : (s.logSink e).obuf = s.obuf := rfl
@[simp] theorem logSink_dp (s : State) (e : SinkEvent) : (s.logSink e).dp = s.dp := rfl
@[simp] theorem logSink_ctrl (s : State) (e : SinkEvent) : (s.logSink e).ctrl = s.ctrl := rfl
@[simp] theorem logSink_mem (s : State) (e : SinkEvent) : (s.logSink e).mem = s.mem := rfl
@[simp] theorem logSink_sinkLog (s : State) (e : SinkEvent) : (s.logSink e).sinkLog = s.sinkLog ++ [e] := rfl
@[simp] theorem logSink_refusalMark (s : State) (e : SinkEvent) : (s.logSink e).refusalMark = s.refusalMark := rfl
@[simp] theorem logSink_raceMark (s : State) (e : SinkEvent) : (s.logSink e).raceMark = s.raceMark := rfl
@[simp] theorem logSink_reader (s : State) (e : SinkEvent) : (s.logSink e).reader = s.reader := rfl
@[simp] theorem logSink_busData (s : State) (e : SinkEvent) : (s.logSink e).busData = s.busData := rfl
@[simp] theorem logSink_answers (s : State) (e : SinkEvent) : (s.logSink e).answers = s.answers := rfl
@[simp] theorem logSink_raced (s : State) (e : SinkEvent) : (s.logSink e).raced = s.raced := rfl
@[simp] theorem logSink_racedBytes (s : State) (e : SinkEvent) : (s.logSink e).racedBytes = s.racedBytes := rfl
@[simp] theorem logSink_logMark (s : State) (e : SinkEvent) : (s.logSink e).logMark = s.logMark := rfl
@[simp] theorem logSink_trail (s : State) (e : SinkEvent) : (s.logSink e).trail = s.trail := rfl
@[simp] theorem logSink_events (s : State) (e : SinkEvent) : (s.logSink e).events = s.events := rfl
@[simp] theorem logSink_draws (s : State) (e : SinkEvent) : (s.logSink e).draws = s.draws := rfl

/-! ### `accept` -/

@[simp] theorem accept_params (w : Word) (s : State) : (accept w s).params = s.params := rfl
@[simp] theorem accept_irqEn (w : Word) (s : State) : (accept w s).irqEn = s.irqEn := rfl
@[simp] theorem accept_done (w : Word) (s : State) : (accept w s).done = false := rfl
@[simp] theorem accept_cmdOverrun (w : Word) (s : State) : (accept w s).cmdOverrun = s.cmdOverrun := rfl
@[simp] theorem accept_resultCode (w : Word) (s : State) : (accept w s).resultCode = s.resultCode := rfl
@[simp] theorem accept_srcAddr (w : Word) (s : State) : (accept w s).srcAddr = s.srcAddr := rfl
@[simp] theorem accept_srcLen (w : Word) (s : State) : (accept w s).srcLen = s.srcLen := rfl
@[simp] theorem accept_dstAddr (w : Word) (s : State) : (accept w s).dstAddr = s.dstAddr := rfl
@[simp] theorem accept_dstCap (w : Word) (s : State) : (accept w s).dstCap = s.dstCap := rfl
@[simp] theorem accept_result (w : Word) (s : State) : (accept w s).result = s.result := rfl
@[simp] theorem accept_writer (w : Word) (s : State) : (accept w s).writer = s.writer := rfl
@[simp] theorem accept_args (w : Word) (s : State) : (accept w s).args = ⟨w.extractLsb' 0 8, w.extractLsb' 8 1, s.srcAddr, s.srcLen, s.dstAddr, s.dstCap⟩ := rfl
@[simp] theorem accept_table (w : Word) (s : State) : (accept w s).table = s.table := rfl
@[simp] theorem accept_obuf (w : Word) (s : State) : (accept w s).obuf = s.obuf := rfl
@[simp] theorem accept_dp (w : Word) (s : State) : (accept w s).dp = s.dp := rfl
@[simp] theorem accept_ctrl (w : Word) (s : State) : (accept w s).ctrl = .accepted := rfl
@[simp] theorem accept_mem (w : Word) (s : State) : (accept w s).mem = s.mem := rfl
@[simp] theorem accept_sinkLog (w : Word) (s : State) : (accept w s).sinkLog = s.sinkLog := rfl
@[simp] theorem accept_refusalMark (w : Word) (s : State) : (accept w s).refusalMark = s.refusalMark := rfl
@[simp] theorem accept_raceMark (w : Word) (s : State) : (accept w s).raceMark = s.raceMark := rfl
@[simp] theorem accept_reader (w : Word) (s : State) : (accept w s).reader = s.reader := rfl
@[simp] theorem accept_busData (w : Word) (s : State) : (accept w s).busData = s.busData := rfl
@[simp] theorem accept_answers (w : Word) (s : State) : (accept w s).answers = s.answers := rfl
@[simp] theorem accept_raced (w : Word) (s : State) : (accept w s).raced = false := rfl
@[simp] theorem accept_racedBytes (w : Word) (s : State) : (accept w s).racedBytes = [] := rfl
@[simp] theorem accept_logMark (w : Word) (s : State) : (accept w s).logMark = s.sinkLog.length := rfl
@[simp] theorem accept_trail (w : Word) (s : State) : (accept w s).trail = [s.writer.view] := rfl
@[simp] theorem accept_events (w : Word) (s : State) : (accept w s).events = s.events := rfl
@[simp] theorem accept_draws (w : Word) (s : State) : (accept w s).draws = s.draws := rfl

/-! ### `finish` -/

@[simp] theorem finish_params (code : ResultCode) (r : Word) (s : State) : (finish code r s).params = s.params := rfl
@[simp] theorem finish_irqEn (code : ResultCode) (r : Word) (s : State) : (finish code r s).irqEn = s.irqEn := rfl
@[simp] theorem finish_done (code : ResultCode) (r : Word) (s : State) : (finish code r s).done = true := rfl
@[simp] theorem finish_cmdOverrun (code : ResultCode) (r : Word) (s : State) : (finish code r s).cmdOverrun = s.cmdOverrun := rfl
@[simp] theorem finish_resultCode (code : ResultCode) (r : Word) (s : State) : (finish code r s).resultCode = code := rfl
@[simp] theorem finish_srcAddr (code : ResultCode) (r : Word) (s : State) : (finish code r s).srcAddr = s.srcAddr := rfl
@[simp] theorem finish_srcLen (code : ResultCode) (r : Word) (s : State) : (finish code r s).srcLen = s.srcLen := rfl
@[simp] theorem finish_dstAddr (code : ResultCode) (r : Word) (s : State) : (finish code r s).dstAddr = s.dstAddr := rfl
@[simp] theorem finish_dstCap (code : ResultCode) (r : Word) (s : State) : (finish code r s).dstCap = s.dstCap := rfl
@[simp] theorem finish_result (code : ResultCode) (r : Word) (s : State) : (finish code r s).result = r := rfl
@[simp] theorem finish_writer (code : ResultCode) (r : Word) (s : State) : (finish code r s).writer = s.writer := rfl
@[simp] theorem finish_args (code : ResultCode) (r : Word) (s : State) : (finish code r s).args = s.args := rfl
@[simp] theorem finish_table (code : ResultCode) (r : Word) (s : State) : (finish code r s).table = s.table := rfl
@[simp] theorem finish_obuf (code : ResultCode) (r : Word) (s : State) : (finish code r s).obuf = s.obuf := rfl
@[simp] theorem finish_dp (code : ResultCode) (r : Word) (s : State) : (finish code r s).dp = s.dp := rfl
@[simp] theorem finish_ctrl (code : ResultCode) (r : Word) (s : State) : (finish code r s).ctrl = .idle := rfl
@[simp] theorem finish_mem (code : ResultCode) (r : Word) (s : State) : (finish code r s).mem = s.mem := rfl
@[simp] theorem finish_sinkLog (code : ResultCode) (r : Word) (s : State) : (finish code r s).sinkLog = s.sinkLog := rfl
@[simp] theorem finish_refusalMark (code : ResultCode) (r : Word) (s : State) : (finish code r s).refusalMark = s.refusalMark := rfl
@[simp] theorem finish_raceMark (code : ResultCode) (r : Word) (s : State) : (finish code r s).raceMark = s.raceMark := rfl
@[simp] theorem finish_reader (code : ResultCode) (r : Word) (s : State) : (finish code r s).reader = s.reader := rfl
@[simp] theorem finish_busData (code : ResultCode) (r : Word) (s : State) : (finish code r s).busData = s.busData := rfl
@[simp] theorem finish_answers (code : ResultCode) (r : Word) (s : State) : (finish code r s).answers = s.answers := rfl
@[simp] theorem finish_raced (code : ResultCode) (r : Word) (s : State) : (finish code r s).raced = s.raced := rfl
@[simp] theorem finish_racedBytes (code : ResultCode) (r : Word) (s : State) : (finish code r s).racedBytes = s.racedBytes := rfl
@[simp] theorem finish_logMark (code : ResultCode) (r : Word) (s : State) : (finish code r s).logMark = s.logMark := rfl
@[simp] theorem finish_trail (code : ResultCode) (r : Word) (s : State) : (finish code r s).trail = s.trail := rfl
@[simp] theorem finish_events (code : ResultCode) (r : Word) (s : State) : (finish code r s).events = s.events := rfl
@[simp] theorem finish_draws (code : ResultCode) (r : Word) (s : State) : (finish code r s).draws = s.draws := rfl

/-! ### `drawBytes` -/

@[simp] theorem drawBytes_params (n : Nat) (s : State) : ((drawBytes n s).2).params = s.params := rfl
@[simp] theorem drawBytes_irqEn (n : Nat) (s : State) : ((drawBytes n s).2).irqEn = s.irqEn := rfl
@[simp] theorem drawBytes_done (n : Nat) (s : State) : ((drawBytes n s).2).done = s.done := rfl
@[simp] theorem drawBytes_cmdOverrun (n : Nat) (s : State) : ((drawBytes n s).2).cmdOverrun = s.cmdOverrun := rfl
@[simp] theorem drawBytes_resultCode (n : Nat) (s : State) : ((drawBytes n s).2).resultCode = s.resultCode := rfl
@[simp] theorem drawBytes_srcAddr (n : Nat) (s : State) : ((drawBytes n s).2).srcAddr = s.srcAddr := rfl
@[simp] theorem drawBytes_srcLen (n : Nat) (s : State) : ((drawBytes n s).2).srcLen = s.srcLen := rfl
@[simp] theorem drawBytes_dstAddr (n : Nat) (s : State) : ((drawBytes n s).2).dstAddr = s.dstAddr := rfl
@[simp] theorem drawBytes_dstCap (n : Nat) (s : State) : ((drawBytes n s).2).dstCap = s.dstCap := rfl
@[simp] theorem drawBytes_result (n : Nat) (s : State) : ((drawBytes n s).2).result = s.result := rfl
@[simp] theorem drawBytes_writer (n : Nat) (s : State) : ((drawBytes n s).2).writer = s.writer := rfl
@[simp] theorem drawBytes_args (n : Nat) (s : State) : ((drawBytes n s).2).args = s.args := rfl
@[simp] theorem drawBytes_table (n : Nat) (s : State) : ((drawBytes n s).2).table = s.table := rfl
@[simp] theorem drawBytes_obuf (n : Nat) (s : State) : ((drawBytes n s).2).obuf = s.obuf := rfl
@[simp] theorem drawBytes_dp (n : Nat) (s : State) : ((drawBytes n s).2).dp = s.dp := rfl
@[simp] theorem drawBytes_ctrl (n : Nat) (s : State) : ((drawBytes n s).2).ctrl = s.ctrl := rfl
@[simp] theorem drawBytes_mem (n : Nat) (s : State) : ((drawBytes n s).2).mem = s.mem := rfl
@[simp] theorem drawBytes_sinkLog (n : Nat) (s : State) : ((drawBytes n s).2).sinkLog = s.sinkLog := rfl
@[simp] theorem drawBytes_refusalMark (n : Nat) (s : State) : ((drawBytes n s).2).refusalMark = s.refusalMark := rfl
@[simp] theorem drawBytes_raceMark (n : Nat) (s : State) : ((drawBytes n s).2).raceMark = s.raceMark := rfl
@[simp] theorem drawBytes_reader (n : Nat) (s : State) : ((drawBytes n s).2).reader = s.reader := rfl
@[simp] theorem drawBytes_busData (n : Nat) (s : State) : ((drawBytes n s).2).busData = s.busData := rfl
@[simp] theorem drawBytes_answers (n : Nat) (s : State) : ((drawBytes n s).2).answers = s.answers := rfl
@[simp] theorem drawBytes_raced (n : Nat) (s : State) : ((drawBytes n s).2).raced = s.raced := rfl
@[simp] theorem drawBytes_racedBytes (n : Nat) (s : State) : ((drawBytes n s).2).racedBytes = s.racedBytes := rfl
@[simp] theorem drawBytes_logMark (n : Nat) (s : State) : ((drawBytes n s).2).logMark = s.logMark := rfl
@[simp] theorem drawBytes_trail (n : Nat) (s : State) : ((drawBytes n s).2).trail = s.trail := rfl
@[simp] theorem drawBytes_events (n : Nat) (s : State) : ((drawBytes n s).2).events = s.events := rfl
@[simp] theorem drawBytes_draws (n : Nat) (s : State) : ((drawBytes n s).2).draws = s.draws + n := rfl

/-! ### `drawWord` -/

@[simp] theorem drawWord_params (s : State) : ((drawWord s).2).params = s.params := rfl
@[simp] theorem drawWord_irqEn (s : State) : ((drawWord s).2).irqEn = s.irqEn := rfl
@[simp] theorem drawWord_done (s : State) : ((drawWord s).2).done = s.done := rfl
@[simp] theorem drawWord_cmdOverrun (s : State) : ((drawWord s).2).cmdOverrun = s.cmdOverrun := rfl
@[simp] theorem drawWord_resultCode (s : State) : ((drawWord s).2).resultCode = s.resultCode := rfl
@[simp] theorem drawWord_srcAddr (s : State) : ((drawWord s).2).srcAddr = s.srcAddr := rfl
@[simp] theorem drawWord_srcLen (s : State) : ((drawWord s).2).srcLen = s.srcLen := rfl
@[simp] theorem drawWord_dstAddr (s : State) : ((drawWord s).2).dstAddr = s.dstAddr := rfl
@[simp] theorem drawWord_dstCap (s : State) : ((drawWord s).2).dstCap = s.dstCap := rfl
@[simp] theorem drawWord_result (s : State) : ((drawWord s).2).result = s.result := rfl
@[simp] theorem drawWord_writer (s : State) : ((drawWord s).2).writer = s.writer := rfl
@[simp] theorem drawWord_args (s : State) : ((drawWord s).2).args = s.args := rfl
@[simp] theorem drawWord_table (s : State) : ((drawWord s).2).table = s.table := rfl
@[simp] theorem drawWord_obuf (s : State) : ((drawWord s).2).obuf = s.obuf := rfl
@[simp] theorem drawWord_dp (s : State) : ((drawWord s).2).dp = s.dp := rfl
@[simp] theorem drawWord_ctrl (s : State) : ((drawWord s).2).ctrl = s.ctrl := rfl
@[simp] theorem drawWord_mem (s : State) : ((drawWord s).2).mem = s.mem := rfl
@[simp] theorem drawWord_sinkLog (s : State) : ((drawWord s).2).sinkLog = s.sinkLog := rfl
@[simp] theorem drawWord_refusalMark (s : State) : ((drawWord s).2).refusalMark = s.refusalMark := rfl
@[simp] theorem drawWord_raceMark (s : State) : ((drawWord s).2).raceMark = s.raceMark := rfl
@[simp] theorem drawWord_reader (s : State) : ((drawWord s).2).reader = s.reader := rfl
@[simp] theorem drawWord_busData (s : State) : ((drawWord s).2).busData = s.busData := rfl
@[simp] theorem drawWord_answers (s : State) : ((drawWord s).2).answers = s.answers := rfl
@[simp] theorem drawWord_raced (s : State) : ((drawWord s).2).raced = s.raced := rfl
@[simp] theorem drawWord_racedBytes (s : State) : ((drawWord s).2).racedBytes = s.racedBytes := rfl
@[simp] theorem drawWord_logMark (s : State) : ((drawWord s).2).logMark = s.logMark := rfl
@[simp] theorem drawWord_trail (s : State) : ((drawWord s).2).trail = s.trail := rfl
@[simp] theorem drawWord_events (s : State) : ((drawWord s).2).events = s.events := rfl
@[simp] theorem drawWord_draws (s : State) : ((drawWord s).2).draws = s.draws + 1 := rfl

/-! ### `drawBelow` -/

@[simp] theorem drawBelow_params (n : Nat) (s : State) : ((drawBelow n s).2).params = s.params := rfl
@[simp] theorem drawBelow_irqEn (n : Nat) (s : State) : ((drawBelow n s).2).irqEn = s.irqEn := rfl
@[simp] theorem drawBelow_done (n : Nat) (s : State) : ((drawBelow n s).2).done = s.done := rfl
@[simp] theorem drawBelow_cmdOverrun (n : Nat) (s : State) : ((drawBelow n s).2).cmdOverrun = s.cmdOverrun := rfl
@[simp] theorem drawBelow_resultCode (n : Nat) (s : State) : ((drawBelow n s).2).resultCode = s.resultCode := rfl
@[simp] theorem drawBelow_srcAddr (n : Nat) (s : State) : ((drawBelow n s).2).srcAddr = s.srcAddr := rfl
@[simp] theorem drawBelow_srcLen (n : Nat) (s : State) : ((drawBelow n s).2).srcLen = s.srcLen := rfl
@[simp] theorem drawBelow_dstAddr (n : Nat) (s : State) : ((drawBelow n s).2).dstAddr = s.dstAddr := rfl
@[simp] theorem drawBelow_dstCap (n : Nat) (s : State) : ((drawBelow n s).2).dstCap = s.dstCap := rfl
@[simp] theorem drawBelow_result (n : Nat) (s : State) : ((drawBelow n s).2).result = s.result := rfl
@[simp] theorem drawBelow_writer (n : Nat) (s : State) : ((drawBelow n s).2).writer = s.writer := rfl
@[simp] theorem drawBelow_args (n : Nat) (s : State) : ((drawBelow n s).2).args = s.args := rfl
@[simp] theorem drawBelow_table (n : Nat) (s : State) : ((drawBelow n s).2).table = s.table := rfl
@[simp] theorem drawBelow_obuf (n : Nat) (s : State) : ((drawBelow n s).2).obuf = s.obuf := rfl
@[simp] theorem drawBelow_dp (n : Nat) (s : State) : ((drawBelow n s).2).dp = s.dp := rfl
@[simp] theorem drawBelow_ctrl (n : Nat) (s : State) : ((drawBelow n s).2).ctrl = s.ctrl := rfl
@[simp] theorem drawBelow_mem (n : Nat) (s : State) : ((drawBelow n s).2).mem = s.mem := rfl
@[simp] theorem drawBelow_sinkLog (n : Nat) (s : State) : ((drawBelow n s).2).sinkLog = s.sinkLog := rfl
@[simp] theorem drawBelow_refusalMark (n : Nat) (s : State) : ((drawBelow n s).2).refusalMark = s.refusalMark := rfl
@[simp] theorem drawBelow_raceMark (n : Nat) (s : State) : ((drawBelow n s).2).raceMark = s.raceMark := rfl
@[simp] theorem drawBelow_reader (n : Nat) (s : State) : ((drawBelow n s).2).reader = s.reader := rfl
@[simp] theorem drawBelow_busData (n : Nat) (s : State) : ((drawBelow n s).2).busData = s.busData := rfl
@[simp] theorem drawBelow_answers (n : Nat) (s : State) : ((drawBelow n s).2).answers = s.answers := rfl
@[simp] theorem drawBelow_raced (n : Nat) (s : State) : ((drawBelow n s).2).raced = s.raced := rfl
@[simp] theorem drawBelow_racedBytes (n : Nat) (s : State) : ((drawBelow n s).2).racedBytes = s.racedBytes := rfl
@[simp] theorem drawBelow_logMark (n : Nat) (s : State) : ((drawBelow n s).2).logMark = s.logMark := rfl
@[simp] theorem drawBelow_trail (n : Nat) (s : State) : ((drawBelow n s).2).trail = s.trail := rfl
@[simp] theorem drawBelow_events (n : Nat) (s : State) : ((drawBelow n s).2).events = s.events := rfl
@[simp] theorem drawBelow_draws (n : Nat) (s : State) : ((drawBelow n s).2).draws = s.draws + 1 := rfl

/-! ### `resetBlock` -/

@[simp] theorem resetBlock_params (s : State) : (resetBlock s).params = s.params := rfl
@[simp] theorem resetBlock_irqEn (s : State) : (resetBlock s).irqEn = false := rfl
@[simp] theorem resetBlock_done (s : State) : (resetBlock s).done = false := rfl
@[simp] theorem resetBlock_cmdOverrun (s : State) : (resetBlock s).cmdOverrun = false := rfl
@[simp] theorem resetBlock_resultCode (s : State) : (resetBlock s).resultCode = .ok := rfl
@[simp] theorem resetBlock_srcAddr (s : State) : (resetBlock s).srcAddr = 0 := rfl
@[simp] theorem resetBlock_srcLen (s : State) : (resetBlock s).srcLen = 0 := rfl
@[simp] theorem resetBlock_dstAddr (s : State) : (resetBlock s).dstAddr = 0 := rfl
@[simp] theorem resetBlock_dstCap (s : State) : (resetBlock s).dstCap = 0 := rfl
@[simp] theorem resetBlock_result (s : State) : (resetBlock s).result = 0 := rfl
@[simp] theorem resetBlock_writer (s : State) : (resetBlock s).writer = Writer.reset := rfl
@[simp] theorem resetBlock_args (s : State) : (resetBlock s).args = Args.zero := rfl
@[simp] theorem resetBlock_table (s : State) : (resetBlock s).table = [] := rfl
@[simp] theorem resetBlock_obuf (s : State) : (resetBlock s).obuf = [] := rfl
@[simp] theorem resetBlock_dp (s : State) : (resetBlock s).dp = Datapath.zero := rfl
@[simp] theorem resetBlock_ctrl (s : State) : (resetBlock s).ctrl = .idle := rfl
@[simp] theorem resetBlock_mem (s : State) : (resetBlock s).mem = s.mem := rfl
@[simp] theorem resetBlock_sinkLog (s : State) : (resetBlock s).sinkLog = s.sinkLog := rfl
@[simp] theorem resetBlock_refusalMark (s : State) : (resetBlock s).refusalMark = s.refusalMark := rfl
@[simp] theorem resetBlock_raceMark (s : State) : (resetBlock s).raceMark = s.raceMark := rfl
@[simp] theorem resetBlock_reader (s : State) : (resetBlock s).reader = s.reader := rfl
@[simp] theorem resetBlock_busData (s : State) : (resetBlock s).busData = s.busData := rfl
@[simp] theorem resetBlock_answers (s : State) : (resetBlock s).answers = s.answers := rfl
@[simp] theorem resetBlock_raced (s : State) : (resetBlock s).raced = false := rfl
@[simp] theorem resetBlock_racedBytes (s : State) : (resetBlock s).racedBytes = [] := rfl
@[simp] theorem resetBlock_logMark (s : State) : (resetBlock s).logMark = 0 := rfl
@[simp] theorem resetBlock_trail (s : State) : (resetBlock s).trail = [] := rfl
@[simp] theorem resetBlock_events (s : State) : (resetBlock s).events = s.events := rfl
@[simp] theorem resetBlock_draws (s : State) : (resetBlock s).draws = s.draws := rfl

end Sys2Proof.Machine
end

