-- ==== Sys2Proof/Laws/Writer.lean ====
section
/-! SUPPORT. What the shared operations of the engine can do: completion after a race, storing ENCODE's output, offering a
transfer, framing, taking answers, and the frame they all keep. -/

namespace Sys2Proof.Machine

/-- What no command of the engine touches but for ENCODE's stores: the parameters, the host's registers and flags, host memory,
the marks, the reader and the schedule. -/
structure EngineFrame (s t : State) : Prop where
  params : t.params = s.params
  irqEn : t.irqEn = s.irqEn
  cmdOverrun : t.cmdOverrun = s.cmdOverrun
  srcAddr : t.srcAddr = s.srcAddr
  srcLen : t.srcLen = s.srcLen
  dstAddr : t.dstAddr = s.dstAddr
  dstCap : t.dstCap = s.dstCap
  args : t.args = s.args
  mem : t.mem = s.mem
  refusalMark : t.refusalMark = s.refusalMark
  raceMark : t.raceMark = s.raceMark
  reader : t.reader = s.reader
  busData : t.busData = s.busData
  raced : t.raced = s.raced
  racedBytes : t.racedBytes = s.racedBytes
  events : t.events = s.events

theorem EngineFrame.refl (s : State) : EngineFrame s s := by constructor <;> rfl

theorem EngineFrame.trans {s t u : State} (h : EngineFrame s t) (k : EngineFrame t u) : EngineFrame s u :=
  ⟨k.params.trans h.params, k.irqEn.trans h.irqEn, k.cmdOverrun.trans h.cmdOverrun, k.srcAddr.trans h.srcAddr,
    k.srcLen.trans h.srcLen, k.dstAddr.trans h.dstAddr, k.dstCap.trans h.dstCap, k.args.trans h.args, k.mem.trans h.mem,
    k.refusalMark.trans h.refusalMark, k.raceMark.trans h.raceMark, k.reader.trans h.reader, k.busData.trans h.busData,
    k.raced.trans h.raced, k.racedBytes.trans h.racedBytes, k.events.trans h.events⟩

/-! ### Completion -/

theorem finish_frame (code : ResultCode) (r : Word) (s : State) : EngineFrame s (finish code r s) := by constructor <;> rfl

theorem finishData_eq {s : State} (h : s.raced = false) (code : ResultCode) (n : Nat) :
    finishData code n s = finish code (BitVec.ofNat 32 n) s := by simp [finishData, h]

/-- Raced or not, a completion is `finish` of its code with some result, after at most one draw. -/
theorem finishData_cases (code : ResultCode) (n : Nat) (s : State) :
    ∃ r k, finishData code n s = finish code r { s with draws := k } := by
  unfold finishData
  split
  · exact ⟨_, _, rfl⟩
  · exact ⟨_, s.draws, rfl⟩

theorem finishData_frame (code : ResultCode) (n : Nat) (s : State) : EngineFrame s (finishData code n s) := by
  unfold finishData; split <;> (constructor <;> rfl)

/-! ### Offering and framing -/

theorem offer_eq {s : State} (h : s.raced = false) (bytes payload : List Byte) (after : After) :
    offer bytes payload after s = { s with ctrl := .waiting ⟨bytes, payload, after⟩ } := by simp [offer, raceBytes, h]

/-- An offered transfer is pending, with the bytes staged or, after a race, some nonempty bytes. -/
theorem offer_cases (bytes payload : List Byte) (after : After) (s : State) :
    ∃ b k, offer bytes payload after s = { s with ctrl := .waiting ⟨b, payload, after⟩, draws := k }
      ∧ (b = bytes ∨ s.raced = true ∧ b ≠ []) := by
  unfold offer raceBytes
  split
  · rename_i hr
    refine ⟨_, _, rfl, .inr ⟨hr, ?_⟩⟩
    simp [drawTransfer, drawBytes]
  · exact ⟨bytes, s.draws, rfl, .inl rfl⟩

theorem offer_frame (bytes payload : List Byte) (after : After) (s : State) : EngineFrame s (offer bytes payload after s) := by
  obtain ⟨b, k, h, -⟩ := offer_cases bytes payload after s
  rw [h]; constructor <;> rfl

theorem stageChunk_frame (f : Framed) (s : State) : EngineFrame s (stageChunk f s) := by constructor <;> rfl

/-- `emit_chunk` without a split: one transfer of the staged bytes is pending (42 R202). -/
theorem emitChunk_eq {s : State} (hr : s.raced = false) (hs : s.params.splitUncompressedTransfer = false) (u : List Byte)
    (after : After) :
    emitChunk u after s =
      { s.setHdr true with
        table := (s.frame u).table
        dp := (s.frame u).dp
        obuf := stagedBytes (s.frame u) s
        ctrl := .waiting ⟨stagedBytes (s.frame u) s, [], after⟩ } := by
  have hr' : (stageChunk (s.frame u) s).raced = false := hr
  simp only [emitChunk, emitFramed, splitsChunk, hs, Bool.false_and, Bool.false_eq_true, if_false, offer_eq hr']
  rfl

theorem emitFramed_frame (u : List Byte) (f : Framed) (after : After) (s : State) : EngineFrame s (emitFramed u f after s) := by
  unfold emitFramed
  refine (stageChunk_frame f s).trans ?_
  simp only
  split
  · exact offer_frame ..
  · exact offer_frame ..

theorem emitChunk_frame (u : List Byte) (after : After) (s : State) : EngineFrame s (emitChunk u after s) :=
  emitFramed_frame ..

theorem beginChunk_frame (u : List Byte) (after : After) (s : State) : EngineFrame s (beginChunk u after s) := by
  constructor <;> rfl

/-- A way to emit chunks that keeps the frame. -/
abbrev EmitFrame (emit : List Byte → After → State → State) : Prop := ∀ u after s, EngineFrame s (emit u after s)

/-! ### The loop of a WRITE and the sink's answers -/

theorem raceInput_eq {s : State} (h : s.raced = false) (p : List Byte) : raceInput p s = (p, s) := by simp [raceInput, h]

theorem raceInput_frame (p : List Byte) (s : State) : EngineFrame s (raceInput p s).2 := by
  unfold raceInput; split <;> (constructor <;> rfl)

@[simp] theorem raceInput_length (p : List Byte) (s : State) : (raceInput p s).1.length = p.length := by
  unfold raceInput; split <;> simp [drawBytes]

theorem fillBuffer_frame {emit : List Byte → After → State → State} (he : EmitFrame emit) (p : List Byte) (absorbed : Nat)
    (s : State) : EngineFrame s (fillBuffer emit p absorbed s) := by
  unfold fillBuffer
  simp only
  split
  · exact .trans (by constructor <;> rfl) (he ..)
  · exact .trans (by constructor <;> rfl) (finishData_frame ..)

theorem continueWrite_frame {emit : List Byte → After → State → State} (he : EmitFrame emit) (p : List Byte) (absorbed : Nat)
    (direct : Bool) (s : State) : EngineFrame s (continueWrite emit p absorbed direct s) := by
  unfold continueWrite writeBlock
  refine (raceInput_frame p s).trans ?_
  simp only
  split
  · exact finishData_frame ..
  · split
    · exact he ..
    · split
      · exact he ..
      · exact fillBuffer_frame he ..

theorem afterOk_frame {emit : List Byte → After → State → State} (he : EmitFrame emit) (after : After) (s : State) :
    EngineFrame s (afterOk emit after s) := by
  cases after with
  | write rest absorbed gain direct => exact continueWrite_frame he ..
  | flush => exact finish_frame ..
  | close => exact .trans (by constructor <;> rfl) (finish_frame ..)

theorem afterErr_frame (after : After) (s : State) : EngineFrame s (afterErr after s) := by
  cases after with
  | write rest absorbed gain direct => exact finishData_frame ..
  | flush => exact finish_frame ..
  | close => exact .trans (by constructor <;> rfl) (finish_frame ..)

theorem takeAnswer_frame (a : SinkAnswer) (p : Pending) (s : State) : EngineFrame s (takeAnswer a p s) := by
  cases a with
  | ok =>
    simp only [takeAnswer]
    split
    · exact .trans (by constructor <;> rfl) (afterOk_frame emitChunk_frame ..)
    · exact .trans (by constructor <;> rfl) (offer_frame ..)
  | err code consumed => exact .trans (by constructor <;> rfl) (afterErr_frame ..)

theorem noteAnswer_frame (a : SinkAnswer) (p : Pending) (s : State) : EngineFrame s (noteAnswer a p s) := by
  cases a with
  | ok => simp only [noteAnswer]; split <;> (constructor <;> rfl)
  | err code consumed => exact takeAnswer_frame (.err code consumed) p s

theorem takeAnswers_frame (as : List SinkAnswer) (s : State) : EngineFrame s (takeAnswers as s) := by
  induction as generalizing s with
  | nil => constructor <;> rfl
  | cons a as ih =>
    unfold takeAnswers
    split
    · exact (takeAnswer_frame ..).trans (ih _)
    all_goals constructor <;> rfl

theorem settle_frame (s : State) : EngineFrame s (settle s) := takeAnswers_frame ..

/-- A command that awaits nothing takes no answer. -/
theorem settle_idle {s : State} (h : s.ctrl = .idle) : settle s = s := by
  unfold settle
  cases ha : s.answers with
  | nil => simp [takeAnswers, ← ha]
  | cons a as => simp only [takeAnswers, h]; rw [← ha, ← h]

end Sys2Proof.Machine
end

