-- ==== Sys2Proof/Laws/Engine.lean ====
section
/-! SUPPORT. What one step can do: the inversion of the step function, of a host step and of the reader's step. -/

namespace Sys2Proof.Machine

/-- A step runs the first scheduled event; with nothing scheduled an idle machine stays as it is and a busy engine goes on. -/
theorem step_cases {s t : State} (h : step s = .next t) :
    (∃ e rest, s.events = e :: rest ∧ runEvent e { s with events := rest } = .next t)
      ∨ s.events = [] ∧ (s.ctrl = .idle ∧ t = s ∨ s.ctrl ≠ .idle ∧ engineStep s = .next t) := by
  unfold step at h
  split at h
  · rename_i he
    refine .inr ⟨he, ?_⟩
    unfold runUnscheduled at h
    split at h
    · rename_i hc
      simp only [Host.Outcome.next.injEq] at h
      exact .inl ⟨hc, h.symm⟩
    · rename_i p hc
      split at h
      · simp at h
      · exact .inr ⟨by simp [hc], h⟩
    all_goals exact .inr ⟨by simp_all, h⟩
  · rename_i e rest he
    exact .inl ⟨e, rest, he, h⟩

/-- An event, by its agent. -/
theorem runEvent_cases {e : Event} {s t : State} (h : runEvent e s = .next t) :
    (∃ op, e = .host op ∧ hostStep op s = .next t) ∨ (e = .engine ∧ engineStep s = .next t)
      ∨ (e = .tick ∧ tickStep s = .next t)
      ∨ (∃ a, e = .sink a ∧ t = { s with answers := s.answers ++ [a] }) ∨ (∃ d, e = .hardReset d ∧ t = hardReset d s)
      ∨ (∃ m bs, e = .readerOpen m bs ∧ openReader m bs s = .next t) ∨ (e = .reader ∧ readerStep s = .next t) := by
  cases e with
  | host op => exact .inl ⟨op, rfl, h⟩
  | engine => exact .inr (.inl ⟨rfl, h⟩)
  | tick => exact .inr (.inr (.inl ⟨rfl, h⟩))
  | sink a => simp only [runEvent, Host.Outcome.next.injEq] at h; exact .inr (.inr (.inr (.inl ⟨a, rfl, h.symm⟩)))
  | hardReset d => simp only [runEvent, Host.Outcome.next.injEq] at h; exact .inr (.inr (.inr (.inr (.inl ⟨d, rfl, h.symm⟩))))
  | readerOpen m bs => exact .inr (.inr (.inr (.inr (.inr (.inl ⟨m, bs, rfl, h⟩)))))
  | reader => exact .inr (.inr (.inr (.inr (.inr (.inr ⟨rfl, h⟩)))))

/-- The engine stays idle, runs the command in its latch, or goes on with the command in progress. -/
theorem engineStep_cases {s t : State} (h : engineStep s = .next t) :
    (s.ctrl = .idle ∧ t = s) ∨ (s.ctrl = .accepted ∧ exec s.args.instr s = .next t)
      ∨ (s.ctrl ≠ .idle ∧ s.ctrl ≠ .accepted ∧ t = settle (advance s)) := by
  unfold engineStep at h
  split at h <;> rename_i hc
  · simp only [Host.Outcome.next.injEq] at h
    exact .inl ⟨hc, h.symm⟩
  · exact .inr (.inl ⟨hc, h⟩)
  all_goals
    simp only [Host.Outcome.next.injEq] at h
    exact .inr (.inr ⟨by simp [hc], by simp [hc], h.symm⟩)

/-- A command word is a command. -/
theorem decodeCommand_layer (w : Word) : (decodeCommand w).layer = .command := by
  unfold decodeCommand
  simp only
  repeat' split
  all_goals rfl

/-- The first small step of a command runs it, or starts an ENCODE, a WRITE, or the framing of the buffer. -/
theorem startCommand_cases {s t : State} (h : startCommand s = .next t) :
    exec s.args.instr s = .next t ∨ (s.args.instr = .encode ∧ t = startEncode s) ∨ (s.args.instr = .write ∧ t = startWrite s)
      ∨ s.writer.framesBuffer = true ∧ ((s.args.instr = .flush ∧ t = beginChunk s.writer.ibuf .flush (s.setIbuf []))
          ∨ (s.args.instr = .close ∧ t = beginChunk s.writer.ibuf .close (s.setIbuf []))) := by
  unfold startCommand at h
  split at h <;> rename_i hi <;> rw [hi]
  · simp only [Host.Outcome.next.injEq] at h
    exact .inr (.inl ⟨rfl, h.symm⟩)
  · simp only [Host.Outcome.next.injEq] at h
    exact .inr (.inr (.inl ⟨rfl, h.symm⟩))
  · split at h
    · simp only [Host.Outcome.next.injEq] at h
      exact .inr (.inr (.inr ⟨by assumption, .inl ⟨rfl, h.symm⟩⟩))
    · exact .inl h
  · split at h
    · simp only [Host.Outcome.next.injEq] at h
      exact .inr (.inr (.inr ⟨by assumption, .inr ⟨rfl, h.symm⟩⟩))
    · exact .inl h
  all_goals exact .inl h

/-- A small step of the engine starts a command, takes one step of an encoding, ends it, offers a payload, goes on with a rule,
or takes an answer. -/
theorem tickStep_cases {s t : State} (h : tickStep s = .next t) :
    t = s ∨ (s.ctrl = .accepted ∧ startCommand s = .next t)
      ∨ (∃ e, s.ctrl = .encoding e ∧ t = { s.setInternals (s.encoderStep e).table (s.encoderStep e).dp with
          ctrl := .encoding (s.encoderStep e).progress })
      ∨ (∃ u after e, s.ctrl = .framing u after e ∧ t = { s.setInternals (s.encoderStep e).table (s.encoderStep e).dp with
          ctrl := .framing u after (s.encoderStep e).progress })
      ∨ (s.ctrl ≠ .idle ∧ s.ctrl ≠ .accepted ∧ t = advance s)
      ∨ (∃ after, s.ctrl = .resuming after ∧ t = afterOk beginChunk after s)
      ∨ ∃ p a rest, s.ctrl = .waiting p ∧ s.answers = a :: rest ∧ t = noteAnswer a p { s with answers := rest } := by
  unfold tickStep at h
  split at h <;> rename_i hc
  · simp only [Host.Outcome.next.injEq] at h
    exact .inl h.symm
  · exact .inr (.inl ⟨hc, h⟩)
  · split at h <;> simp only [Host.Outcome.next.injEq] at h
    · exact .inr (.inr (.inr (.inr (.inl ⟨by simp [hc], by simp [hc], h.symm⟩))))
    · exact .inr (.inr (.inl ⟨_, hc, h.symm⟩))
  · split at h <;> simp only [Host.Outcome.next.injEq] at h
    · exact .inr (.inr (.inr (.inr (.inl ⟨by simp [hc], by simp [hc], h.symm⟩))))
    · exact .inr (.inr (.inr (.inl ⟨_, _, _, hc, h.symm⟩)))
  · simp only [Host.Outcome.next.injEq] at h
    exact .inr (.inr (.inr (.inr (.inl ⟨by simp [hc], by simp [hc], h.symm⟩))))
  · simp only [Host.Outcome.next.injEq] at h
    exact .inr (.inr (.inr (.inr (.inr (.inl ⟨_, hc, h.symm⟩)))))
  · split at h <;> simp only [Host.Outcome.next.injEq] at h
    · exact .inl h.symm
    · rename_i a rest ha
      exact .inr (.inr (.inr (.inr (.inr (.inr ⟨_, a, rest, hc, ha, h.symm⟩)))))

/-- A `CMD` write is dropped, accepted, or accepted and finished at once (60 R235). -/
theorem cmdStore_cases {w : Word} {s t : State} (h : cmdStore w s = .next t) :
    (s.busy = true ∧ t = { s with cmdOverrun := true })
      ∨ (s.busy = false ∧ (t = accept w s ∨ t = finish .illegalCmd 0 (accept w s))) := by
  unfold cmdStore at h
  split at h
  · simp only [Host.Outcome.next.injEq] at h
    exact .inl ⟨by assumption, h.symm⟩
  · refine .inr ⟨by simpa using ‹¬s.busy = true›, ?_⟩
    split at h
    · simp only [exec, execIllegal, Host.Outcome.next.injEq] at h
      exact .inr h.symm
    · simp only [Host.Outcome.next.injEq] at h
      exact .inl h.symm

/-- A store to the CSR window ignores the access, marks a refusal, writes a register, or writes `CMD` (20 R66). -/
theorem csrStore_cases {addr : Word} {width : AccessWidth} {w : Word} {s t : State} (h : csrStore addr width w s = .next t) :
    t = s ∨ t = { s with refusalMark := true } ∨ cmdStore w s = .next t
      ∨ (csrOffset s.params addr ≠ 0x0C ∧ t = csrStoreValue (csrOffset s.params addr) w s) := by
  unfold csrStore at h
  split at h
  · split at h
    · exact .inr (.inr (.inl h))
    · simp only [Host.Outcome.next.injEq] at h
      exact .inr (.inr (.inr ⟨by assumption, h.symm⟩))
  · split at h
    · simp only [Host.Outcome.next.injEq] at h
      exact .inr (.inl h.symm)
    · simp only [Host.Outcome.next.injEq] at h
      exact .inl h.symm

/-- A CSR load changes only the bus, the refusal mark and the count of draws. -/
theorem csrLoad_cases (addr : Word) (width : AccessWidth) (s : State) :
    ∃ v m k, csrLoad addr width s = { s with busData := v, refusalMark := m, draws := k }
      ∧ (s.refusalMark = true → m = true) := by
  unfold csrLoad
  split
  · simp only
    split
    · exact ⟨_, _, _, rfl, id⟩
    · exact ⟨_, _, _, rfl, id⟩
  · split
    · exact ⟨_, _, _, rfl, fun _ => rfl⟩
    · exact ⟨_, _, _, rfl, id⟩

/-- A host load of memory is refused, or changes only the bus and the count of draws. -/
theorem memLoad_cases {addr : Word} {s t : State} (h : memLoad addr s = .next t) :
    (s.params.hostMemSize ≤ addr.toNat ∧ t = { s with refusalMark := true })
      ∨ addr.toNat < s.params.hostMemSize ∧ ∃ v k, t = { s with busData := v, draws := k } := by
  unfold memLoad at h
  split at h
  · simp only [Host.Outcome.next.injEq] at h
    exact .inl ⟨by assumption, h.symm⟩
  · refine .inr ⟨by omega, ?_⟩
    split at h <;> (simp only [Host.Outcome.next.injEq] at h; exact ⟨_, _, h.symm⟩)

/-- Transfers drawn anew keep their number, their answers and the marks of new streams, and are not empty. -/
def Redrawn : List SinkEvent → List SinkEvent → Prop :=
  List.Forall₂ fun x y =>
    match x with
    | .newStream => y = .newStream
    | .transfer _ ending => ∃ b, y = .transfer b ending ∧ b ≠ []

theorem redrawLog_cases (s : State) (log : List SinkEvent) :
    ∃ log' k, redrawLog s log = (log', { s with draws := k }) ∧ Redrawn log log' := by
  induction log generalizing s with
  | nil => exact ⟨[], s.draws, rfl, .nil⟩
  | cons e log ih =>
    cases e with
    | newStream =>
      obtain ⟨log', k, h, hr⟩ := ih s
      exact ⟨_, k, by simp only [redrawLog, h], .cons rfl hr⟩
    | transfer b ending =>
      obtain ⟨log', k, h, hr⟩ := ih (drawTransfer s).2
      refine ⟨_, k, by simp only [redrawLog, h]; rfl, .cons ⟨_, rfl, ?_⟩ hr⟩
      simp [drawTransfer, drawBytes]

theorem redrawMade_cases (s : State) :
    ∃ log k, redrawMade s = { s with sinkLog := s.sinkLog.take s.logMark ++ log, draws := k }
      ∧ Redrawn (s.sinkLog.drop s.logMark) log := by
  obtain ⟨log, k, h, hr⟩ := redrawLog_cases s (s.sinkLog.drop s.logMark)
  exact ⟨log, k, by simp only [redrawMade, h], hr⟩

/-- A pending transfer stays pending, with other bytes. -/
theorem redrawPending_cases (s : State) :
    ∃ c k, redrawPending s = { s with ctrl := c, draws := k }
      ∧ (c = s.ctrl ∨ ∃ p b, s.ctrl = .waiting p ∧ c = .waiting { p with bytes := b } ∧ b ≠ []) := by
  unfold redrawPending
  split
  · rename_i p hc
    obtain ⟨b, k, h, hb⟩ := offer_cases p.bytes p.payload p.after s
    refine ⟨_, k, h, ?_⟩
    rcases hb with rfl | ⟨-, hb⟩
    · exact .inl hc.symm
    · exact .inr ⟨p, b, hc, rfl, hb⟩
  all_goals exact ⟨s.ctrl, s.draws, rfl, .inl rfl⟩

/-- A race on the source sets the marks; the running command's transfers keep their answers, and a pending one stays pending. -/
theorem markRace_cases (s : State) :
    ∃ c k log, markRace s = { s with
        ctrl := c, raced := true, raceMark := true, draws := k, sinkLog := s.sinkLog.take s.logMark ++ log }
      ∧ Redrawn (s.sinkLog.drop s.logMark) log
      ∧ (c = s.ctrl ∨ ∃ p b, s.ctrl = .waiting p ∧ c = .waiting { p with bytes := b } ∧ b ≠ []) := by
  obtain ⟨log, k, h, hr⟩ := redrawMade_cases { s with raced := true, raceMark := true }
  obtain ⟨c, k', h', hc⟩ := redrawPending_cases (redrawMade { s with raced := true, raceMark := true })
  rw [h] at hc
  exact ⟨c, k', log, by rw [markRace, h', h], hr, hc⟩

/-- A host store leaves one byte of memory, its own or a free one, and what it records of a race on the destination. -/
theorem storeHostByte_cases (addr : Word) (b : Byte) (s : State) :
    ∃ v rm rb k, storeHostByte addr b s =
        { s with mem := memPut s.mem addr.toNat v, raceMark := rm, racedBytes := rb, draws := k }
      ∧ (s.raceMark = true → rm = true) ∧ ∀ a ∈ rb, a ∈ s.racedBytes ∨ a = addr.toNat := by
  unfold storeHostByte
  split
  · exact ⟨_, _, _, _, rfl, fun _ => rfl, by simp⟩
  · exact ⟨_, _, _, _, rfl, id, fun a ha => .inl ha⟩

/-- A host store is refused, or stores a byte; one in the running command's source is then a race on it. -/
theorem memStore_cases {addr : Word} {b : Byte} {s t : State} (h : memStore addr b s = .next t) :
    (s.params.hostMemSize ≤ addr.toNat ∧ t = { s with refusalMark := true })
      ∨ addr.toNat < s.params.hostMemSize ∧ (t = storeHostByte addr b s ∨ t = markRace (storeHostByte addr b s)) := by
  unfold memStore at h
  split at h
  · simp only [Host.Outcome.next.injEq] at h
    exact .inl ⟨by assumption, h.symm⟩
  · refine .inr ⟨by omega, ?_⟩
    split at h <;> simp only [Host.Outcome.next.injEq] at h
    · exact .inr h.symm
    · exact .inl h.symm

/-- Every element or chunk instruction changes the reader alone. -/
theorem exec_reader {i : Instr} (hi : i.layer ≠ .command) {s t : State} (h : exec i s = .next t) :
    ∃ r, t = { s with reader := r } := by
  have elem : ∀ {i : Instr} {t : State}, readElement i s = .next t → ∃ r, t = { s with reader := r } := by
    intro i t h
    unfold readElement at h
    split at h
    · simp only [Host.Outcome.next.injEq] at h; exact ⟨_, h.symm⟩
    · simp at h
  have chunk : ∀ {c : Word} {u : List Byte} {t : State}, readChunk c u s = .next t → ∃ r, t = { s with reader := r } := by
    intro c u t h
    unfold readChunk at h
    split at h
    · simp at h
    · split at h
      · simp at h
      · simp only [Host.Outcome.next.injEq] at h; exact ⟨_, h.symm⟩
  cases i with
  | encode | maxlen | initWriter | write | flush | close | resetStream | illegal => simp [Instr.layer] at hi
  | litInline lit => exact elem (i := .litInline lit) h
  | lit1 lit => exact elem (i := .lit1 lit) h
  | lit2 lit => exact elem (i := .lit2 lit) h
  | lit3 lit => exact elem (i := .lit3 lit) h
  | lit4 lit => exact elem (i := .lit4 lit) h
  | copy1 o l => exact elem (i := .copy1 o l) h
  | copy2 o l => exact elem (i := .copy2 o l) h
  | copy4 o l => exact elem (i := .copy4 o l) h
  | chunkStreamId p =>
    simp only [exec, execChunkStreamId] at h
    split at h
    · simp at h
    · split at h
      · simp at h
      · simp only [Host.Outcome.next.injEq] at h; exact ⟨_, h.symm⟩
  | chunkCompressed c d =>
    simp only [exec, execChunkCompressed] at h
    split at h
    · exact chunk h
    · simp at h
  | chunkUncompressed c d => exact chunk h

/-- The element decoder gives elements, the chunk decoder chunks. -/
theorem decode_layer {l : Layer} (hl : l ≠ .command) {bs rest : List Byte} {i : Instr} (h : decode l bs = .ok i rest) :
    i.layer = l := by
  have lit : ∀ {make : List Byte → Instr} {n : Nat} {bs : List Byte}, (∀ x, (make x).layer = .element) →
      decodeLiteral make n bs = .ok i rest → i.layer = .element := by
    intro make n bs hm h
    unfold decodeLiteral at h
    split at h
    · simp only [Decoded.ok.injEq] at h; rw [← h.1]; exact hm _
    · simp at h
  have long : ∀ {make : List Byte → Instr} {k : Nat} {bs : List Byte}, (∀ x, (make x).layer = .element) →
      decodeLongLiteral make k bs = .ok i rest → i.layer = .element := by
    intro make k bs hm h
    unfold decodeLongLiteral at h
    split at h
    · exact lit hm h
    · simp at h
  have data : ∀ {make : Word → List Byte → Instr} {p r : List Byte}, (∀ c x, (make c x).layer = .chunk) →
      decodeDataChunk make p r = .ok i rest → i.layer = .chunk := by
    intro make p r hm h
    unfold decodeDataChunk at h
    split at h
    · simp only [Decoded.ok.injEq] at h; rw [← h.1]; exact hm _ _
    · simp at h
  cases l with
  | command => exact absurd rfl hl
  | element =>
    cases bs with
    | nil => simp [decode, decodeElement] at h
    | cons tag bs =>
      simp only [decode, decodeElement] at h
      split at h
      · unfold decodeLiteralTag at h
        split at h
        · exact lit (fun _ => rfl) h
        · split at h
          · exact long (fun _ => rfl) h
          · split at h
            · exact long (fun _ => rfl) h
            · split at h
              · exact long (fun _ => rfl) h
              · exact long (fun _ => rfl) h
      · unfold decodeCopyTag at h
        split at h
        · split at h
          · simp only [Decoded.ok.injEq] at h; rw [← h.1]; rfl
          · simp at h
        · split at h
          · split at h
            · simp only [Decoded.ok.injEq] at h; rw [← h.1]; rfl
            · simp at h
          · split at h
            · simp only [Decoded.ok.injEq] at h; rw [← h.1]; rfl
            · simp at h
  | chunk =>
    cases bs with
    | nil => simp [decode, decodeChunk] at h
    | cons type bs =>
      simp only [decode, decodeChunk] at h
      split at h
      · split at h
        · simp at h
        · split at h
          · simp at h
          · split at h
            · simp only [Decoded.ok.injEq] at h; rw [← h.1]; rfl
            · split at h
              · exact data (fun _ _ => rfl) h
              · exact data (fun _ _ => rfl) h
      · simp at h

/-- A step of the reader changes the reader alone. -/
theorem readerStep_cases {s t : State} (h : readerStep s = .next t) : ∃ r, t = { s with reader := r } := by
  unfold readerStep at h
  split at h
  · simp only [Host.Outcome.next.injEq] at h; exact ⟨s.reader, h.symm⟩
  · split at h
    · rename_i i rest hd
      have hl : s.reader.layer ≠ .command := by unfold Reader.layer; split <;> simp
      obtain ⟨r, hr⟩ := exec_reader (by rw [decode_layer hl hd]; exact hl) h
      exact ⟨r, hr⟩
    · simp at h

/-- Opening the reader changes the reader alone. -/
theorem openReader_cases {m : ReaderMode} {bs : List Byte} {s t : State} (h : openReader m bs s = .next t) :
    ∃ r, t = { s with reader := r } := by
  unfold openReader at h
  split at h
  · simp only [Host.Outcome.next.injEq] at h; exact ⟨_, h.symm⟩
  · split at h
    · simp only [Host.Outcome.next.injEq] at h; exact ⟨_, h.symm⟩
    · simp at h

/-- What a hardware reset keeps: memory but for an abandoned ENCODE's bytes, and everything outside the block (70 R260). -/
theorem hardReset_cases (d : ResetDraw) (s : State) :
    ∃ m log as k, hardReset d s =
        { resetBlock s with mem := m, sinkLog := log ++ [.newStream], answers := as, draws := k }
      ∧ (s.mem.wf → m.wf) := by
  have hm : ∃ m k, abandonMemory d.written s = { s with mem := m, draws := k } ∧ (s.mem.wf → m.wf) := by
    unfold abandonMemory
    split
    · obtain ⟨m, k, h, hw, -⟩ := landBytes_cases s.pendingOutput.bytes s d.written
      exact ⟨m, k, h, hw⟩
    · exact ⟨s.mem, s.draws, rfl, id⟩
  obtain ⟨m, k, h, hw⟩ := hm
  unfold hardReset
  rw [h]
  cases hc : s.ctrl with
  | waiting p => exact ⟨m, _, _, k, by simp only [abandonTransfer]; rfl, hw⟩
  | idle | accepted | encoding | framing | sending | resuming =>
    exact ⟨m, s.sinkLog, s.answers, k, by simp only [abandonTransfer]; rfl, hw⟩

end Sys2Proof.Machine
end

