-- ==== Sys2Proof/Laws/Framer.lean ====
section
/-! SUPPORT. What the encoder and the framer leave: the table in its canonical form, and chunks that fit `OBUF`. -/

namespace Sys2Proof.Machine

theorem tableBits_le (rule : TableSizeRule) (len : Nat) : tableBits rule len ≤ 14 := by
  unfold tableBits; split <;> omega

/-- Whatever the segment's length, a slot the matcher uses is one `TABLE` has (10 R41). -/
theorem hash_lt_maxTableSize (u : Word) (rule : TableSizeRule) (len : Nat) :
    hash u (tableShift rule len) < Config.maxTableSize := by
  have hb := tableBits_le rule len
  unfold hash tableShift
  rw [BitVec.toNat_ushiftRight, Nat.shiftRight_eq_div_pow, Nat.div_lt_iff_lt_mul (by positivity)]
  calc _ < 2 ^ 32 := (u * Config.hashMultiplier).isLt
    _ = Config.maxTableSize * 2 ^ 18 := by norm_num [Config.maxTableSize]
    _ ≤ _ := Nat.mul_le_mul_left _ (Nat.pow_le_pow_right (by norm_num) (by omega))

theorem stepMatcher_wf {g : Segment} (hg : ∀ p, g.slot p < Config.maxTableSize) {m : Matcher} (h : m.table.wf) :
    (stepMatcher g m).table.wf := by
  unfold stepMatcher
  split
  · exact h
  · unfold stepProbe
    simp only
    split
    · exact h
    · split <;> exact tablePut_wf h (hg _) _
  · exact h
  · unfold stepC
    simp only
    split <;> exact tablePut_wf (tablePut_wf h (hg _) _) (hg _) _
  · exact h
  · exact h

theorem runMatcher_wf {g : Segment} (hg : ∀ p, g.slot p < Config.maxTableSize) (n : Nat) {m : Matcher} (h : m.table.wf) :
    (runMatcher g n m).table.wf := by
  induction n generalizing m with
  | zero => unfold runMatcher; split <;> exact h
  | succ n ih => unfold runMatcher; split <;> [exact h; exact ih (stepMatcher_wf hg h)]

theorem encodeSegment_wf (rule : TableSizeRule) {e : Encoding} (h : e.table.wf) (seg : List Byte) :
    (encodeSegment rule e seg).table.wf := by
  unfold encodeSegment
  split
  · exact h
  · exact runMatcher_wf (g := ⟨seg, tableShift rule seg.length⟩) (fun _ => hash_lt_maxTableSize ..) _ (tableClear_wf h _)

theorem encodeSegments_wf (rule : TableSizeRule) (segs : List (List Byte)) {e : Encoding} (h : e.table.wf) :
    (segs.foldl (encodeSegment rule) e).table.wf := by
  induction segs generalizing e with
  | nil => exact h
  | cons a l ih => exact ih (encodeSegment_wf rule h a)

/-- The encoder leaves the table in its canonical form. -/
theorem encodeSrc_wf (rule : TableSizeRule) (src : List Byte) {t : Table} (h : t.wf) (dp : Datapath) :
    (encodeSrc rule src t dp).table.wf := by
  exact encodeSegments_wf rule (segmentsOf src) (e := ⟨[], t, dp⟩) h

theorem slot_lt (rule : TableSizeRule) (r : Run) (p : Nat) : (r.segment rule).slot p < Config.maxTableSize :=
  hash_lt_maxTableSize (loadLe32 r.seg p) rule r.seg.length

theorem stepRun_wf (rule : TableSizeRule) {r : Run} (h : r.matcher.table.wf) : (stepRun rule r).matcher.table.wf := by
  unfold stepRun
  split
  · exact h
  · exact stepMatcher_wf (slot_lt rule r) h

/-- A small step of the encoder keeps the table's form, while the table shows the run in progress. -/
theorem stepEncoder_wf (rule : TableSizeRule) {x : Encoder} (h : x.table.wf)
    (hr : ∀ r, x.progress.run = some r → x.table = r.matcher.table) : (stepEncoder rule x).table.wf := by
  unfold stepEncoder Encoder.count
  split
  · unfold cutSegment
    simp only
    split
    · exact h
    · split
      · exact h
      · exact tableClear_wf h _
  · rename_i r hx
    have hm : r.matcher.table.wf := hr r hx ▸ h
    split
    · exact hm
    · exact stepRun_wf rule hm

/-- After a small step of the encoder the table and the registers show the run in progress. -/
theorem stepEncoder_run (rule : TableSizeRule) {x : Encoder} {r : Run} (h : (stepEncoder rule x).progress.run = some r) :
    (stepEncoder rule x).table = r.matcher.table ∧ ∃ d, (stepEncoder rule x).dp = r.registers rule d := by
  unfold stepEncoder Encoder.count at h ⊢
  split at h <;> rename_i hx
  · unfold cutSegment at h ⊢
    simp only at h ⊢
    split at h
    · simp [hx] at h
    · split at h
      · simp [hx] at h
      · rename_i h1 h2
        simp only [Encoder.setRun, Option.some.injEq] at h
        subst h
        simp only [hx, h1, h2, if_false]
        exact ⟨rfl, _, rfl⟩
  · split at h
    · simp [closeRun] at h
    · rename_i r' h1
      simp only [Encoder.setRun, Option.some.injEq] at h
      subst h
      simp only [h1, if_false]
      exact ⟨rfl, _, rfl⟩

/-- The encoder ends with the table in its canonical form. -/
theorem finishEncoder_wf (rule : TableSizeRule) {x : Encoder} (h : x.table.wf)
    (hr : ∀ r, x.progress.run = some r → x.table = r.matcher.table) : (finishEncoder rule x).table.wf := by
  refine encodeSegments_wf rule (segmentsOf x.progress.rest) ?_
  unfold finishRun
  split
  · exact h
  · rename_i r hx
    exact runMatcher_wf (slot_lt rule r) _ (hr r hx ▸ h)

/-! ### The encoder in small steps ends as at once -/

/-- `closeBlock` puts its own count into `d`. -/
theorem closeBlock_d (len : Nat) (e : Encoding) (d : Word) :
    closeBlock len { e with dp := { e.dp with d := d } } = closeBlock len e := rfl

theorem encodeSegment_d (rule : TableSizeRule) (e : Encoding) (d : Word) (seg : List Byte) :
    encodeSegment rule { e with dp := { e.dp with d := d } } seg =
      { encodeSegment rule e seg with dp := { (encodeSegment rule e seg).dp with d := d } } := by
  unfold encodeSegment
  split <;> rfl

/-- The count so far does not reach the end of the encoding. -/
theorem encodeSegments_d (rule : TableSizeRule) (segs : List (List Byte)) (len : Nat) (e : Encoding) (d : Word) :
    closeBlock len (segs.foldl (encodeSegment rule) { e with dp := { e.dp with d := d } }) =
      closeBlock len (segs.foldl (encodeSegment rule) e) := by
  induction segs generalizing e with
  | nil => rfl
  | cons seg segs ih => rw [List.foldl_cons, encodeSegment_d, ih, List.foldl_cons]

theorem finishEncoder_count (rule : TableSizeRule) (x : Encoder) : finishEncoder rule x.count = finishEncoder rule x := by
  unfold finishEncoder
  have h : finishRun rule x.count =
      { finishRun rule x with dp := { (finishRun rule x).dp with d := x.count.dp.d } } := by
    unfold finishRun Encoder.count
    simp only
    split <;> rfl
  rw [h]
  exact encodeSegments_d ..

/-- The encoder, begun and finished, is `encode(src)` (41 R166). -/
theorem finishEncoder_begin (rule : TableSizeRule) (src : List Byte) (t : Table) (dp : Datapath) :
    finishEncoder rule (beginEncoder src t dp) = encodeSrc rule src t dp := finishEncoder_count ..

/-- The bound on the pieces is enough, and more than enough. -/
theorem segmentLoop_bound (n m : Nat) (p : List Byte) (hn : p.length ≤ 65536 * n) (hm : p.length ≤ 65536 * m) :
    segmentLoop n p = segmentLoop m p := by
  have nil : ∀ k, segmentLoop k [] = [] := by intro k; cases k <;> simp [segmentLoop]
  induction n generalizing m p with
  | zero => have : p = [] := List.eq_nil_of_length_eq_zero (by omega); subst this; rw [nil, nil]
  | succ n ih =>
    cases m with
    | zero => have : p = [] := List.eq_nil_of_length_eq_zero (by omega); subst this; rw [nil, nil]
    | succ m =>
      unfold segmentLoop
      split
      · rfl
      · rw [ih m _ (by simp [Config.maxBlockSize]; omega) (by simp [Config.maxBlockSize]; omega)]

/-- The first piece of a nonempty input, and the pieces of the rest (41 R166). -/
theorem segmentsOf_cons {p : List Byte} (h : p ≠ []) :
    segmentsOf p = p.take Config.maxBlockSize :: segmentsOf (p.drop Config.maxBlockSize) := by
  unfold segmentsOf
  rw [segmentLoop, if_neg h]
  congr 1
  refine segmentLoop_bound _ _ _ ?_ ?_ <;> simp [Config.maxBlockSize] <;> omega

theorem runMatcher_ended {g : Segment} {m : Matcher} (h : m.phase = .ended) (n : Nat) : runMatcher g n m = m := by
  cases n <;> simp [runMatcher, h]

theorem runMatcher_stepRun (rule : TableSizeRule) {r : Run} (h : r.matcher.phase ≠ .ended) :
    runMatcher (r.segment rule) (stepRun rule r).turns (stepRun rule r).matcher =
      runMatcher (r.segment rule) r.turns r.matcher := by
  unfold stepRun
  split <;> rename_i ht <;> conv_rhs => rw [ht, runMatcher, if_neg h]
  exact runMatcher_ended rfl _

/-- The segment cut is the one the driver encodes next (41 R166). -/
theorem finishRun_cutSegment (rule : TableSizeRule) {x : Encoder} (hx : x.progress.run = none) (hr : x.progress.rest ≠ []) :
    finishRun rule (cutSegment rule x) = encodeSegment rule (finishRun rule x) (x.progress.rest.take Config.maxBlockSize)
      ∧ (cutSegment rule x).progress.rest = x.progress.rest.drop Config.maxBlockSize
      ∧ (cutSegment rule x).progress.len = x.progress.len := by
  have h : finishRun rule x = ⟨x.progress.elements, x.table, x.dp⟩ := by simp only [finishRun, hx]
  rw [h]
  unfold cutSegment encodeSegment
  simp only [hr, if_false]
  split
  · exact ⟨by simp only [finishRun, hx], rfl, rfl⟩
  · exact ⟨rfl, rfl, rfl⟩

/-- A small step of the encoder does not change what it ends with (10 R45). -/
theorem finishEncoder_step (rule : TableSizeRule) (x : Encoder) : finishEncoder rule (stepEncoder rule x) = finishEncoder rule x := by
  unfold stepEncoder
  rw [finishEncoder_count]
  split <;> rename_i hx
  · by_cases hr : x.progress.rest = []
    · simp [cutSegment, hr]
    · obtain ⟨h, hrest, hlen⟩ := finishRun_cutSegment rule hx hr
      unfold finishEncoder
      rw [h, hrest, hlen, segmentsOf_cons hr, List.foldl_cons]
  · rename_i r
    unfold finishEncoder
    split <;> rename_i hp
    · have h : finishRun rule (closeRun rule x r) = finishRun rule x := by
        simp only [finishRun, closeRun, hx, runMatcher_ended hp]
      rw [h]; rfl
    · have h : finishRun rule (x.setRun rule (stepRun rule r)) = finishRun rule x := by
        have hs : (stepRun rule r).segment rule = r.segment rule := by unfold stepRun; split <;> rfl
        have hseg : (stepRun rule r).seg = r.seg := by unfold stepRun; split <;> rfl
        simp only [finishRun, Encoder.setRun, hx, hs, runMatcher_stepRun rule hp, Run.registers, hseg, Matcher.registers]
      rw [h]; rfl

/-! ### Chunks -/

/-- A chunk of at most a block is eight header bytes and at most a block of data, whatever encoding is at hand; an uncompressed
one carries its bytes. -/
theorem frameEncoded_length {u : List Byte} (hu : u.length ≤ 65536) (e : Encoded) :
    8 ≤ (encodeInstr (frameEncoded u e).chunk).length ∧ (encodeInstr (frameEncoded u e).chunk).length ≤ 65544
      ∧ (isUncompressedChunk (frameEncoded u e).chunk = true → (encodeInstr (frameEncoded u e).chunk).length = 8 + u.length) := by
  unfold frameEncoded
  by_cases h : selectsCompressed e.bytes.length u.length = true
  · simp only [h, if_true, encodeInstr, encodeChunk, isUncompressedChunk]
    simp only [selectsCompressed, decide_eq_true_eq] at h
    simp
    omega
  · simp only [h, encodeInstr, encodeChunk, isUncompressedChunk]
    simp
    omega

/-- What `emit_chunk` stages fits `OBUF` (10 R43, 42 R201), and is longer than an uncompressed chunk's payload. -/
theorem stagedBytes_length {u : List Byte} (hu : u.length ≤ 65536) (e : Encoded) (s : State) :
    (stagedBytes (frameEncoded u e) s).length ≤ Config.obufCapacity ∧ 8 ≤ (stagedBytes (frameEncoded u e) s).length
      ∧ (isUncompressedChunk (frameEncoded u e).chunk = true → 8 + u.length ≤ (stagedBytes (frameEncoded u e) s).length) := by
  obtain ⟨a, b, c⟩ := frameEncoded_length hu e
  have magic : (if s.writer.hdr = true then [] else Config.magicChunk).length ≤ 10 := by split <;> decide
  unfold stagedBytes
  simp only [List.length_append, Config.obufCapacity]
  refine ⟨by omega, by omega, fun h => ?_⟩
  have := c h
  omega

end Sys2Proof.Machine
end

