-- ==== Sys2Proof/Tests/Slice0.lean ====
section
/-! SUPPORT. The model's own tests. Expected values come from the spec: its test vectors (95) and its encoding tables (30). The
witnesses at the end meet the hypotheses of each statement, at a boundary of each of its clauses. -/

namespace Sys2Proof.Tests

open Sys2Proof.Machine

/-! ### Well-formedness: each check refuses an ill-formed term -/

theorem test_illFormed_legalWord : (Instr.illegal 0x00000110).wellFormed = false := by decide
theorem test_illFormed_emptyLiteral :
    (Instr.litInline []).wellFormed = false ∧ (Instr.lit1 []).wellFormed = false ∧ (Instr.lit2 []).wellFormed = false
      ∧ (Instr.lit3 []).wellFormed = false ∧ (Instr.lit4 []).wellFormed = false := by decide
theorem test_illFormed_longInline : (Instr.litInline (List.replicate 61 0)).wellFormed = false := by decide
theorem test_illFormed_longLit1 : (Instr.lit1 (List.replicate 257 0)).wellFormed = false := by
  simp only [Instr.wellFormed, literalFits, List.length_replicate]; decide
theorem test_illFormed_longLit2 : (Instr.lit2 (List.replicate 65537 0)).wellFormed = false := by
  simp only [Instr.wellFormed, literalFits, List.length_replicate]; decide
theorem test_illFormed_longLit3 : (Instr.lit3 (List.replicate (2 ^ 24 + 1) 0)).wellFormed = false := by
  simp only [Instr.wellFormed, literalFits, List.length_replicate]; decide
theorem test_illFormed_longLit4 : (Instr.lit4 (List.replicate (2 ^ 32 + 1) 0)).wellFormed = false := by
  simp only [Instr.wellFormed, literalFits, List.length_replicate]; decide
theorem test_illFormed_zeroOffset :
    (Instr.copy1 0 3).wellFormed = false ∧ (Instr.copy2 0 3).wellFormed = false ∧ (Instr.copy4 0 3).wellFormed = false := by
  decide
theorem test_illFormed_streamId : (Instr.chunkStreamId [0x73, 0x4E]).wellFormed = false := by decide
theorem test_illFormed_longChunk :
    (Instr.chunkCompressed 0 (List.replicate (2 ^ 24 - 4) 0)).wellFormed = false
      ∧ (Instr.chunkUncompressed 0 (List.replicate (2 ^ 24 - 4) 0)).wellFormed = false := by
  simp only [Instr.wellFormed, List.length_replicate]; decide

/-! ### Decoding: words written out bit by bit from the spec's encodings -/

/-- 30 R91: bits 31:9 reserved, `MODE` in bit 8, `OPCODE` in bits 7:0. -/
theorem test_decode_commands :
    decodeCommand 0b00000000000000000000000_0_00000001 = .encode
      ∧ decodeCommand 0b00000000000000000000000_0_00000010 = .maxlen
      ∧ decodeCommand 0b00000000000000000000000_0_00010000 = .initWriter .unbuffered
      ∧ decodeCommand 0b00000000000000000000000_1_00010000 = .initWriter .buffered
      ∧ decodeCommand 0b00000000000000000000000_0_00010001 = .write
      ∧ decodeCommand 0b00000000000000000000000_0_00010010 = .flush
      ∧ decodeCommand 0b00000000000000000000000_0_00010011 = .close
      ∧ decodeCommand 0b00000000000000000000000_0_00010100 = .resetStream := by decide

/-- 95 V-C3: the words the spec lists as illegal. -/
theorem test_decode_illegal :
    ([0x00000000, 0x00000003, 0x00000015, 0x000000FF, 0x00000101, 0x00000111, 0x00000210, 0x80000011] : List Word).all
      (fun w => decodeCommand w = .illegal w) = true := by decide

/-- A command's four bytes, least significant first (20 R65). -/
theorem test_decode_commandBytes : decode .command [0x10, 0x01, 0x00, 0x00] = .ok (.initWriter .buffered) [] := by decide

/-- 30 R98 to R101: the five literal tags, each with its length bytes. -/
theorem test_decode_literals :
    decode .element [0b000001_00, 0x61, 0x62, 0x63] = .ok (.litInline [0x61, 0x62]) [0x63]
      ∧ decode .element [0b111100_00, 0x01, 0x61, 0x62] = .ok (.lit1 [0x61, 0x62]) []
      ∧ decode .element [0b111101_00, 0x01, 0x00, 0x61, 0x62] = .ok (.lit2 [0x61, 0x62]) []
      ∧ decode .element [0b111110_00, 0x01, 0x00, 0x00, 0x61, 0x62] = .ok (.lit3 [0x61, 0x62]) []
      ∧ decode .element [0b111111_00, 0x01, 0x00, 0x00, 0x00, 0x61, 0x62] = .ok (.lit4 [0x61, 0x62]) [] := by decide

/-- 30 R102 to R104: offset 0x2A5 and length 9 in the three copies; COPY_1 has `offset[10:8]` in bits 7:5. -/
theorem test_decode_copies :
    decode .element [0b010_101_01, 0xA5] = .ok (.copy1 0x2A5 5) []
      ∧ decode .element [0b001000_10, 0xA5, 0x02] = .ok (.copy2 0x02A5 8) []
      ∧ decode .element [0b001000_11, 0xA5, 0x02, 0x00, 0x80] = .ok (.copy4 0x800002A5 8) [] := by decide

/-- 30 R109 to R111 and 95 V-W3: the chunks of "a" and of 18 × "a", and the stream identifier. -/
theorem test_decode_chunks :
    decode .chunk [0xFF, 0x06, 0x00, 0x00, 0x73, 0x4E, 0x61, 0x50, 0x70, 0x59] =
        .ok (.chunkStreamId [0x73, 0x4E, 0x61, 0x50, 0x70, 0x59]) []
      ∧ decode .chunk [0x01, 0x05, 0x00, 0x00, 0x78, 0x6E, 0xE4, 0x28, 0x61] = .ok (.chunkUncompressed 0x28E46E78 [0x61]) []
      ∧ decode .chunk [0x00, 0x0A, 0x00, 0x00, 0x50, 0x6F, 0xF2, 0x47, 0x12, 0x00, 0x61, 0x42, 0x01, 0x00] =
        .ok (.chunkCompressed 0x47F26F50 [0x12, 0x00, 0x61, 0x42, 0x01, 0x00]) [] := by decide

/-- What is no instruction is rejected by name: short bytes, a chunk type the spec gives no meaning to (30 R114), and a data
chunk without room for its CRC (30 R112). -/
theorem test_decode_rejects :
    decode .element [] = .reject .truncated ∧ decode .element [0x04, 0x61] = .reject .truncated
      ∧ decode .element [0xF0] = .reject .truncated ∧ decode .element [0x01] = .reject .truncated
      ∧ decode .command [0x01, 0x00, 0x00] = .reject .truncated ∧ decode .chunk [0xFE, 0, 0, 0] = .reject (.unknownChunkType 0xFE)
      ∧ decode .chunk [0x00, 0x03, 0, 0, 1, 2, 3] = .reject .chunkTooShort := by decide

/-- The words of the opcode table. -/
theorem test_tableWords :
    decodeTableWord 32 0x00000110 = some (.initWriter .buffered) ∧ decodeTableWord 32 0 = some (.illegal 0)
      ∧ decodeTableWord 8 0x00 = some (.litInline [0]) ∧ decodeTableWord 16 0xF0 = some (.lit1 [0])
      ∧ decodeTableWord 16 0x01 = some (.copy1 0 0) ∧ decodeTableWord 24 0x02 = some (.copy2 0 0) := by decide

/-! ### Emitters, hash, CRC -/

/-- 95 V-E1 to V-E3: corner cases of the emitters and the varint. -/
theorem test_emitLiteral :
    emitLiteral [0x61] = [0x00, 0x61] ∧ (emitLiteral (List.replicate 61 0)).take 2 = [0xF0, 0x3C] := by decide
theorem test_emitLiteral_long : (emitLiteral (List.replicate 257 0)).take 3 = [0xF4, 0x00, 0x01] := by decide +kernel
theorem test_emitCopy :
    emitCopy 1 131 = [0xFE, 0x01, 0x00, 0xEE, 0x01, 0x00, 0x0D, 0x01] ∧ emitCopy 2048 11 = [0x2A, 0x00, 0x08]
      ∧ emitCopy 2047 11 = [0xFD, 0xFF] ∧ emitCopy 1 68 = [0xFE, 0x01, 0x00, 0x01, 0x01] := by decide
theorem test_putVarint :
    putVarint 70000 = [0xF0, 0xA2, 0x04] ∧ putVarint (2 ^ 32 - 1) = [0xFF, 0xFF, 0xFF, 0xFF, 0x0F] := by decide

/-- 95 V-M0: the hash and the table size. -/
theorem test_hash_and_tsize :
    hash 1 24 = 30 ∧ hash 0x61616161 24 = 242 ∧ hash 0x61616161 18 = 15520 ∧ tsize .floor 511 = 256 ∧ tsize .floor 512 = 512
      ∧ tsize .floor 65536 = 16384 ∧ tsize .ceil 300 = 512 ∧ tsize .ceil 512 = 512 ∧ tsize .ceil 513 = 1024 := by decide

/-- 95 V-W1 and V-W2: the check value of the CRC, and the mask where its addition wraps. -/
theorem test_crc_and_mask :
    crc32c [0x31, 0x32, 0x33, 0x34, 0x35, 0x36, 0x37, 0x38, 0x39] = 0xE3069283 ∧ mask 0xE3069283 = 0xC78AB0E5
      ∧ mask 0xFFFFFFFF = 0xA282EAD7 ∧ unmask 0xA284EAD8 = 1 := by decide +kernel

/-! ### Single steps, on a small state: 18 × "a" at 0x1000, `HOST_MEM_SIZE` = 0x10000 (95 V-C2, §7) -/

/-- The bytes of `n` × "a" at an address. -/
def letters (a n : Nat) : Memory := (List.range n).map fun k => (a + k, 0x61)

/-- The next state of an outcome. -/
def next? (o : Host.Outcome State Fault Refusal) : Option State :=
  match o with
  | .next t => some t
  | .fault _ => none
  | .refused _ => none

/-- An accepted command word with its latched operands, on a writer. -/
def accepted (w : Word) (src len dst cap : Word) (writer : Writer) : State :=
  { accept w { State.reset with srcAddr := src, srcLen := len, dstAddr := dst, dstCap := cap } with
    params := { Params.default with hostMemTop := 0xFFFF }
    writer := writer
    mem := letters 0x1000 18 }

/-- A writer of a state and mode, with `HDR` and a buffer. -/
def writerOf (ws : WState) (mode : WriterMode) (hdr : Bool) (ibuf : List Byte) : Writer := ⟨ws, mode, hdr, ibuf, 0⟩

def freshWriter : Writer := writerOf .fresh .unbuffered false []
def bufferedWriter (ibuf : List Byte) : Writer := writerOf .fresh .buffered false ibuf
def erroredWriter : Writer := { writerOf .errored .unbuffered true [] with sinkErr := 9 }

/-- The sink's error code of the tests. -/
def five : SinkCode := ⟨5, by decide⟩

/-- The state with the sink's answers given. -/
def answering (s : State) (as : List SinkAnswer) : State := { s with answers := as }

/-- What a host reads after one engine step: `STATUS` and `RESULT`. -/
def after (s : State) : Option (Word × Word) := (next? (engineStep s)).map fun t => (t.status, t.result)

/-- 95 V-C2 row 1: six bytes stored, the next one unchanged. -/
theorem test_encode_stores :
    (next? (engineStep (accepted 0x01 0x1000 18 0x2000 64 freshWriter))).map
        (fun t => (t.status, t.result, memRead t.mem 0x2000 7)) =
      some (0x00000002, 6, [0x12, 0x00, 0x61, 0x42, 0x01, 0x00, 0x00]) := by decide +kernel

/-- 95 V-C2 rows 3, 5, 7, 8, 9, 11, 12: the check order. -/
theorem test_encode_checks :
    after (accepted 0x01 0x1000 18 0x2000 52 freshWriter) = some (0x00000402, 0)
      ∧ after (accepted 0x01 0x1000 0 0x2000 31 freshWriter) = some (0x00000402, 0)
      ∧ after (accepted 0x01 0xFFFFFFFF 3681400512 0 0 freshWriter) = some (0x00000302, 0)
      ∧ after (accepted 0x01 0xFFF0 0x20 0x2000 0x100 freshWriter) = some (0x00000202, 0)
      ∧ after (accepted 0x01 0x1000 18 0xFFF0 52 freshWriter) = some (0x00000202, 0)
      ∧ after (accepted 0x01 0x1000 18 0x1008 64 freshWriter) = some (0x00000502, 0)
      ∧ after (accepted 0x01 0x1000 18 0x1000 52 freshWriter) = some (0x00000402, 0) := by decide

/-- 95 V-C1. -/
theorem test_maxlen :
    after (accepted 0x02 0 65536 0 0 freshWriter) = some (0x00000002, 76490)
      ∧ after (accepted 0x02 0 3681400511 0 0 freshWriter) = some (0x00000002, 0xFFFFFFFE)
      ∧ after (accepted 0x02 0 3681400512 0 0 freshWriter) = some (0x00000002, 0xFFFFFFFF) := by decide

/-- 95 V-W10 rows 4, 11 and 12. -/
theorem test_writerResets :
    after (accepted 0x110 0 0 0 0 erroredWriter) = some (0x00000042, 0)
      ∧ after (accepted 0x14 0 0 0 0 (writerOf .closed .buffered true [0x61])) = some (0x00000042, 0)
      ∧ after (accepted 0x14 0 0 0 0 erroredWriter) = some (0x00000002, 0) := by decide

/-- 95 V-W8 row 1: one transfer of 19 bytes, `MAGIC_CHUNK` first. -/
theorem test_write_unbuffered :
    (next? (engineStep (answering (accepted 0x11 0x1000 1 0 0 freshWriter) [.ok]))).map (fun t => (t.status, t.result, t.sinkLog)) =
      some (0x00000092, 1, [.transfer (Config.magicChunk ++ [0x01, 0x05, 0x00, 0x00, 0x78, 0x6E, 0xE4, 0x28, 0x61])
        (.answered .ok)]) := by decide +kernel

/-- 95 P3 steps 2 and 3, V-W10 row 10 and P7: what only fills the buffer, the latched error, and the pending transfer. -/
theorem test_write_others :
    after (accepted 0x11 0x1000 18 0 0 (bufferedWriter [])) = some (0x00000042, 18)
      ∧ after (accepted 0x11 0xFFFF 5 0 0 (writerOf .closed .unbuffered true [])) = some (0x000006B2, 0)
      ∧ after (accepted 0x11 0xFFFF 5 0 0 freshWriter) = some (0x00000202, 0)
      ∧ after (accepted 0x11 0x1000 1 0 0 freshWriter) = some (0x00000081, 0) := by decide +kernel

/-- 42 R212: FLUSH is a no-op on an empty buffer, and frames even one byte. -/
theorem test_flush :
    after (accepted 0x12 0 0 0 0 (bufferedWriter [])) = some (0x00000042, 0)
      ∧ after (answering (accepted 0x12 0 0 0 0 (bufferedWriter [0x61])) [.ok]) = some (0x000000D2, 0) := by decide +kernel

/-- 95 V-W10 rows 2, 8 and 9, and P3 step 4: the last chunk is 24 bytes. -/
theorem test_close :
    after (accepted 0x13 0 0 0 0 freshWriter) = some (0x00000032, 0)
      ∧ after (accepted 0x13 0 0 0 0 erroredWriter) = some (0x000007B2, 0)
      ∧ after (accepted 0x13 0 0 0 0 (writerOf .closed .unbuffered true [])) = some (0x000006B2, 0) := by decide
theorem test_close_frames :
    (next? (engineStep (answering (accepted 0x13 0 0 0 0 (bufferedWriter (List.replicate 19 0x61))) [.ok]))).map
        (fun t => (t.status, t.sinkLog)) =
      some (0x000000F2, [.transfer (Config.magicChunk ++
        [0x00, 0x0A, 0x00, 0x00, 0x72, 0x3A, 0x04, 0x75, 0x13, 0x00, 0x61, 0x46, 0x01, 0x00]) (.answered .ok)]) := by
  decide +kernel

/-- 95 V-C3, P4 step 1 and V-W11: an illegal word; a failed first transfer; a split chunk. -/
theorem test_illegal :
    (next? (hostStep (csrWrite Params.default 0x0C 0x00000111) State.reset)).map (fun t => (t.status, t.result)) =
      some (0x00000102, 0) := by decide
theorem test_write_fails :
    (next? (engineStep (answering (accepted 0x11 0x1000 5 0 0 freshWriter) [.err five 3]))).map
        (fun t => (t.status, t.result, t.writer.sinkErr)) = some (0x000007A2, 0, 5) := by decide +kernel
theorem test_write_split :
    let s := answering (accepted 0x11 0x1000 1 0 0 freshWriter) [.ok, .ok]
    (next? (engineStep { s with params := { s.params with splitUncompressedTransfer := true } })).map
        (fun t => (t.status, (transfersOf t.sinkLog).map Prod.fst)) =
      some (0x00000092, [Config.magicChunk ++ [0x01, 0x05, 0x00, 0x00, 0x78, 0x6E, 0xE4, 0x28], [0x61]]) := by decide +kernel

/-- A reader that has read `out`. -/
def reading (out : List Byte) (headed : Bool) : State := { State.reset with reader := ⟨.block, [], out, headed, false⟩ }

/-- What the reader has read after an instruction, and whether the engine could have written it. -/
def readBy (i : Instr) (s : State) : Option (List Byte × Bool) := (next? (exec i s)).map fun t => (t.reader.out, t.reader.neverEmitted)

/-- 30 R105: literals append, and a copy longer than its offset repeats. -/
theorem test_elements :
    readBy (.litInline [1, 2]) (reading [0] false) = some ([0, 1, 2], false)
      ∧ readBy (.lit1 [1, 2]) (reading [0] false) = some ([0, 1, 2], true)
      ∧ readBy (.lit2 [1, 2]) (reading [0] false) = some ([0, 1, 2], true)
      ∧ readBy (.lit3 [1, 2]) (reading [0] false) = some ([0, 1, 2], true)
      ∧ readBy (.lit4 [1, 2]) (reading [0] false) = some ([0, 1, 2], true)
      ∧ readBy (.copy1 2 1) (reading [7, 8, 9] false) = some ([7, 8, 9, 8, 9, 8, 9, 8], false)
      ∧ readBy (.copy2 1 11) (reading [7] false) = some (List.replicate 13 7, false)
      ∧ readBy (.copy4 3 1) (reading [7, 8, 9] false) = some ([7, 8, 9, 7, 8], true) := by decide

/-- 30 R105: a copy with offset 0, or one before the output, stops the reader. -/
theorem test_copyOutOfRange :
    exec (.copy1 0 0) (reading [7] false) = .fault .copyOutOfRange ∧ exec (.copy2 2 0) (reading [7] false) = .fault .copyOutOfRange
      ∧ exec (.copy4 2 0) (reading [7] false) = .fault .copyOutOfRange := ⟨rfl, rfl, rfl⟩

/-- 95 V-W3: the chunks of "a" and of 18 × "a" read back; one out of place or with another CRC does not. -/
theorem test_chunks :
    readBy (.chunkUncompressed 0x28E46E78 [0x61]) (reading [] true) = some ([0x61], false)
      ∧ readBy (.chunkCompressed 0x47F26F50 [0x12, 0x00, 0x61, 0x42, 0x01, 0x00]) (reading [] true) =
          some (List.replicate 18 0x61, false)
      ∧ readBy (.chunkStreamId Config.streamIdPayload) (reading [] false) = some ([], false) := by decide +kernel
/-- 20 R83: the output grows by the content of a chunk, an empty one's too (its CRC is `mask(0)`, 42 R192). -/
theorem test_emptyChunk : readBy (.chunkUncompressed 0xA282EAD8 []) (reading [7] true) = some ([7], false) := by decide +kernel
theorem test_chunk_stops :
    readBy (.chunkUncompressed 0x28E46E78 [0x61]) (reading [] false) = none
      ∧ readBy (.chunkUncompressed 0x28E46E79 [0x61]) (reading [] true) = none
      ∧ readBy (.chunkCompressed 0x28E46E78 [0x01, 0x01, 0x00]) (reading [] true) = none
      ∧ readBy (.chunkStreamId Config.streamIdPayload) (reading [] true) = none := by decide +kernel

/-- The step after `withFetchWord` runs the word: a legal command, an illegal one, and an element. -/
theorem test_withFetchWord :
    ((next? (step (State.reset.withFetchWord 32 0x00000002))).map fun t => (t.status, t.result)) = some (0x00000002, 32)
      ∧ ((next? (step (State.reset.withFetchWord 32 0x00000003))).map fun t => t.status) = some 0x00000102
      ∧ ((next? (step (State.reset.withFetchWord 8 0x04))).map fun t => t.reader.out) = some [0, 0] := by decide

/-- 95 V-C4 and 60 R237: a word while busy is dropped; the interrupt follows `DONE`. -/
theorem test_overrun_and_irq :
    (next? (hostStep (csrWrite Params.default 0x0C 0x00000002) (accepted 0x01 0x1000 18 0x2000 64 freshWriter))).map
        (fun t => (t.cmdOverrun, t.args.opcode)) = some (true, 0x01)
      ∧ ({ State.reset with done := true, irqEn := true } : State).irq = true := by decide

/-- 20 R66 and 70 R270: a byte access to the window, and a store into a running ENCODE's source. -/
theorem test_marks :
    ((next? (hostStep (.csrLoad 0x10 .byte) State.reset)).map fun t => t.refusalMark) = some true
      ∧ ((next? (hostStep (.memStore 0x1011 0) (accepted 0x01 0x1000 18 0x2000 64 freshWriter))).map fun t =>
          (t.raceMark, t.raced)) = some (true, true)
      ∧ ((next? (hostStep (.memStore 0x1012 0) (accepted 0x01 0x1000 18 0x2000 64 freshWriter))).map fun t =>
          (t.raceMark, t.raced)) = some (false, false) := by decide

/-- 00 R18: an access past the end of host memory sets the refusal mark, and nothing stops. -/
theorem test_refused_pastMemory :
    ((next? (hostStep (.memLoad 0x10000) (accepted 0x01 0 0 0 0 freshWriter))).map fun t => (t.refusalMark, t.busData)) =
        some (true, 0)
      ∧ ((next? (hostStep (.memStore 0x10000 1) (accepted 0x01 0 0 0 0 freshWriter))).map fun t =>
        (t.refusalMark, memGet t.mem 0x10000)) = some (true, 0) := by decide +kernel

/-- A machine that awaits the sink on one byte. -/
def awaiting : State :=
  { State.reset with ctrl := .waiting ⟨[0x61], [], .flush⟩, writer := writerOf .fresh .buffered true [] }

/-- 10 R45: one small step leaves an ENCODE at the start of its source, and a taken chunk before the rest of its rule. -/
theorem test_tick :
    ((next? (tickStep (accepted 0x01 0x1000 18 0x2000 64 freshWriter))).map fun t =>
        decide (t.ctrl = .encoding ⟨18, [], List.replicate 18 0x61, none⟩)) = some true
      ∧ ((next? (tickStep (answering awaiting [.ok]))).map fun t =>
        (t.ctrl, t.sinkLog)) = some (.resuming .flush, [.transfer [0x61] (.answered .ok)]) := by decide +kernel

/-- 70 R261: a transfer that had its response when the reset came stays delivered; one without may end after some prefix. -/
theorem test_reset_keepsAnswer :
    (hardReset ⟨0, []⟩ (answering awaiting [.ok])).sinkLog = [.transfer [0x61] (.answered .ok), .newStream]
      ∧ (hardReset ⟨0, []⟩ awaiting).sinkLog = [.transfer [0x61] (.abandoned 0), .newStream] := by decide

/-! ### Witnesses: the hypotheses of each statement can be met, at a boundary of each clause -/

theorem witness_DecodeEncodeAgree :
    (Instr.litInline (List.replicate 60 0)).wellFormed = true ∧ (Instr.lit1 [0]).wellFormed = true
      ∧ (Instr.lit2 [0]).wellFormed = true ∧ (Instr.lit3 [0]).wellFormed = true ∧ (Instr.lit4 [0]).wellFormed = true
      ∧ (Instr.copy1 2047 7).wellFormed = true ∧ (Instr.copy2 65535 63).wellFormed = true
      ∧ (Instr.copy4 0xFFFFFFFF 63).wellFormed = true ∧ (Instr.illegal 0xFFFFFFFF).wellFormed = true
      ∧ (Instr.chunkStreamId Config.streamIdPayload).wellFormed = true ∧ (Instr.chunkCompressed 0 []).wellFormed = true
      ∧ (Instr.chunkUncompressed 0 []).wellFormed = true ∧ Instr.encode.wellFormed = true := by decide

/-- An accepted command with one engine event, a `CMD` write of an illegal word, and a reader with an element. -/
theorem witness_StepRunsInstruction :
    (accepted 0x02 0 0 0 0 freshWriter).events = [] ∧ (accepted 0x02 0 0 0 0 freshWriter).ctrl = .accepted
      ∧ (0x00000110 : Word) ∈ legalWords ∧ (0x00000111 : Word) ∉ legalWords
      ∧ csrOffset Params.default 0x0C = 0x0C ∧ State.reset.busy = false
      ∧ decode (reading [7] false).reader.layer [0x01, 0x01] = .ok (.copy1 1 0) [] := by decide

theorem witness_CommandAcceptance :
    csrOffset State.reset.params 0x0C = 0x0C ∧ State.reset.busy = false
      ∧ csrOffset (accepted 0x01 0 0 0 0 freshWriter).params 0x0C = 0x0C ∧ (accepted 0x01 0 0 0 0 freshWriter).busy = true := by
  decide

theorem witness_EmitLiteral :
    ∀ n ∈ [1, 60, 61, 256, 257, 65536], ∃ lit : List Byte, lit.length = n ∧ 1 ≤ lit.length ∧ lit.length ≤ 65536 := by
  intro n hn
  refine ⟨List.replicate n 0, ?_⟩
  rw [List.length_replicate]
  revert n
  decide

theorem witness_EmitCopyShape :
    ∀ q ∈ [(1, 4), (2047, 11), (2048, 11), (1, 12), (1, 64), (1, 65), (1, 67), (1, 68), (65535, 65535)],
      1 ≤ q.1 ∧ q.1 ≤ 65535 ∧ 4 ≤ q.2 ∧ q.2 ≤ 65535 := by decide

theorem witness_VarintEncoder :
    ∀ n ∈ [0, 2 ^ 7 - 1, 2 ^ 7, 2 ^ 14 - 1, 2 ^ 14, 2 ^ 21 - 1, 2 ^ 21, 2 ^ 28 - 1, 2 ^ 28, 2 ^ 32 - 1], n < 2 ^ 32 := by decide

theorem witness_TableSizeAndHash : ∀ len ∈ [17, 255, 256, 257, 16384, 16385, 65536], 17 ≤ len ∧ len ≤ 65536 := by decide

theorem witness_SegmentEncoding :
    ∀ n ∈ [17, 65536], ∃ (seg : List Byte) (t : Table), seg.length = n ∧ 17 ≤ seg.length ∧ seg.length ≤ 65536 ∧ t.wf := by
  intro n hn
  refine ⟨List.replicate n 0, [(3, 7)], List.length_replicate, ?_⟩
  rw [List.length_replicate]
  revert n
  decide

theorem witness_EncodeIgnoresTable : ∃ t : Table, t ≠ [] ∧ t.wf := ⟨[(3, 7), (16383, 1)], by decide⟩

theorem witness_BlockRoundTrip :
    ∀ n ∈ [0, 16, 17, 65536, 65537, 3681400511], ∃ src : List Byte, src.length = n ∧ (maxEncodedLen src.length).isSome = true := by
  intro n hn
  refine ⟨List.replicate n 0, List.length_replicate, ?_⟩
  rw [List.length_replicate]
  revert n
  decide

theorem witness_EncodedLengthBound :
    ∃ (src : List Byte) (m : Nat), src.length = 3681400511 ∧ maxEncodedLen src.length = some m := by
  refine ⟨List.replicate 3681400511 0, 4294967294, List.length_replicate, ?_⟩
  rw [List.length_replicate]
  decide

/-- The operands of `test_encode_checks` and of 95 V-C2 rows 2, 4, 10 and 13, one for each branch or more. -/
theorem witness_EncodeCommand :
    ∀ s ∈ [accepted 0x01 0xFFFFFFFF 3681400512 0 0 freshWriter, accepted 0x01 0xFFF0 0x11 0x2000 0x100 freshWriter,
        accepted 0x01 0x1000 18 0xFFF0 17 freshWriter, accepted 0x01 0x1000 18 0x2000 52 freshWriter,
        accepted 0x01 0x1000 18 0x1011 64 freshWriter, accepted 0x01 0x1000 18 0x1012 53 freshWriter,
        accepted 0x01 0x2000 0 0x2000 32 freshWriter, accepted 0x01 0xFFEE 18 0x2000 64 freshWriter],
      s.table.wf ∧ s.raced = false ∧ s.racedBytes = [] := by decide

theorem witness_EncodeLeavesOtherBytes :
    ∀ s ∈ [accepted 0x01 0x1000 18 0x1012 53 freshWriter, accepted 0x01 0xFFEE 18 0x2000 64 freshWriter,
        accepted 0x01 0x2000 0 0x2000 32 freshWriter],
      s.mem.wf ∧ s.table.wf ∧ s.raced = false ∧ s.racedBytes = [] ∧ encodePasses s.params s.args := by
  unfold encodePasses
  decide

/-- A raced command. -/
def racedState (s : State) : State := { s with raced := true, raceMark := true }

theorem witness_RacedCommandsFinish :
    (let s := racedState (accepted 0x01 0x1000 18 0x1012 53 freshWriter)
     s.raced = true ∧ encodePasses s.params s.args)
      ∧ encodeCheck Params.default (racedState (accepted 0x01 0x1000 18 0x2000 52 freshWriter)).args = some .dstTooSmall
      ∧ writeCheck (racedState (accepted 0x11 0xFFFF 5 0 0 freshWriter)) = some .address
      ∧ (∃ s t : State, s.raced = false ∧ s.params.splitUncompressedTransfer = false ∧ s.answers ≠ []
          ∧ exec .write s = .next t)
      ∧ ∀ q ∈ [((0 : Word), 0), (1, 1), (0xF000, 1)],
        let s := answering (racedState (accepted 0x11 0x1000 q.1 0 0 freshWriter)) (List.replicate q.2 .ok)
        s.raced = true ∧ s.params.splitUncompressedTransfer = false ∧ s.writer.wmode = .unbuffered ∧ s.writer.wstate = .fresh
          ∧ s.args.srcAddr.toNat + s.args.srcLen.toNat ≤ s.params.hostMemSize
          ∧ s.answers = List.replicate ((s.args.srcLen.toNat + 65535) / 65536) .ok ++ [] := by
  unfold encodePasses
  refine ⟨by decide +kernel, by decide +kernel, by decide +kernel, ?_, by decide +kernel⟩
  exact ⟨answering (accepted 0x11 0x1000 1 0 0 freshWriter) [.err five 0], _, rfl, rfl, by decide, rfl⟩

theorem witness_ChunkSelection : ∃ t : Table, t.wf ∧ t ≠ [] := ⟨[(0, 1)], by decide⟩

theorem witness_DataChunkBytes : ∀ n ∈ [1, 65536], ∃ u : List Byte, u.length = n ∧ 1 ≤ u.length ∧ u.length ≤ 65536 := by
  intro n hn
  refine ⟨List.replicate n 0, List.length_replicate, ?_⟩
  rw [List.length_replicate]
  revert n
  decide

theorem witness_WritePreChecks :
    (∀ s ∈ [accepted 0x11 0 0 0 0 (writerOf .closed .unbuffered true []), accepted 0x11 0 0 0 0 erroredWriter,
        accepted 0x11 0xFFFF 2 0 0 freshWriter], s.raced = false) ∧
    (accepted 0x11 0 0 0 0 (writerOf .closed .unbuffered true [])).writer.wstate = .closed
      ∧ (accepted 0x11 0 0 0 0 erroredWriter).writer.wstate = .errored
      ∧ (let s := accepted 0x11 0xFFFF 2 0 0 freshWriter
         s.writer.wstate = .fresh ∧ s.args.srcLen ≠ 0
          ∧ s.params.hostMemSize < s.args.srcAddr.toNat + s.args.srcLen.toNat) := by decide

theorem accepted_mem_wf : (letters 0x1000 18).wf := by decide
theorem accepted_table_wf : Table.wf [] := by decide

/-- Any state but for its answers, which are those that a function of the rest gives. -/
theorem answered (s : State) (f : State → List SinkAnswer) (h : ∀ as, f (answering s as) = f s) :
    ∃ t : State, t.writer = s.writer ∧ t.args = s.args ∧ t.params = s.params ∧ t.table = s.table ∧ t.raced = s.raced
      ∧ t.answers = f t :=
  ⟨answering s (f s), rfl, rfl, rfl, rfl, rfl, (h _).symm⟩

/-- Any state but for its answers, `OK` for each transfer of some pieces of it. -/
theorem taken (s : State) (pieces : State → List (List Byte)) (h : ∀ as, pieces (answering s as) = pieces s) :
    ∃ t : State, t.writer = s.writer ∧ t.args = s.args ∧ t.params = s.params ∧ t.table = s.table ∧ t.raced = s.raced
      ∧ t.answers = List.replicate (streamTransfers t.params t.writer.hdr (pieces t)).length .ok ++ [] :=
  answered s _ fun as => by rw [h]; rfl

/-- A Fresh writer that writes nothing, one byte, or all of a 65536-byte memory; the answers are those the transfers need. -/
theorem witness_UnbufferedWrite :
    ∀ n ∈ [(0 : Word), 1, 0x10000], ∃ (s : State) (ts : List (List Byte)),
        s.writer.wstate = .fresh ∧ s.writer.wmode = .unbuffered ∧ s.args.srcLen = n
        ∧ s.args.srcAddr.toNat + s.args.srcLen.toNat ≤ s.params.hostMemSize ∧ s.table.wf ∧ s.raced = false
        ∧ ts = streamTransfers s.params s.writer.hdr (segmentsOf s.source)
        ∧ s.answers = List.replicate ts.length .ok ++ [] := by
  have range : ∀ n ∈ [(0 : Word), 1, 0x10000], 0 + n.toNat ≤ 0xFFFF + 1 := by simp
  intro n hn
  obtain ⟨s, hw, ha, hp, ht, hr, hans⟩ := taken (accepted 0x11 0 n 0 0 freshWriter) (fun s => segmentsOf s.source) (fun _ => rfl)
  refine ⟨s, _, ?_, ?_, ?_, ?_, ?_, hr, rfl, hans⟩
  · rw [hw]; rfl
  · rw [hw]; rfl
  · rw [ha]; rfl
  · rw [ha, hp]; exact range n hn
  · rw [ht]; exact accepted_table_wf

/-- A buffer one byte short of full, with no byte, one byte, or two more. -/
theorem witness_BufferedWrite :
    ∀ n ∈ [(0 : Word), 1, 2], ∃ (s : State) (x : List Byte) (k : Nat) (ts : List (List Byte)),
        s.writer.wstate = .fresh ∧ s.writer.wmode = .buffered
        ∧ s.params.largeWriteMode = .block ∧ s.writer.ibuf.length = 65535 ∧ s.args.srcLen = n
        ∧ s.args.srcAddr.toNat + s.args.srcLen.toNat ≤ s.params.hostMemSize ∧ s.table.wf ∧ s.raced = false
        ∧ x = s.writer.ibuf ++ s.source ∧ k = x.length / 65536
        ∧ ts = streamTransfers s.params s.writer.hdr ((segmentsOf x).take k)
        ∧ s.answers = List.replicate ts.length .ok ++ [] := by
  have range : ∀ n ∈ [(0 : Word), 1, 2], 0 + n.toNat ≤ 0xFFFF + 1 := by simp
  intro n hn
  obtain ⟨ibuf, full⟩ : ∃ ibuf : List Byte, ibuf.length = 65535 := ⟨List.replicate 65535 0, List.length_replicate⟩
  obtain ⟨s, hw, ha, hp, ht, hr, hans⟩ := taken (accepted 0x11 0 n 0 0 (bufferedWriter ibuf))
    (fun s => (segmentsOf (s.writer.ibuf ++ s.source)).take ((s.writer.ibuf ++ s.source).length / 65536)) (fun _ => rfl)
  refine ⟨s, _, _, _, ?_, ?_, ?_, ?_, ?_, ?_, ?_, hr, rfl, rfl, rfl, hans⟩
  · rw [hw]; rfl
  · rw [hw]; rfl
  · rw [hp]; rfl
  · rw [hw]; exact full
  · rw [ha]; rfl
  · rw [ha, hp]; exact range n hn
  · rw [ht]; exact accepted_table_wf

/-- A host memory of 0x20000 bytes in `WHOLE_PIECE` mode. -/
def wholePiece (s : State) : State :=
  { s with params := { s.params with hostMemTop := 0x1FFFF, largeWriteMode := .wholePiece } }

/-- The pieces of a WRITE that fills the buffer in `WHOLE_PIECE` mode. -/
def fillPieces (room : Nat) (s : State) : List (List Byte) :=
  (s.writer.ibuf ++ s.source.take room) :: if (s.source.drop room).length < 65536 then [] else segmentsOf (s.source.drop room)

/-- A piece larger than a block, one byte short of filling the buffer, exactly a block, and a buffer one byte short of full with
one byte, and with a block and a byte. -/
theorem witness_WholePieceWrite :
    (∃ (s : State) (ts : List (List Byte)), s.writer.wstate = .fresh ∧ s.writer.wmode = .buffered
        ∧ s.params.largeWriteMode = .wholePiece
        ∧ s.args.srcAddr.toNat + s.args.srcLen.toNat ≤ s.params.hostMemSize ∧ s.table.wf ∧ s.raced = false
        ∧ s.writer.ibuf = [] ∧ s.args.srcLen = 65537
        ∧ ts = streamTransfers s.params s.writer.hdr (segmentsOf s.source)
        ∧ s.answers = List.replicate ts.length .ok ++ [])
    ∧ (let s := wholePiece (accepted 0x11 0 65535 0 0 (bufferedWriter []))
       s.writer.wmode = .buffered ∧ s.args.srcAddr.toNat + s.args.srcLen.toNat ≤ s.params.hostMemSize
        ∧ s.writer.ibuf.length + s.args.srcLen.toNat < 65536)
    ∧ ∀ q ∈ [(0, (65536 : Word), 65536), (65535, 1, 1), (65535, 65537, 1)],
      ∃ (s : State) (ts : List (List Byte)), s.writer.wstate = .fresh ∧ s.writer.wmode = .buffered
        ∧ s.params.largeWriteMode = .wholePiece
        ∧ s.args.srcAddr.toNat + s.args.srcLen.toNat ≤ s.params.hostMemSize ∧ s.table.wf ∧ s.raced = false
        ∧ q.2.2 = 65536 - s.writer.ibuf.length ∧ 1 ≤ q.2.2 ∧ q.2.2 ≤ s.args.srcLen.toNat
        ∧ (s.writer.ibuf ≠ [] ∨ s.args.srcLen.toNat = 65536)
        ∧ ts = streamTransfers s.params s.writer.hdr (fillPieces q.2.2 s)
        ∧ s.answers = List.replicate ts.length .ok ++ [] := by
  refine ⟨?_, by decide +kernel, ?_⟩
  · have range : (0 : Word).toNat + (65537 : Word).toNat ≤ 0x1FFFF + 1 := by decide +kernel
    obtain ⟨s, hw, ha, hp, ht, hr, hans⟩ :=
      taken (wholePiece (accepted 0x11 0 65537 0 0 (bufferedWriter []))) (fun s => segmentsOf s.source) (fun _ => rfl)
    refine ⟨s, _, ?_, ?_, ?_, ?_, ?_, hr, ?_, ?_, rfl, hans⟩
    · rw [hw]; rfl
    · rw [hw]; rfl
    · rw [hp]; rfl
    · rw [ha, hp]; exact range
    · rw [ht]; exact accepted_table_wf
    · rw [hw]; rfl
    · rw [ha]; rfl
  · have bounds : ∀ q ∈ [(0, (65536 : Word), 65536), (65535, 1, 1), (65535, 65537, 1)],
        0 + q.2.1.toNat ≤ 0x1FFFF + 1 ∧ q.2.2 = 65536 - q.1 ∧ 1 ≤ q.2.2 ∧ q.2.2 ≤ q.2.1.toNat
          ∧ (q.1 ≠ 0 ∨ q.2.1.toNat = 65536) := by decide +kernel
    intro q hq
    obtain ⟨range, room, one, le, fills⟩ := bounds q hq
    obtain ⟨ibuf, full⟩ : ∃ ibuf : List Byte, ibuf.length = q.1 := ⟨List.replicate q.1 0, List.length_replicate⟩
    obtain ⟨s, hw, ha, hp, ht, hr, hans⟩ :=
      taken (wholePiece (accepted 0x11 0 q.2.1 0 0 (bufferedWriter ibuf))) (fillPieces q.2.2) (fun _ => rfl)
    refine ⟨s, _, ?_, ?_, ?_, ?_, ?_, hr, ?_, one, ?_, ?_, rfl, hans⟩
    · rw [hw]; rfl
    · rw [hw]; rfl
    · rw [hp]; rfl
    · rw [ha, hp]; exact range
    · rw [ht]; exact accepted_table_wf
    · rw [hw]; exact room.trans (by rw [← full]; rfl)
    · rw [ha]; exact le
    · rw [hw, ha]
      exact fills.imp_left fun h e => h (full.symm.trans (congrArg List.length e))

/-- The only chunk of a one-byte WRITE fails at its only transfer. -/
theorem witness_FailedUnbufferedWrite :
    let s := answering (accepted 0x11 0x1000 1 0 0 freshWriter) [.err five 3]
    s.writer.wstate = .fresh ∧ s.writer.wmode = .unbuffered
      ∧ s.args.srcAddr.toNat + s.args.srcLen.toNat ≤ s.params.hostMemSize ∧ s.table.wf ∧ s.raced = false
      ∧ segmentsOf s.source = [] ++ [0x61] :: []
      ∧ (chunkTransfers s.params (s.writer.hdr || ([] : List (List Byte)) ≠ []) [0x61])[0]? =
          some (Config.magicChunk ++ [0x01, 0x05, 0x00, 0x00, 0x78, 0x6E, 0xE4, 0x28, 0x61])
      ∧ s.answers = List.replicate ((streamTransfers s.params s.writer.hdr []).length + 0) .ok ++ .err five 3 :: [] := by
  decide +kernel

/-- A chunk has a first transfer. -/
theorem first_transfer (p : Params) (hdr : Bool) (u : List Byte) : ∃ b, (chunkTransfers p hdr u)[0]? = some b := by
  unfold chunkTransfers
  simp only
  split <;> exact ⟨_, rfl⟩

/-- What the failure of a buffered WRITE asks for, at the first transfer of the chunk after `us`. -/
def failsAfter (s : State) (us vs : List (List Byte)) (u : List Byte) : Prop :=
  writePieces s.params s.writer s.source = us ++ u :: vs
    ∧ (∃ b, (chunkTransfers s.params (s.writer.hdr || us ≠ []) u)[0]? = some b)
    ∧ s.answers = List.replicate ((streamTransfers s.params s.writer.hdr us).length + 0) .ok ++ .err five 3 :: []

/-- Any state but for its answers, which fail the chunk after `us`. -/
theorem failing (s : State) {us vs : List (List Byte)} {u : List Byte}
    (h : writePieces s.params s.writer s.source = us ++ u :: vs) :
    ∃ t : State, t.writer = s.writer ∧ t.args = s.args ∧ t.params = s.params ∧ t.table = s.table ∧ t.raced = s.raced
      ∧ failsAfter t us vs u :=
  ⟨answering s (List.replicate ((streamTransfers s.params s.writer.hdr us).length + 0) .ok ++ .err five 3 :: []),
    rfl, rfl, rfl, rfl, rfl, h, first_transfer .., rfl⟩

/-- The input of a WRITE is as long as its latched length. -/
theorem source_length (s : State) : s.source.length = s.args.srcLen.toNat := by simp [State.source, memRead]

/-- At least a block has its first 65536 bytes as its first full block. -/
theorem full_block {x : List Byte} (h : 65536 ≤ x.length) :
    ∃ vs, (segmentsOf x).take (x.length / 65536) = [] ++ x.take 65536 :: vs := by
  have hx : x ≠ [] := by intro e; simp [e] at h
  obtain ⟨k, hk⟩ : ∃ k, x.length / 65536 = k + 1 := ⟨x.length / 65536 - 1, by omega⟩
  rw [hk, segmentsOf_cons hx]
  exact ⟨_, rfl⟩

/-- A first chunk fails in `BLOCK` mode: through a buffer one byte short of full with one byte more, and a block that passes by an
empty buffer. A later chunk, framed directly in `WHOLE_PIECE` mode, fails after the first was taken. -/
theorem witness_FailedBufferedWrite :
    (∀ q ∈ [(65535, (1 : Word)), (0, 65536)], ∃ (s : State) (vs : List (List Byte)) (u : List Byte),
      s.writer.wstate = .fresh ∧ s.writer.wmode = .buffered ∧ s.writer.ibuf.length = q.1 ∧ s.writer.ibuf.length < 65536
        ∧ s.args.srcLen = q.2 ∧ s.args.srcAddr.toNat + s.args.srcLen.toNat ≤ s.params.hostMemSize ∧ s.table.wf
        ∧ s.raced = false ∧ failsAfter s [] vs u)
      ∧ ∃ (s : State) (us vs : List (List Byte)) (u : List Byte), us ≠ []
        ∧ s.writer.wstate = .fresh ∧ s.writer.wmode = .buffered ∧ s.writer.ibuf = [] ∧ s.params.largeWriteMode = .wholePiece
        ∧ s.args.srcLen = 65537 ∧ s.args.srcAddr.toNat + s.args.srcLen.toNat ≤ s.params.hostMemSize ∧ s.table.wf
        ∧ s.raced = false ∧ failsAfter s us vs u := by
  constructor
  · have bounds : ∀ q ∈ [(65535, (1 : Word)), (0, 65536)], q.1 < 65536 ∧ 65536 ≤ q.1 + q.2.toNat ∧ 0 + q.2.toNat ≤ 0xFFFF + 1 := by
      decide +kernel
    intro q hq
    obtain ⟨short, blocks, range⟩ := bounds q hq
    obtain ⟨ibuf, full⟩ : ∃ ibuf : List Byte, ibuf.length = q.1 := ⟨List.replicate q.1 0, List.length_replicate⟩
    obtain ⟨s0, hs0⟩ : ∃ s0, s0 = accepted 0x11 0 q.2 0 0 (bufferedWriter ibuf) := ⟨_, rfl⟩
    have hbuf : s0.writer.ibuf = ibuf := by rw [hs0]; rfl
    have hlen : s0.args.srcLen = q.2 := by rw [hs0]; rfl
    obtain ⟨vs, hv⟩ := full_block (x := s0.writer.ibuf ++ s0.source) (by
      rw [List.length_append, source_length, hbuf, hlen, full]; exact blocks)
    have hpieces : writePieces s0.params s0.writer s0.source = [] ++ (s0.writer.ibuf ++ s0.source).take 65536 :: vs := by
      have hm : s0.writer.wmode ≠ .unbuffered := by rw [hs0]; exact (by decide : WriterMode.buffered ≠ .unbuffered)
      have hp : s0.params.largeWriteMode = .block := by rw [hs0]; rfl
      simpa [writePieces, hm, hp, Config.maxBlockSize] using hv
    obtain ⟨s, hw, ha, hp, ht, hr, hf⟩ := failing s0 hpieces
    refine ⟨s, vs, _, ?_, ?_, ?_, ?_, ?_, ?_, ?_, ?_, hf⟩
    · rw [hw, hs0]; rfl
    · rw [hw, hs0]; rfl
    · rw [hw, hbuf]; exact full
    · rw [hw, hbuf, full]; exact short
    · rw [ha]; exact hlen
    · rw [ha, hp, hs0]; exact range
    · rw [ht, hs0]; exact accepted_table_wf
    · rw [hr, hs0]; rfl
  · have range : (0 : Word).toNat + (65537 : Word).toNat ≤ 0x1FFFF + 1 := by decide +kernel
    have long : ¬(65537 : Word).toNat < 65536 ∧ (65537 : Word).toNat = 65537 := by decide +kernel
    obtain ⟨s0, hs0⟩ : ∃ s0, s0 = wholePiece (accepted 0x11 0 65537 0 0 (bufferedWriter [])) := ⟨_, rfl⟩
    have hlen : s0.args.srcLen = 65537 := by rw [hs0]; rfl
    have hsrc : s0.source.length = 65537 := by rw [source_length, hlen]; exact long.2
    have hne : s0.source ≠ [] := by intro e; simp [e] at hsrc
    have hrest : s0.source.drop 65536 ≠ [] := by
      intro e
      have := congrArg List.length e
      simp [hsrc] at this
    have hpieces : writePieces s0.params s0.writer s0.source =
        [s0.source.take 65536] ++ (s0.source.drop 65536).take 65536 :: segmentsOf ((s0.source.drop 65536).drop 65536) := by
      have hm : s0.writer.wmode ≠ .unbuffered := by rw [hs0]; exact (by decide : WriterMode.buffered ≠ .unbuffered)
      have hp : s0.params.largeWriteMode = .wholePiece := by rw [hs0]; rfl
      have hb : s0.writer.ibuf = [] := by rw [hs0]; rfl
      rw [writePieces, if_neg hm, hp]
      simp only [hb, if_true]
      have block : Config.maxBlockSize = 65536 := rfl
      rw [if_neg (by rw [hsrc]; decide), segmentsOf_cons hne, block, segmentsOf_cons hrest, block]
      rw [List.singleton_append]
    obtain ⟨s, hw, ha, hp, ht, hr, hf⟩ := failing s0 hpieces
    refine ⟨s, _, _, _, by simp, ?_, ?_, ?_, ?_, ?_, ?_, ?_, ?_, hf⟩
    · rw [hw, hs0]; rfl
    · rw [hw, hs0]; rfl
    · rw [hw, hs0]; rfl
    · rw [hp, hs0]; rfl
    · rw [ha]; exact hlen
    · rw [ha, hp, hs0]; exact range
    · rw [ht, hs0]; exact accepted_table_wf
    · rw [hr, hs0]; rfl

/-- The transfers of a first chunk of "a" (95 V-W3, V-W8). -/
theorem transfers_a :
    chunkTransfers { Params.default with hostMemTop := 0xFFFF } false [0x61] =
      [Config.magicChunk ++ [0x01, 0x05, 0x00, 0x00, 0x78, 0x6E, 0xE4, 0x28, 0x61]] := by decide +kernel

/-- The first transfer of a WRITE unbuffered, and of FLUSH and CLOSE; that of a buffered WRITE that fills the buffer. -/
theorem witness_WriteWaits :
    (let s := accepted 0x11 0x1000 1 0 0 freshWriter
     s.writer.wstate = .fresh ∧ s.writer.ibuf.length < 65536
      ∧ s.args.srcAddr.toNat + s.args.srcLen.toNat ≤ s.params.hostMemSize ∧ s.table.wf ∧ s.raced = false
      ∧ (streamTransfers s.params s.writer.hdr (writePieces s.params s.writer s.source))[0]? =
          some (Config.magicChunk ++ [0x01, 0x05, 0x00, 0x00, 0x78, 0x6E, 0xE4, 0x28, 0x61])
      ∧ s.answers = List.replicate 0 .ok)
    ∧ (∃ (s : State) (b : List Byte), s.writer.wstate = .fresh ∧ s.writer.wmode = .buffered ∧ s.writer.ibuf.length = 65535
      ∧ s.args.srcAddr.toNat + s.args.srcLen.toNat ≤ s.params.hostMemSize ∧ s.table.wf ∧ s.raced = false
      ∧ (streamTransfers s.params s.writer.hdr (writePieces s.params s.writer s.source))[0]? = some b
      ∧ s.answers = List.replicate 0 .ok)
    ∧ ∀ w ∈ [(0x12 : Word), 0x13],
      let s := accepted w 0 0 0 0 (bufferedWriter [0x61])
      s.writer.wstate = .fresh ∧ s.writer.wmode = .buffered ∧ s.writer.ibuf ≠ [] ∧ s.table.wf ∧ s.raced = false
        ∧ (chunkTransfers s.params s.writer.hdr s.writer.ibuf)[0]? =
          some (Config.magicChunk ++ [0x01, 0x05, 0x00, 0x00, 0x78, 0x6E, 0xE4, 0x28, 0x61])
        ∧ s.answers = List.replicate 0 .ok := by
  refine ⟨⟨rfl, by decide +kernel, by decide +kernel, accepted_table_wf, rfl, ?_, rfl⟩, ?_,
    fun _ _ => ⟨rfl, rfl, List.cons_ne_nil _ _, accepted_table_wf, rfl, congrArg (·[0]?) transfers_a, rfl⟩⟩
  · have whole : writePieces (accepted 0x11 0x1000 1 0 0 freshWriter).params freshWriter
        (accepted 0x11 0x1000 1 0 0 freshWriter).source = [[0x61]] := by decide +kernel
    exact (congrArg (fun ps => (streamTransfers _ false ps)[0]?) whole).trans
      (congrArg (fun ts => (ts ++ streamTransfers _ true [])[0]?) transfers_a)
  obtain ⟨ibuf, full⟩ : ∃ ibuf : List Byte, ibuf.length = 65535 := ⟨List.replicate 65535 0, List.length_replicate⟩
  obtain ⟨s, hs⟩ : ∃ s, s = accepted 0x11 0x1000 1 0 0 (bufferedWriter ibuf) := ⟨_, rfl⟩
  have range : (0x1000 : Word).toNat + (1 : Word).toNat ≤ 0xFFFF + 1 := by decide +kernel
  have block : (65536 : Nat) ≤ 65535 + (1 : Word).toNat := by decide +kernel
  have hbuf : s.writer.ibuf.length = 65535 := by rw [hs]; exact full
  have hlen : s.args.srcLen = 1 := by rw [hs]; rfl
  obtain ⟨vs, hv⟩ := full_block (x := s.writer.ibuf ++ s.source) (by
    rw [List.length_append, source_length, hbuf, hlen]; exact block)
  have hpieces : writePieces s.params s.writer s.source = (s.writer.ibuf ++ s.source).take 65536 :: vs := by
    have hm : s.writer.wmode ≠ .unbuffered := by rw [hs]; exact (by decide : WriterMode.buffered ≠ .unbuffered)
    have hp : s.params.largeWriteMode = .block := by rw [hs]; rfl
    simpa [writePieces, hm, hp, Config.maxBlockSize] using hv
  obtain ⟨b, hb⟩ := first_transfer s.params s.writer.hdr ((s.writer.ibuf ++ s.source).take 65536)
  refine ⟨s, b, ?_, ?_, hbuf, ?_, ?_, ?_, ?_, ?_⟩
  · rw [hs]; rfl
  · rw [hs]; rfl
  · rw [hs]; exact range
  · rw [hs]; exact accepted_table_wf
  · rw [hs]; rfl
  · rw [hpieces]
    simp [streamTransfers, List.getElem?_append_left (List.getElem?_eq_some_iff.1 hb).1, hb]
  · rw [hs]; rfl

/-- FLUSH and CLOSE: Closed, Errored, nothing buffered, and one byte buffered with its transfer taken or failed. -/
theorem witness_FlushCommand :
    (accepted 0x12 0 0 0 0 (writerOf .closed .unbuffered true [])).writer.wstate = .closed
      ∧ (accepted 0x12 0 0 0 0 erroredWriter).writer.wstate = .errored
      ∧ (accepted 0x12 0 0 0 0 freshWriter).writer.wmode = .unbuffered
      ∧ (let s := accepted 0x12 0 0 0 0 (bufferedWriter [0x61])
         s.writer.wstate = .fresh ∧ s.writer.wmode = .buffered ∧ s.writer.ibuf ≠ [] ∧ s.table.wf ∧ s.raced = false
          ∧ (answering s [.ok]).answers =
              List.replicate (chunkTransfers s.params s.writer.hdr s.writer.ibuf).length .ok ++ []
          ∧ (chunkTransfers s.params s.writer.hdr s.writer.ibuf)[0]? =
              some (Config.magicChunk ++ [0x01, 0x05, 0x00, 0x00, 0x78, 0x6E, 0xE4, 0x28, 0x61])
          ∧ (answering s [.err five 3]).answers = List.replicate 0 .ok ++ .err five 3 :: []) := by decide +kernel

theorem witness_CloseCommand :
    (accepted 0x13 0 0 0 0 (writerOf .closed .unbuffered true [])).writer.wstate = .closed
      ∧ (accepted 0x13 0 0 0 0 erroredWriter).writer.wstate = .errored
      ∧ (accepted 0x13 0 0 0 0 (bufferedWriter [])).writer.ibuf = []
      ∧ (let s := accepted 0x13 0 0 0 0 (bufferedWriter [0x61])
         s.writer.wstate = .fresh ∧ s.writer.wmode = .buffered ∧ s.writer.ibuf ≠ [] ∧ s.table.wf ∧ s.raced = false
          ∧ (answering s [.ok]).answers =
              List.replicate (chunkTransfers s.params s.writer.hdr s.writer.ibuf).length .ok ++ []
          ∧ (chunkTransfers s.params s.writer.hdr s.writer.ibuf)[0]? =
              some (Config.magicChunk ++ [0x01, 0x05, 0x00, 0x00, 0x78, 0x6E, 0xE4, 0x28, 0x61])
          ∧ (answering s [.err five 3]).answers = List.replicate 0 .ok ++ .err five 3 :: []) := by decide +kernel

theorem witness_SilentSinkBlocks :
    awaiting.ctrl = .waiting ⟨[0x61], [], .flush⟩ ∧ awaiting.answers = [] ∧ awaiting.events = []
      ∧ ({ awaiting with events := [.engine] } : State).events = .engine :: []
      ∧ ({ awaiting with events := [.tick] } : State).events = .tick :: [] := by decide

theorem witness_SmallStepsAgree : ∃ t, tickStep (accepted 0x01 0x1000 18 0x2000 64 freshWriter) = .next t := ⟨_, rfl⟩

/-- The run's invariant says nothing where no encoding is in progress. -/
theorem runInv_of_none {s : State} (h : s.ctrl.progress = none) : RunInv s := by
  intro e r he
  simp [h] at he

theorem accepted_inv (w src len dst cap : Word) : MachineInv (accepted w src len dst cap freshWriter) := by
  refine ⟨accepted_mem_wf, accepted_table_wf, Nat.zero_le _, ?_, fun _ => rfl, runInv_of_none rfl⟩
  simp [accepted, freshWriter, writerOf, WriterInv, Config.maxBlockSize]

theorem buffered_inv (w src len dst cap : Word) : MachineInv (accepted w src len dst cap (bufferedWriter [0x61])) := by
  refine ⟨accepted_mem_wf, accepted_table_wf, Nat.zero_le _, ?_, fun _ => rfl, runInv_of_none rfl⟩
  simp [accepted, bufferedWriter, writerOf, WriterInv, Config.maxBlockSize]

theorem awaiting_inv : MachineInv awaiting := by
  refine ⟨by decide, by decide, Nat.zero_le _, ?_, ?_, runInv_of_none rfl⟩
  · simp [awaiting, writerOf, WriterInv, Config.maxBlockSize]
  · simp [awaiting, writerOf, CtrlInv, AfterInv, Writer.live]

theorem witness_TransfersBounded :
    ∃ t, Instr.flush.layer = .command ∧ MachineInv (accepted 0x12 0 0 0 0 (bufferedWriter [0x61]))
      ∧ (accepted 0x12 0 0 0 0 (bufferedWriter [0x61])).ctrl = .accepted
      ∧ exec .flush (accepted 0x12 0 0 0 0 (bufferedWriter [0x61])) = .next t :=
  ⟨_, rfl, buffered_inv .., rfl, rfl⟩

/-- A machine that has sent a header and awaits the sink; its next step offers the sink's answer to the engine. -/
theorem witness_MachineInvKept : ∃ s t, s.ctrl ≠ .idle ∧ MachineInv s ∧ step s = .next t :=
  ⟨{ awaiting with events := [.sink .ok] }, _, by decide, awaiting_inv, rfl⟩

theorem witness_SinkErrInvKept : ∃ s t, SinkErrInv s ∧ s.writer.sinkErr ≠ 0 ∧ step s = .next t := by
  refine ⟨{ State.reset with
      writer := ⟨.errored, .unbuffered, true, [], 5⟩
      sinkLog := [.transfer [0x61] (.answered (.err five 0))]
      events := [.engine] }, _, ⟨⟨by decide, by decide, Nat.zero_le _, ?_, ?_, runInv_of_none rfl⟩, ?_⟩, by decide, rfl⟩
  · simp [WriterInv, Config.maxBlockSize]
  · simp [CtrlInv, State.reset]
  · exact ⟨fun _ => ⟨[0x61], five, 0, rfl⟩, fun _ => by decide⟩

theorem witness_StreamHeadInvKept :
    ∃ s t, StreamHeadInv s ∧ s.writer.hdr = true ∧ s.raceMark = false ∧ step s = .next t := by
  refine ⟨{ State.reset with
      writer := writerOf .streaming .unbuffered true []
      sinkLog := [.transfer Config.magicChunk (.answered .ok)]
      events := [.engine] }, _, ⟨⟨by decide, by decide, Nat.zero_le _, ?_, ?_, runInv_of_none rfl⟩, by decide, fun _ => ⟨by decide, fun _ => ?_⟩⟩,
      rfl, rfl, rfl⟩
  · simp [writerOf, WriterInv, Config.maxBlockSize]
  · simp [CtrlInv, State.reset, writerOf]
  · exact ⟨Config.magicChunk, [], rfl, List.prefix_rfl⟩

theorem witness_MemoryBoundInvKept :
    ∃ s t, MachineInv s ∧ MemoryBoundInv s ∧ s.mem ≠ [] ∧ step s = .next t :=
  ⟨{ accepted 0x02 0 0 0 0 freshWriter with events := [.host (.memStore 0xFFFF 1)] }, _, accepted_inv 0x02 0 0 0 0,
    ⟨by decide, by decide, by simp [accepted, accept]⟩, by decide, rfl⟩

/-- An ENCODE that passes its checks, and one whose capacity is too small. -/
theorem witness_CommandsStayInRanges :
    (∃ t, exec .encode (accepted 0x01 0x1000 18 0x2000 64 freshWriter) = .next t ∧ t.resultCode = .ok)
      ∧ (accepted 0x01 0x1000 18 0x2000 64 freshWriter).raced = false
      ∧ (∃ t, exec .encode (accepted 0x01 0x1000 18 0x2000 52 freshWriter) = .next t)
      ∧ (∀ cap, MachineInv (accepted 0x01 0x1000 18 0x2000 cap freshWriter))
      ∧ (∃ t, exec .maxlen (accepted 0x02 0 0 0 0 freshWriter) = .next t) ∧ Instr.encode.layer = .command
      ∧ Instr.maxlen.layer = .command :=
  ⟨⟨_, rfl, by decide +kernel⟩, rfl, ⟨_, rfl⟩, fun _ => accepted_inv .., ⟨_, rfl⟩, rfl, rfl⟩

theorem witness_CommandFrame :
    Instr.resetStream.layer = .command ∧ ∃ t, exec .resetStream (accepted 0x14 0 0 0 0 freshWriter) = .next t := ⟨rfl, _, rfl⟩

theorem witness_MarksSticky :
    ∃ s t, s.refusalMark = true ∧ s.raceMark = true ∧ step s = .next t :=
  ⟨{ State.reset with refusalMark := true, raceMark := true, events := [.hardReset ⟨0, []⟩] }, _, rfl, rfl, rfl⟩

theorem witness_OverrunSticky :
    (let s := { accepted 0x02 0 0 0 0 freshWriter with events := [.host (.csrStore 0x0C .word 1)] }
     s.events = .host (.csrStore 0x0C .word 1) :: [] ∧ csrOffset s.params 0x0C = 0x0C ∧ s.busy = true)
      ∧ ∃ s t, s.cmdOverrun = true ∧ step s = .next t :=
  ⟨by decide, { State.reset with cmdOverrun := true, events := [.host (.csrStore 0x10 .word 2)] }, _, rfl, rfl⟩

theorem witness_ResultChangesAtFinish :
    (∃ s t, step s = .next t ∧ (∀ d rest, s.events ≠ .hardReset d :: rest) ∧ s.busy = true)
      ∧ ∃ s t, step s = .next t ∧ (∀ d rest, s.events ≠ .hardReset d :: rest) ∧ s.busy = false ∧ s.done = true :=
  ⟨⟨accepted 0x02 0 0 0 0 freshWriter, _, rfl, by simp [accepted, accept, State.reset], rfl⟩,
    ⟨{ State.reset with done := true, events := [.host (.csrStore 0x0C .word 3)] }, _, rfl, by simp, rfl, rfl⟩⟩

theorem witness_HeaderAndErrorCleared : ∃ s t, MachineInv s ∧ s.writer.hdr = true ∧ step s = .next t :=
  ⟨{ awaiting with answers := [.err five 0] }, _, awaiting_inv, rfl, rfl⟩

theorem witness_ArgumentsAreLatched :
    (∃ t, engineStep (accepted 0x02 0 18 0 0 freshWriter) = .next t)
      ∧ ∃ t, tickStep (accepted 0x01 0x1000 18 0x2000 64 freshWriter) = .next t := ⟨⟨_, rfl⟩, ⟨_, rfl⟩⟩

theorem witness_CsrAccessRefused :
    csrOffset State.reset.params 0xFF < 256 ∧ csrOffset State.reset.params 0xFF % 4 ≠ 0 ∧ AccessWidth.byte ≠ .word
      ∧ csrOffset State.reset.params 0xFC < 256 ∧ csrOffset State.reset.params 0xFC % 4 = 0
      ∧ (∃ t, hostStep (.csrLoad 0xFC .word) State.reset = .next t) :=
  ⟨by decide, by decide, by decide, by decide, by decide, csrLoad 0xFC .word State.reset, rfl⟩

theorem csrOffset_reset (a : Word) : csrOffset State.reset.params a = a.toNat := by
  simp [csrOffset, State.reset, Params.default]

theorem witness_CsrRegisters :
    ∀ addr ∈ [(0x00 : Word), 0x04, 0x08, 0x0C, 0x10, 0x14, 0x18, 0x1C, 0x20, 0x24, 0x28, 0x2C, 0x30, 0xFC],
      csrOffset State.reset.params addr < 256 ∧ csrOffset State.reset.params addr % 4 = 0 ∧ State.reset.busy = false := by
  have idle : State.reset.busy = false := rfl
  simp [csrOffset_reset, idle]

theorem witness_BusyReads : awaiting.busy = true ∧ csrOffset awaiting.params 0x28 < 256 ∧ csrOffset awaiting.params 0x28 % 4 = 0 := by
  decide

theorem witness_HardwareReset :
    ({ awaiting with events := [.hardReset ⟨1, []⟩] } : State).events = .hardReset ⟨1, []⟩ :: []
      ∧ awaiting.ctrl = .waiting ⟨[0x61], [], .flush⟩ ∧ State.reset.ctrl = .idle ∧ awaiting.mem.wf ∧ awaiting.raced = false
      ∧ (accepted 0x01 0x1000 18 0x2000 64 freshWriter).mem.wf
      ∧ (answering awaiting [.ok]).ctrl = .waiting ⟨[0x61], [], .flush⟩
      ∧ (accepted 0x01 0x1000 18 0x2000 64 freshWriter).ctrl = .accepted := by decide

/-- The last byte of the source and the first of the destination of a running ENCODE, and the bytes next to them. -/
theorem witness_HostMemoryRaces :
    let s := accepted 0x01 0x1000 18 0x1012 64 freshWriter
    s.busy = true ∧ s.args.instr = .encode
      ∧ (s.args.srcAddr.toNat ≤ 0x1011 ∧ 0x1011 < s.args.srcAddr.toNat + s.args.srcLen.toNat)
      ∧ (s.args.dstAddr.toNat ≤ 0x1012 ∧ 0x1012 < s.args.dstAddr.toNat + s.args.dstCap.toNat)
      ∧ ¬(s.args.srcAddr.toNat ≤ 0x0FFF) ∧ ¬(0x1052 < s.args.dstAddr.toNat + s.args.dstCap.toNat)
      ∧ 0x1052 < s.params.hostMemSize ∧ s.params.hostMemSize ≤ (0x10000 : Word).toNat := by decide

theorem witness_LiteralsAppend :
    ∀ n ∈ [1, 60, 61, 256, 257, 65536], ∃ lit : List Byte, lit.length = n ∧ 1 ≤ lit.length ∧ lit.length ≤ 65536 :=
  witness_EmitLiteral

theorem witness_CopiesAppend :
    (∃ o l, Instr.copy1 1 7 = .copy1 o l ∧ 1 = o.toNat ∧ 11 = l.toNat + 4)
      ∧ (∃ o l, Instr.copy2 1 0 = .copy2 o l ∧ 1 = o.toNat ∧ 1 = l.toNat + 1)
      ∧ (∃ o l, Instr.copy4 1 63 = .copy4 o l ∧ 1 = o.toNat ∧ 64 = l.toNat + 1)
      ∧ 1 ≤ (reading [7] false).reader.out.length ∧ (reading [] false).reader.out.length < 1 :=
  ⟨⟨1, 7, rfl, rfl, rfl⟩, ⟨1, 0, rfl, rfl, rfl⟩, ⟨1, 63, rfl, rfl, rfl⟩, by decide, by decide⟩

theorem witness_ChunksRead :
    (reading [] false).reader.headed = false ∧ (reading [] true).reader.headed = true
      ∧ (0x28E46E78 : Word) = mask (crc32c [0x61]) ∧ (0 : Word) ≠ mask (crc32c [0x61])
      ∧ decodeBlock [0x01, 0x00, 0x61] = some [0x61] ∧ decodeBlock [0x01, 0x01, 0x00] = none
      ∧ (0xA282EAD8 : Word) = mask (crc32c []) ∧ decodeBlock [0x00] = some []
      ∧ ([0x73, 0x4E] : List Byte) ≠ [0x73, 0x4E, 0x61, 0x50, 0x70, 0x59] := by decide +kernel

theorem witness_FramedChunkReads :
    ∃ (u : List Byte) (t : Table) (s : State), 1 ≤ u.length ∧ u.length ≤ 65536 ∧ t.wf ∧ s.reader.headed = true :=
  ⟨[0x61], [(3, 7)], reading [] true, by decide⟩

theorem witness_StreamReadsBack :
    ∃ (s : State) (us : List (List Byte)), us ≠ [] ∧ (∀ u ∈ us, 1 ≤ u.length ∧ u.length ≤ 65536)
      ∧ s.events = List.replicate (us.length + 1) .reader
      ∧ s.reader = ⟨.stream, (streamTransfers Params.default false us).flatten, [], false, false⟩ :=
  ⟨{ State.reset with
      events := List.replicate 3 .reader
      reader := ⟨.stream, (streamTransfers Params.default false [[0x61], [0x62, 0x63]]).flatten, [], false, false⟩ },
    [[0x61], [0x62, 0x63]], by decide, by decide, rfl, rfl⟩

end Sys2Proof.Tests
end

section
/-! SUPPORT. Decoding what was encoded, for the elements of a block and the data chunks of a stream (30 R97 to R112). -/

namespace Sys2Proof

/-! ### Literals -/

theorem decodeLiteral_append (make : List Byte → Instr) {lit : List Byte} (h : 1 ≤ lit.length) (rest : List Byte) :
    decodeLiteral make (lit.length - 1) (lit ++ rest) = .ok (make lit) rest := by
  rw [decodeLiteral, Nat.sub_add_cancel h, takeBytes_append]

theorem literalFits_iff {most : Nat} {lit : List Byte} : literalFits most lit = true ↔ 1 ≤ lit.length ∧ lit.length ≤ most := by
  simp only [literalFits, Bool.and_eq_true, decide_eq_true_eq]
  rfl

theorem decodeLongLiteral_append (make : List Byte → Instr) {k : Nat} {lit : List Byte} (hfit : literalFits (256 ^ k) lit = true)
    (rest : List Byte) : decodeLongLiteral make k (leBytes k (lit.length - 1) ++ lit ++ rest) = .ok (make lit) rest := by
  obtain ⟨h, hk⟩ := literalFits_iff.1 hfit
  have hv : (lit.length - 1) % 256 ^ k = lit.length - 1 := Nat.mod_eq_of_lt (by omega)
  simp only [decodeLongLiteral, List.append_assoc, takeBytes_leBytes, leValue_leBytes, hv, decodeLiteral_append make h]

/-- The tag of an inline literal has kind 0 in its low two bits and the length less one in its high six (30 R98). -/
theorem inlineTag_fields {n : Nat} (h : n < 60) :
    (BitVec.ofNat 8 (n <<< 2)).extractLsb' 0 2 = 0 ∧ ((BitVec.ofNat 8 (n <<< 2)).extractLsb' 2 6).toNat = n := by
  constructor
  · apply BitVec.eq_of_toNat_eq
    simp [Nat.shiftLeft_eq]
  · simp [Nat.shiftLeft_eq, Nat.shiftRight_eq_div_pow]
    omega

/-! ### Copies -/

/-- The tag of COPY_2 or COPY_4: the length field over the kind bits (30 R103, R104). -/
theorem copyTag_fields (len : BitVec 6) (kind : BitVec 2) :
    (show Byte from len ++ kind).extractLsb' 0 2 = kind ∧ (show Byte from len ++ kind).extractLsb' 2 6 = len :=
  ⟨BitVec.extractLsb'_append_eq_right, BitVec.extractLsb'_append_eq_left⟩

/-- The tag of COPY_1: three offset bits over the length field over the kind bits (30 R102). -/
theorem copy1Tag_fields (high len : BitVec 3) (kind : BitVec 2) :
    (show Byte from high ++ len ++ kind).extractLsb' 0 2 = kind
      ∧ (show Byte from high ++ len ++ kind).extractLsb' 2 3 = len
      ∧ (show Byte from high ++ len ++ kind).extractLsb' 5 3 = high := by
  refine ⟨BitVec.extractLsb'_append_eq_right, ?_, ?_⟩
  · exact (BitVec.extractLsb'_append_eq_of_le (by decide)).trans BitVec.extractLsb'_append_eq_right
  · exact (BitVec.extractLsb'_append_eq_of_le (by decide)).trans BitVec.extractLsb'_append_eq_left

theorem copy1Offset_join (offset : BitVec 11) :
    offset.extractLsb' 8 3 ++ BitVec.ofNat 8 (leValue [offset.extractLsb' 0 8]) = offset := by
  have hlow : BitVec.ofNat 8 (leValue [offset.extractLsb' 0 8]) = offset.extractLsb' 0 8 := by
    simp only [leValue, Nat.mul_zero, Nat.add_zero, BitVec.ofNat_toNat, BitVec.setWidth_eq]
  rw [hlow]
  exact (BitVec.extractLsb'_append_extractLsb'_eq_extractLsb' (by decide)).trans BitVec.extractLsb'_eq_self

/-- A number of `8 * k` bits survives its little-endian bytes. -/
theorem ofNat_leValue_leBytes {w : Nat} (k : Nat) (hw : w = 8 * k) (x : BitVec w) :
    BitVec.ofNat w (leValue (leBytes k x.toNat)) = x := by
  subst hw
  rw [leValue_leBytes, Nat.mod_eq_of_lt, BitVec.ofNat_toNat, BitVec.setWidth_eq]
  calc x.toNat < 2 ^ (8 * k) := x.isLt
    _ = 256 ^ k := by rw [Nat.pow_mul]

/-! ### Elements -/

/-- Decoding the bytes of a well-formed element gives it back and leaves what follows (30 R97 to R104). -/
theorem decodeElement_encodeInstr {i : Instr} (hl : i.layer = .element) (hw : i.wellFormed = true) (rest : List Byte) :
    decodeElement (encodeInstr i ++ rest) = .ok i rest := by
  cases i with
  | encode | maxlen | initWriter | write | flush | close | resetStream | illegal
  | chunkStreamId | chunkCompressed | chunkUncompressed => simp [Instr.layer] at hl
  | litInline lit =>
    obtain ⟨h, h60⟩ := literalFits_iff.1 hw
    obtain ⟨hkind, hlen⟩ := inlineTag_fields (n := lit.length - 1) (by omega)
    simp only [encodeInstr, List.cons_append, decodeElement, hkind, if_true, hlen, decodeLiteralTag]
    rw [if_pos (by omega), decodeLiteral_append _ h]
  | lit1 lit => exact decodeLongLiteral_append .lit1 (k := 1) hw rest
  | lit2 lit => exact decodeLongLiteral_append .lit2 (k := 2) hw rest
  | lit3 lit => exact decodeLongLiteral_append .lit3 (k := 3) hw rest
  | lit4 lit => exact decodeLongLiteral_append .lit4 (k := 4) hw rest
  | copy1 offset len =>
    obtain ⟨hkind, hlen, hhigh⟩ := copy1Tag_fields (offset.extractLsb' 8 3) len 0b01#2
    have htake := takeBytes_append [offset.extractLsb' 0 8] rest
    simp only [List.length_singleton, List.singleton_append] at htake
    simp only [encodeInstr, List.cons_append, List.nil_append, decodeElement, decodeCopyTag, htake]
    rw [hkind, hlen, hhigh, copy1Offset_join]
    rfl
  | copy2 offset len =>
    obtain ⟨hkind, hlen⟩ := copyTag_fields len 0b10#2
    simp only [encodeInstr, List.cons_append, decodeElement, decodeCopyTag, takeBytes_leBytes, ofNat_leValue_leBytes 2 rfl]
    rw [hkind, hlen]
    rfl
  | copy4 offset len =>
    obtain ⟨hkind, hlen⟩ := copyTag_fields len 0b11#2
    simp only [encodeInstr, List.cons_append, decodeElement, decodeCopyTag, takeBytes_leBytes, ofNat_leValue_leBytes 4 rfl]
    rw [hkind, hlen]
    rfl

/-! ### Chunks -/

/-- A chunk is read by its type once its payload, as long as its header says, is cut off (30 R108). -/
theorem decodeChunk_encodeChunk {type : Byte} (ht : type = 0x00 ∨ type = 0x01 ∨ type = 0xFF) {payload : List Byte}
    (hp : payload.length < 2 ^ 24) (rest : List Byte) :
    decodeChunk (encodeChunk type payload ++ rest) =
      if type = 0xFF then .ok (.chunkStreamId payload) rest
      else if type = 0x00 then decodeDataChunk .chunkCompressed payload rest
      else decodeDataChunk .chunkUncompressed payload rest := by
  have hlen : leValue (leBytes 3 payload.length) = payload.length := by
    rw [leValue_leBytes, Nat.mod_eq_of_lt (by simpa using hp)]
  simp only [encodeChunk, List.cons_append, List.append_assoc, decodeChunk, ht, if_true, takeBytes_leBytes, hlen,
    takeBytes_append]

theorem decodeDataChunk_append (make : Word → List Byte → Instr) (crc : Word) (data rest : List Byte) :
    decodeDataChunk make (leBytes 4 crc.toNat ++ data) rest = .ok (make crc data) rest := by
  simp only [decodeDataChunk, takeBytes_leBytes, ofNat_leValue_leBytes 4 rfl]

/-- Decoding the bytes of a well-formed chunk gives it back and leaves what follows (30 R108 to R112). -/
theorem decodeChunk_encodeInstr {i : Instr} (hl : i.layer = .chunk) (hw : i.wellFormed = true) (rest : List Byte) :
    decodeChunk (encodeInstr i ++ rest) = .ok i rest := by
  cases i with
  | encode | maxlen | initWriter | write | flush | close | resetStream | illegal
  | litInline | lit1 | lit2 | lit3 | lit4 | copy1 | copy2 | copy4 => simp [Instr.layer] at hl
  | chunkStreamId p =>
    simp only [Instr.wellFormed, decide_eq_true_eq] at hw
    rw [encodeInstr, decodeChunk_encodeChunk (by decide) (by rw [hw]; decide), if_pos rfl]
  | chunkCompressed crc data =>
    simp only [Instr.wellFormed, decide_eq_true_eq] at hw
    rw [encodeInstr, decodeChunk_encodeChunk (by decide) (by simpa using hw), if_neg (by decide), if_pos rfl,
      decodeDataChunk_append]
  | chunkUncompressed crc data =>
    simp only [Instr.wellFormed, decide_eq_true_eq] at hw
    rw [encodeInstr, decodeChunk_encodeChunk (by decide) (by simpa using hw), if_neg (by decide), if_neg (by decide),
      decodeDataChunk_append]

end Sys2Proof
end

section
/-! SUPPORT. Reading an encoded block: its varint, and the elements the engine may emit (30 R94 to R107). -/

namespace Sys2Proof.Machine

/-! ### The head of a block -/

/-- A varint of `k + 1` bytes holds `7 * (k + 1)` bits (30 R96, 40 R140). -/
theorem takeVarint_varintLoop (k n : Nat) (h : n < 2 ^ (7 * (k + 1))) (rest : List Byte) :
    takeVarint (k + 1) (varintLoop k n ++ rest) = some (n, rest) := by
  induction k generalizing n with
  | zero =>
    have hn : (BitVec.ofNat 8 n).toNat = n := by simp; omega
    simp only [varintLoop, List.cons_append, List.nil_append, takeVarint, hn]
    rw [if_pos (by omega)]
  | succ k ih =>
    unfold varintLoop
    split
    · have hb : (BitVec.ofNat 8 (n % 0x80 + 0x80)).toNat = n % 0x80 + 0x80 := by simp; omega
      have hn : n / 0x80 < 2 ^ (7 * (k + 1)) :=
        Nat.div_lt_of_lt_mul (by rw [Nat.mul_comm, show 0x80 = 2 ^ 7 from rfl, ← Nat.pow_add]; exact h)
      rw [List.cons_append, takeVarint, hb, if_neg (by omega), ih _ hn]
      simp only [Option.map_some, Option.some.injEq, Prod.mk.injEq, and_true]
      omega
    · have hn : (BitVec.ofNat 8 n).toNat = n := by simp; omega
      rw [List.cons_append, takeVarint, hn, if_pos (by omega), List.nil_append]

theorem takeBlockHead_putVarint {n : Nat} (h : n < 2 ^ 32) (rest : List Byte) :
    takeBlockHead (putVarint n ++ rest) = some (n, rest) := by
  have ht : takeVarint 5 (putVarint n ++ rest) = some (n, rest) := takeVarint_varintLoop 4 n (by omega) rest
  simp only [takeBlockHead, ht, h, and_self, if_true]

/-! ### The elements of a block -/

/-- What the engine may emit is a well-formed element (30 R98 to R104, R116). -/
theorem wellFormed_of_engineEmits {i : Instr} (h : engineEmits i = true) : i.layer = .element ∧ i.wellFormed = true := by
  cases i with
  | encode | maxlen | initWriter | write | flush | close | resetStream | illegal | lit3 | lit4 | copy4
  | chunkStreamId | chunkCompressed | chunkUncompressed => simp [engineEmits] at h
  | litInline lit | copy1 offset len => exact ⟨rfl, h⟩
  | lit1 lit | lit2 lit =>
    simp only [engineEmits, Bool.and_eq_true, decide_eq_true_eq] at h
    exact ⟨rfl, literalFits_iff.2 ⟨by omega, h.2⟩⟩
  | copy2 offset len =>
    simp only [engineEmits, Bool.and_eq_true] at h
    exact ⟨rfl, h.1.1⟩

theorem encodeInstr_ne_nil (i : Instr) : encodeInstr i ≠ [] := by
  cases i with
  | initWriter mode => cases mode <;> simp [encodeInstr, encodeWord, leBytes]
  | _ => simp [encodeInstr, encodeWord, leBytes, encodeLongLiteral, encodeChunk]

/-- Reading the bytes of emitted elements applies them in order (30 R107). -/
theorem readElements_flatMap {els : List Instr} (he : ∀ i ∈ els, engineEmits i = true) {n : Nat}
    (hn : (els.flatMap encodeInstr).length ≤ n) (out : List Byte) :
    readElements n (els.flatMap encodeInstr) out = applyElements els out := by
  induction els generalizing n out with
  | nil => cases n <;> rfl
  | cons i els ih =>
    obtain ⟨hlayer, hwf⟩ := wellFormed_of_engineEmits (he i (by simp))
    have hd := decodeElement_encodeInstr hlayer hwf (els.flatMap encodeInstr)
    obtain ⟨b, bs, hb⟩ := List.exists_cons_of_ne_nil (encodeInstr_ne_nil i)
    rw [List.flatMap_cons, hb, List.cons_append] at hn ⊢
    rw [hb, List.cons_append] at hd
    cases n with
    | zero => simp at hn
    | succ n =>
      have hrest : readElements n (els.flatMap encodeInstr) = applyElements els := by
        funext o
        refine ih (fun j hj => he j (by simp [hj])) ?_ o
        simp only [List.length_cons, List.length_append] at hn
        omega
      simp only [readElements, hd, applyElements, hrest]

/-- The block of elements that decode to `u` is a valid encoding of `u` (30 R107). -/
theorem decodeBlock_blockBytes {els : List Instr} (he : ∀ i ∈ els, engineEmits i = true) {u : List Byte}
    (hu : u.length < 2 ^ 32) (ha : applyElements els [] = some u) : decodeBlock (blockBytes u.length els) = some u := by
  rw [decodeBlock, blockBytes, takeBlockHead_putVarint hu]
  simp only [readElements_flatMap he (Nat.le_refl _), ha, if_true]

end Sys2Proof.Machine
end

section
/-! SUPPORT. What the emitters' elements mean to a decoder: a literal appends its bytes, a copy its length (40 R130 to R134). -/

namespace Sys2Proof.Machine

/-! ### Elements in sequence -/

theorem applyElements_append (xs ys : List Instr) (out : List Byte) :
    applyElements (xs ++ ys) out = (applyElements xs out).bind (applyElements ys) := by
  induction xs generalizing out with
  | nil => rfl
  | cons i xs ih =>
    simp only [List.cons_append, applyElements, Option.bind_assoc]
    congr 1
    funext o
    exact ih o

theorem applyElements_singleton (i : Instr) (out : List Byte) : applyElements [i] out = applyElement i out :=
  Option.bind_fun_some _

/-- The elements are ones the engine may emit, and decode to the bytes `u`, after whatever was decoded before. -/
def Emits (els : List Instr) (u : List Byte) : Prop :=
  (∀ i ∈ els, engineEmits i = true) ∧ ∀ out, applyElements els out = some (out ++ u)

theorem emits_nil : Emits [] [] := ⟨by simp, fun out => by simp [applyElements]⟩

theorem forall_engineEmits_append {xs ys : List Instr} (hx : ∀ i ∈ xs, engineEmits i = true)
    (hy : ∀ i ∈ ys, engineEmits i = true) : ∀ i ∈ xs ++ ys, engineEmits i = true :=
  fun i hi => (List.mem_append.1 hi).elim (hx i) (hy i)

theorem Emits.append {xs ys : List Instr} {u v : List Byte} (hx : Emits xs u) (hy : Emits ys v) : Emits (xs ++ ys) (u ++ v) :=
  ⟨forall_engineEmits_append hx.1 hy.1, fun out => by
    rw [applyElements_append, hx.2, Option.bind_some, hy.2, List.append_assoc]⟩

/-! ### Literals -/

/-- A literal element is of a form the engine may emit, and appends its bytes (40 R130, 30 R116). -/
theorem emits_literalElement {lit : List Byte} (h : 1 ≤ lit.length) (hmax : lit.length ≤ 65536) :
    Emits [literalElement lit] lit := by
  have hspec : engineEmits (literalElement lit) = true ∧ ∀ out, applyElement (literalElement lit) out = some (out ++ lit) := by
    unfold literalElement
    split
    · exact ⟨literalFits_iff.2 ⟨h, by omega⟩, fun _ => rfl⟩
    · split
      · exact ⟨by simp only [engineEmits, Bool.and_eq_true, decide_eq_true_eq]; omega, fun _ => rfl⟩
      · exact ⟨by simp only [engineEmits, Bool.and_eq_true, decide_eq_true_eq]; omega, fun _ => rfl⟩
  exact ⟨by simpa using hspec.1, fun out => by rw [applyElements_singleton, hspec.2]⟩

/-! ### Copies -/

theorem copyBytes_add (offset a b : Nat) (out : List Byte) :
    copyBytes offset (a + b) out = copyBytes offset b (copyBytes offset a out) := by
  induction a generalizing out with
  | zero => rw [Nat.zero_add]; rfl
  | succ a ih => rw [Nat.succ_add]; exact ih _

@[simp] theorem copyBytes_length (offset k : Nat) (out : List Byte) : (copyBytes offset k out).length = out.length + k := by
  induction k generalizing out with
  | zero => rfl
  | succ k ih => rw [copyBytes, ih, List.length_append, List.length_singleton]; omega

/-- An element is one the engine may emit and copies `length` bytes from `offset` back, from any output that reaches there. -/
def CopiesBack (offset length : Nat) (i : Instr) : Prop :=
  engineEmits i = true ∧ ∀ out : List Byte, offset ≤ out.length → applyElement i out = some (copyBytes offset length out)

theorem copy2Element_copiesBack {offset length : Nat} (ho : 1 ≤ offset) (hmax : offset ≤ 65535) (hl : 4 ≤ length)
    (hl64 : length ≤ 64) (h : 12 ≤ length ∨ 2048 ≤ offset) : CopiesBack offset length (copy2Element offset length) := by
  have hoff : (BitVec.ofNat 16 offset).toNat = offset := by simp; omega
  have hlen : (BitVec.ofNat 6 (length - 1)).toNat + 1 = length := by simp; omega
  have hne : BitVec.ofNat 16 offset ≠ 0 := fun h0 => by rw [h0] at hoff; simp at hoff; omega
  refine ⟨?_, fun out hout => ?_⟩
  · simp only [copy2Element, engineEmits, hoff, hlen, Bool.and_eq_true, Bool.or_eq_true, decide_eq_true_eq]
    exact ⟨⟨hne, hl⟩, h⟩
  · simp only [copy2Element, applyElement, applyCopy, hoff, hlen, ho, hout, and_self, if_true]

/-- The final element of a copy (40 R132, R133). -/
theorem finalCopy_copiesBack {offset length : Nat} (ho : 1 ≤ offset) (hmax : offset ≤ 65535) (hl : 4 ≤ length)
    (hl64 : length ≤ 64) : CopiesBack offset length (finalCopy offset length) := by
  unfold finalCopy
  split
  · exact copy2Element_copiesBack ho hmax hl hl64 (by assumption)
  · have hoff : (BitVec.ofNat 11 offset).toNat = offset := by simp; omega
    have hlen : (BitVec.ofNat 3 (length - 4)).toNat + 4 = length := by simp; omega
    have hne : BitVec.ofNat 11 offset ≠ 0 := fun h0 => by rw [h0] at hoff; simp at hoff; omega
    refine ⟨?_, fun out hout => ?_⟩
    · simp only [engineEmits, decide_eq_true_eq]
      exact hne
    · simp only [applyElement, applyCopy, hoff, hlen, ho, hout, and_self, if_true]

/-- Elements are ones the engine may emit, and together copy `length` bytes from `offset` back. -/
def AllCopyBack (offset length : Nat) (els : List Instr) : Prop :=
  (∀ i ∈ els, engineEmits i = true)
    ∧ ∀ out : List Byte, offset ≤ out.length → applyElements els out = some (copyBytes offset length out)

theorem CopiesBack.singleton {offset length : Nat} {i : Instr} (h : CopiesBack offset length i) :
    AllCopyBack offset length [i] :=
  ⟨by simpa using h.1, fun out hout => by rw [applyElements_singleton, h.2 out hout]⟩

theorem CopiesBack.cons {offset a b : Nat} {i : Instr} {els : List Instr} (h : CopiesBack offset a i)
    (hs : AllCopyBack offset b els) : AllCopyBack offset (a + b) (i :: els) := by
  refine ⟨?_, fun out hout => ?_⟩
  · simpa using ⟨h.1, hs.1⟩
  · rw [applyElements, h.2 out hout, Option.bind_some, hs.2 _ (by simp; omega), copyBytes_add]

theorem lastCopies_copyBack {offset length : Nat} (ho : 1 ≤ offset) (hmax : offset ≤ 65535) (hl : 4 ≤ length)
    (hl67 : length ≤ 67) : AllCopyBack offset length (lastCopies offset length) := by
  unfold lastCopies
  split
  · have h60 : CopiesBack offset 60 (copy2Element offset 60) :=
      copy2Element_copiesBack ho hmax (by omega) (by omega) (.inl (by omega))
    have hrest := finalCopy_copiesBack (length := length - 60) ho hmax (by omega) (by omega)
    simpa [show 60 + (length - 60) = length by omega] using h60.cons hrest.singleton
  · exact (finalCopy_copiesBack ho hmax hl (by omega)).singleton

theorem copyLoop_copyBack {offset : Nat} (ho : 1 ≤ offset) (hmax : offset ≤ 65535) (n : Nat) {length : Nat} (hl : 4 ≤ length)
    (hn : length < 64 * n + 68) : AllCopyBack offset length (copyLoop n offset length) := by
  induction n generalizing length with
  | zero => exact lastCopies_copyBack ho hmax hl (by omega)
  | succ n ih =>
    unfold copyLoop
    split
    · have h64 : CopiesBack offset 64 (copy2Element offset 64) :=
        copy2Element_copiesBack ho hmax (by omega) (by omega) (.inl (by omega))
      have hrest := ih (length := length - 64) (by omega) (by omega)
      simpa [show 64 + (length - 64) = length by omega] using h64.cons hrest
    · exact lastCopies_copyBack ho hmax hl (by omega)

/-- The elements of `emit_copy` copy the whole length (40 R132). -/
theorem copyElements_copyBack {offset length : Nat} (ho : 1 ≤ offset) (hmax : offset ≤ 65535) (hl : 4 ≤ length) :
    AllCopyBack offset length (copyElements offset length) :=
  copyLoop_copyBack ho hmax _ hl (by omega)

/-- Copying inside a sequence that repeats itself `offset` back gives the sequence's next bytes. -/
theorem copyBytes_take {offset k a : Nat} (pre seg : List Byte) (h1 : 1 ≤ offset) (ho : offset ≤ a) (hend : a + k ≤ seg.length)
    (h : ∀ i, i < k → seg[a + i]? = seg[a - offset + i]?) :
    copyBytes offset k (pre ++ seg.take a) = pre ++ seg.take (a + k) := by
  induction k generalizing a with
  | zero => rfl
  | succ k ih =>
    have hlt : a < seg.length := by omega
    have hback : (pre ++ seg.take a).length - offset = pre.length + (a - offset) := by
      simp only [List.length_append, List.length_take]
      omega
    have hnext : (pre ++ seg.take a).getD ((pre ++ seg.take a).length - offset) 0 = seg[a] := by
      have h0 : seg[a]? = seg[a - offset]? := h 0 (by omega)
      rw [hback, List.getD_eq_getElem?_getD, List.getElem?_append_right (by omega), Nat.add_sub_cancel_left,
        List.getElem?_take_of_lt (by omega), ← h0, List.getElem?_eq_getElem hlt, Option.getD_some]
    have hshift : ∀ i, i < k → seg[a + 1 + i]? = seg[a + 1 - offset + i]? := by
      intro i hi
      rw [show a + 1 + i = a + (i + 1) by omega, show a + 1 - offset + i = a - offset + (i + 1) by omega]
      exact h (i + 1) (by omega)
    rw [copyBytes, hnext, List.append_assoc, List.take_append_getElem hlt, ih (by omega) (by omega) hshift,
      Nat.add_right_comm, Nat.add_assoc]

end Sys2Proof.Machine
end

section
/-! SUPPORT. A matcher run emits elements that decode to its segment (41 R167 to R176). -/

namespace Sys2Proof.Machine

/-! ### Windows and matches -/

/-- The bytes of a little-endian word, the least significant first. -/
theorem word_bytes (a b c d : Byte) :
    (show Word from d ++ c ++ b ++ a).extractLsb' 0 8 = a ∧ (show Word from d ++ c ++ b ++ a).extractLsb' 8 8 = b
      ∧ (show Word from d ++ c ++ b ++ a).extractLsb' 16 8 = c ∧ (show Word from d ++ c ++ b ++ a).extractLsb' 24 8 = d := by
  refine ⟨BitVec.extractLsb'_append_eq_right, ?_, ?_, ?_⟩
  · exact (BitVec.extractLsb'_append_eq_of_le (by decide)).trans BitVec.extractLsb'_append_eq_right
  · exact (BitVec.extractLsb'_append_eq_of_le (by decide)).trans
      ((BitVec.extractLsb'_append_eq_of_le (by decide)).trans BitVec.extractLsb'_append_eq_right)
  · exact (BitVec.extractLsb'_append_eq_of_le (by decide)).trans
      ((BitVec.extractLsb'_append_eq_of_le (by decide)).trans BitVec.extractLsb'_append_eq_left)

/-- A window inside the segment holds its four bytes, least significant first (00 R11). -/
theorem loadLe32_byte {seg : List Byte} {i k : Nat} (h : i + 4 ≤ seg.length) (hk : k < 4) :
    seg[i + k]? = some ((loadLe32 seg i).extractLsb' (8 * k) 8) := by
  obtain ⟨a, b, c, d, rest, hd⟩ : ∃ a b c d rest, seg.drop i = a :: b :: c :: d :: rest := by
    have hlen : 4 ≤ (seg.drop i).length := by rw [List.length_drop]; omega
    match seg.drop i, hlen with
    | a :: b :: c :: d :: rest, _ => exact ⟨a, b, c, d, rest, rfl⟩
  rw [← List.getElem?_drop, loadLe32, hd]
  obtain ⟨ha, hb, hc, hd⟩ := word_bytes a b c d
  match k, hk with
  | 0, _ => exact congrArg some ha.symm
  | 1, _ => exact congrArg some hb.symm
  | 2, _ => exact congrArg some hc.symm
  | 3, _ => exact congrArg some hd.symm

/-- Two positions with the same window hold the same four bytes. -/
theorem getElem?_eq_of_sameWindow {g : Segment} {a b : Nat} (h : g.sameWindow a b = true) (ha : a + 4 ≤ g.bytes.length)
    (hb : b + 4 ≤ g.bytes.length) {k : Nat} (hk : k < 4) : g.bytes[a + k]? = g.bytes[b + k]? := by
  rw [loadLe32_byte ha hk, loadLe32_byte hb hk, of_decide_eq_true h]

theorem matchLength_le (xs ys : List Byte) : matchLength xs ys ≤ ys.length := by
  induction xs generalizing ys with
  | nil => simp [matchLength]
  | cons x xs ih =>
    cases ys with
    | nil => simp [matchLength]
    | cons y ys =>
      have := ih ys
      simp only [matchLength]
      split <;> simp only [List.length_cons] <;> omega

theorem getElem?_eq_of_lt_matchLength {xs ys : List Byte} {i : Nat} (h : i < matchLength xs ys) : xs[i]? = ys[i]? := by
  induction xs generalizing ys i with
  | nil => simp [matchLength] at h
  | cons x xs ih =>
    cases ys with
    | nil => simp [matchLength] at h
    | cons y ys =>
      simp only [matchLength] at h
      split at h
      · cases i with
        | zero => simp only [List.getElem?_cons_zero, *]
        | succ i => simpa using ih (by omega)
      · omega

/-- A match extended from a common window: the two positions agree on all its bytes (41 R170). -/
theorem getElem?_eq_of_match {g : Segment} {a b i : Nat} (h : g.sameWindow a b = true) (ha : a + 4 ≤ g.bytes.length)
    (hb : b + 4 ≤ g.bytes.length) (hi : i < 4 + matchLength (g.bytes.drop (b + 4)) (g.bytes.drop (a + 4))) :
    g.bytes[a + i]? = g.bytes[b + i]? := by
  by_cases h4 : i < 4
  · exact getElem?_eq_of_sameWindow h ha hb h4
  · obtain ⟨j, rfl⟩ := Nat.exists_eq_add_of_le (Nat.le_of_not_lt h4)
    have hj := getElem?_eq_of_lt_matchLength (Nat.lt_of_add_lt_add_left hi)
    rw [List.getElem?_drop, List.getElem?_drop] at hj
    rw [← Nat.add_assoc, ← Nat.add_assoc, hj]

/-! ### What was emitted so far -/

theorem Emits.literal {g : Segment} {out : List Instr} {a b : Nat} (h : Emits out (g.bytes.take a)) (hab : a < b)
    (hb : b ≤ g.bytes.length) (hmax : g.bytes.length ≤ 65536) :
    Emits (out ++ [literalElement (g.slice a b)]) (g.bytes.take b) := by
  have hlen : (g.slice a b).length = b - a := by
    simp only [Segment.slice, List.length_take, List.length_drop]
    omega
  have hjoin : g.bytes.take a ++ g.slice a b = g.bytes.take b := by
    rw [Segment.slice, ← List.take_add, Nat.add_sub_cancel' (by omega)]
  exact hjoin ▸ h.append (emits_literalElement (by omega) (by omega))

theorem Emits.copy {seg : List Byte} {out : List Instr} {s c n : Nat} (h : Emits out (seg.take s)) (hc : c < s) (hn : 4 ≤ n)
    (hend : s + n ≤ seg.length) (hmax : seg.length ≤ 65536) (heq : ∀ i, i < n → seg[s + i]? = seg[c + i]?) :
    Emits (out ++ copyElements (s - c) n) (seg.take (s + n)) := by
  obtain ⟨hemit, happly⟩ := copyElements_copyBack (offset := s - c) (length := n) (by omega) (by omega) hn
  refine ⟨forall_engineEmits_append h.1 hemit, fun pre => ?_⟩
  have hreach : s - c ≤ (pre ++ seg.take s).length := by
    simp only [List.length_append, List.length_take]
    omega
  rw [applyElements_append, h.2, Option.bind_some, happly _ hreach,
    copyBytes_take pre seg (by omega) (by omega) hend fun i hi => by rw [heq i hi, Nat.sub_sub_self (by omega)]]

/-! ### The table -/

/-- The first `n` slots of the table hold positions below `b`. -/
def TableBelow (n b : Nat) (t : Table) : Prop := CellsWf 0 t ∧ ∀ k, k < n → tableGet t k < b

theorem TableBelow.put {n b b' k v : Nat} {t : Table} (h : TableBelow n b t) (hb : b ≤ b') (hv : v < b') (h16 : v < 65536) :
    TableBelow n b' (tablePut t k v) := by
  refine ⟨cellsPut_wf h.1 _ _, fun j hj => ?_⟩
  rw [tableGet_tablePut h.1]
  split
  · omega
  · have := h.2 j hj
    omega

theorem TableBelow.mono {n b b' : Nat} {t : Table} (h : TableBelow n b t) (hb : b ≤ b') : TableBelow n b' t :=
  ⟨h.1, fun k hk => Nat.lt_of_lt_of_le (h.2 k hk) hb⟩

theorem tableBelow_tableClear {t : Table} (h : t.wf) (n : Nat) {b : Nat} (hb : 0 < b) : TableBelow n b (tableClear t n) :=
  ⟨filter_wf h.1 _, fun k hk => by rw [tableGet_tableClear t hk]; exact hb⟩

/-- A slot of the window at a position is one that the run cleared (41 R152, R157). -/
theorem slot_lt_tsize (rule : TableSizeRule) (seg : List Byte) (p : Nat) :
    (Segment.mk seg (tableShift rule seg.length)).slot p < tsize rule seg.length := by
  have hb := tableBits_le rule seg.length
  simp only [Segment.slot, hash, tableShift, tsize]
  rw [BitVec.toNat_ushiftRight, Nat.shiftRight_eq_div_pow, Nat.div_lt_iff_lt_mul (by positivity), ← Nat.pow_add,
    Nat.add_sub_cancel' (by omega)]
  exact BitVec.isLt _

/-! ### The invariant of a run -/

/-- What holds of a matcher run in each phase: where its positions stand, that the table's slots point below them, and which
part of the segment its elements decode to (41 R169 to R173). -/
def MatcherInv (g : Segment) (n : Nat) (m : Matcher) : Prop :=
  match m.phase with
  | .enterA => m.nextEmit < m.s ∧ m.s ≤ g.limit ∧ TableBelow n m.s m.table ∧ Emits m.out (g.bytes.take m.nextEmit)
  | .probe =>
    m.nextEmit < m.nextS ∧ m.nextS ≤ g.limit ∧ 32 ≤ m.skip ∧ TableBelow n m.nextS m.table ∧ Emits m.out (g.bytes.take m.nextEmit)
  | .b =>
    m.candidate < m.s ∧ m.s ≤ g.limit ∧ g.sameWindow m.s m.candidate = true ∧ TableBelow n (m.s + 1) m.table
      ∧ Emits m.out (g.bytes.take m.s)
  | .c => m.nextEmit = m.s ∧ 1 ≤ m.s ∧ m.s < g.limit ∧ TableBelow n m.s m.table ∧ Emits m.out (g.bytes.take m.s)
  | .tail => m.nextEmit ≤ g.bytes.length ∧ Emits m.out (g.bytes.take m.nextEmit)
  | .ended => Emits m.out g.bytes

/-- A bound on the steps left: a probe moves at least one byte on, a copy at least four (41 R174). -/
def Matcher.stepsLeft (g : Segment) (m : Matcher) : Nat :=
  match m.phase with
  | .enterA => 4 * (g.bytes.length - m.s) + 3
  | .probe => 4 * (g.bytes.length - m.nextS) + 2
  | .b => 4 * (g.bytes.length - m.s) + 1
  | .c => 4 * (g.bytes.length - m.s) + 4
  | .tail => 1
  | .ended => 0

section
variable {g : Segment} {n : Nat} {m : Matcher}

theorem stepEnterA_inv (hp : m.phase = .enterA) (h : MatcherInv g n m) :
    MatcherInv g n (stepEnterA m) ∧ (stepEnterA m).stepsLeft g < m.stepsLeft g := by
  simp only [MatcherInv, hp] at h
  obtain ⟨hnext, hs, htable, hout⟩ := h
  refine ⟨⟨hnext, hs, Nat.le_refl _, htable, hout⟩, ?_⟩
  simp only [Matcher.stepsLeft, stepEnterA, hp]
  omega

theorem stepTail_inv (hmax : g.bytes.length ≤ 65536) (hp : m.phase = .tail) (h : MatcherInv g n m) :
    MatcherInv g n (stepTail g m) ∧ (stepTail g m).stepsLeft g < m.stepsLeft g := by
  simp only [MatcherInv, hp] at h
  obtain ⟨hnext, hout⟩ := h
  refine ⟨?_, by simp only [Matcher.stepsLeft, stepTail, hp]; omega⟩
  simp only [MatcherInv, stepTail]
  split
  · simpa using hout.literal (by assumption) (Nat.le_refl _) hmax
  · rwa [List.take_of_length_le (by omega)] at hout

variable (hlimit : g.limit + 15 = g.bytes.length) (hmax : g.bytes.length ≤ 65536) (hslot : ∀ p, g.slot p < n)
include hlimit hmax

theorem stepB_inv (hp : m.phase = .b) (h : MatcherInv g n m) :
    MatcherInv g n (stepB g m) ∧ (stepB g m).stepsLeft g < m.stepsLeft g := by
  simp only [MatcherInv, hp] at h
  obtain ⟨hcand, hs, hwindow, htable, hout⟩ := h
  have hn := matchLength_le (g.bytes.drop (m.candidate + 4)) (g.bytes.drop (m.s + 4))
  have heq := fun i => getElem?_eq_of_match (i := i) hwindow (by omega) (by omega)
  simp only [stepB]
  generalize matchLength (g.bytes.drop (m.candidate + 4)) (g.bytes.drop (m.s + 4)) = k at hn heq ⊢
  rw [List.length_drop] at hn
  have hcopy := hout.copy hcand (by omega) (by omega) hmax heq
  rw [show m.s + 4 + k - m.s = 4 + k by omega, Nat.add_assoc]
  split
  · simp only [MatcherInv, Matcher.stepsLeft, hp]
    exact ⟨⟨by omega, hcopy⟩, by omega⟩
  · simp only [MatcherInv, Matcher.stepsLeft, hp]
    exact ⟨⟨trivial, by omega, by omega, htable.mono (by omega), hcopy⟩, by omega⟩

include hslot

theorem stepProbe_inv (hp : m.phase = .probe) (h : MatcherInv g n m) :
    MatcherInv g n (stepProbe g m) ∧ (stepProbe g m).stepsLeft g < m.stepsLeft g := by
  simp only [MatcherInv, hp] at h
  obtain ⟨hnext, hs, hskip, htable, hout⟩ := h
  have hmoves : 1 ≤ m.skip / 32 := by omega
  simp only [stepProbe]
  split
  · simp only [MatcherInv, Matcher.stepsLeft, hp]
    exact ⟨⟨by omega, hout⟩, by omega⟩
  · split
    · simp only [MatcherInv, Matcher.stepsLeft, hp]
      exact ⟨⟨htable.2 _ (hslot _), hs, by assumption, htable.put (by omega) (by omega) (by omega),
        hout.literal hnext (by omega) hmax⟩, by omega⟩
    · simp only [MatcherInv, Matcher.stepsLeft, hp]
      exact ⟨⟨by omega, by omega, by omega, htable.put (by omega) (by omega) (by omega), hout⟩, by omega⟩

theorem stepC_inv (hp : m.phase = .c) (h : MatcherInv g n m) :
    MatcherInv g n (stepC g m) ∧ (stepC g m).stepsLeft g < m.stepsLeft g := by
  simp only [MatcherInv, hp] at h
  obtain ⟨hnext, hpos, hs, htable, hout⟩ := h
  have htable1 : TableBelow n m.s (tablePut m.table (g.slot (m.s - 1)) (m.s - 1)) :=
    htable.put (Nat.le_refl _) (by omega) (by omega)
  simp only [stepC]
  split
  · simp only [MatcherInv, Matcher.stepsLeft, hp]
    exact ⟨⟨htable1.2 _ (hslot _), by omega, by assumption, htable1.put (by omega) (by omega) (by omega), hout⟩, by omega⟩
  · simp only [MatcherInv, Matcher.stepsLeft, hp]
    exact ⟨⟨by omega, by omega, htable1.put (by omega) (by omega) (by omega), by rwa [hnext]⟩, by omega⟩

/-- A step of a run that is not over keeps its invariant and leaves fewer steps. -/
theorem stepMatcher_inv (hp : m.phase ≠ .ended) (h : MatcherInv g n m) :
    MatcherInv g n (stepMatcher g m) ∧ (stepMatcher g m).stepsLeft g < m.stepsLeft g := by
  unfold stepMatcher
  split
  · exact stepEnterA_inv (by assumption) h
  · exact stepProbe_inv hlimit hmax hslot (by assumption) h
  · exact stepB_inv hlimit hmax (by assumption) h
  · exact stepC_inv hlimit hmax hslot (by assumption) h
  · exact stepTail_inv hmax (by assumption) h
  · exact absurd (by assumption) hp

/-- A run given enough turns ends with elements that decode to the whole segment. -/
theorem runMatcher_emits (k : Nat) (hk : m.stepsLeft g ≤ k) (h : MatcherInv g n m) :
    Emits (runMatcher g k m).out g.bytes := by
  induction k generalizing m with
  | zero =>
    have hp : m.phase = .ended := by
      revert hk
      cases hphase : m.phase <;> simp [Matcher.stepsLeft, hphase]
    rw [runMatcher_ended hp]
    simpa only [MatcherInv, hp] using h
  | succ k ih =>
    by_cases hp : m.phase = .ended
    · rw [runMatcher_ended hp]
      simpa only [MatcherInv, hp] using h
    · obtain ⟨hinv, hless⟩ := stepMatcher_inv hlimit hmax hslot hp h
      rw [runMatcher, if_neg hp]
      exact ih (by omega) hinv

end

/-- `encode_block` of a segment emits elements that decode to it (41 R176). -/
theorem encodeBlock_emits (rule : TableSizeRule) {seg : List Byte} (hmin : 17 ≤ seg.length) (hmax : seg.length ≤ 65536)
    {t : Table} (ht : t.wf) : Emits (encodeBlock rule seg t).out seg := by
  have hlimit : (Segment.mk seg (tableShift rule seg.length)).limit + 15 = seg.length := by
    simp only [Segment.limit, Config.inputMargin]
    omega
  refine runMatcher_emits hlimit hmax (slot_lt_tsize rule seg) _ ?_ ⟨Nat.one_pos, ?_, ?_, emits_nil⟩
  · simp only [Matcher.stepsLeft, initMatcher, matcherBound]
    omega
  · simp only [initMatcher]
    omega
  · exact tableBelow_tableClear ht _ Nat.one_pos

end Sys2Proof.Machine
end

section
/-! SUPPORT. An encoded block is a valid encoding of its input, whatever the table and the registers held (41 R166, R179). -/

namespace Sys2Proof.Machine

theorem segmentLoop_flatten {n : Nat} {p : List Byte} (h : p.length ≤ 65536 * n) : (segmentLoop n p).flatten = p := by
  induction n generalizing p with
  | zero => exact (List.eq_nil_of_length_eq_zero (by omega)).symm
  | succ n ih =>
    unfold segmentLoop
    split
    · exact (by assumption : p = []).symm
    · rw [List.flatten_cons, ih (by simp only [Config.maxBlockSize, List.length_drop]; omega), List.take_append_drop]

/-- The segments of an input make it up (41 R166). -/
theorem segmentsOf_flatten (src : List Byte) : (segmentsOf src).flatten = src :=
  segmentLoop_flatten (by simp only [Config.maxBlockSize]; omega)

/-- A segment is neither empty nor longer than a block (41 R166). -/
theorem length_of_mem_segmentLoop {n : Nat} {p seg : List Byte} (h : seg ∈ segmentLoop n p) :
    1 ≤ seg.length ∧ seg.length ≤ 65536 := by
  induction n generalizing p with
  | zero => simp [segmentLoop] at h
  | succ n ih =>
    unfold segmentLoop at h
    split at h
    · simp at h
    · rename_i hp
      rcases List.mem_cons.1 h with rfl | h
      · have := List.length_pos_iff.2 hp
        simp only [Config.maxBlockSize, List.length_take]
        omega
      · exact ih h

theorem encodeSegment_emits (rule : TableSizeRule) {e : Encoding} {u seg : List Byte} (h : Emits e.elements u)
    (ht : e.table.wf) (h1 : 1 ≤ seg.length) (hmax : seg.length ≤ 65536) :
    Emits (encodeSegment rule e seg).elements (u ++ seg) := by
  unfold encodeSegment
  split
  · exact h.append (emits_literalElement h1 hmax)
  · rename_i hlong
    exact h.append (encodeBlock_emits rule (Nat.le_of_not_lt hlong) hmax ht)

theorem encodeSegments_emits (rule : TableSizeRule) {segs : List (List Byte)}
    (hsegs : ∀ seg ∈ segs, 1 ≤ seg.length ∧ seg.length ≤ 65536) {e : Encoding} {u : List Byte} (h : Emits e.elements u)
    (ht : e.table.wf) : Emits (segs.foldl (encodeSegment rule) e).elements (u ++ segs.flatten) := by
  induction segs generalizing e u with
  | nil => simpa using h
  | cons seg segs ih =>
    obtain ⟨h1, hmax⟩ := hsegs seg (by simp)
    rw [List.flatten_cons, ← List.append_assoc]
    exact ih (fun s hs => hsegs s (by simp [hs])) (encodeSegment_emits rule h ht h1 hmax) (encodeSegment_wf rule ht seg)

/-- The elements of `encode(src)` decode to the source (41 R166, R176). -/
theorem encodeRun_emits (rule : TableSizeRule) (src : List Byte) {t : Table} (ht : t.wf) (dp : Datapath) :
    Emits (encodeRun rule src t dp).elements src := by
  have h := encodeSegments_emits rule (fun _ hs => length_of_mem_segmentLoop hs) (e := ⟨[], t, dp⟩) emits_nil ht
    (segs := segmentsOf src)
  rwa [List.nil_append, segmentsOf_flatten] at h

/-- The bytes of `encode(src)` are a valid encoding of the source (41 R179, 30 R107). -/
theorem decodeBlock_encodeSrc (rule : TableSizeRule) {src : List Byte} (hlen : src.length < 2 ^ 32) {t : Table} (ht : t.wf)
    (dp : Datapath) : decodeBlock (encodeSrc rule src t dp).bytes = some src := by
  obtain ⟨hemit, happly⟩ := encodeRun_emits rule src ht dp
  exact decodeBlock_blockBytes hemit hlen (by simpa using happly [])

end Sys2Proof.Machine
end

section
/-! SUPPORT. The reader reads the framer's chunks, one by one and as a stream (42 R201 to R204, 30 R113). -/

namespace Sys2Proof.Machine

/-! ### One chunk -/

theorem readChunk_headed {s : State} (h : s.reader.headed = true) (u : List Byte) :
    readChunk (crcField u) u s = .next { s with reader := { s.reader with out := s.reader.out ++ u } } := by
  simp only [readChunk, h, Bool.not_true, Bool.false_eq_true, if_false, ne_eq, not_true]

/-- Settles O59: a compressed chunk holds an encoded block, which decodes to the bytes it was made from; an uncompressed one
holds the bytes themselves. -/
theorem framedChunkReads : Obligations.FramedChunkReads := by
  intro rule u t dp s _ hmax ht hhead
  rw [frameChunk, frameEncoded]
  split
  · simp only [exec, execChunkCompressed, decodeBlock_encodeSrc rule (by omega : u.length < 2 ^ 32) ht, readChunk_headed hhead]
  · exact readChunk_headed hhead u

/-! ### The stream -/

/-- The chunk of a piece of at most a block is a well-formed data chunk (30 R112, R115). -/
theorem frameChunk_wellFormed (rule : TableSizeRule) {u : List Byte} (hu : u.length ≤ 65536) (t : Table) (dp : Datapath) :
    (frameChunk rule u t dp).chunk.layer = .chunk ∧ (frameChunk rule u t dp).chunk.wellFormed = true := by
  rw [frameChunk, frameEncoded]
  split
  · rename_i hsel
    simp only [selectsCompressed, decide_eq_true_eq] at hsel
    exact ⟨rfl, decide_eq_true (by omega)⟩
  · exact ⟨rfl, decide_eq_true (by omega)⟩

/-- The data of an uncompressed chunk stands at its end (30 R111). -/
theorem frameBytes_eq_append (rule : TableSizeRule) {u : List Byte}
    (h : isUncompressedChunk (frameChunk rule u [] Datapath.zero).chunk = true) : ∃ head, frameBytes rule u = head ++ u := by
  unfold frameBytes
  rw [frameChunk, frameEncoded] at h ⊢
  split at h
  · simp [isUncompressedChunk] at h
  · rename_i hsel
    rw [if_neg hsel, encodeInstr, encodeChunk, ← List.append_assoc]
    exact ⟨_, rfl⟩

/-- Split or not, the transfers of a chunk hold its bytes, after the stream identifier when `HDR` is clear (42 R202). -/
theorem chunkTransfers_flatten (p : Params) (hdr : Bool) (u : List Byte) :
    (chunkTransfers p hdr u).flatten = (if hdr then [] else Config.magicChunk) ++ frameBytes p.tableSizeRule u := by
  unfold chunkTransfers
  simp only
  split
  · rename_i hsplit
    obtain ⟨head, hhead⟩ := frameBytes_eq_append p.tableSizeRule (Bool.and_eq_true_iff.1 hsplit).2
    rw [hhead, ← List.append_assoc, List.length_append, Nat.add_sub_cancel, List.take_left]
    simp
  · simp

theorem streamTransfers_flatten_headed (p : Params) (us : List (List Byte)) :
    (streamTransfers p true us).flatten = us.flatMap (frameBytes p.tableSizeRule) := by
  induction us with
  | nil => rfl
  | cons u us ih =>
    rw [streamTransfers, List.flatten_append, chunkTransfers_flatten, ih]
    rfl

/-- The bytes of a whole stream: the identifier, then the chunk of each piece (42 R202, R204). -/
theorem streamTransfers_flatten (p : Params) {us : List (List Byte)} (hne : us ≠ []) :
    (streamTransfers p false us).flatten = Config.magicChunk ++ us.flatMap (frameBytes p.tableSizeRule) := by
  obtain ⟨u, us, rfl⟩ := List.exists_cons_of_ne_nil hne
  rw [streamTransfers, List.flatten_append, chunkTransfers_flatten, streamTransfers_flatten_headed, List.flatMap_cons]
  simp only [Bool.false_eq_true, if_false, List.append_assoc]

/-- A scheduled reader step runs the chunk at the head of the reader's input. -/
theorem step_reader_chunk {s : State} {events : List Event} {i : Instr} {rest out : List Byte} {headed marked : Bool}
    (he : s.events = .reader :: events) (hr : s.reader = ⟨.stream, encodeInstr i ++ rest, out, headed, marked⟩)
    (hl : i.layer = .chunk) (hw : i.wellFormed = true) :
    step s = exec i { s with events := events, reader := ⟨.stream, rest, out, headed, marked⟩ } := by
  have hne : encodeInstr i ++ rest ≠ [] := List.append_ne_nil_of_left_ne_nil (encodeInstr_ne_nil i) rest
  have hd : decode .chunk (encodeInstr i ++ rest) = .ok i rest := decodeChunk_encodeInstr hl hw rest
  simp only [step, he, runEvent, readerStep, hr, Reader.layer, hne, if_false, hd]

theorem step_reader_streamId {s : State} {events : List Event} {rest out : List Byte} {marked : Bool}
    (he : s.events = .reader :: events) (hr : s.reader = ⟨.stream, Config.magicChunk ++ rest, out, false, marked⟩) :
    step s = .next { s with events := events, reader := ⟨.stream, rest, out, true, marked⟩ } :=
  step_reader_chunk (i := .chunkStreamId Config.streamIdPayload) he hr rfl rfl

theorem step_reader_dataChunk {rule : TableSizeRule} {u : List Byte} (h1 : 1 ≤ u.length) (hmax : u.length ≤ 65536) {s : State}
    {events : List Event} {rest out : List Byte} {marked : Bool} (he : s.events = .reader :: events)
    (hr : s.reader = ⟨.stream, frameBytes rule u ++ rest, out, true, marked⟩) :
    step s = .next { s with events := events, reader := ⟨.stream, rest, out ++ u, true, marked⟩ } := by
  obtain ⟨hl, hw⟩ := frameChunk_wellFormed rule hmax [] Datapath.zero
  rw [step_reader_chunk he hr hl hw]
  exact framedChunkReads rule u [] Datapath.zero _ h1 hmax reset_table_wf rfl

theorem run_succ (k : Nat) {s t : State} (h : step s = .next t) :
    Host.Core.run Sys2Proof.core (k + 1) s = Host.Core.run Sys2Proof.core k t := by
  have hcore : Sys2Proof.core.step s = .next t := h
  simp only [Host.Core.run, hcore]

/-- Past the identifier, each reader step takes one chunk and appends the piece it was made from. -/
theorem run_reader_dataChunks (rule : TableSizeRule) {us : List (List Byte)}
    (hus : ∀ u ∈ us, 1 ≤ u.length ∧ u.length ≤ 65536) {s : State} {out : List Byte} {marked : Bool}
    (he : s.events = List.replicate us.length .reader)
    (hr : s.reader = ⟨.stream, us.flatMap (frameBytes rule), out, true, marked⟩) :
    Host.Core.run Sys2Proof.core us.length s =
      .next { s with events := [], reader := ⟨.stream, [], out ++ us.flatten, true, marked⟩ } := by
  induction us generalizing s out with
  | nil =>
    rw [List.flatten_nil, List.append_nil]
    change s.reader = ⟨.stream, [], out, true, marked⟩ at hr
    change s.events = [] at he
    rw [← hr, ← he]
    rfl
  | cons u us ih =>
    obtain ⟨h1, hmax⟩ := hus u (by simp)
    rw [List.flatMap_cons] at hr
    rw [List.length_cons, run_succ _ (step_reader_dataChunk h1 hmax he hr), ih (fun v hv => hus v (by simp [hv])) rfl rfl,
      List.flatten_cons, List.append_assoc]

/-- Settles O60: the first reader step takes the identifier, each further one a chunk, which O59 reads. -/
theorem streamReadsBack : Obligations.StreamReadsBack := by
  intro s p us hne hus he hr
  rw [streamTransfers_flatten p hne] at hr
  rw [run_succ _ (step_reader_streamId he hr), run_reader_dataChunks p.tableSizeRule hus rfl rfl, List.nil_append]

end Sys2Proof.Machine
end

section
/-! SUPPORT. No step clears a mark (00 R18, 20 R66, 70 R270). -/

namespace Sys2Proof.Machine

/-- The marks set before are set after. -/
structure MarksKept (s t : State) : Prop where
  refusal : s.refusalMark = true → t.refusalMark = true
  race : s.raceMark = true → t.raceMark = true

theorem MarksKept.refl (s : State) : MarksKept s s := ⟨id, id⟩

theorem MarksKept.trans {s t u : State} (h : MarksKept s t) (k : MarksKept t u) : MarksKept s u :=
  ⟨k.refusal ∘ h.refusal, k.race ∘ h.race⟩

theorem EngineFrame.marksKept {s t : State} (h : EngineFrame s t) : MarksKept s t :=
  ⟨h.refusalMark.trans, h.raceMark.trans⟩

/-! ### The engine's commands -/

/-- The end of ENCODE is a `finish`; it leaves the encoder's table and registers, and changes memory and the count of draws. -/
theorem storeEncoded_cases (e : Encoded) (s : State) :
    ∃ m k r, storeEncoded e s = finish .ok r { s with table := e.table, dp := e.dp, mem := m, draws := k } := by
  obtain ⟨bs, k1, hstore, -⟩ := storeOutput_cases (s.setInternals e.table e.dp) e.bytes
  obtain ⟨m, k2, hraced, -⟩ := drawRacedBytes_cases ((s.setInternals e.table e.dp).storeOutput e.bytes) s.racedBytes
  obtain ⟨r, k3, hfinish⟩ := finishData_cases .ok e.bytes.length
    (((s.setInternals e.table e.dp).storeOutput e.bytes).drawRacedBytes s.racedBytes)
  exact ⟨m, k3, r, by rw [storeEncoded, hfinish, hraced, hstore]; rfl⟩

theorem storeEncoded_marksKept (e : Encoded) (s : State) : MarksKept s (storeEncoded e s) := by
  obtain ⟨m, k, r, h⟩ := storeEncoded_cases e s
  rw [h]
  exact ⟨id, id⟩

theorem setWriter_frame (s : State) (w : Writer) : EngineFrame s (s.setWriter w) := by constructor <;> rfl

theorem logSink_frame (s : State) (e : SinkEvent) : EngineFrame s (s.logSink e) := by constructor <;> rfl

/-- INIT_WRITER and RESET_STREAM begin a stream with some writer (42 R206, R216). -/
theorem execInitWriter_frame {mode : WriterMode} {s t : State} (h : execInitWriter mode s = .next t) : EngineFrame s t := by
  cases h
  exact ((logSink_frame s .newStream).trans <| (setWriter_frame ..).trans <| (setWriter_frame ..).trans <|
    (setWriter_frame ..).trans <| (setWriter_frame ..).trans <| (setWriter_frame ..).trans <| finish_frame ..)

theorem execResetStream_frame {s t : State} (h : execResetStream s = .next t) : EngineFrame s t := by
  cases h
  exact ((logSink_frame s .newStream).trans <| (setWriter_frame ..).trans <| (setWriter_frame ..).trans <|
    (setWriter_frame ..).trans <| (setWriter_frame ..).trans <| finish_frame ..)

theorem execMaxlen_frame {s t : State} (h : execMaxlen s = .next t) : EngineFrame s t := by
  unfold execMaxlen at h
  split at h <;> cases h
  · exact finish_frame ..
  · exact finish_frame ..

theorem execWrite_frame {s t : State} (h : execWrite s = .next t) : EngineFrame s t := by
  unfold execWrite at h
  split at h <;> cases h
  · exact finishData_frame ..
  · exact (continueWrite_frame emitChunk_frame ..).trans (settle_frame _)

theorem emitBuffered_frame (after : After) (s : State) : EngineFrame s (emitBuffered after s) :=
  (setWriter_frame ..).trans (emitChunk_frame ..)

theorem execFlush_frame {s t : State} (h : execFlush s = .next t) : EngineFrame s t := by
  unfold execFlush at h
  split at h
  · cases h
    exact finish_frame ..
  · split at h <;> cases h
    · exact finish_frame ..
    · exact (emitBuffered_frame ..).trans (settle_frame _)

theorem execClose_frame {s t : State} (h : execClose s = .next t) : EngineFrame s t := by
  have closing : ∀ code, EngineFrame s (finish code 0 (s.setWState .closed)) :=
    fun code => (setWriter_frame ..).trans (finish_frame ..)
  have emitting : EngineFrame s (settle (emitBuffered .close s)) := (emitBuffered_frame ..).trans (settle_frame _)
  unfold execClose at h
  split at h
  · cases h
    exact finish_frame ..
  · cases h
    exact closing _
  all_goals
    split at h <;> cases h
    · exact emitting
    · exact closing _

/-- Every command but ENCODE keeps the engine's frame. -/
theorem exec_frame {i : Instr} (hl : i.layer = .command) (hi : i ≠ .encode) {s t : State} (h : exec i s = .next t) :
    EngineFrame s t := by
  cases i with
  | litInline | lit1 | lit2 | lit3 | lit4 | copy1 | copy2 | copy4
  | chunkStreamId | chunkCompressed | chunkUncompressed => simp [Instr.layer] at hl
  | encode => exact absurd rfl hi
  | maxlen => exact execMaxlen_frame h
  | initWriter mode => exact execInitWriter_frame h
  | write => exact execWrite_frame h
  | flush => exact execFlush_frame h
  | close => exact execClose_frame h
  | resetStream => exact execResetStream_frame h
  | illegal w =>
    cases h
    exact finish_frame ..

theorem exec_marksKept {i : Instr} {s t : State} (h : exec i s = .next t) : MarksKept s t := by
  by_cases hl : i.layer = .command
  · by_cases hi : i = .encode
    · subst hi
      simp only [exec, execEncode] at h
      split at h <;> cases h
      · exact (finishData_frame ..).marksKept
      · exact storeEncoded_marksKept ..
    · exact (exec_frame hl hi h).marksKept
  · obtain ⟨r, rfl⟩ := exec_reader hl h
    exact ⟨id, id⟩

/-! ### The agents' steps -/

theorem advance_marksKept (s : State) : MarksKept s (advance s) := by
  unfold advance
  split
  · exact storeEncoded_marksKept ..
  · exact (emitFramed_frame ..).marksKept
  · exact (offer_frame ..).marksKept
  · exact (afterOk_frame emitChunk_frame ..).marksKept
  all_goals exact .refl s

theorem engineStep_marksKept {s t : State} (h : engineStep s = .next t) : MarksKept s t := by
  rcases engineStep_cases h with ⟨-, rfl⟩ | ⟨-, h⟩ | ⟨-, -, rfl⟩
  · exact .refl _
  · exact exec_marksKept h
  · exact (advance_marksKept s).trans (settle_frame _).marksKept

theorem startCommand_marksKept {s t : State} (h : startCommand s = .next t) : MarksKept s t := by
  rcases startCommand_cases h with h | ⟨-, rfl⟩ | ⟨-, rfl⟩ | ⟨-, ⟨-, rfl⟩ | ⟨-, rfl⟩⟩
  · exact exec_marksKept h
  · unfold startEncode
    split
    · exact (finishData_frame ..).marksKept
    · exact ⟨id, id⟩
  · unfold startWrite
    split
    · exact (finishData_frame ..).marksKept
    · exact ⟨id, id⟩
  · exact ((setWriter_frame ..).trans (beginChunk_frame ..)).marksKept
  · exact ((setWriter_frame ..).trans (beginChunk_frame ..)).marksKept

theorem tickStep_marksKept {s t : State} (h : tickStep s = .next t) : MarksKept s t := by
  rcases tickStep_cases h with rfl | ⟨-, h⟩ | ⟨e, -, rfl⟩ | ⟨u, after, e, -, rfl⟩ | ⟨-, -, rfl⟩ | ⟨after, -, rfl⟩
    | ⟨p, a, rest, -, -, rfl⟩
  · exact .refl _
  · exact startCommand_marksKept h
  · exact ⟨id, id⟩
  · exact ⟨id, id⟩
  · exact advance_marksKept s
  · exact (afterOk_frame beginChunk_frame ..).marksKept
  · exact .trans (t := { s with answers := rest }) ⟨id, id⟩ (noteAnswer_frame ..).marksKept

theorem csrStoreValue_marksKept (offset : Nat) (w : Word) (s : State) : MarksKept s (csrStoreValue offset w s) := by
  unfold csrStoreValue
  repeat' split
  all_goals exact ⟨id, id⟩

theorem csrStore_marksKept {addr : Word} {width : AccessWidth} {w : Word} {s t : State}
    (h : csrStore addr width w s = .next t) : MarksKept s t := by
  rcases csrStore_cases h with rfl | rfl | h | ⟨-, rfl⟩
  · exact .refl _
  · exact ⟨fun _ => rfl, id⟩
  · rcases cmdStore_cases h with ⟨-, rfl⟩ | ⟨-, rfl | rfl⟩ <;> exact ⟨id, id⟩
  · exact csrStoreValue_marksKept ..

theorem storeHostByte_marksKept (addr : Word) (b : Byte) (s : State) : MarksKept s (storeHostByte addr b s) := by
  obtain ⟨v, rm, rb, k, h, hrace, -⟩ := storeHostByte_cases addr b s
  rw [h]
  exact ⟨id, hrace⟩

theorem markRace_marksKept (s : State) : MarksKept s (markRace s) := by
  obtain ⟨c, k, log, h, -⟩ := markRace_cases s
  rw [h]
  exact ⟨id, fun _ => rfl⟩

theorem hostStep_marksKept {op : HostOp} {s t : State} (h : hostStep op s = .next t) : MarksKept s t := by
  cases op with
  | csrLoad addr width =>
    obtain ⟨v, m, k, heq, hm⟩ := csrLoad_cases addr width s
    cases h
    rw [heq]
    exact ⟨hm, id⟩
  | csrStore addr width w => exact csrStore_marksKept h
  | memLoad addr =>
    rcases memLoad_cases h with ⟨-, rfl⟩ | ⟨-, v, k, rfl⟩
    · exact ⟨fun _ => rfl, id⟩
    · exact ⟨id, id⟩
  | memStore addr b =>
    rcases memStore_cases h with ⟨-, rfl⟩ | ⟨-, rfl | rfl⟩
    · exact ⟨fun _ => rfl, id⟩
    · exact storeHostByte_marksKept ..
    · exact (storeHostByte_marksKept ..).trans (markRace_marksKept _)

theorem runEvent_marksKept {e : Event} {s t : State} (h : runEvent e s = .next t) : MarksKept s t := by
  rcases runEvent_cases h with ⟨op, -, h⟩ | ⟨-, h⟩ | ⟨-, h⟩ | ⟨a, -, rfl⟩ | ⟨d, -, rfl⟩ | ⟨m, bs, -, h⟩ | ⟨-, h⟩
  · exact hostStep_marksKept h
  · exact engineStep_marksKept h
  · exact tickStep_marksKept h
  · exact ⟨id, id⟩
  · obtain ⟨m, log, as, k, h, -⟩ := hardReset_cases d s
    rw [h]
    exact ⟨id, id⟩
  · obtain ⟨r, rfl⟩ := openReader_cases h
    exact ⟨id, id⟩
  · obtain ⟨r, rfl⟩ := readerStep_cases h
    exact ⟨id, id⟩

/-- Settles O44, by the inversion of the step: a scheduled event, or the engine going on by itself. -/
theorem marksSticky : Obligations.MarksSticky := by
  intro s t h
  have hkept : MarksKept s t := by
    rcases step_cases h with ⟨e, rest, -, h⟩ | ⟨-, ⟨-, rfl⟩ | ⟨-, h⟩⟩
    · exact .trans (t := { s with events := rest }) ⟨id, id⟩ (runEvent_marksKept h)
    · exact .refl _
    · exact engineStep_marksKept h
  exact ⟨hkept.refusal, hkept.race⟩

end Sys2Proof.Machine
end

section
/-! SUPPORT. The sink's answers taken in any batches: a command's rule neither reads nor changes those that stand ready, and what
a run over some answers leaves untaken is taken by the next (00 R16, 20 R70). -/

namespace Sys2Proof.Machine

/-- The state with other answers standing ready. -/
def State.setAnswers (s : State) (as : List SinkAnswer) : State := { s with answers := as }

@[simp] theorem setAnswers_raced (s : State) (as : List SinkAnswer) : (s.setAnswers as).raced = s.raced := rfl
@[simp] theorem setAnswers_writer (s : State) (as : List SinkAnswer) : (s.setAnswers as).writer = s.writer := rfl

/-- An operation neither reads nor changes the answers that stand ready. -/
def IgnoresAnswers (f : State → State) : Prop := ∀ s as, f (s.setAnswers as) = (f s).setAnswers as

/-! ### The rules of the commands -/

theorem finishData_ignoresAnswers (code : ResultCode) (n : Nat) : IgnoresAnswers (finishData code n) := by
  intro s as
  unfold finishData
  rw [setAnswers_raced]
  split <;> rfl

theorem offer_ignoresAnswers (bytes payload : List Byte) (after : After) : IgnoresAnswers (offer bytes payload after) := by
  intro s as
  unfold offer raceBytes
  rw [setAnswers_raced]
  split <;> rfl

theorem emitFramed_ignoresAnswers (u : List Byte) (f : Framed) (after : After) : IgnoresAnswers (emitFramed u f after) := by
  intro s as
  have hstage : stageChunk f (s.setAnswers as) = (stageChunk f s).setAnswers as := rfl
  have hsplit : splitsChunk f (s.setAnswers as) = splitsChunk f s := rfl
  simp only [emitFramed, hstage, hsplit]
  split
  · exact offer_ignoresAnswers ..
  · exact offer_ignoresAnswers ..

theorem emitChunk_ignoresAnswers (u : List Byte) (after : After) : IgnoresAnswers (emitChunk u after) :=
  fun s => emitFramed_ignoresAnswers u (s.frame u) after s

theorem raceInput_setAnswers (p : List Byte) (s : State) (as : List SinkAnswer) :
    raceInput p (s.setAnswers as) = ((raceInput p s).1, (raceInput p s).2.setAnswers as) := by
  unfold raceInput
  rw [setAnswers_raced]
  split <;> rfl

theorem fillBuffer_ignoresAnswers (p : List Byte) (absorbed : Nat) : IgnoresAnswers (fillBuffer emitChunk p absorbed) := by
  intro s as
  have hfill : ∀ v, (s.setAnswers as).setIbuf v = (s.setIbuf v).setAnswers as := fun _ => rfl
  simp only [fillBuffer, setAnswers_writer, hfill]
  split
  · exact emitChunk_ignoresAnswers _ _ ((s.setIbuf _).setIbuf []) as
  · exact finishData_ignoresAnswers _ _ (s.setIbuf _) as

theorem continueWrite_ignoresAnswers (input : List Byte) (absorbed : Nat) (direct : Bool) :
    IgnoresAnswers (continueWrite emitChunk input absorbed direct) := by
  intro s as
  simp only [continueWrite, raceInput_setAnswers]
  generalize (raceInput input s).1 = p
  generalize (raceInput input s).2 = t
  have hdirect : goesDirect p direct (t.setAnswers as) = goesDirect p direct t := rfl
  have hthrough : passesThrough p (t.setAnswers as) = passesThrough p t := rfl
  simp only [hdirect, hthrough]
  split
  · exact finishData_ignoresAnswers ..
  · split
    · exact emitChunk_ignoresAnswers ..
    · split
      · exact emitChunk_ignoresAnswers ..
      · exact fillBuffer_ignoresAnswers ..

theorem afterOk_ignoresAnswers (after : After) : IgnoresAnswers (afterOk emitChunk after) := by
  cases after with
  | write rest absorbed gain direct => exact continueWrite_ignoresAnswers rest (absorbed + gain) direct
  | flush => exact fun _ _ => rfl
  | close => exact fun _ _ => rfl

theorem afterErr_ignoresAnswers (after : After) : IgnoresAnswers (afterErr after) := by
  cases after with
  | write rest absorbed gain direct => exact finishData_ignoresAnswers .sink absorbed
  | flush => exact fun _ _ => rfl
  | close => exact fun _ _ => rfl

theorem takeAnswer_ignoresAnswers (a : SinkAnswer) (p : Pending) : IgnoresAnswers (takeAnswer a p) := by
  intro s as
  cases a with
  | ok =>
    simp only [takeAnswer]
    split
    · exact afterOk_ignoresAnswers _ ((s.logSink _).setWState .streaming) as
    · exact offer_ignoresAnswers _ _ _ (s.logSink _) as
  | err code consumed =>
    exact afterErr_ignoresAnswers _ (((s.logSink _).setWState .errored).setSinkErr code.val) as

/-! ### Batches -/

theorem takeAnswers_awaiting {s : State} {p : Pending} (h : s.ctrl = .waiting p) (a : SinkAnswer) (as : List SinkAnswer) :
    takeAnswers (a :: as) s = takeAnswers as (takeAnswer a p s) := by
  simp only [takeAnswers, h]

/-- An engine that awaits no answer takes none. -/
theorem takeAnswers_of_not_awaiting {s : State} (h : ∀ p, s.ctrl ≠ .waiting p) (as : List SinkAnswer) :
    takeAnswers as s = s.setAnswers as := by
  cases as with
  | nil => rfl
  | cons a as =>
    unfold takeAnswers
    split
    · exact absurd (by assumption) (h _)
    all_goals rfl

/-- The answers to take are the ones given, not those that stood ready. -/
theorem takeAnswers_setAnswers (as xs : List SinkAnswer) (s : State) : takeAnswers as (s.setAnswers xs) = takeAnswers as s := by
  induction as generalizing s with
  | nil => rfl
  | cons a as ih =>
    by_cases h : ∃ p, s.ctrl = .waiting p
    · obtain ⟨p, hp⟩ := h
      rw [takeAnswers_awaiting hp, takeAnswers_awaiting (s := s.setAnswers xs) hp, takeAnswer_ignoresAnswers, ih]
    · rw [takeAnswers_of_not_awaiting (not_exists.1 h), takeAnswers_of_not_awaiting (s := s.setAnswers xs) (not_exists.1 h)]
      rfl

/-- Taking answers in two batches: the second begins with what the first left untaken. -/
theorem takeAnswers_append (as bs : List SinkAnswer) (s : State) :
    takeAnswers (as ++ bs) s = takeAnswers ((takeAnswers as s).answers ++ bs) (takeAnswers as s) := by
  induction as generalizing s with
  | nil => exact (takeAnswers_setAnswers bs [] s).symm
  | cons a as ih =>
    by_cases h : ∃ p, s.ctrl = .waiting p
    · obtain ⟨p, hp⟩ := h
      rw [List.cons_append, takeAnswers_awaiting hp, takeAnswers_awaiting hp, ih]
    · rw [takeAnswers_of_not_awaiting (not_exists.1 h) (a :: as), takeAnswers_setAnswers]
      rfl

/-- Settles O33, by induction on the answers that stand ready first. -/
theorem answersInAnyBatches : Obligations.AnswersInAnyBatches := by
  intro s as
  calc settle (s.setAnswers (s.answers ++ as))
      = takeAnswers (s.answers ++ as) s := takeAnswers_setAnswers ..
    _ = takeAnswers ((settle s).answers ++ as) (settle s) := takeAnswers_append ..
    _ = settle ((settle s).setAnswers ((settle s).answers ++ as)) := (takeAnswers_setAnswers ..).symm

end Sys2Proof.Machine
end

section
/-! SUPPORT. An encoded block is no longer than the expansion bound (41 R150, R151). -/

namespace Sys2Proof.Machine

/-! ### The bytes of elements -/

/-- How many bytes elements take (30 R106). -/
def elementBytes (els : List Instr) : Nat := (els.flatMap encodeInstr).length

@[simp] theorem elementBytes_nil : elementBytes [] = 0 := rfl

@[simp] theorem elementBytes_cons (i : Instr) (els : List Instr) :
    elementBytes (i :: els) = (encodeInstr i).length + elementBytes els := by
  simp [elementBytes]

@[simp] theorem elementBytes_append (xs ys : List Instr) : elementBytes (xs ++ ys) = elementBytes xs + elementBytes ys := by
  simp [elementBytes]

/-- A literal costs at most three bytes beyond its own, and one that costs more than one is long (40 R131): in sixths of a byte,
five beyond a sixth of its length, and nothing beyond it from six bytes on. -/
theorem literalElement_bytes {lit : List Byte} (h : 1 ≤ lit.length) :
    6 * (encodeInstr (literalElement lit)).length ≤ 7 * lit.length + 5
      ∧ (6 ≤ lit.length → 6 * (encodeInstr (literalElement lit)).length ≤ 7 * lit.length) := by
  unfold literalElement
  split
  · simp only [encodeInstr, List.length_cons]
    omega
  · split
    · simp only [encodeInstr, Laws.EncodedSize.longLiteral]
      omega
    · simp only [encodeInstr, Laws.EncodedSize.longLiteral]
      omega

theorem copy2Element_bytes (offset length : Nat) : (encodeInstr (copy2Element offset length)).length = 3 := by
  simp [copy2Element, encodeInstr]

theorem finalCopy_bytes_le (offset length : Nat) : (encodeInstr (finalCopy offset length)).length ≤ 3 := by
  unfold finalCopy
  split
  · exact (copy2Element_bytes offset length).le
  · simp [encodeInstr]

theorem lastCopies_bytes_lt {offset length : Nat} (h : 4 ≤ length) : elementBytes (lastCopies offset length) < length := by
  unfold lastCopies
  split
  · have := finalCopy_bytes_le offset (length - 60)
    simp only [elementBytes_cons, elementBytes_nil, copy2Element_bytes]
    omega
  · have := finalCopy_bytes_le offset length
    simp only [elementBytes_cons, elementBytes_nil]
    omega

theorem copyLoop_bytes_lt (n : Nat) {offset length : Nat} (h : 4 ≤ length) :
    elementBytes (copyLoop n offset length) < length := by
  induction n generalizing length with
  | zero => exact lastCopies_bytes_lt h
  | succ n ih =>
    unfold copyLoop
    split
    · have := ih (length := length - 64) (by omega)
      simp only [elementBytes_cons, copy2Element_bytes]
      omega
    · exact lastCopies_bytes_lt h

/-- A copy takes fewer bytes than it stands for (40 R134). -/
theorem copyElements_bytes_lt {offset length : Nat} (h : 4 ≤ length) : elementBytes (copyElements offset length) < length :=
  copyLoop_bytes_lt _ h

/-! ### A matcher run -/

/-- How many bytes a run has emitted, in sixths of a byte: a copy saves five beyond a sixth of what it stands for, which pays for
the literal that follows it. The run's first literal, not paid for, is owed until the first copy. -/
def MatcherSize (g : Segment) (m : Matcher) : Prop :=
  match m.phase with
  | .enterA | .probe | .c | .tail =>
    m.nextEmit = 0 ∧ m.out = [] ∨ 6 * elementBytes m.out + 5 ≤ 7 * m.nextEmit
  | .b => 6 * elementBytes m.out ≤ 7 * m.s + 5
  | .ended => 6 * elementBytes m.out ≤ 7 * g.bytes.length

theorem slice_length (g : Segment) {a b : Nat} (hb : b ≤ g.bytes.length) : (g.slice a b).length = b - a := by
  simp only [Segment.slice, List.length_take, List.length_drop]
  omega

section
variable {g : Segment} {n : Nat} {m : Matcher}

theorem stepB_size (hp : m.phase = .b) (hs : MatcherSize g m) : MatcherSize g (stepB g m) := by
  simp only [MatcherSize, hp] at hs
  simp only [stepB]
  generalize matchLength (g.bytes.drop (m.candidate + 4)) (g.bytes.drop (m.s + 4)) = k
  have hcopy := copyElements_bytes_lt (offset := m.s - m.candidate) (length := m.s + 4 + k - m.s) (by omega)
  split
  · simp only [MatcherSize, elementBytes_append]
    omega
  · simp only [MatcherSize, elementBytes_append]
    omega

theorem stepC_size (hp : m.phase = .c) (h : MatcherInv g n m) (hs : MatcherSize g m) : MatcherSize g (stepC g m) := by
  simp only [MatcherInv, hp] at h
  simp only [MatcherSize, hp] at hs
  obtain ⟨hnext, hpos, -⟩ := h
  simp only [stepC]
  split
  · simp only [MatcherSize]
    omega
  · simpa only [MatcherSize] using hs

variable (hmin : 17 ≤ g.bytes.length) (hlimit : g.limit ≤ g.bytes.length)

include hmin in
theorem stepTail_size (hp : m.phase = .tail) (h : MatcherInv g n m) (hs : MatcherSize g m) : MatcherSize g (stepTail g m) := by
  simp only [MatcherInv, hp] at h
  simp only [MatcherSize, hp] at hs
  obtain ⟨hnext, -⟩ := h
  simp only [MatcherSize, stepTail]
  split
  · have hlen := slice_length g (a := m.nextEmit) (Nat.le_refl _)
    obtain ⟨hlit, hlong⟩ := literalElement_bytes (lit := g.slice m.nextEmit g.bytes.length) (by omega)
    simp only [elementBytes_append, elementBytes_cons, elementBytes_nil]
    rcases hs with ⟨h0, hout⟩ | hs
    · have := hlong (by omega)
      simp only [hout, elementBytes_nil]
      omega
    · omega
  · omega

include hlimit in
theorem stepProbe_size (hp : m.phase = .probe) (h : MatcherInv g n m) (hs : MatcherSize g m) :
    MatcherSize g (stepProbe g m) := by
  simp only [MatcherInv, hp] at h
  simp only [MatcherSize, hp] at hs
  obtain ⟨hnext, hnextS, -⟩ := h
  simp only [stepProbe]
  split
  · simpa only [MatcherSize] using hs
  · split
    · have hlen := slice_length g (a := m.nextEmit) (b := m.nextS) (by omega)
      obtain ⟨hlit, -⟩ := literalElement_bytes (lit := g.slice m.nextEmit m.nextS) (by omega)
      simp only [MatcherSize, elementBytes_append, elementBytes_cons, elementBytes_nil]
      rcases hs with ⟨h0, hout⟩ | hs
      · simp only [hout, elementBytes_nil]
        omega
      · omega
    · simpa only [MatcherSize, hp] using hs

include hmin hlimit in
theorem stepMatcher_size (h : MatcherInv g n m) (hs : MatcherSize g m) : MatcherSize g (stepMatcher g m) := by
  unfold stepMatcher
  split
  · rename_i hp
    simpa only [MatcherSize, stepEnterA, hp] using hs
  · exact stepProbe_size hlimit (by assumption) h hs
  · exact stepB_size (by assumption) hs
  · exact stepC_size (by assumption) h hs
  · exact stepTail_size hmin (by assumption) h hs
  · exact hs

end

/-- A run given enough turns ends, with what every step of it keeps. -/
theorem runMatcher_keeps {g : Segment} {n : Nat} (hlimit : g.limit + 15 = g.bytes.length) (hmax : g.bytes.length ≤ 65536)
    (hslot : ∀ p, g.slot p < n) {P : Matcher → Prop} (hstep : ∀ m, MatcherInv g n m → P m → P (stepMatcher g m)) (k : Nat)
    {m : Matcher} (hk : m.stepsLeft g ≤ k) (h : MatcherInv g n m) (hP : P m) :
    (runMatcher g k m).phase = .ended ∧ P (runMatcher g k m) := by
  induction k generalizing m with
  | zero =>
    have hp : m.phase = .ended := by
      revert hk
      cases hphase : m.phase <;> simp [Matcher.stepsLeft, hphase]
    rw [runMatcher_ended hp]
    exact ⟨hp, hP⟩
  | succ k ih =>
    by_cases hp : m.phase = .ended
    · rw [runMatcher_ended hp]
      exact ⟨hp, hP⟩
    · obtain ⟨hinv, hless⟩ := stepMatcher_inv hlimit hmax hslot hp h
      rw [runMatcher, if_neg hp]
      exact ih (by omega) hinv (hstep m h hP)

/-- `encode_block` of a segment emits at most a sixth more bytes than the segment has. -/
theorem encodeBlock_bytes_le (rule : TableSizeRule) {seg : List Byte} (hmin : 17 ≤ seg.length) (hmax : seg.length ≤ 65536)
    {t : Table} (ht : t.wf) : 6 * elementBytes (encodeBlock rule seg t).out ≤ 7 * seg.length := by
  have hlimit : (Segment.mk seg (tableShift rule seg.length)).limit + 15 = seg.length := by
    simp only [Segment.limit, Config.inputMargin]
    omega
  have hsteps : (initMatcher rule seg.length t).stepsLeft ⟨seg, tableShift rule seg.length⟩ ≤ matcherBound seg.length := by
    simp only [Matcher.stepsLeft, initMatcher, matcherBound]
    omega
  have hinit : MatcherInv ⟨seg, tableShift rule seg.length⟩ (tsize rule seg.length) (initMatcher rule seg.length t) :=
    ⟨Nat.one_pos, by simp only [initMatcher]; omega, tableBelow_tableClear ht _ Nat.one_pos, emits_nil⟩
  obtain ⟨hended, hsize⟩ := runMatcher_keeps hlimit hmax (slot_lt_tsize rule seg)
    (fun _ => stepMatcher_size hmin (Nat.le.intro hlimit)) _ hsteps hinit (.inl ⟨rfl, rfl⟩)
  simp only [MatcherSize, hended] at hsize
  exact hsize

/-! ### The whole encoding -/

theorem encodeSegment_bytes_le (rule : TableSizeRule) {e : Encoding} (ht : e.table.wf) {seg : List Byte} (h1 : 1 ≤ seg.length)
    (hmax : seg.length ≤ 65536) :
    6 * elementBytes (encodeSegment rule e seg).elements ≤
      6 * elementBytes e.elements + 7 * seg.length + if seg.length < Config.minNonLiteralBlockSize then 5 else 0 := by
  unfold encodeSegment
  split
  · have hlit := (literalElement_bytes h1).1
    simp only [elementBytes_append, elementBytes_cons, elementBytes_nil]
    omega
  · rename_i hlong
    have hrun := encodeBlock_bytes_le rule (Nat.le_of_not_lt hlong) hmax ht
    simp only [elementBytes_append]
    omega

/-- Only the last segment can be short, so only one literal is not paid for. -/
theorem encodeSegments_bytes_le (rule : TableSizeRule) (n : Nat) (p : List Byte) {e : Encoding} (ht : e.table.wf) :
    6 * elementBytes ((segmentLoop n p).foldl (encodeSegment rule) e).elements ≤
      6 * elementBytes e.elements + 7 * p.length + 5 := by
  induction n generalizing p e with
  | zero => simp only [segmentLoop, List.foldl_nil]; omega
  | succ n ih =>
    unfold segmentLoop
    split
    · simp only [List.foldl_nil]; omega
    · rename_i hp
      have hpos := List.length_pos_iff.2 hp
      have hlen : (p.take Config.maxBlockSize).length = min 65536 p.length := List.length_take
      have hseg := encodeSegment_bytes_le rule ht (seg := p.take Config.maxBlockSize) (by omega) (by omega)
      have hrest := ih (p.drop Config.maxBlockSize) (encodeSegment_wf rule ht (p.take Config.maxBlockSize))
      have hdrop : (p.drop Config.maxBlockSize).length = p.length - 65536 := List.length_drop
      rw [List.foldl_cons]
      by_cases hshort : p.length < 17
      · have hnil : p.drop Config.maxBlockSize = [] := List.eq_nil_of_length_eq_zero (by omega)
        have hdone : segmentLoop n [] = [] := by cases n <;> simp [segmentLoop]
        rw [hnil, hdone, List.foldl_nil]
        split at hseg <;> omega
      · rw [if_neg (by simp only [Config.minNonLiteralBlockSize]; omega)] at hseg
        omega

theorem varintLoop_length_le (k n : Nat) : (varintLoop k n).length ≤ k + 1 := by
  induction k generalizing n with
  | zero => simp [varintLoop]
  | succ k ih =>
    unfold varintLoop
    split
    · have := ih (n / 0x80)
      simp only [List.length_cons]
      omega
    · simp

/-- The bytes of `encode(src)` stay within the expansion bound, whatever the table and the registers held (41 R151). -/
theorem encodeSrc_length_le (rule : TableSizeRule) (src : List Byte) {t : Table} (ht : t.wf) (dp : Datapath) :
    (encodeSrc rule src t dp).bytes.length ≤ 32 + src.length + src.length / 6 := by
  have hvarint : (putVarint src.length).length ≤ 5 := varintLoop_length_le 4 src.length
  have helements : 6 * elementBytes (encodeRun rule src t dp).elements ≤ 7 * src.length + 5 := by
    have h := encodeSegments_bytes_le rule (src.length / Config.maxBlockSize + 1) src (e := ⟨[], t, dp⟩) ht
    rwa [elementBytes_nil, Nat.mul_zero, Nat.zero_add] at h
  have hbytes : (encodeSrc rule src t dp).bytes.length =
      (putVarint src.length).length + elementBytes (encodeRun rule src t dp).elements := by
    simp [encodeSrc, closeBlock, blockBytes, elementBytes]
  omega

end Sys2Proof.Machine
end

section
/-! SUPPORT. What ENCODE writes of host memory: its output fits the destination range that its checks passed (20 R63, 41 R180). -/

namespace Sys2Proof.Machine

/-! ### ENCODE's checks -/

/-- The bound has a 32-bit value up to 3681400511 (41 R150). -/
theorem maxEncodedLen_eq (n : Nat) : maxEncodedLen n = if n ≤ 3681400511 then some (32 + n + n / 6) else none := by
  unfold maxEncodedLen
  split
  · rw [if_neg (by omega)]
  · split
    · rw [if_neg (by omega)]
    · rw [if_pos (by omega)]

theorem rangeValid_iff {p : Params} {a : Word} {n : Nat} : rangeValid p a n = true ↔ n = 0 ∨ a.toNat + n ≤ p.hostMemSize := by
  simp [rangeValid]

theorem overlap_iff {a b : Word} {n c : Nat} :
    overlap a n b c = true ↔ a.toNat < b.toNat + c ∧ b.toNat < a.toNat + n := by
  simp [overlap]

theorem word_toNat_eq_zero {w : Word} : w.toNat = 0 ↔ w = 0 := (BitVec.toNat_eq (y := 0)).symm

/-- The model's checks are the spec's arithmetic (20 R62, 41 R180). -/
theorem encodeCheck_eq_none_iff {p : Params} {a : Args} : encodeCheck p a = none ↔ encodePasses p a := by
  unfold encodeCheck encodePasses
  rw [maxEncodedLen_eq, ← word_toNat_eq_zero]
  by_cases hlen : a.srcLen.toNat ≤ 3681400511
  · simp only [hlen, if_true, true_and]
    split_ifs with hsrc hdst hcap hover <;>
      simp only [Bool.not_eq_true', ← Bool.not_eq_true, rangeValid_iff, Bool.and_eq_true, decide_eq_true_eq, overlap_iff,
        not_not] at *
    · exact iff_of_false (by simp) (by omega)
    · exact iff_of_false (by simp) (by omega)
    · exact iff_of_false (by simp) (by omega)
    · exact iff_of_false (by simp) (by omega)
    · exact iff_of_true trivial (by omega)
  · simp only [hlen, if_false, reduceCtorEq, false_and]

/-- A check that fails has an error code (60 R230). -/
theorem encodeCheck_ne_ok (p : Params) (a : Args) : encodeCheck p a ≠ some .ok := by
  unfold encodeCheck
  split
  · simp
  · split_ifs <;> simp

theorem execEncode_cases {s t : State} (h : execEncode s = .next t) :
    (∃ code, encodeCheck s.params s.args = some code ∧ t = finishData code 0 s)
      ∨ encodeCheck s.params s.args = none ∧ t = storeEncoded s.encodeOutput s := by
  unfold execEncode at h
  split at h <;> cases h
  · exact .inl ⟨_, by assumption, rfl⟩
  · exact .inr ⟨by assumption, rfl⟩

/-- The output of an ENCODE whose checks pass fits its destination range (41 R151, R180). -/
theorem encodeOutput_fits {s : State} (ht : s.table.wf) (hc : encodeCheck s.params s.args = none) :
    s.encodeOutput.bytes.length ≤ s.args.dstCap.toNat := by
  obtain ⟨-, -, -, hcap, -⟩ := encodeCheck_eq_none_iff.1 hc
  have hbound := encodeSrc_length_le s.params.tableSizeRule s.source ht s.dp
  have hsrc : s.source.length = s.args.srcLen.toNat := memRead_length ..
  rw [hsrc] at hbound
  exact hbound.trans hcap

/-! ### ENCODE's stores -/

theorem mem_memWrite {m : Memory} {a : Nat} {bs : List Byte} {c : Host.Cell} (h : c ∈ memWrite m a bs) :
    c ∈ m ∨ a ≤ c.1 ∧ c.1 < a + bs.length := by
  induction bs generalizing m a with
  | nil => exact .inl h
  | cons b bs ih =>
    rw [List.length_cons]
    rcases ih h with h | h
    · rcases mem_cellsPut h with h | ⟨rfl, -⟩
      · exact .inl h
      · exact .inr ⟨Nat.le_refl _, by simp only; omega⟩
    · exact .inr (by omega)

/-- The address lies in the latched destination range (20 R63). -/
def InDest (s : State) (x : Nat) : Prop := s.args.dstAddr.toNat ≤ x ∧ x < s.args.dstAddr.toNat + s.args.dstCap.toNat

/-- Raced or not, the end of an ENCODE whose output fits writes inside its destination range, raced bytes apart. -/
theorem storeEncoded_mem {e : Encoded} {s : State} (hfit : e.bytes.length ≤ s.args.dstCap.toNat) :
    (∀ c ∈ (storeEncoded e s).mem, c ∈ s.mem ∨ InDest s c.1 ∨ c.1 ∈ s.racedBytes)
      ∧ (s.mem.wf → ∀ x, x ∉ s.racedBytes → ¬InDest s x → memGet (storeEncoded e s).mem x = memGet s.mem x) := by
  obtain ⟨bs, k1, hstore, hbs⟩ := storeOutput_cases (s.setInternals e.table e.dp) e.bytes
  obtain ⟨m, k2, hraced, -, hget, hcells⟩ :=
    drawRacedBytes_cases ((s.setInternals e.table e.dp).storeOutput e.bytes) s.racedBytes
  obtain ⟨r, k3, hfinish⟩ := finishData_cases .ok e.bytes.length
    (((s.setInternals e.table e.dp).storeOutput e.bytes).drawRacedBytes s.racedBytes)
  have hmem : (storeEncoded e s).mem = m := by rw [storeEncoded, hfinish, hraced]; rfl
  have hlen : bs.length ≤ s.args.dstCap.toNat := hbs.elim (fun h => h ▸ hfit) Nat.le_of_eq
  rw [hstore] at hget hcells
  rw [hmem]
  refine ⟨fun c hc => ?_, fun hwf x hx hdest => ?_⟩
  · rcases hcells c hc with hc | hc
    · rcases mem_memWrite hc with hc | hc
      · exact .inl hc
      · exact .inr (.inl ⟨hc.1, Nat.lt_of_lt_of_le hc.2 (Nat.add_le_add_left hlen _)⟩)
    · exact .inr (.inr hc)
  · have hout : ¬(s.args.dstAddr.toNat ≤ x ∧ x < s.args.dstAddr.toNat + bs.length) :=
      fun h => hdest ⟨h.1, Nat.lt_of_lt_of_le h.2 (Nat.add_le_add_left hlen _)⟩
    exact (hget (memWrite_wf hwf _ bs) x hx).trans ((memGet_memWrite hwf _ bs x).trans (if_neg hout))

/-- Outside a race ENCODE reports the length of its output (41 R180). -/
theorem storeEncoded_result {s : State} (h : s.raced = false) (e : Encoded) :
    (storeEncoded e s).result = BitVec.ofNat 32 e.bytes.length := by
  obtain ⟨bs, k1, hstore, -⟩ := storeOutput_cases (s.setInternals e.table e.dp) e.bytes
  obtain ⟨m, k2, hraced, -⟩ := drawRacedBytes_cases ((s.setInternals e.table e.dp).storeOutput e.bytes) s.racedBytes
  have hr : (((s.setInternals e.table e.dp).storeOutput e.bytes).drawRacedBytes s.racedBytes).raced = false := by
    rw [hraced, hstore]
    exact h
  rw [storeEncoded, finishData_eq hr]
  rfl

/-- With no race at all, the end of ENCODE is exactly its output at the destination, its registers, and a `finish` (41 R180). -/
theorem storeEncoded_eq {s : State} (hr : s.raced = false) (hb : s.racedBytes = []) (e : Encoded) :
    storeEncoded e s = finish .ok (BitVec.ofNat 32 e.bytes.length)
      { s with table := e.table, dp := e.dp, mem := memWrite s.mem s.args.dstAddr.toNat e.bytes } := by
  have hr' : (s.setInternals e.table e.dp).raced = false := hr
  have hdraw : ∀ u : State, u.drawRacedBytes s.racedBytes = u := fun u => by rw [hb]; rfl
  rw [storeEncoded, hdraw, storeOutput_eq hr', finishData_eq]
  · rfl
  · exact hr

/-- Settles O42: the frame of every other command, and the reach of ENCODE's stores, which its checks and the expansion bound
keep within the capacity. -/
theorem commandsStayInRanges : Obligations.CommandsStayInRanges := by
  intro s t i hl ⟨hmem, htable, _⟩ h
  refine ⟨fun hi a => by rw [(exec_frame hl hi h).mem], ?_, ?_⟩
  · rintro rfl a ha hdest
    rcases execEncode_cases h with ⟨code, -, rfl⟩ | ⟨hcheck, rfl⟩
    · rw [(finishData_frame code 0 s).mem]
    · exact (storeEncoded_mem (encodeOutput_fits htable hcheck)).2 hmem a ha hdest
  · rintro rfl hr hok
    rcases execEncode_cases h with ⟨code, hcheck, rfl⟩ | ⟨hcheck, rfl⟩
    · rw [finishData_eq hr, finish_resultCode] at hok
      exact absurd (hok ▸ hcheck) (encodeCheck_ne_ok _ _)
    · rw [storeEncoded_result hr, BitVec.toNat_ofNat]
      exact (Nat.mod_le _ _).trans (encodeOutput_fits htable hcheck)

end Sys2Proof.Machine
end

section
/-! SUPPORT. No step lists a byte outside host memory (20 R61 to R63). -/

namespace Sys2Proof.Machine

/-! ### No encoding of a source is in progress -/

/-- The control state is an encoding of ENCODE's source (41 R180). -/
def Ctrl.isEncoding : Ctrl → Bool
  | .encoding _ => true
  | .idle | .accepted | .framing _ _ _ | .sending _ _ | .waiting _ | .resuming _ => false

/-- The engine is in no encoding of ENCODE's source. -/
def NotEncoding (s : State) : Prop := s.ctrl.isEncoding = false

theorem NotEncoding.ctrl_ne {s : State} (h : NotEncoding s) (e : EncodeProgress) : s.ctrl ≠ .encoding e := by
  intro he
  simp [NotEncoding, he, Ctrl.isEncoding] at h

theorem notEncoding_finishData (code : ResultCode) (n : Nat) (s : State) : NotEncoding (finishData code n s) := by
  obtain ⟨r, k, h⟩ := finishData_cases code n s
  rw [h]
  rfl

theorem notEncoding_offer (bytes payload : List Byte) (after : After) (s : State) : NotEncoding (offer bytes payload after s) :=
  rfl

theorem notEncoding_emitFramed (u : List Byte) (f : Framed) (after : After) (s : State) :
    NotEncoding (emitFramed u f after s) := by
  unfold emitFramed
  simp only
  split
  · exact notEncoding_offer ..
  · exact notEncoding_offer ..

theorem notEncoding_beginChunk (u : List Byte) (after : After) (s : State) : NotEncoding (beginChunk u after s) := rfl

section
variable {emit : List Byte → After → State → State} (he : ∀ u after s, NotEncoding (emit u after s))
include he

theorem notEncoding_continueWrite (p : List Byte) (absorbed : Nat) (direct : Bool) (s : State) :
    NotEncoding (continueWrite emit p absorbed direct s) := by
  unfold continueWrite writeBlock fillBuffer
  simp only
  split
  · exact notEncoding_finishData ..
  · split
    · exact he ..
    · split
      · exact he ..
      · split
        · exact he ..
        · exact notEncoding_finishData ..

theorem notEncoding_afterOk (after : After) (s : State) : NotEncoding (afterOk emit after s) := by
  cases after with
  | write rest absorbed gain direct => exact notEncoding_continueWrite he ..
  | flush => rfl
  | close => rfl

end

theorem notEncoding_afterErr (after : After) (s : State) : NotEncoding (afterErr after s) := by
  cases after with
  | write rest absorbed gain direct => exact notEncoding_finishData ..
  | flush => rfl
  | close => rfl

theorem notEncoding_emitChunk (u : List Byte) (after : After) (s : State) : NotEncoding (emitChunk u after s) :=
  notEncoding_emitFramed ..

theorem notEncoding_takeAnswer (a : SinkAnswer) (p : Pending) (s : State) : NotEncoding (takeAnswer a p s) := by
  cases a with
  | ok =>
    simp only [takeAnswer]
    split
    · exact notEncoding_afterOk notEncoding_emitChunk ..
    · exact notEncoding_offer ..
  | err code consumed => exact notEncoding_afterErr ..

theorem notEncoding_noteAnswer (a : SinkAnswer) (p : Pending) (s : State) : NotEncoding (noteAnswer a p s) := by
  cases a with
  | ok => simp only [noteAnswer]; split <;> rfl
  | err code consumed => exact notEncoding_takeAnswer ..

theorem notEncoding_takeAnswers (as : List SinkAnswer) {s : State} (h : NotEncoding s) : NotEncoding (takeAnswers as s) := by
  induction as generalizing s with
  | nil => exact h
  | cons a as ih =>
    by_cases hp : ∃ p, s.ctrl = .waiting p
    · obtain ⟨p, hp⟩ := hp
      rw [takeAnswers_awaiting hp]
      exact ih (notEncoding_takeAnswer ..)
    · rw [takeAnswers_of_not_awaiting (not_exists.1 hp)]
      exact h

theorem notEncoding_settle {s : State} (h : NotEncoding s) : NotEncoding (settle s) := notEncoding_takeAnswers _ h

/-- A command ends, or waits on the sink. -/
theorem exec_notEncoding {i : Instr} (hl : i.layer = .command) {s t : State} (h : exec i s = .next t) : NotEncoding t := by
  cases i with
  | litInline | lit1 | lit2 | lit3 | lit4 | copy1 | copy2 | copy4
  | chunkStreamId | chunkCompressed | chunkUncompressed => simp [Instr.layer] at hl
  | encode =>
    rcases execEncode_cases h with ⟨code, -, rfl⟩ | ⟨-, rfl⟩
    · exact notEncoding_finishData ..
    · exact notEncoding_finishData ..
  | maxlen =>
    simp only [exec, execMaxlen] at h
    split at h <;> cases h <;> rfl
  | initWriter mode => cases h; rfl
  | write =>
    simp only [exec, execWrite] at h
    split at h <;> cases h
    · exact notEncoding_finishData ..
    · exact notEncoding_settle (notEncoding_continueWrite notEncoding_emitChunk ..)
  | flush =>
    simp only [exec, execFlush] at h
    split at h
    · cases h; rfl
    · split at h <;> cases h
      · rfl
      · exact notEncoding_settle (notEncoding_emitChunk ..)
  | close =>
    simp only [exec, execClose] at h
    split at h
    · cases h; rfl
    · cases h; rfl
    all_goals
      split at h <;> cases h
      · exact notEncoding_settle (notEncoding_emitChunk ..)
      · rfl
  | resetStream => cases h; rfl
  | illegal w => cases h; rfl

/-! ### The invariant -/

/-- An ENCODE in progress passed its checks, and what it ends with fits its destination range. -/
def EncodingFits (s : State) : Prop :=
  ∀ e, s.ctrl = .encoding e → encodeCheck s.params s.args = none
    ∧ (finishEncoder s.params.tableSizeRule ⟨e, s.table, s.dp⟩).bytes.length ≤ s.args.dstCap.toNat

theorem pendingOutput_of_encoding {s : State} {e : EncodeProgress} (h : s.ctrl = .encoding e) :
    s.pendingOutput = finishEncoder s.params.tableSizeRule ⟨e, s.table, s.dp⟩ := by
  simp only [State.pendingOutput, h]

theorem memoryBoundInv_iff {s : State} :
    MemoryBoundInv s ↔ (∀ c ∈ s.mem, c.1 < s.params.hostMemSize) ∧ (∀ a ∈ s.racedBytes, a < s.params.hostMemSize)
      ∧ EncodingFits s := by
  refine and_congr_right' (and_congr_right' (forall₂_congr fun e he => ?_))
  rw [pendingOutput_of_encoding he]

/-- What keeps the frame and ends in no encoding keeps the bound. -/
theorem MemoryBoundInv.of_frame {s t : State} (hs : MemoryBoundInv s) (h : EngineFrame s t) (ht : NotEncoding t) :
    MemoryBoundInv t := by
  obtain ⟨hmem, hraced, -⟩ := hs
  refine ⟨?_, ?_, fun e he => absurd he (ht.ctrl_ne e)⟩
  · rwa [h.mem, h.params]
  · rwa [h.racedBytes, h.params]

/-- Where ENCODE's checks pass, its destination range lies in host memory (20 R62). -/
theorem inDest_lt {s : State} (hc : encodeCheck s.params s.args = none) {x : Nat} (h : InDest s x) :
    x < s.params.hostMemSize := by
  obtain ⟨-, -, hdst, -⟩ := encodeCheck_eq_none_iff.1 hc
  exact Nat.lt_of_lt_of_le h.2 hdst

theorem storeEncoded_memoryBound {e : Encoded} {s : State} (hs : MemoryBoundInv s) (hc : encodeCheck s.params s.args = none)
    (hfit : e.bytes.length ≤ s.args.dstCap.toNat) : MemoryBoundInv (storeEncoded e s) := by
  obtain ⟨hmem, hraced, -⟩ := hs
  have hcells := (storeEncoded_mem hfit).1
  obtain ⟨m, k, r, h⟩ := storeEncoded_cases e s
  rw [h] at hcells ⊢
  refine ⟨fun c hcm => ?_, hraced, fun e he => nomatch he⟩
  rcases hcells c hcm with hcm | hdest | hcm
  · exact hmem c hcm
  · exact inDest_lt hc hdest
  · exact hraced _ hcm

/-! ### The engine's steps -/

/-- A command whose table is in canonical form keeps the bound. -/
theorem exec_memoryBound {i : Instr} (hl : i.layer = .command) {s t : State} (htable : s.table.wf) (hs : MemoryBoundInv s)
    (h : exec i s = .next t) : MemoryBoundInv t := by
  by_cases hi : i = .encode
  · subst hi
    rcases execEncode_cases h with ⟨code, -, rfl⟩ | ⟨hc, rfl⟩
    · exact hs.of_frame (finishData_frame ..) (notEncoding_finishData ..)
    · exact storeEncoded_memoryBound hs hc (encodeOutput_fits htable hc)
  · exact hs.of_frame (exec_frame hl hi h) (exec_notEncoding hl h)

theorem advance_memoryBound {s : State} (hs : MemoryBoundInv s) : MemoryBoundInv (advance s) := by
  unfold advance
  split
  · rename_i e he
    obtain ⟨hc, hfit⟩ := (memoryBoundInv_iff.1 hs).2.2 e he
    exact storeEncoded_memoryBound hs hc hfit
  · exact hs.of_frame (emitFramed_frame ..) (notEncoding_emitFramed ..)
  · exact hs.of_frame (offer_frame ..) (notEncoding_offer ..)
  · exact hs.of_frame (afterOk_frame emitChunk_frame ..) (notEncoding_afterOk notEncoding_emitChunk ..)
  all_goals exact hs

/-- A command in progress goes on out of its encoding. -/
theorem notEncoding_advance (s : State) : NotEncoding (advance s) := by
  unfold advance
  split
  · exact notEncoding_finishData ..
  · exact notEncoding_emitFramed ..
  · exact notEncoding_offer ..
  · exact notEncoding_afterOk notEncoding_emitChunk ..
  all_goals simp only [NotEncoding, Ctrl.isEncoding, *]

theorem engineStep_memoryBound {s t : State} (htable : s.table.wf) (hs : MemoryBoundInv s) (h : engineStep s = .next t) :
    MemoryBoundInv t := by
  rcases engineStep_cases h with ⟨-, rfl⟩ | ⟨-, h⟩ | ⟨-, -, rfl⟩
  · exact hs
  · exact exec_memoryBound (decodeCommand_layer _) htable hs h
  · exact (advance_memoryBound hs).of_frame (settle_frame _) (notEncoding_settle (notEncoding_advance s))

/-- ENCODE's start leaves an encoding of the whole source, whose end is `encode(src)`. -/
theorem startEncode_memoryBound {s : State} (htable : s.table.wf) (hs : MemoryBoundInv s) : MemoryBoundInv (startEncode s) := by
  unfold startEncode
  split
  · exact hs.of_frame (finishData_frame ..) (notEncoding_finishData ..)
  · rename_i hc
    obtain ⟨hmem, hraced, -⟩ := hs
    refine memoryBoundInv_iff.2 ⟨hmem, hraced, fun e he => ?_⟩
    cases he
    refine ⟨hc, ?_⟩
    have hend := finishEncoder_begin s.params.tableSizeRule s.source s.table s.dp
    exact (congrArg (fun x => x.bytes.length) hend).trans_le (encodeOutput_fits htable hc)

theorem startCommand_memoryBound {s t : State} (htable : s.table.wf) (hs : MemoryBoundInv s) (h : startCommand s = .next t) :
    MemoryBoundInv t := by
  rcases startCommand_cases h with h | ⟨-, rfl⟩ | ⟨-, rfl⟩ | ⟨-, ⟨-, rfl⟩ | ⟨-, rfl⟩⟩
  · exact exec_memoryBound (decodeCommand_layer _) htable hs h
  · exact startEncode_memoryBound htable hs
  · unfold startWrite
    split
    · exact hs.of_frame (finishData_frame ..) (notEncoding_finishData ..)
    · exact ⟨hs.1, hs.2.1, fun e he => nomatch he⟩
  · exact hs.of_frame ((setWriter_frame ..).trans (beginChunk_frame ..)) (notEncoding_beginChunk ..)
  · exact hs.of_frame ((setWriter_frame ..).trans (beginChunk_frame ..)) (notEncoding_beginChunk ..)

theorem tickStep_memoryBound {s t : State} (htable : s.table.wf) (hs : MemoryBoundInv s) (h : tickStep s = .next t) :
    MemoryBoundInv t := by
  rcases tickStep_cases h with rfl | ⟨-, h⟩ | ⟨e, he, rfl⟩ | ⟨u, after, e, -, rfl⟩ | ⟨-, -, rfl⟩ | ⟨after, -, rfl⟩
    | ⟨p, a, rest, hp, -, rfl⟩
  · exact hs
  · exact startCommand_memoryBound htable hs h
  · obtain ⟨hmem, hraced, hfits⟩ := memoryBoundInv_iff.1 hs
    refine memoryBoundInv_iff.2 ⟨hmem, hraced, fun e' he' => ?_⟩
    cases he'
    obtain ⟨hc, hfit⟩ := hfits e he
    have hend := finishEncoder_step s.params.tableSizeRule ⟨e, s.table, s.dp⟩
    exact ⟨hc, (congrArg (fun x => x.bytes.length) hend).trans_le hfit⟩
  · exact ⟨hs.1, hs.2.1, fun e he => nomatch he⟩
  · exact advance_memoryBound hs
  · exact hs.of_frame (afterOk_frame beginChunk_frame ..) (notEncoding_afterOk notEncoding_beginChunk ..)
  · have hs' : MemoryBoundInv { s with answers := rest } := memoryBoundInv_iff.2 (memoryBoundInv_iff.1 hs)
    exact hs'.of_frame (noteAnswer_frame ..) (notEncoding_noteAnswer ..)

/-! ### The host's steps and hardware reset -/

theorem csrStoreValue_memoryBound {s : State} (hs : MemoryBoundInv s) (offset : Nat) (w : Word) :
    MemoryBoundInv (csrStoreValue offset w s) := by
  rw [memoryBoundInv_iff] at hs ⊢
  unfold csrStoreValue
  repeat' split
  all_goals exact hs

theorem csrStore_memoryBound {addr : Word} {width : AccessWidth} {w : Word} {s t : State} (hs : MemoryBoundInv s)
    (h : csrStore addr width w s = .next t) : MemoryBoundInv t := by
  rcases csrStore_cases h with rfl | rfl | h | ⟨-, rfl⟩
  · exact hs
  · exact memoryBoundInv_iff.2 (memoryBoundInv_iff.1 hs)
  · rcases cmdStore_cases h with ⟨-, rfl⟩ | ⟨-, rfl | rfl⟩
    · exact memoryBoundInv_iff.2 (memoryBoundInv_iff.1 hs)
    · exact ⟨hs.1, by simp [accept], fun e he => nomatch he⟩
    · exact ⟨hs.1, by simp [accept], fun e he => nomatch he⟩
  · exact csrStoreValue_memoryBound hs ..

theorem storeHostByte_memoryBound {addr : Word} {s : State} (hs : MemoryBoundInv s) (haddr : addr.toNat < s.params.hostMemSize)
    (b : Byte) : MemoryBoundInv (storeHostByte addr b s) := by
  obtain ⟨hmem, hraced, hfits⟩ := memoryBoundInv_iff.1 hs
  obtain ⟨v, rm, rb, k, h, -, hrb⟩ := storeHostByte_cases addr b s
  rw [h]
  refine memoryBoundInv_iff.2 ⟨fun c hc => ?_, fun a ha => ?_, hfits⟩
  · rcases mem_cellsPut hc with hc | ⟨rfl, -⟩
    · exact hmem c hc
    · exact haddr
  · rcases hrb a ha with ha | rfl
    · exact hraced a ha
    · exact haddr

theorem markRace_memoryBound {s : State} (hs : MemoryBoundInv s) : MemoryBoundInv (markRace s) := by
  obtain ⟨hmem, hraced, hfits⟩ := memoryBoundInv_iff.1 hs
  obtain ⟨c, k, log, h, -, hc⟩ := markRace_cases s
  rw [h]
  rcases hc with rfl | ⟨p, b, -, rfl, -⟩
  · exact memoryBoundInv_iff.2 ⟨hmem, hraced, hfits⟩
  · exact ⟨hmem, hraced, fun e he => nomatch he⟩

theorem hostStep_memoryBound {op : HostOp} {s t : State} (hs : MemoryBoundInv s) (h : hostStep op s = .next t) :
    MemoryBoundInv t := by
  have hs' := memoryBoundInv_iff.1 hs
  cases op with
  | csrLoad addr width =>
    obtain ⟨v, m, k, heq, -⟩ := csrLoad_cases addr width s
    cases h
    rw [heq]
    exact memoryBoundInv_iff.2 hs'
  | csrStore addr width w => exact csrStore_memoryBound hs h
  | memLoad addr =>
    rcases memLoad_cases h with ⟨-, rfl⟩ | ⟨-, v, k, rfl⟩
    · exact memoryBoundInv_iff.2 hs'
    · exact memoryBoundInv_iff.2 hs'
  | memStore addr b =>
    rcases memStore_cases h with ⟨-, rfl⟩ | ⟨haddr, rfl | rfl⟩
    · exact memoryBoundInv_iff.2 hs'
    · exact storeHostByte_memoryBound hs haddr b
    · exact markRace_memoryBound (storeHostByte_memoryBound hs haddr b)

/-- What an abandoned ENCODE would have written fits its destination range. -/
theorem pendingOutput_fits {s : State} (htable : s.table.wf) (hs : MemoryBoundInv s)
    (hc : encodeCheck s.params s.args = none) : s.pendingOutput.bytes.length ≤ s.args.dstCap.toNat := by
  by_cases he : ∃ e, s.ctrl = .encoding e
  · obtain ⟨e, he⟩ := he
    exact (hs.2.2 e he).2
  · have hout : s.pendingOutput = s.encodeOutput := by
      unfold State.pendingOutput
      split
      · exact absurd ⟨_, by assumption⟩ he
      all_goals rfl
    exact hout ▸ encodeOutput_fits htable hc

theorem mem_abandonMemory_lt {s : State} (htable : s.table.wf) (hs : MemoryBoundInv s) (written : List Nat) :
    ∀ c ∈ (abandonMemory written s).mem, c.1 < s.params.hostMemSize := by
  unfold abandonMemory
  split
  · rename_i hcan
    obtain ⟨-, -, hc⟩ := hcan
    obtain ⟨m, k, h, -, hcells⟩ := landBytes_cases s.pendingOutput.bytes s written
    rw [h]
    intro c hcm
    rcases hcells c hcm with hcm | ⟨j, hj, hin⟩
    · exact hs.1 c hcm
    · have hfit := pendingOutput_fits htable hs hc
      exact inDest_lt hc ⟨by omega, by omega⟩
  · exact hs.1

theorem abandonTransfer_mem (consumed : Nat) (s : State) : (abandonTransfer consumed s).mem = s.mem := by
  unfold abandonTransfer
  split <;> rfl

theorem hardReset_memoryBound {s : State} (htable : s.table.wf) (hs : MemoryBoundInv s) (d : ResetDraw) :
    MemoryBoundInv (hardReset d s) := by
  have hmem : (hardReset d s).mem = (abandonMemory d.written s).mem := abandonTransfer_mem ..
  obtain ⟨m, log, as, k, h, -⟩ := hardReset_cases d s
  have hcells := mem_abandonMemory_lt htable hs d.written
  rw [← hmem] at hcells
  rw [h] at hcells ⊢
  exact ⟨hcells, by simp, fun e he => nomatch he⟩

/-! ### Every step -/

theorem runEvent_memoryBound {e : Event} {s t : State} (htable : s.table.wf) (hs : MemoryBoundInv s)
    (h : runEvent e s = .next t) : MemoryBoundInv t := by
  have hs' := memoryBoundInv_iff.1 hs
  rcases runEvent_cases h with ⟨op, -, h⟩ | ⟨-, h⟩ | ⟨-, h⟩ | ⟨a, -, rfl⟩ | ⟨d, -, rfl⟩ | ⟨m, bs, -, h⟩ | ⟨-, h⟩
  · exact hostStep_memoryBound hs h
  · exact engineStep_memoryBound htable hs h
  · exact tickStep_memoryBound htable hs h
  · exact memoryBoundInv_iff.2 hs'
  · exact hardReset_memoryBound htable hs d
  · obtain ⟨r, rfl⟩ := openReader_cases h
    exact memoryBoundInv_iff.2 hs'
  · obtain ⟨r, rfl⟩ := readerStep_cases h
    exact memoryBoundInv_iff.2 hs'

/-- Settles O40, by the inversion of the step: only a host store and an ENCODE put bytes into memory, the one below
HOST_MEM_SIZE, the other within the range its checks passed. -/
theorem memoryBoundInvKept : Obligations.MemoryBoundInvKept := by
  intro s t ⟨_, htable, _⟩ hs h
  rcases step_cases h with ⟨e, rest, -, h⟩ | ⟨-, ⟨-, rfl⟩ | ⟨-, h⟩⟩
  · have hs' : MemoryBoundInv { s with events := rest } := memoryBoundInv_iff.2 (memoryBoundInv_iff.1 hs)
    exact runEvent_memoryBound (s := { s with events := rest }) htable hs' h
  · exact hs
  · exact engineStep_memoryBound htable hs h

end Sys2Proof.Machine
end

section
/-! SUPPORT. What `TABLE` held before a run does not reach the encoder's output: a run reads only slots it has cleared (41 R168,
R178). -/

namespace Sys2Proof.Machine

/-- Two tables in canonical form agree on their first `n` slots. -/
structure TablesAgree (n : Nat) (t t' : Table) : Prop where
  left : CellsWf 0 t
  right : CellsWf 0 t'
  slots : ∀ k, k < n → tableGet t k = tableGet t' k

theorem TablesAgree.put {n : Nat} {t t' : Table} (h : TablesAgree n t t') (k v : Nat) :
    TablesAgree n (tablePut t k v) (tablePut t' k v) :=
  ⟨cellsPut_wf h.left _ _, cellsPut_wf h.right _ _, fun j hj => by
    rw [tableGet_tablePut h.left, tableGet_tablePut h.right, h.slots j hj]⟩

theorem tablesAgree_tableClear {t t' : Table} (h : t.wf) (h' : t'.wf) (n : Nat) :
    TablesAgree n (tableClear t n) (tableClear t' n) :=
  ⟨filter_wf h.1 _, filter_wf h'.1 _, fun k hk => by rw [tableGet_tableClear t hk, tableGet_tableClear t' hk]⟩

/-- Two runs stand at the same place with the same elements, and their tables agree on the slots they use. -/
def SameRun (n : Nat) (m m' : Matcher) : Prop := ∃ t, m' = { m with table := t } ∧ TablesAgree n m.table t

section
variable {g : Segment} {n : Nat} {m m' : Matcher} (hslot : ∀ p, g.slot p < n)
include hslot

theorem stepProbe_sameRun (h : SameRun n m m') : SameRun n (stepProbe g m) (stepProbe g m') := by
  obtain ⟨t, rfl, hagree⟩ := h
  simp only [stepProbe, ← hagree.slots _ (hslot _)]
  split
  · exact ⟨t, rfl, hagree⟩
  · split
    · exact ⟨_, rfl, hagree.put _ _⟩
    · exact ⟨_, rfl, hagree.put _ _⟩

theorem stepC_sameRun (h : SameRun n m m') : SameRun n (stepC g m) (stepC g m') := by
  obtain ⟨t, rfl, hagree⟩ := h
  have hput := hagree.put (g.slot (m.s - 1)) (m.s - 1)
  simp only [stepC, ← hput.slots _ (hslot _)]
  split
  · exact ⟨_, rfl, hput.put _ _⟩
  · exact ⟨_, rfl, hput.put _ _⟩

theorem stepMatcher_sameRun (h : SameRun n m m') : SameRun n (stepMatcher g m) (stepMatcher g m') := by
  have hphase : m'.phase = m.phase := by obtain ⟨t, rfl, -⟩ := h; rfl
  unfold stepMatcher
  rw [hphase]
  cases m.phase with
  | probe => exact stepProbe_sameRun hslot h
  | c => exact stepC_sameRun hslot h
  | enterA | b | tail | ended => obtain ⟨t, rfl, hagree⟩ := h; exact ⟨t, rfl, hagree⟩

theorem runMatcher_sameRun (k : Nat) (h : SameRun n m m') : SameRun n (runMatcher g k m) (runMatcher g k m') := by
  have hphase : ∀ {m m'}, SameRun n m m' → m'.phase = m.phase := by rintro m m' ⟨t, rfl, -⟩; rfl
  induction k generalizing m m' with
  | zero =>
    unfold runMatcher
    rw [hphase h]
    split
    · exact h
    · obtain ⟨t, rfl, hagree⟩ := h
      exact ⟨t, rfl, hagree⟩
  | succ k ih =>
    unfold runMatcher
    rw [hphase h]
    split
    · exact h
    · exact ih (stepMatcher_sameRun hslot h)

end

/-- The elements of a segment do not depend on the table (41 R178). -/
theorem encodeBlock_out_eq (rule : TableSizeRule) (seg : List Byte) {t t' : Table} (h : t.wf) (h' : t'.wf) :
    (encodeBlock rule seg t').out = (encodeBlock rule seg t).out := by
  have hinit : SameRun (tsize rule seg.length) (initMatcher rule seg.length t) (initMatcher rule seg.length t') :=
    ⟨_, rfl, tablesAgree_tableClear h h' _⟩
  obtain ⟨_, hrun, -⟩ := runMatcher_sameRun (slot_lt_tsize rule seg) (matcherBound seg.length) hinit
  rw [encodeBlock, hrun]
  rfl

theorem encodeSegment_elements_eq (rule : TableSizeRule) (seg : List Byte) {e e' : Encoding} (h : e.table.wf) (h' : e'.table.wf)
    (helements : e'.elements = e.elements) : (encodeSegment rule e' seg).elements = (encodeSegment rule e seg).elements := by
  unfold encodeSegment
  rw [helements]
  split
  · rfl
  · exact congrArg (e.elements ++ ·) (encodeBlock_out_eq rule seg h h')

theorem encodeSegments_elements_eq (rule : TableSizeRule) (segs : List (List Byte)) {e e' : Encoding} (h : e.table.wf)
    (h' : e'.table.wf) (helements : e'.elements = e.elements) :
    (segs.foldl (encodeSegment rule) e').elements = (segs.foldl (encodeSegment rule) e).elements := by
  induction segs generalizing e e' with
  | nil => exact helements
  | cons seg segs ih =>
    exact ih (encodeSegment_wf rule h seg) (encodeSegment_wf rule h' seg) (encodeSegment_elements_eq rule seg h h' helements)

/-- The bytes of `encode(src)` on any table and registers are those of the pure function (41 R178, 00 R19). -/
theorem encodeSrc_bytes_eq (rule : TableSizeRule) (src : List Byte) {t : Table} (h : t.wf) (dp : Datapath) :
    (encodeSrc rule src t dp).bytes = encodeBytes rule src :=
  congrArg (blockBytes src.length) (encodeSegments_elements_eq rule (segmentsOf src) (e := ⟨[], [], Datapath.zero⟩)
    (e' := ⟨[], t, dp⟩) reset_table_wf h rfl)

/-- Settles O17: the checks pass, and `MemWrite` stores the output and leaves every other byte. -/
theorem encodeLeavesOtherBytes : Obligations.EncodeLeavesOtherBytes := by
  rintro s out rfl hmem htable hr hb hpass
  have hexec : exec .encode s = .next (storeEncoded s.encodeOutput s) := by
    simp only [exec, execEncode, encodeCheck_eq_none_iff.2 hpass]
  have hbytes : s.encodeOutput.bytes = encodeBytes s.params.tableSizeRule s.source := encodeSrc_bytes_eq _ _ htable _
  refine ⟨_, hexec, ?_⟩
  simp only [storeEncoded_eq hr hb, hbytes, finish_resultCode, finish_mem, memGet_memWrite hmem, true_and]
  refine ⟨fun k hk => ?_, fun a ha => if_neg ha⟩
  rw [if_pos (by omega), Nat.add_sub_cancel_left]

end Sys2Proof.Machine
end

section
/-! SUPPORT. What leaves everything as it is but a mark or the schedule: a refused access to the CSR window (20 R66), and an
engine that awaits a silent sink (20 R73). -/

namespace Sys2Proof.Machine

theorem advance_waiting {s : State} {p : Pending} (h : s.ctrl = .waiting p) : advance s = s := by
  simp only [advance, h]

theorem settle_of_no_answers {s : State} (h : s.answers = []) : settle s = s := by
  rw [settle, h]
  calc s.setAnswers [] = s.setAnswers s.answers := by rw [h]
    _ = s := rfl

/-- Settles O34: the engine goes on only over an answer, and none is there. -/
theorem silentSinkBlocks : Obligations.SilentSinkBlocks := by
  intro s p rest hc ha
  refine ⟨fun he => ?_, ?_⟩
  · simp only [step, he, runUnscheduled, hc, ha, if_true]
  · rintro (he | he)
    · have hstays : settle (advance { s with events := rest }) = { s with events := rest } := by
        rw [advance_waiting (s := { s with events := rest }) hc, settle_of_no_answers (s := { s with events := rest }) ha]
      simp only [step, he, runEvent, engineStep, hc] at hstays ⊢
      rw [hstays]
    · simp only [step, he, runEvent, tickStep, hc, ha]

/-- An access that begins in the window touches it. -/
theorem touchesWindow_of_begins {p : Params} {addr : Word} (h : csrOffset p addr < 256) (width : AccessWidth) :
    touchesWindow p addr width = true := by
  refine List.any_eq_true.2 ⟨0, List.mem_range.2 (by cases width <;> decide), ?_⟩
  simpa using h

theorem csrAccessDefined_iff {p : Params} {addr : Word} {width : AccessWidth} :
    csrAccessDefined p addr width = true ↔ width = .word ∧ csrOffset p addr < 256 ∧ csrOffset p addr % 4 = 0 := by
  simp [csrAccessDefined, and_assoc]

theorem csrLoad_refusalMark {addr : Word} {width : AccessWidth} {s : State} (h : csrAccessDefined s.params addr width = true) :
    (csrLoad addr width s).refusalMark = s.refusalMark := by
  unfold csrLoad
  rw [if_pos h]
  simp only
  split <;> rfl

theorem csrStoreValue_refusalMark (offset : Nat) (w : Word) (s : State) :
    (csrStoreValue offset w s).refusalMark = s.refusalMark := by
  unfold csrStoreValue
  repeat' split
  all_goals rfl

theorem csrStore_refusalMark {addr w : Word} {width : AccessWidth} {s t : State}
    (h : csrAccessDefined s.params addr width = true) (hstore : csrStore addr width w s = .next t) :
    t.refusalMark = s.refusalMark := by
  rw [csrStore, if_pos h] at hstore
  split at hstore
  · rcases cmdStore_cases hstore with ⟨-, rfl⟩ | ⟨-, rfl | rfl⟩ <;> rfl
  · cases hstore
    exact csrStoreValue_refusalMark ..

/-- Settles O49: an access that begins in the window touches it, so one that is not defined is refused. -/
theorem csrAccessRefused : Obligations.CsrAccessRefused := by
  intro s addr w width
  refine ⟨fun hbegins hbad => ?_, fun hbegins hwidth halign t h => ?_⟩
  · have hundefined : ¬csrAccessDefined s.params addr width = true := by
      rw [csrAccessDefined_iff]
      tauto
    have htouches := touchesWindow_of_begins hbegins width
    simp only [hostStep, csrLoad, csrStore, hundefined, htouches, if_true, if_false, Bool.false_eq_true, and_self]
  · have hdefined := csrAccessDefined_iff.2 ⟨hwidth, hbegins, halign⟩
    rcases h with h | h
    · cases h
      exact csrLoad_refusalMark hdefined
    · exact csrStore_refusalMark hdefined h

end Sys2Proof.Machine
end

section
/-! SUPPORT. The chunks of the framed writer on the sink port: the transfers of one chunk while the sink takes them (42 R202). -/

namespace Sys2Proof.Machine

/-! ### A framed chunk -/

/-- The chunk framed on the engine's table is that of the pure function (42 R201, 41 R178). -/
theorem frame_chunk_eq {s : State} (ht : s.table.wf) (u : List Byte) :
    (s.frame u).chunk = (frameChunk s.params.tableSizeRule u [] Datapath.zero).chunk := by
  have hbytes : (encodeSrc s.params.tableSizeRule u s.table s.dp).bytes =
      (encodeSrc s.params.tableSizeRule u [] Datapath.zero).bytes := encodeSrc_bytes_eq _ u ht s.dp
  simp only [State.frame, frameChunk, frameEncoded, hbytes]

theorem frame_table_wf {s : State} (ht : s.table.wf) (u : List Byte) : (s.frame u).table.wf := encodeSrc_wf _ u ht s.dp

/-- The bytes staged for a chunk are the identifier's, while `HDR` is clear, and the chunk's (42 R202). -/
theorem stagedBytes_frame {s : State} (ht : s.table.wf) (u : List Byte) :
    stagedBytes (s.frame u) s = (if s.writer.hdr then [] else Config.magicChunk) ++ frameBytes s.params.tableSizeRule u := by
  rw [stagedBytes, frame_chunk_eq ht, frameBytes]

theorem splitsChunk_frame {s : State} (ht : s.table.wf) (u : List Byte) :
    splitsChunk (s.frame u) s = (s.params.splitUncompressedTransfer
      && isUncompressedChunk (frameChunk s.params.tableSizeRule u [] Datapath.zero).chunk) := by
  rw [splitsChunk, frame_chunk_eq ht]

/-! ### The chunk's transfers, one after the other -/

/-- The engine awaits the pending transfer `p` of a chunk, after the sink has taken the transfers `taken`; `HDR` is set. -/
def AwaitsTransfer (s t : State) (taken : List (List Byte)) (p : Pending) : Prop :=
  ∃ table obuf dp trail, table.wf ∧ t = { s with
    writer := { s.writer with hdr := true }
    sinkLog := s.sinkLog ++ takenLog taken
    ctrl := .waiting p
    table := table, obuf := obuf, dp := dp, trail := trail }

/-- The sink has taken the transfers `taken`, which make up whole chunks. -/
def ChunksTaken (s t : State) (taken : List (List Byte)) : Prop :=
  ∃ table obuf dp ctrl trail, table.wf ∧ t = { s with
    writer := { s.writer with wstate := .streaming, hdr := true }
    sinkLog := s.sinkLog ++ takenLog taken
    table := table, obuf := obuf, dp := dp, ctrl := ctrl, trail := trail }

theorem takenLog_append (xs ys : List (List Byte)) : takenLog (xs ++ ys) = takenLog xs ++ takenLog ys := by
  simp [takenLog]

/-- Outside a race `emit_chunk` offers the first of the chunk's transfers, and leaves the second, if there is one, as payload. -/
theorem emitChunk_awaits {s : State} (hr : s.raced = false) (ht : s.table.wf) {u : List Byte} (hu : u ≠ []) (after : After) :
    ∃ b payload, AwaitsTransfer s (emitChunk u after s) [] ⟨b, payload, after⟩
      ∧ chunkTransfers s.params s.writer.hdr u = b :: if payload = [] then [] else [payload] := by
  have hr' : (stageChunk (s.frame u) s).raced = false := hr
  have hstaged : (stageChunk (s.frame u) s).obuf = _ := stagedBytes_frame ht u
  have hawaits : ∀ p, AwaitsTransfer s { stageChunk (s.frame u) s with ctrl := .waiting p } [] p := fun p =>
    ⟨(s.frame u).table, stagedBytes (s.frame u) s, (s.frame u).dp, (s.setHdr true).trail, frame_table_wf ht u, by
      rw [takenLog, List.map_nil, List.append_nil]
      rfl⟩
  simp only [emitChunk, emitFramed, splitsChunk_frame ht, offer_eq hr', chunkTransfers, ← hstaged]
  split
  · exact ⟨_, u, hawaits _, by rw [if_neg hu]⟩
  · exact ⟨_, [], hawaits _, by rw [if_pos rfl]⟩

section
variable {s t : State} {taken : List (List Byte)} {b payload : List Byte} {after : After}

theorem AwaitsTransfer.ctrl {p : Pending} (h : AwaitsTransfer s t taken p) : t.ctrl = .waiting p := by
  obtain ⟨table, obuf, dp, trail, -, rfl⟩ := h
  rfl

/-- Once the header of a split chunk is taken, its payload is awaited (42 R202). -/
theorem AwaitsTransfer.takeHeader (hr : s.raced = false) (h : AwaitsTransfer s t taken ⟨b, payload, after⟩)
    (hp : payload ≠ []) :
    AwaitsTransfer s (takeAnswer .ok ⟨b, payload, after⟩ t) (taken ++ [b]) ⟨payload, [], after⟩ := by
  obtain ⟨table, obuf, dp, trail, hwf, rfl⟩ := h
  refine ⟨table, obuf, dp, trail, hwf, ?_⟩
  simp only [takeAnswer, hp, if_false]
  rw [offer_eq (by exact hr), State.logSink, takenLog_append, ← List.append_assoc]
  rfl

/-- Once the last transfer of a chunk is taken, the command goes on (42 R202, R207 to R213). -/
theorem AwaitsTransfer.takeLast (h : AwaitsTransfer s t taken ⟨b, [], after⟩) :
    ∃ t', ChunksTaken s t' (taken ++ [b]) ∧ takeAnswer .ok ⟨b, [], after⟩ t = afterOk emitChunk after t' := by
  let t' := (t.logSink (.transfer b (.answered .ok))).setWState .streaming
  refine ⟨t', ⟨t'.table, t'.obuf, t'.dp, t'.ctrl, t'.trail, ?_⟩, rfl⟩
  obtain ⟨table, obuf, dp, trail, hwf, rfl⟩ := h
  rw [takenLog_append, ← List.append_assoc]
  exact ⟨hwf, rfl⟩

end

section
variable {s : State} (hr : s.raced = false) (ht : s.table.wf) {u : List Byte} (hu : u ≠ []) (after : After)
include hr ht hu

/-- Over `k` `OK` answers a chunk of more transfers comes to await the next one; the last one has no payload behind it. -/
theorem takeAnswers_emitChunk_awaits {k : Nat} {b : List Byte} (hb : (chunkTransfers s.params s.writer.hdr u)[k]? = some b)
    (as : List SinkAnswer) :
    ∃ t payload, AwaitsTransfer s t ((chunkTransfers s.params s.writer.hdr u).take k) ⟨b, payload, after⟩
      ∧ (k + 1 = (chunkTransfers s.params s.writer.hdr u).length → payload = [])
      ∧ takeAnswers (List.replicate k .ok ++ as) (emitChunk u after s) = takeAnswers as t := by
  obtain ⟨first, payload, hawaits, hts⟩ := emitChunk_awaits hr ht hu after
  rw [hts] at hb ⊢
  cases k with
  | zero =>
    obtain rfl : first = b := by simpa using hb
    exact ⟨_, payload, hawaits, fun hlast => by by_contra hp; simp [hp] at hlast, rfl⟩
  | succ k =>
    have hp : payload ≠ [] := by rintro rfl; simp at hb
    rw [if_neg hp] at hb ⊢
    obtain ⟨rfl, rfl⟩ : k = 0 ∧ payload = b := by cases k <;> simp_all
    exact ⟨_, [], hawaits.takeHeader hr hp, fun _ => rfl, takeAnswers_awaiting hawaits.ctrl .ok as⟩

/-- Over as many `OK` answers as it has transfers a chunk is taken, and the command goes on. -/
theorem takeAnswers_emitChunk_taken (as : List SinkAnswer) :
    ∃ t, ChunksTaken s t (chunkTransfers s.params s.writer.hdr u)
      ∧ takeAnswers (List.replicate (chunkTransfers s.params s.writer.hdr u).length .ok ++ as) (emitChunk u after s) =
          takeAnswers as (afterOk emitChunk after t) := by
  obtain ⟨k, hk⟩ : ∃ k, (chunkTransfers s.params s.writer.hdr u).length = k + 1 := by
    obtain ⟨b, payload, -, hts⟩ := emitChunk_awaits hr ht hu after
    exact ⟨_, by rw [hts, List.length_cons]⟩
  have hlt : k < (chunkTransfers s.params s.writer.hdr u).length := by omega
  obtain ⟨t, payload, hawaits, hlast, htake⟩ :=
    takeAnswers_emitChunk_awaits hr ht hu after (List.getElem?_eq_getElem hlt) (.ok :: as)
  obtain rfl := hlast hk.symm
  obtain ⟨t', htaken, hgoes⟩ := hawaits.takeLast
  refine ⟨t', ?_, ?_⟩
  · rwa [List.take_append_getElem hlt, List.take_of_length_le hk.le] at htaken
  · rw [hk, List.replicate_succ', List.append_assoc, List.singleton_append, htake, takeAnswers_awaiting hawaits.ctrl, hgoes]

end

end Sys2Proof.Machine
end

section
/-! SUPPORT. The loop of a WRITE outside a race: each turn frames the next of the chunks the WRITE frames, or ends it (42 R207 to
R210). -/

namespace Sys2Proof.Machine

/-! ### The chunks of a WRITE -/

theorem maxBlockSize_eq : Config.maxBlockSize = 65536 := rfl

theorem segmentsOf_nil : segmentsOf [] = [] := rfl

section
variable {p : Params} {w : Writer} {src : List Byte}

/-- What does not fill the buffer frames nothing (42 R208, R210). -/
theorem writePieces_of_lt (hmode : w.wmode = .buffered) (h : w.ibuf.length + src.length < 65536) : writePieces p w src = [] := by
  have hmax := maxBlockSize_eq
  simp only [writePieces, hmode, reduceCtorEq, if_false]
  cases p.largeWriteMode with
  | block =>
    simp only
    rw [Nat.div_eq_of_lt (by rw [List.length_append]; omega), List.take_zero]
  | wholePiece =>
    simp only
    split_ifs with hempty hshort hroom
    · rfl
    · rw [hempty, List.length_nil] at h
      omega
    · rfl
    · omega

/-- A WHOLE_PIECE write of a block or more into an empty buffer is framed whole (42 R210). -/
theorem writePieces_wholePiece (hmode : w.wmode = .buffered) (hp : p.largeWriteMode = .wholePiece) (hempty : w.ibuf = [])
    (h : 65536 ≤ src.length) : writePieces p w src = segmentsOf src := by
  have hmax := maxBlockSize_eq
  simp only [writePieces, hmode, hp, hempty, reduceCtorEq, if_false, if_true]
  rw [if_neg (by omega)]

/-- What fills the buffer frames it, and then what the rest frames from an empty buffer, but for a WHOLE_PIECE write of more than
a block that finds the buffer empty (42 R208, R210). -/
theorem writePieces_of_le (hmode : w.wmode = .buffered) (hbuf : w.ibuf.length < 65536) (h : 65536 ≤ w.ibuf.length + src.length)
    (hwhole : p.largeWriteMode = .block ∨ w.ibuf ≠ [] ∨ src.length ≤ 65536) :
    writePieces p w src = (w.ibuf ++ src.take (65536 - w.ibuf.length)) ::
      writePieces p { w with ibuf := [] } (src.drop (65536 - w.ibuf.length)) := by
  have hmax := maxBlockSize_eq
  have hlen : (w.ibuf ++ src).length = w.ibuf.length + src.length := List.length_append
  have htake : (w.ibuf ++ src).take Config.maxBlockSize = w.ibuf ++ src.take (65536 - w.ibuf.length) := by
    rw [hmax, List.take_append, List.take_of_length_le (by omega)]
  have hdrop : (w.ibuf ++ src).drop Config.maxBlockSize = src.drop (65536 - w.ibuf.length) := by
    rw [hmax, List.drop_append, List.drop_of_length_le (by omega), List.nil_append]
  have hrest : (src.drop (65536 - w.ibuf.length)).length = src.length - (65536 - w.ibuf.length) := List.length_drop
  simp only [writePieces, hmode, reduceCtorEq, if_false, if_true, List.nil_append]
  cases hp : p.largeWriteMode with
  | block =>
    have hne : w.ibuf ++ src ≠ [] := by rintro hnil; rw [hnil] at hlen; simp at hlen; omega
    have hcount : (w.ibuf ++ src).length / Config.maxBlockSize =
        (src.drop (65536 - w.ibuf.length)).length / Config.maxBlockSize + 1 := by
      rw [hlen, hrest, hmax]
      omega
    simp only
    rw [hcount, segmentsOf_cons hne, htake, hdrop, List.take_succ_cons]
  | wholePiece =>
    simp only [← htake]
    by_cases hempty : w.ibuf = []
    · have h64 : src.length = 65536 := by
        simp only [hp, hempty, reduceCtorEq, false_or, ne_eq, not_true] at hwhole
        rw [hempty, List.length_nil] at h
        omega
      have hne : src ≠ [] := by rintro rfl; simp at h64
      simp only [hempty, if_true, List.nil_append, List.length_nil, Nat.sub_zero] at hdrop hrest ⊢
      rw [if_neg (by omega), if_pos (by omega), segmentsOf_cons hne, hdrop,
        List.eq_nil_of_length_eq_zero (l := src.drop 65536) (by omega), segmentsOf_nil]
    · simp only [hempty, if_false]
      rw [if_neg (by omega), hrest, hmax]

end

/-- The chunks that the rest of a WRITE frames, framed directly or through the buffer (42 R207 to R210). -/
def piecesLeft (p : Params) (w : Writer) (input : List Byte) (direct : Bool) : List (List Byte) :=
  if direct then segmentsOf input else writePieces p w input

/-- A WRITE stands before a turn of its loop, outside a race, with the chunks `us` left to frame. -/
structure WriteLeft (s : State) (input : List Byte) (direct : Bool) (us : List (List Byte)) : Prop where
  raced : s.raced = false
  table : s.table.wf
  room : s.writer.ibuf.length < 65536
  mode : direct = false → s.writer.wmode = .buffered
  pieces : piecesLeft s.params s.writer input direct = us

/-! ### One turn of the loop -/

/-- The states differ in the buffer only, and in what the trail shows of it. -/
def Rebuffered (s t : State) : Prop := ∃ ibuf trail, t = { s with writer := { s.writer with ibuf := ibuf }, trail := trail }

theorem Rebuffered.refl (s : State) : Rebuffered s s := ⟨s.writer.ibuf, s.trail, rfl⟩

theorem rebuffered_setIbuf (s : State) (v : List Byte) : Rebuffered s (s.setIbuf v) := ⟨v, (s.setIbuf v).trail, rfl⟩

theorem Rebuffered.trans {s t u : State} (h : Rebuffered s t) (k : Rebuffered t u) : Rebuffered s u := by
  obtain ⟨i, v, rfl⟩ := h
  obtain ⟨j, x, rfl⟩ := k
  exact ⟨j, x, rfl⟩

/-- A turn emits the chunk `u`, from a state that differs in the buffer only, and leaves the chunks `us`. -/
def TurnEmits (s : State) (turn : State) (emit : List Byte → After → State → State) (u : List Byte) (us : List (List Byte)) :
    Prop :=
  ∃ rest absorbed gain direct t, turn = emit u (.write rest absorbed gain direct) t ∧ Rebuffered s t ∧ WriteLeft t rest direct us

theorem goesDirect_iff {input : List Byte} {direct : Bool} {s : State} :
    goesDirect input direct s = true ↔
      direct = true ∨ s.params.largeWriteMode = .wholePiece ∧ s.writer.ibuf = [] ∧ 65536 < input.length := by
  simp only [goesDirect, Bool.or_eq_true, Bool.and_eq_true, decide_eq_true_eq, and_assoc]
  rfl

theorem passesThrough_iff {input : List Byte} {s : State} :
    passesThrough input s = true ↔
      s.params.largeWriteMode = .block ∧ s.writer.ibuf = [] ∧ 65536 ≤ input.length := by
  simp only [passesThrough, Bool.and_eq_true, decide_eq_true_eq, and_assoc]
  rfl

section
variable {emit : List Byte → After → State → State} {s : State} {input u : List Byte} {absorbed : Nat}
  {us : List (List Byte)} (hr : s.raced = false) (ht : s.table.wf) (hbuf : s.writer.ibuf.length < 65536)
include hr ht hbuf

/-- Direct framing takes the next block of the input (42 R207, R210). -/
theorem turnEmits_direct {direct : Bool} (hgoes : goesDirect input direct s = true) (hpieces : segmentsOf input = u :: us) :
    u ≠ [] ∧ TurnEmits s (continueWrite emit input absorbed direct s) emit u us := by
  have hne : input ≠ [] := by rintro rfl; simp [segmentsOf_nil] at hpieces
  rw [segmentsOf_cons hne, List.cons.injEq] at hpieces
  obtain ⟨rfl, hrest⟩ := hpieces
  refine ⟨by simp [maxBlockSize_eq, hne], input.drop Config.maxBlockSize, absorbed, (input.take Config.maxBlockSize).length,
    true, s, ?_, .refl s, hr, ht, hbuf, nofun, hrest⟩
  simp only [continueWrite, raceInput_eq hr, hne, hgoes, if_true, if_false, writeBlock]

/-- A BLOCK-mode write of a block or more passes an empty buffer by (42 R208). -/
theorem turnEmits_through (hgoes : ¬goesDirect input false s = true) (hthrough : passesThrough input s = true)
    (hmode : s.writer.wmode = .buffered) (hpieces : writePieces s.params s.writer input = u :: us) :
    u ≠ [] ∧ TurnEmits s (continueWrite emit input absorbed false s) emit u us := by
  obtain ⟨hblock, hempty, hlen⟩ := passesThrough_iff.1 hthrough
  have hne : input ≠ [] := by rintro rfl; simp at hlen
  have hsame : { s.writer with ibuf := [] } = s.writer := by rw [← hempty]
  rw [writePieces_of_le hmode hbuf (by omega) (.inl hblock), List.cons.injEq, hsame, hempty, List.nil_append] at hpieces
  obtain ⟨rfl, hrest⟩ := hpieces
  refine ⟨by simp [hne], input.drop Config.maxBlockSize, absorbed, (input.take Config.maxBlockSize).length, false, s, ?_,
    .refl s, hr, ht, hbuf, fun _ => hmode, hrest⟩
  simp only [continueWrite, raceInput_eq hr, hne, hgoes, hthrough, if_true, if_false, writeBlock]
  rfl

/-- A buffer that becomes full is emptied and emitted (42 R208, R209). -/
theorem turnEmits_fill (hgoes : ¬goesDirect input false s = true) (hthrough : ¬passesThrough input s = true)
    (hmode : s.writer.wmode = .buffered) (hpieces : writePieces s.params s.writer input = u :: us) :
    u ≠ [] ∧ TurnEmits s (continueWrite emit input absorbed false s) emit u us := by
  have hlen : 65536 ≤ s.writer.ibuf.length + input.length := by
    by_contra hlt
    rw [writePieces_of_lt hmode (by omega)] at hpieces
    exact nomatch hpieces
  have hne : input ≠ [] := by rintro rfl; simp at hlen; omega
  have hwhole : s.params.largeWriteMode = .block ∨ s.writer.ibuf ≠ [] ∨ input.length ≤ 65536 := by
    rw [goesDirect_iff] at hgoes
    cases hp : s.params.largeWriteMode with
    | block => exact .inl rfl
    | wholePiece =>
      by_contra hno
      exact hgoes (.inr ⟨hp, by tauto, by simp only [not_or] at hno; omega⟩)
  have hk : min input.length (Config.maxBlockSize - s.writer.ibuf.length) = 65536 - s.writer.ibuf.length := by
    rw [maxBlockSize_eq]
    omega
  have hfull : (s.writer.ibuf ++ input.take (65536 - s.writer.ibuf.length)).length = Config.maxBlockSize := by
    rw [List.length_append, List.length_take, maxBlockSize_eq]
    omega
  rw [writePieces_of_le hmode hbuf hlen hwhole, List.cons.injEq] at hpieces
  obtain ⟨rfl, hrest⟩ := hpieces
  have hfills := rebuffered_setIbuf s (s.writer.ibuf ++ input.take (65536 - s.writer.ibuf.length))
  refine ⟨fun hnil => by simp [hnil, maxBlockSize_eq] at hfull, input.drop (65536 - s.writer.ibuf.length),
    absorbed + (65536 - s.writer.ibuf.length), 0, false, _, ?_, hfills.trans (rebuffered_setIbuf _ []), hr, ht, by simp,
    fun _ => hmode, hrest⟩
  simp only [continueWrite, raceInput_eq hr, hne, hgoes, hthrough, Bool.false_eq_true, if_false, fillBuffer, hk, setIbuf_writer,
    hfull, if_true]

end

/-- A turn of a WRITE that has chunks left emits the first of them (42 R207 to R210). -/
theorem WriteLeft.turnEmits {emit : List Byte → After → State → State} {s : State} {input u : List Byte} {absorbed : Nat}
    {direct : Bool} {us : List (List Byte)} (h : WriteLeft s input direct (u :: us)) :
    u ≠ [] ∧ TurnEmits s (continueWrite emit input absorbed direct s) emit u us := by
  obtain ⟨hr, ht, hbuf, hmode, hpieces⟩ := h
  cases direct with
  | true => exact turnEmits_direct hr ht hbuf rfl hpieces
  | false =>
    have hpieces : writePieces s.params s.writer input = u :: us := hpieces
    by_cases hgoes : goesDirect input false s = true
    · obtain ⟨hwhole, hempty, hlen⟩ := (goesDirect_iff.1 hgoes).resolve_left nofun
      rw [writePieces_wholePiece (hmode rfl) hwhole hempty hlen.le] at hpieces
      exact turnEmits_direct hr ht hbuf hgoes hpieces
    · by_cases hthrough : passesThrough input s = true
      · exact turnEmits_through hr ht hbuf hgoes hthrough (hmode rfl) hpieces
      · exact turnEmits_fill hr ht hbuf hgoes hthrough (hmode rfl) hpieces

end Sys2Proof.Machine
end

section
/-! SUPPORT. A WRITE, FLUSH or CLOSE with fewer answers than transfers waits on the next one (20 R70, R73; 42 R202). -/

namespace Sys2Proof.Machine

/-- The engine awaits the transfer `b`, after the sink has taken the transfers `taken` and no more; what the host sees of the
command's end is as it was (20 R70, 10 R36). -/
structure Waits (s t : State) (taken : List (List Byte)) (b : List Byte) : Prop where
  pending : ∃ p, t.ctrl = .waiting p ∧ p.bytes = b
  sinkLog : t.sinkLog = s.sinkLog ++ takenLog taken
  answers : t.answers = []
  hdr : t.writer.hdr = true
  mem : t.mem = s.mem
  result : t.result = s.result
  resultCode : t.resultCode = s.resultCode
  done : t.done = s.done

theorem Waits.waitsOn {s t : State} {taken : List (List Byte)} {b : List Byte} {i : Instr} (h : Waits s t taken b)
    (hexec : exec i s = .next t) : waitsOn i s taken b := by
  obtain ⟨⟨p, hp, hb⟩, hlog, hanswers, hhdr, hmem, hresult, hcode, hdone⟩ := h
  exact ⟨t, p, hexec, hp, hb, by simp [State.busy, hp], hlog, hanswers, hhdr, hmem, hresult, hcode, hdone⟩

theorem Rebuffered.waits {s t u : State} {taken : List (List Byte)} {b : List Byte} (h : Rebuffered s t)
    (k : Waits t u taken b) : Waits s u taken b := by
  obtain ⟨ibuf, trail, rfl⟩ := h
  exact ⟨k.pending, k.sinkLog, k.answers, k.hdr, k.mem, k.result, k.resultCode, k.done⟩

theorem ChunksTaken.waits {s t u : State} {first taken : List (List Byte)} {b : List Byte} (h : ChunksTaken s t first)
    (k : Waits t u taken b) : Waits s u (first ++ taken) b := by
  obtain ⟨table, obuf, dp, ctrl, trail, -, rfl⟩ := h
  exact ⟨k.pending, by rw [k.sinkLog, takenLog_append, List.append_assoc], k.answers, k.hdr, k.mem, k.result, k.resultCode,
    k.done⟩

/-- A chunk with fewer answers than transfers is waited on. -/
theorem takeAnswers_emitChunk_waits {s : State} (hr : s.raced = false) (ht : s.table.wf) {u : List Byte} (hu : u ≠ [])
    (after : After) {k : Nat} {b : List Byte} (hb : (chunkTransfers s.params s.writer.hdr u)[k]? = some b) :
    Waits s (takeAnswers (List.replicate k .ok) (emitChunk u after s)) ((chunkTransfers s.params s.writer.hdr u).take k) b := by
  obtain ⟨t, payload, hawaits, -, htake⟩ := takeAnswers_emitChunk_awaits hr ht hu after hb []
  rw [List.append_nil] at htake
  rw [htake]
  obtain ⟨table, obuf, dp, trail, -, rfl⟩ := hawaits
  exact ⟨⟨_, rfl, rfl⟩, rfl, rfl, rfl, rfl, rfl, rfl, rfl⟩

/-- What is left of a WRITE does not depend on the chunks taken (42 R207 to R210). -/
theorem WriteLeft.chunksTaken {s t : State} {input : List Byte} {direct : Bool} {us taken : List (List Byte)}
    (h : WriteLeft s input direct us) (k : ChunksTaken s t taken) : WriteLeft t input direct us := by
  obtain ⟨table, obuf, dp, ctrl, trail, hwf, rfl⟩ := k
  exact ⟨h.raced, hwf, h.room, h.mode, h.pieces⟩

/-- The loop of a WRITE with fewer answers than transfers waits on the next one, by induction on the chunks left. -/
theorem takeAnswers_continueWrite_waits {s : State} {input : List Byte} {direct : Bool} {us : List (List Byte)}
    (h : WriteLeft s input direct us) (absorbed : Nat) {k : Nat} {b : List Byte}
    (hb : (streamTransfers s.params s.writer.hdr us)[k]? = some b) :
    Waits s (takeAnswers (List.replicate k .ok) (continueWrite emitChunk input absorbed direct s))
      ((streamTransfers s.params s.writer.hdr us).take k) b := by
  induction us generalizing s input direct absorbed k with
  | nil => simp [streamTransfers] at hb
  | cons u us ih =>
    obtain ⟨hu, rest, absorbed', gain, direct', t, hturn, hsame, hleft⟩ := h.turnEmits (emit := emitChunk) (absorbed := absorbed)
    rw [hturn]
    refine hsame.waits ?_
    have hts : streamTransfers s.params s.writer.hdr (u :: us) =
        chunkTransfers t.params t.writer.hdr u ++ streamTransfers t.params true us := by
      obtain ⟨ibuf, trail, rfl⟩ := hsame
      rfl
    rw [hts] at hb ⊢
    by_cases hk : k < (chunkTransfers t.params t.writer.hdr u).length
    · rw [List.getElem?_append_left hk] at hb
      rw [List.take_append_of_le_length hk.le]
      exact takeAnswers_emitChunk_waits hleft.raced hleft.table hu _ hb
    · obtain ⟨j, rfl⟩ := Nat.exists_eq_add_of_le (Nat.le_of_not_lt hk)
      rw [List.getElem?_append_right (by omega), Nat.add_sub_cancel_left] at hb
      obtain ⟨t', htaken, htake⟩ := takeAnswers_emitChunk_taken hleft.raced hleft.table hu
        (.write rest absorbed' gain direct') (List.replicate j .ok)
      have hgoes := hleft.chunksTaken htaken
      have hhead : t'.params = t.params ∧ t'.writer.hdr = true := by
        obtain ⟨table, obuf, dp, ctrl, trail, -, rfl⟩ := htaken
        exact ⟨rfl, rfl⟩
      rw [← hhead.1, ← hhead.2] at hb
      have hwaits := htaken.waits (ih hgoes (absorbed' + gain) hb)
      rw [hhead.1, hhead.2] at hwaits
      rw [List.replicate_add, htake, List.take_length_add_append]
      exact hwaits

theorem IgnoresAnswers.answers_eq {f : State → State} (h : IgnoresAnswers f) (s : State) : (f s).answers = s.answers := by
  have hsame : f s = (f s).setAnswers s.answers := h s s.answers
  rw [hsame]
  rfl

theorem latchedError_live {w : Writer} (h : w.wstate = .fresh ∨ w.wstate = .streaming) : latchedError w = none := by
  rcases h with h | h <;> simp only [latchedError, h]

/-- A live writer's WRITE of a valid source range is its loop, from a start with the chunks of the whole input left. -/
theorem execWrite_eq {s : State} (hlive : s.writer.wstate = .fresh ∨ s.writer.wstate = .streaming)
    (hsrc : rangeValid s.params s.args.srcAddr s.args.srcLen.toNat = true) :
    execWrite s = .next (settle (continueWrite emitChunk s.source 0 s.writer.writesDirect s)) := by
  simp only [execWrite, writeCheck, latchedError_live hlive, hsrc, if_true]

theorem writeLeft_start {s : State} (hr : s.raced = false) (ht : s.table.wf) (hbuf : s.writer.ibuf.length < 65536) :
    WriteLeft s s.source s.writer.writesDirect (writePieces s.params s.writer s.source) := by
  refine ⟨hr, ht, hbuf, fun hd => ?_, ?_⟩
  · cases hmode : s.writer.wmode with
    | unbuffered => simp [Writer.writesDirect, hmode] at hd
    | buffered => rfl
  · cases hmode : s.writer.wmode with
    | unbuffered => simp [piecesLeft, Writer.writesDirect, writePieces, hmode]
    | buffered => simp [piecesLeft, Writer.writesDirect, hmode]

/-- Buffered bytes with fewer answers than transfers are waited on, whether FLUSH or CLOSE frames them. -/
theorem settle_emitBuffered_waits {s : State} (hr : s.raced = false) (ht : s.table.wf) (hbuf : s.writer.ibuf ≠ [])
    (after : After) {k : Nat} {b : List Byte} (hb : (chunkTransfers s.params s.writer.hdr s.writer.ibuf)[k]? = some b)
    (ha : s.answers = List.replicate k .ok) :
    Waits s (settle (emitBuffered after s)) ((chunkTransfers s.params s.writer.hdr s.writer.ibuf).take k) b := by
  have hanswers : (emitBuffered after s).answers = List.replicate k .ok :=
    ((emitChunk_ignoresAnswers _ after).answers_eq (s.setIbuf [])).trans ha
  rw [settle, hanswers]
  exact (rebuffered_setIbuf s []).waits (takeAnswers_emitChunk_waits (s := s.setIbuf []) hr ht hbuf after hb)

/-- Settles O30: a WRITE by induction on its chunks, FLUSH and CLOSE by their one chunk. -/
theorem writeWaits : Obligations.WriteWaits := by
  refine ⟨?_, ?_⟩
  · rintro s ts b k hlive hbuf hsrc ht hr rfl hb ha
    refine Waits.waitsOn ?_ (execWrite_eq hlive (rangeValid_iff.2 (.inr hsrc)))
    rw [settle, (continueWrite_ignoresAnswers _ _ _).answers_eq, ha]
    exact takeAnswers_continueWrite_waits (writeLeft_start hr ht hbuf) 0 hb
  · rintro s i ts b k hi hlive hmode hbuf ht hr rfl hb ha
    rcases hi with rfl | rfl
    · refine (settle_emitBuffered_waits hr ht hbuf .flush hb ha).waitsOn ?_
      simp [exec, execFlush, latchedError_live hlive, hmode, hbuf]
    · refine (settle_emitBuffered_waits hr ht hbuf .close hb ha).waitsOn ?_
      rcases hlive with hlive | hlive <;> simp [exec, execClose, hlive, hmode, hbuf]

end Sys2Proof.Machine
end

section
/-! SUPPORT. The command map: a word is one of the legal words or illegal, and no two words decode to one command (30 R90 to
R92). -/

namespace Sys2Proof

/-! ### The legal words -/

/-- A command word is its reserved bits over `MODE` over `OPCODE` (30 R90). -/
theorem word_fields (w : Word) : (w.extractLsb' 9 23 ++ w.extractLsb' 8 1 ++ w.extractLsb' 0 8 : BitVec 32) = w := by
  rw [BitVec.extractLsb'_append_extractLsb'_eq_extractLsb' (by decide : (9 : Nat) = 8 + 1)]
  exact (BitVec.extractLsb'_append_extractLsb'_eq_extractLsb' (by decide)).trans BitVec.extractLsb'_eq_self

theorem modeField_eq (w : Word) : w.extractLsb' 8 1 = BitVec.ofBool (w.getLsbD 8) := by
  ext i hi
  obtain rfl : i = 0 := by omega
  simp

/-- The legal words, by their fields: no reserved bit, `MODE` for INIT_WRITER only, and an opcode of the map (30 R90, R91). -/
theorem mem_legalWords_iff {w : Word} :
    w ∈ legalWords ↔ w.extractLsb' 9 23 = 0 ∧ (w.getLsbD 8 = true → w.extractLsb' 0 8 = 0x10)
      ∧ w.extractLsb' 0 8 ∈ [(0x01 : BitVec 8), 0x02, 0x10, 0x11, 0x12, 0x13, 0x14] := by
  constructor
  · intro h
    fin_cases h <;> decide
  · rintro ⟨hreserved, hmode, hopcode⟩
    have hjoin : ∀ opcode ∈ [(0x01 : BitVec 8), 0x02, 0x10, 0x11, 0x12, 0x13, 0x14], ∀ mode : Bool,
        (mode = true → opcode = 0x10) → (0 : BitVec 23) ++ BitVec.ofBool mode ++ opcode ∈ legalWords := by decide
    rw [← word_fields w, hreserved, modeField_eq]
    exact hjoin _ hopcode _ hmode

theorem decodeCommand_of_not_legal {w : Word} (h : w ∉ legalWords) : decodeCommand w = .illegal w := by
  rw [mem_legalWords_iff, not_and_or, not_and_or, Classical.not_imp] at h
  unfold decodeCommand
  rw [modeField_eq]
  rcases h with hreserved | ⟨hmode, hopcode⟩ | hopcode
  · exact if_pos hreserved
  · simp only [hmode, hopcode, BitVec.ofBool_true, if_false, ne_eq, if_true, BitVec.reduceEq, not_false_eq_true, ite_self]
  · simp only [List.mem_cons, not_or, List.not_mem_nil, not_false_eq_true, and_true] at hopcode
    simp only [hopcode, if_false, ite_self]

theorem decodeCommand_ne_illegal {w : Word} (h : w ∈ legalWords) (v : Word) : decodeCommand w ≠ .illegal v := by
  fin_cases h <;> exact nofun

/-! ### Words and their bytes -/

theorem encodeWord_injective : Function.Injective encodeWord :=
  Function.LeftInverse.injective (g := fun bs => BitVec.ofNat 32 (leValue bs)) (ofNat_leValue_leBytes 4 rfl)

/-- Encoding what a word decodes to gives the word's bytes. -/
theorem encodeInstr_decodeCommand (w : Word) : encodeInstr (decodeCommand w) = encodeWord w := by
  by_cases h : w ∈ legalWords
  · fin_cases h <;> rfl
  · rw [decodeCommand_of_not_legal h, encodeInstr]

theorem decodeCommand_injective : Function.Injective decodeCommand := fun w v h =>
  encodeWord_injective (by rw [← encodeInstr_decodeCommand w, h, encodeInstr_decodeCommand])

theorem decodeCommand_eq_illegal_iff {w v : Word} : decodeCommand w = .illegal v ↔ w ∉ legalWords ∧ v = w := by
  constructor
  · intro h
    have hw : w ∉ legalWords := fun hw => decodeCommand_ne_illegal hw v h
    rw [decodeCommand_of_not_legal hw, Instr.illegal.injEq] at h
    exact ⟨hw, h.symm⟩
  · rintro ⟨hw, rfl⟩
    exact decodeCommand_of_not_legal hw

theorem decode_encodeWord (w : Word) (rest : List Byte) :
    decode .command (encodeWord w ++ rest) = .ok (decodeCommand w) rest := by
  simp only [decode, encodeWord, takeBytes_leBytes, ofNat_leValue_leBytes 4 rfl]

/-- A well-formed command is what its own word decodes to. -/
theorem exists_word_of_command {i : Instr} (hl : i.layer = .command) (hw : i.wellFormed = true) :
    ∃ w, encodeInstr i = encodeWord w ∧ decodeCommand w = i := by
  cases i with
  | litInline | lit1 | lit2 | lit3 | lit4 | copy1 | copy2 | copy4
  | chunkStreamId | chunkCompressed | chunkUncompressed => simp [Instr.layer] at hl
  | illegal w => exact ⟨w, rfl, decodeCommand_of_not_legal (by simpa [Instr.wellFormed] using hw)⟩
  | initWriter mode => cases mode <;> exact ⟨_, rfl, rfl⟩
  | encode | maxlen | write | flush | close | resetStream => exact ⟨_, rfl, rfl⟩

/-! ### The statements -/

/-- Settles O1, layer by layer: a command by its word, an element by its tag, a chunk by its type. -/
theorem decodeEncodeAgree : Obligations.DecodeEncodeAgree := by
  intro i rest hw
  cases hl : i.layer with
  | command =>
    obtain ⟨w, hbytes, hdecode⟩ := exists_word_of_command hl hw
    rw [hbytes, decode_encodeWord, hdecode]
  | element => exact decodeElement_encodeInstr hl hw rest
  | chunk => exact decodeChunk_encodeInstr hl hw rest

/-- A mask of all ones leaves one word (30 R91). -/
theorem decodeCommand_eq_iff_match (w v : Word) : decodeCommand w = decodeCommand v ↔ w &&& 0xFFFFFFFF = v := by
  have hmask : w &&& 0xFFFFFFFF = w := BitVec.and_allOnes
  rw [hmask, decodeCommand_injective.eq_iff]

/-- The mask of INIT_WRITER leaves its two words, told apart by bit 8 (30 R90, R91). -/
theorem decodeCommand_eq_initWriter_iff (w : Word) (mode : WriterMode) :
    decodeCommand w = .initWriter mode ↔
      w &&& 0xFFFFFEFF = 0x00000010 ∧ mode = (if w.getLsbD 8 then .buffered else .unbuffered) := by
  constructor
  · intro h
    cases mode with
    | unbuffered => obtain rfl : w = 0x010 := (decodeCommand_injective.eq_iff' rfl).1 h; decide
    | buffered => obtain rfl : w = 0x110 := (decodeCommand_injective.eq_iff' rfl).1 h; decide
  · rintro ⟨hmatch, rfl⟩
    have hbit : w &&& 0x00000100 = if w.getLsbD 8 then 0x00000100 else 0 := BitVec.and_twoPow w 8
    have hsplit : w = w &&& 0xFFFFFEFF ||| w &&& 0x00000100 := by
      rw [← BitVec.and_or_distrib_left]
      exact BitVec.and_allOnes.symm
    rw [hmatch, hbit] at hsplit
    cases hb : w.getLsbD 8 <;> rw [hb] at hsplit <;> rw [hsplit] <;> rfl

/-- Settles O2: no two words decode to one command, so each command has the words of its match and mask only. -/
theorem commandMapExact : Obligations.CommandMapExact := fun w =>
  ⟨decodeCommand_eq_iff_match w 0x001, decodeCommand_eq_iff_match w 0x002, decodeCommand_eq_initWriter_iff w,
    decodeCommand_eq_iff_match w 0x011, decodeCommand_eq_iff_match w 0x012, decodeCommand_eq_iff_match w 0x013,
    decodeCommand_eq_iff_match w 0x014⟩

/-- Settles O3: the illegal words are those that are not legal, told by their fields. -/
theorem illegalWordFinishes : Obligations.IllegalWordFinishes := by
  refine ⟨fun w => ?_, fun w v h => (decodeCommand_eq_illegal_iff.1 h).2, fun _ _ => rfl⟩
  rw [decodeCommand_eq_illegal_iff, mem_legalWords_iff]
  simp only [and_true, not_and_or, Classical.not_imp, ne_eq]

/-- Settles O4, by evaluating the decoders. -/
theorem specWordsDecode : Obligations.SpecWordsDecode := by
  unfold Obligations.SpecWordsDecode
  decide

end Sys2Proof
end

section
/-! SUPPORT. Every step keeps the machine's invariant: memory and table in canonical form, `OBUF` within its capacity, and what
holds of the writer and of the matcher in each control state (10 R31, R41, R43, R44). -/

namespace Sys2Proof.Machine

/-! ### The invariant without the control state -/

/-- What the machine's invariant says whatever the control state is. -/
def DataInv (s : State) : Prop :=
  s.mem.wf ∧ s.table.wf ∧ s.obuf.length ≤ Config.obufCapacity ∧ WriterInv s.writer

theorem DataInv.mem {s : State} (h : DataInv s) : s.mem.wf := h.1

theorem DataInv.table {s : State} (h : DataInv s) : s.table.wf := h.2.1

theorem DataInv.obuf {s : State} (h : DataInv s) : s.obuf.length ≤ Config.obufCapacity := h.2.2.1

theorem DataInv.writer {s : State} (h : DataInv s) : WriterInv s.writer := h.2.2.2

theorem MachineInv.data {s : State} (h : MachineInv s) : DataInv s := ⟨h.1, h.2.1, h.2.2.1, h.2.2.2.1⟩

theorem MachineInv.ctrl {s : State} (h : MachineInv s) {c : Ctrl} (hc : s.ctrl = c) : CtrlInv s.writer c := hc ▸ h.2.2.2.2.1

theorem MachineInv.run {s : State} (h : MachineInv s) : RunInv s := h.2.2.2.2.2

/-- Where no matcher runs, the invariant is that of the data and of the control state. -/
theorem DataInv.machineInv {s : State} (h : DataInv s) (hctrl : CtrlInv s.writer s.ctrl)
    (hrun : ∀ e, s.ctrl.progress = some e → e.run = none) : MachineInv s :=
  ⟨h.mem, h.table, h.obuf, h.writer, hctrl, fun e r he hr => by simp [hrun e he] at hr⟩

theorem DataInv.setWriter {s : State} (h : DataInv s) {w : Writer} (hw : WriterInv w) : DataInv (s.setWriter w) :=
  ⟨h.mem, h.table, h.obuf, hw⟩

theorem DataInv.logSink {s : State} (h : DataInv s) (e : SinkEvent) : DataInv (s.logSink e) :=
  ⟨h.mem, h.table, h.obuf, h.writer⟩

/-! ### The writer -/

section
variable {w : Writer} (h : WriterInv w)
include h

theorem WriterInv.setHdr : WriterInv { w with hdr := true } := by
  obtain ⟨hmode, hlen, -, herr, hok⟩ := h
  exact ⟨hmode, hlen, fun _ => rfl, fun he => ⟨rfl, (herr he).2⟩, hok⟩

theorem WriterInv.clearIbuf : WriterInv { w with ibuf := [] } := by
  obtain ⟨-, -, hstr, herr, hok⟩ := h
  exact ⟨fun _ => rfl, Nat.zero_lt_succ _, hstr, herr, hok⟩

theorem WriterInv.setIbuf (hmode : w.wmode = .buffered) {v : List Byte} (hv : v.length < Config.maxBlockSize) :
    WriterInv { w with ibuf := v } := by
  obtain ⟨-, -, hstr, herr, hok⟩ := h
  exact ⟨fun hm => (by simp [hmode] at hm), hv, hstr, herr, hok⟩

theorem WriterInv.setStreaming (hlive : w.live) (hhdr : w.hdr = true) : WriterInv { w with wstate := .streaming } := by
  obtain ⟨hmode, hlen, -, -, hok⟩ := h
  exact ⟨hmode, hlen, fun _ => hhdr, nofun, fun _ => hok hlive⟩

theorem WriterInv.setErrored (hhdr : w.hdr = true) {code : Word} (hcode : code ≠ 0) :
    WriterInv { w with wstate := .errored, sinkErr := code } := by
  obtain ⟨hmode, hlen, -, -, -⟩ := h
  exact ⟨hmode, hlen, nofun, fun _ => ⟨hhdr, hcode⟩, by simp⟩

theorem WriterInv.setClosed : WriterInv { w with wstate := .closed } := by
  obtain ⟨hmode, hlen, -, -, -⟩ := h
  exact ⟨hmode, hlen, nofun, nofun, by simp⟩

end

/-- A Fresh writer with nothing buffered, as INIT_WRITER, RESET_STREAM and hardware reset leave it (10 R49, 42 R206, R216). -/
theorem writerInv_fresh (mode : WriterMode) : WriterInv ⟨.fresh, mode, false, [], 0⟩ :=
  ⟨fun _ => rfl, Nat.zero_lt_succ _, nofun, nofun, fun _ => rfl⟩

/-! ### Completion and the offer of a transfer -/

theorem finish_machineInv {s : State} (hs : DataInv s) (hfresh : s.writer.wstate = .fresh → s.writer.hdr = false)
    (code : ResultCode) (r : Word) : MachineInv (finish code r s) :=
  DataInv.machineInv ⟨hs.mem, hs.table, hs.obuf, hs.writer⟩ hfresh nofun

theorem finishData_machineInv {s : State} (hs : DataInv s) (hfresh : s.writer.wstate = .fresh → s.writer.hdr = false)
    (code : ResultCode) (n : Nat) : MachineInv (finishData code n s) := by
  obtain ⟨r, k, h⟩ := finishData_cases code n s
  rw [h]
  exact finish_machineInv (s := { s with draws := k }) ⟨hs.mem, hs.table, hs.obuf, hs.writer⟩ hfresh code r

/-- A transfer offered is one that may be sent: nonempty, `HDR` set, the buffer emptied (20 R70, 42 R202). -/
theorem offer_machineInv {s : State} (hs : DataInv s) {bytes : List Byte} {after : After}
    (hc : CtrlInv s.writer (.sending bytes after)) (payload : List Byte) : MachineInv (offer bytes payload after s) := by
  obtain ⟨b, k, h, hb⟩ := offer_cases bytes payload after s
  obtain ⟨hlive, hhdr, hibuf, hbytes, hafter⟩ := hc
  have hne : b ≠ [] := hb.elim (fun heq => heq ▸ hbytes) And.right
  rw [h]
  exact DataInv.machineInv ⟨hs.mem, hs.table, hs.obuf, hs.writer⟩ ⟨hlive, hhdr, hibuf, hne, hafter⟩ nofun

/-! ### A chunk -/

/-- The first transfer of a staged chunk is not empty, whatever encoding it was framed from. -/
theorem emitFramed_machineInv {s : State} (hs : DataInv s) {u : List Byte} {after : After} {e : EncodeProgress}
    (hc : CtrlInv s.writer (.framing u after e)) {x : Encoded} (hx : x.table.wf) :
    MachineInv (emitFramed u (frameEncoded u x) after s) := by
  obtain ⟨hlive, -, hibuf, hu, hafter⟩ := hc
  obtain ⟨hcap, hlen, hraw⟩ := stagedBytes_length hu x s
  have hstaged : DataInv (stageChunk (frameEncoded u x) s) := ⟨hs.mem, hx, hcap, hs.writer.setHdr⟩
  have hsend : ∀ bytes : List Byte, 0 < bytes.length →
      CtrlInv (stageChunk (frameEncoded u x) s).writer (.sending bytes after) :=
    fun bytes hpos => ⟨hlive, rfl, hibuf, List.ne_nil_of_length_pos hpos, hafter⟩
  unfold emitFramed
  simp only
  split
  · rename_i hsplit
    have hlong := hraw (Bool.and_eq_true_iff.1 hsplit).2
    refine offer_machineInv hstaged (hsend _ ?_) u
    simp only [stageChunk, List.length_take]
    omega
  · refine offer_machineInv hstaged (hsend _ ?_) []
    simp only [stageChunk]
    omega

/-- A way to emit chunks that keeps the invariant, from where a chunk can be framed. -/
abbrev EmitInv (emit : List Byte → After → State → State) : Prop :=
  ∀ {u after s}, DataInv s → (∀ e, CtrlInv s.writer (.framing u after e)) → MachineInv (emit u after s)

theorem emitChunk_machineInv : EmitInv emitChunk := fun {u _ s} hs hc =>
  emitFramed_machineInv hs (hc (beginEncoder u s.table s.dp).progress) (encodeSrc_wf s.params.tableSizeRule u hs.table s.dp)

theorem beginChunk_machineInv : EmitInv beginChunk := fun hs hc =>
  DataInv.machineInv ⟨hs.mem, hs.table, hs.obuf, hs.writer⟩ (hc _) fun e he => by cases he; rfl

/-! ### The loop of a WRITE -/

theorem raceInput_cases (p : List Byte) (s : State) : ∃ k, (raceInput p s).2 = { s with draws := k } := by
  unfold raceInput
  split
  · exact ⟨_, rfl⟩
  · exact ⟨s.draws, rfl⟩

section
variable {emit : List Byte → After → State → State} (he : EmitInv emit) {s : State} (hs : DataInv s)
include he hs

/-- A buffer that does not become full keeps its bytes; a full one is emptied before it is framed (42 R208, R209). -/
theorem fillBuffer_machineInv (hlive : s.writer.live) (hfresh : s.writer.wstate = .fresh → s.writer.hdr = false)
    (hmode : s.writer.wmode = .buffered) (p : List Byte) (absorbed : Nat) : MachineInv (fillBuffer emit p absorbed s) := by
  obtain ⟨-, hbuf, -⟩ := hs.writer
  have hlen : (s.writer.ibuf ++ p.take (min p.length (Config.maxBlockSize - s.writer.ibuf.length))).length
      ≤ Config.maxBlockSize := by
    rw [List.length_append, List.length_take]
    omega
  unfold fillBuffer
  simp only
  generalize min p.length (Config.maxBlockSize - s.writer.ibuf.length) = k at hlen ⊢
  split
  · have hcleared : DataInv ((s.setIbuf (s.writer.ibuf ++ p.take k)).setIbuf []) :=
      ⟨hs.mem, hs.table, hs.obuf, hs.writer.clearIbuf⟩
    have hafter : AfterInv s.writer (.write (p.drop k) (absorbed + k) 0 false) := fun _ => hmode
    exact he hcleared fun _ => ⟨hlive, hfresh, rfl, hlen, hafter⟩
  · rename_i hfull
    exact finishData_machineInv (hs.setWriter (hs.writer.setIbuf hmode (Nat.lt_of_le_of_ne hlen hfull))) hfresh ..

/-- A turn of a WRITE ends it, or emits a chunk with nothing left in the buffer (42 R207 to R210). -/
theorem continueWrite_machineInv {input : List Byte} {absorbed n gain : Nat} {direct : Bool}
    (hc : CtrlInv s.writer (.resuming (.write input absorbed gain direct))) :
    MachineInv (continueWrite emit input n direct s) := by
  obtain ⟨hlive, hfresh, hafter, hresume⟩ := hc
  obtain ⟨k, hk⟩ := raceInput_cases input s
  have hs' : DataInv { s with draws := k } := ⟨hs.mem, hs.table, hs.obuf, hs.writer⟩
  have hblock : ∀ (p : List Byte) (d : Bool), s.writer.ibuf = [] → (d = false → s.writer.wmode = .buffered) →
      MachineInv (writeBlock emit p n d { s with draws := k }) := fun p d hibuf hmode =>
    he hs' fun _ => ⟨hlive, hfresh, hibuf, by simp, hmode⟩
  unfold continueWrite
  rw [hk]
  generalize (raceInput input s).1 = p
  simp only
  split
  · exact finishData_machineInv hs' hfresh ..
  · split
    · rename_i hdirect
      exact hblock p true ((goesDirect_iff.1 hdirect).elim hresume fun h => h.2.1) nofun
    · rename_i hdirect
      have hmode : s.writer.wmode = .buffered := hafter (by cases direct <;> simp_all [goesDirect])
      split
      · rename_i hthrough
        exact hblock p false (passesThrough_iff.1 hthrough).2.1 fun _ => hmode
      · exact fillBuffer_machineInv he hs' hlive hfresh hmode p n

theorem afterOk_machineInv {after : After} (hc : CtrlInv s.writer (.resuming after)) : MachineInv (afterOk emit after s) := by
  cases after with
  | write rest absorbed gain direct => exact continueWrite_machineInv he hs hc
  | flush => exact finish_machineInv hs hc.2.1 ..
  | close => exact finish_machineInv (hs.setWriter hs.writer.setClosed) nofun ..

end

theorem afterErr_machineInv {s : State} (hs : DataInv s) (hfresh : s.writer.wstate ≠ .fresh) (after : After) :
    MachineInv (afterErr after s) := by
  cases after with
  | write rest absorbed gain direct => exact finishData_machineInv hs (fun h => absurd h hfresh) ..
  | flush => exact finish_machineInv hs (fun h => absurd h hfresh) ..
  | close => exact finish_machineInv (hs.setWriter hs.writer.setClosed) nofun ..

/-! ### The sink's answers -/

section
variable {s : State} (hs : DataInv s) {p : Pending} (hc : CtrlInv s.writer (.waiting p))
include hs hc

/-- Once a chunk is taken, the writer is Streaming and its command goes on. -/
theorem chunkTaken_resumes (e : SinkEvent) : DataInv ((s.logSink e).setWState .streaming)
    ∧ CtrlInv ((s.logSink e).setWState .streaming).writer (.resuming p.after) := by
  obtain ⟨hlive, hhdr, hibuf, -, hafter⟩ := hc
  refine ⟨(hs.logSink e).setWriter (hs.writer.setStreaming hlive hhdr), .inr rfl, nofun, ?_, ?_⟩
  · revert hafter
    cases p.after <;> exact id
  · cases p.after with
    | write rest absorbed gain direct => exact fun _ => hibuf
    | flush => trivial
    | close => trivial

omit hs in
/-- The payload of a split chunk may be sent. -/
theorem payload_sends (hp : p.payload ≠ []) : CtrlInv s.writer (.sending p.payload p.after) := by
  obtain ⟨hlive, hhdr, hibuf, -, hafter⟩ := hc
  exact ⟨hlive, hhdr, hibuf, hp, hafter⟩

theorem takeAnswer_machineInv (a : SinkAnswer) : MachineInv (takeAnswer a p s) := by
  cases a with
  | ok =>
    simp only [takeAnswer]
    split
    · obtain ⟨hs', hc'⟩ := chunkTaken_resumes hs hc (.transfer p.bytes (.answered .ok))
      exact afterOk_machineInv emitChunk_machineInv hs' hc'
    · exact offer_machineInv (hs.logSink _) (payload_sends hc (by assumption)) []
  | err code consumed =>
    obtain ⟨-, hhdr, -⟩ := hc
    let logged := s.logSink (.transfer p.bytes (.answered (.err code consumed)))
    have hs' : DataInv ((logged.setWState .errored).setSinkErr code.val) :=
      ⟨hs.mem, hs.table, hs.obuf, hs.writer.setErrored hhdr code.nonzero⟩
    exact afterErr_machineInv hs' nofun p.after

theorem noteAnswer_machineInv (a : SinkAnswer) : MachineInv (noteAnswer a p s) := by
  cases a with
  | ok =>
    simp only [noteAnswer]
    split
    · obtain ⟨hs', hc'⟩ := chunkTaken_resumes hs hc (.transfer p.bytes (.answered .ok))
      exact DataInv.machineInv ⟨hs'.mem, hs'.table, hs'.obuf, hs'.writer⟩ hc' nofun
    · exact DataInv.machineInv ⟨hs.mem, hs.table, hs.obuf, hs.writer⟩ (payload_sends hc (by assumption)) nofun
  | err code consumed => exact takeAnswer_machineInv hs hc (.err code consumed)

end

theorem takeAnswers_machineInv (as : List SinkAnswer) {s : State} (h : MachineInv s) : MachineInv (takeAnswers as s) := by
  induction as generalizing s with
  | nil => exact h
  | cons a as ih =>
    by_cases hp : ∃ p, s.ctrl = .waiting p
    · obtain ⟨p, hp⟩ := hp
      rw [takeAnswers_awaiting hp]
      exact ih (takeAnswer_machineInv h.data (h.ctrl hp) a)
    · rw [takeAnswers_of_not_awaiting (not_exists.1 hp)]
      exact h

theorem settle_machineInv {s : State} (h : MachineInv s) : MachineInv (settle s) := takeAnswers_machineInv s.answers h

/-! ### The commands -/

theorem storeEncoded_mem_wf (e : Encoded) {s : State} (h : s.mem.wf) : (storeEncoded e s).mem.wf := by
  obtain ⟨bs, k1, hstore, -⟩ := storeOutput_cases (s.setInternals e.table e.dp) e.bytes
  obtain ⟨m, k2, hraced, hwf, -⟩ := drawRacedBytes_cases ((s.setInternals e.table e.dp).storeOutput e.bytes) s.racedBytes
  obtain ⟨r, k3, hfinish⟩ := finishData_cases .ok e.bytes.length
    (((s.setInternals e.table e.dp).storeOutput e.bytes).drawRacedBytes s.racedBytes)
  rw [storeEncoded, hfinish, hraced]
  rw [hstore] at hwf
  exact hwf (memWrite_wf h ..)

/-- A new stream on the sink port, and a Fresh writer for it. -/
def freshStream (mode : WriterMode) (trail : List WriterView) (s : State) : State :=
  { s with writer := ⟨.fresh, mode, false, [], 0⟩, sinkLog := s.sinkLog ++ [.newStream], trail := trail }

theorem execInitWriter_eq (mode : WriterMode) (s : State) :
    ∃ trail, exec (.initWriter mode) s = .next (finish .ok 0 (freshStream mode trail s)) := by
  simp only [exec, execInitWriter, State.setSinkErr, State.setIbuf, State.setHdr, State.setWMode, State.setWState,
    State.setWriter, State.logSink]
  exact ⟨_, rfl⟩

theorem execResetStream_eq (s : State) :
    ∃ trail, exec .resetStream s = .next (finish .ok 0 (freshStream s.writer.wmode trail s)) := ⟨_, rfl⟩

/-- Where the latched-state short-circuit lets a command pass, the writer takes data (42 R214). -/
theorem live_of_latchedError {w : Writer} (h : latchedError w = none) : w.live := by
  unfold latchedError at h
  split at h
  · exact nomatch h
  · exact nomatch h
  · exact .inl (by assumption)
  · exact .inr (by assumption)

theorem live_of_writeCheck {s : State} (h : writeCheck s = none) : s.writer.live := by
  refine live_of_latchedError ?_
  unfold writeCheck at h
  split at h
  · exact nomatch h
  · assumption

theorem execMaxlen_cases {s t : State} (h : execMaxlen s = .next t) : ∃ r, t = finish .ok r s := by
  unfold execMaxlen at h
  split at h <;> cases h
  · exact ⟨_, rfl⟩
  · exact ⟨_, rfl⟩

/-- FLUSH ends at once, or frames the bytes a live writer has buffered (42 R212). -/
theorem execFlush_cases {s t : State} (h : execFlush s = .next t) :
    (∃ code, t = finish code 0 s)
      ∨ s.writer.live ∧ s.writer.wmode = .buffered ∧ t = settle (emitBuffered .flush s) := by
  unfold execFlush at h
  split at h
  · cases h
    exact .inl ⟨_, rfl⟩
  · rename_i hlatched
    split at h <;> cases h
    · exact .inl ⟨_, rfl⟩
    · rename_i hframes
      refine .inr ⟨live_of_latchedError hlatched, ?_, rfl⟩
      cases hm : s.writer.wmode with
      | unbuffered => exact absurd (.inl hm) hframes
      | buffered => rfl

/-- CLOSE ends at once, on a Closed writer without a change of its state, or frames the bytes a live writer has buffered
(42 R213). -/
theorem execClose_cases {s t : State} (h : execClose s = .next t) :
    (∃ code, t = finish code 0 s) ∨ (∃ code, t = finish code 0 (s.setWState .closed))
      ∨ s.writer.live ∧ s.writer.wmode = .buffered ∧ t = settle (emitBuffered .close s) := by
  unfold execClose at h
  split at h
  · cases h
    exact .inl ⟨_, rfl⟩
  · cases h
    exact .inr (.inl ⟨_, rfl⟩)
  all_goals
    rename_i hstate
    split at h <;> cases h
    · rename_i hframes
      exact .inr (.inr ⟨by simp [Writer.live, hstate], hframes.1, rfl⟩)
    · exact .inr (.inl ⟨_, rfl⟩)

section
variable {s : State} (hs : DataInv s) (hfresh : s.writer.wstate = .fresh → s.writer.hdr = false)
include hs hfresh

theorem storeEncoded_machineInv {e : Encoded} (he : e.table.wf) : MachineInv (storeEncoded e s) := by
  have hmem := storeEncoded_mem_wf e hs.mem
  obtain ⟨m, k, r, h⟩ := storeEncoded_cases e s
  rw [h] at hmem ⊢
  exact finish_machineInv (s := { s with table := e.table, dp := e.dp, mem := m, draws := k })
    ⟨hmem, he, hs.obuf, hs.writer⟩ hfresh .ok r

/-- A WRITE that passes its checks may begin its loop (42 R207). -/
theorem writeCheck_resumes (h : writeCheck s = none) :
    CtrlInv s.writer (.resuming (.write s.source 0 0 s.writer.writesDirect)) := by
  obtain ⟨hmode, -⟩ := hs.writer
  refine ⟨live_of_writeCheck h, hfresh, fun hdirect => ?_, fun hdirect => ?_⟩
  · have hne : s.writer.wmode ≠ .unbuffered := by simpa [Writer.writesDirect] using hdirect
    cases hm : s.writer.wmode with
    | unbuffered => exact absurd hm hne
    | buffered => rfl
  · exact hmode (by simpa [Writer.writesDirect] using hdirect)

/-- The buffered bytes, taken out of the buffer, may be framed (42 R212, R213). -/
theorem buffer_frames {after : After} (hlive : s.writer.live) (hafter : AfterInv s.writer after) :
    DataInv (s.setIbuf []) ∧ ∀ e, CtrlInv (s.setIbuf []).writer (.framing s.writer.ibuf after e) := by
  obtain ⟨-, hbuf, -⟩ := hs.writer
  refine ⟨hs.setWriter hs.writer.clearIbuf, fun _ => ⟨hlive, hfresh, rfl, hbuf.le, ?_⟩⟩
  revert hafter
  cases after <;> exact id

theorem emitBuffered_machineInv {after : After} (hlive : s.writer.live) (hafter : AfterInv s.writer after) :
    MachineInv (emitBuffered after s) := by
  obtain ⟨hs', hc⟩ := buffer_frames hs hfresh hlive hafter
  exact emitChunk_machineInv hs' hc

theorem execWrite_machineInv {t : State} (h : execWrite s = .next t) : MachineInv t := by
  unfold execWrite at h
  split at h <;> cases h
  · exact finishData_machineInv hs hfresh ..
  · exact settle_machineInv (continueWrite_machineInv emitChunk_machineInv hs (writeCheck_resumes hs hfresh (by assumption)))

theorem execFlush_machineInv {t : State} (h : execFlush s = .next t) : MachineInv t := by
  rcases execFlush_cases h with ⟨code, rfl⟩ | ⟨hlive, hmode, rfl⟩
  · exact finish_machineInv hs hfresh ..
  · exact settle_machineInv (emitBuffered_machineInv hs hfresh hlive hmode)

theorem execClose_machineInv {t : State} (h : execClose s = .next t) : MachineInv t := by
  rcases execClose_cases h with ⟨code, rfl⟩ | ⟨code, rfl⟩ | ⟨hlive, hmode, rfl⟩
  · exact finish_machineInv hs hfresh ..
  · exact finish_machineInv (hs.setWriter hs.writer.setClosed) nofun ..
  · exact settle_machineInv (emitBuffered_machineInv hs hfresh hlive hmode)

/-- A command, from its acceptance, keeps the invariant. -/
theorem exec_machineInv {i : Instr} (hl : i.layer = .command) {t : State} (h : exec i s = .next t) : MachineInv t := by
  cases i with
  | litInline | lit1 | lit2 | lit3 | lit4 | copy1 | copy2 | copy4
  | chunkStreamId | chunkCompressed | chunkUncompressed => simp [Instr.layer] at hl
  | encode =>
    rcases execEncode_cases h with ⟨code, -, rfl⟩ | ⟨-, rfl⟩
    · exact finishData_machineInv hs hfresh ..
    · exact storeEncoded_machineInv hs hfresh (encodeSrc_wf s.params.tableSizeRule s.source hs.table s.dp)
  | maxlen =>
    obtain ⟨r, rfl⟩ := execMaxlen_cases h
    exact finish_machineInv hs hfresh ..
  | initWriter mode =>
    obtain ⟨trail, heq⟩ := execInitWriter_eq mode s
    cases heq.symm.trans h
    exact finish_machineInv (s := freshStream mode trail s) ⟨hs.mem, hs.table, hs.obuf, writerInv_fresh mode⟩ (fun _ => rfl) ..
  | write => exact execWrite_machineInv hs hfresh h
  | flush => exact execFlush_machineInv hs hfresh h
  | close => exact execClose_machineInv hs hfresh h
  | resetStream =>
    obtain ⟨trail, heq⟩ := execResetStream_eq s
    cases heq.symm.trans h
    exact finish_machineInv (s := freshStream _ trail s) ⟨hs.mem, hs.table, hs.obuf, writerInv_fresh _⟩ (fun _ => rfl) ..
  | illegal w =>
    cases h
    exact finish_machineInv hs hfresh ..

end

/-! ### The engine's steps -/

/-- The table shows the matcher run in progress, if there is one (10 R41). -/
theorem MachineInv.table_eq_run {s : State} (h : MachineInv s) {e : EncodeProgress} (he : s.ctrl.progress = some e) (r : Run)
    (hr : e.run = some r) : s.table = r.matcher.table := (h.run e r he hr).1

theorem advance_machineInv {s : State} (h : MachineInv s) : MachineInv (advance s) := by
  have hend : ∀ e, s.ctrl.progress = some e → (finishEncoder s.params.tableSizeRule ⟨e, s.table, s.dp⟩).table.wf :=
    fun e he => finishEncoder_wf _ h.data.table (h.table_eq_run he)
  unfold advance
  split
  · rename_i e hc
    exact storeEncoded_machineInv h.data (h.ctrl hc) (hend e (by rw [hc]; rfl))
  · rename_i u after e hc
    exact emitFramed_machineInv h.data (h.ctrl hc) (hend e (by rw [hc]; rfl))
  · exact offer_machineInv h.data (h.ctrl (by assumption)) []
  · exact afterOk_machineInv emitChunk_machineInv h.data (h.ctrl (by assumption))
  all_goals exact h

theorem engineStep_machineInv {s t : State} (hs : MachineInv s) (h : engineStep s = .next t) : MachineInv t := by
  rcases engineStep_cases h with ⟨-, rfl⟩ | ⟨hc, h⟩ | ⟨-, -, rfl⟩
  · exact hs
  · exact exec_machineInv hs.data (hs.ctrl hc) (decodeCommand_layer _) h
  · exact settle_machineInv (advance_machineInv hs)

/-- A writer with bytes to frame is a live buffered one (42 R212, R213). -/
theorem framesBuffer_live {w : Writer} (h : w.framesBuffer = true) : w.live ∧ w.wmode = .buffered := by
  simp only [Writer.framesBuffer, Bool.and_eq_true, decide_eq_true_eq] at h
  exact ⟨live_of_latchedError h.1.1, h.1.2⟩

theorem startCommand_machineInv {s t : State} (hs : MachineInv s) (hc : s.ctrl = .accepted) (h : startCommand s = .next t) :
    MachineInv t := by
  have hfresh := hs.ctrl hc
  have hbegin : ∀ after, s.writer.framesBuffer = true → AfterInv s.writer after →
      MachineInv (beginChunk s.writer.ibuf after (s.setIbuf [])) := fun after hframes hafter => by
    obtain ⟨hs', hc'⟩ := buffer_frames hs.data hfresh (framesBuffer_live hframes).1 hafter
    exact beginChunk_machineInv hs' hc'
  rcases startCommand_cases h with h | ⟨-, rfl⟩ | ⟨-, rfl⟩ | ⟨hframes, ⟨-, rfl⟩ | ⟨-, rfl⟩⟩
  · exact exec_machineInv hs.data hfresh (decodeCommand_layer _) h
  · unfold startEncode
    split
    · exact finishData_machineInv hs.data hfresh ..
    · exact DataInv.machineInv hs.data hfresh fun e he => by cases he; rfl
  · unfold startWrite
    split
    · exact finishData_machineInv hs.data hfresh ..
    · exact DataInv.machineInv hs.data (writeCheck_resumes hs.data hfresh (by assumption)) nofun
  · exact hbegin .flush hframes (framesBuffer_live hframes).2
  · exact hbegin .close hframes (framesBuffer_live hframes).2

/-- A step of the encoder keeps the invariant in the control states that hold an encoding. -/
theorem encoderStep_machineInv {s : State} (hs : MachineInv s) {e : EncodeProgress} (he : s.ctrl.progress = some e) {c : Ctrl}
    (hc : CtrlInv s.writer c) (hprogress : c.progress = some (s.encoderStep e).progress) :
    MachineInv { s.setInternals (s.encoderStep e).table (s.encoderStep e).dp with ctrl := c } := by
  obtain ⟨hmem, htable, hobuf, hwriter⟩ := hs.data
  refine ⟨hmem, stepEncoder_wf _ htable (hs.table_eq_run he), hobuf, hwriter, hc, fun e' r he' hr => ?_⟩
  rw [show c.progress = some e' from he', Option.some.injEq] at hprogress
  subst hprogress
  exact stepEncoder_run _ hr

theorem tickStep_machineInv {s t : State} (hs : MachineInv s) (h : tickStep s = .next t) : MachineInv t := by
  rcases tickStep_cases h with rfl | ⟨hc, h⟩ | ⟨e, hc, rfl⟩ | ⟨u, after, e, hc, rfl⟩ | ⟨-, -, rfl⟩ | ⟨after, hc, rfl⟩
    | ⟨p, a, rest, hc, -, rfl⟩
  · exact hs
  · exact startCommand_machineInv hs hc h
  · exact encoderStep_machineInv hs (by rw [hc]; rfl) (c := .encoding _)
      (show CtrlInv s.writer (.encoding e) from hs.ctrl hc) rfl
  · exact encoderStep_machineInv hs (by rw [hc]; rfl) (c := .framing u after _)
      (show CtrlInv s.writer (.framing u after e) from hs.ctrl hc) rfl
  · exact advance_machineInv hs
  · exact afterOk_machineInv beginChunk_machineInv hs.data (hs.ctrl hc)
  · exact noteAnswer_machineInv (s := { s with answers := rest }) hs.data (hs.ctrl hc) a

/-! ### The host's steps and hardware reset -/

theorem csrStoreValue_machineInv {s : State} (h : MachineInv s) (offset : Nat) (w : Word) :
    MachineInv (csrStoreValue offset w s) := by
  unfold csrStoreValue
  repeat' split
  all_goals exact h

theorem csrStore_machineInv {addr : Word} {width : AccessWidth} {w : Word} {s t : State} (hs : MachineInv s)
    (h : csrStore addr width w s = .next t) : MachineInv t := by
  rcases csrStore_cases h with rfl | rfl | h | ⟨-, rfl⟩
  · exact hs
  · exact hs
  · rcases cmdStore_cases h with ⟨-, rfl⟩ | ⟨hidle, rfl | rfl⟩
    · exact hs
    all_goals
      have hfresh := hs.ctrl (by simpa [State.busy] using hidle : s.ctrl = .idle)
    · exact DataInv.machineInv (s := accept w s) hs.data hfresh nofun
    · exact finish_machineInv (s := accept w s) hs.data hfresh ..
  · exact csrStoreValue_machineInv hs ..

theorem storeHostByte_machineInv {s : State} (hs : MachineInv s) (addr : Word) (b : Byte) :
    MachineInv (storeHostByte addr b s) := by
  obtain ⟨v, rm, rb, k, h, -⟩ := storeHostByte_cases addr b s
  obtain ⟨hmem, hrest⟩ := hs
  rw [h]
  exact ⟨memPut_wf hmem _ _, hrest⟩

/-- A race leaves a pending transfer pending, and not empty (20 R70, 70 R270). -/
theorem markRace_machineInv {s : State} (hs : MachineInv s) : MachineInv (markRace s) := by
  obtain ⟨c, k, log, h, -, hc⟩ := markRace_cases s
  rw [h]
  rcases hc with rfl | ⟨p, b, hp, rfl, hb⟩
  · exact hs
  · obtain ⟨hlive, hhdr, hibuf, -, hafter⟩ := hs.ctrl hp
    exact DataInv.machineInv hs.data ⟨hlive, hhdr, hibuf, hb, hafter⟩ nofun

theorem hostStep_machineInv {op : HostOp} {s t : State} (hs : MachineInv s) (h : hostStep op s = .next t) : MachineInv t := by
  cases op with
  | csrLoad addr width =>
    obtain ⟨v, m, k, heq, -⟩ := csrLoad_cases addr width s
    cases h
    rw [heq]
    exact hs
  | csrStore addr width w => exact csrStore_machineInv hs h
  | memLoad addr =>
    rcases memLoad_cases h with ⟨-, rfl⟩ | ⟨-, v, k, rfl⟩
    · exact hs
    · exact hs
  | memStore addr b =>
    rcases memStore_cases h with ⟨-, rfl⟩ | ⟨-, rfl | rfl⟩
    · exact hs
    · exact storeHostByte_machineInv hs addr b
    · exact markRace_machineInv (storeHostByte_machineInv hs addr b)

theorem hardReset_machineInv {s : State} (hs : MachineInv s) (d : ResetDraw) : MachineInv (hardReset d s) := by
  obtain ⟨m, log, as, k, h, hwf⟩ := hardReset_cases d s
  rw [h]
  exact DataInv.machineInv ⟨hwf hs.data.mem, reset_table_wf, Nat.zero_le _, writerInv_fresh _⟩ (fun _ => rfl) nofun

/-! ### Every step -/

theorem runEvent_machineInv {e : Event} {s t : State} (hs : MachineInv s) (h : runEvent e s = .next t) : MachineInv t := by
  rcases runEvent_cases h with ⟨op, -, h⟩ | ⟨-, h⟩ | ⟨-, h⟩ | ⟨a, -, rfl⟩ | ⟨d, -, rfl⟩ | ⟨m, bs, -, h⟩ | ⟨-, h⟩
  · exact hostStep_machineInv hs h
  · exact engineStep_machineInv hs h
  · exact tickStep_machineInv hs h
  · exact hs
  · exact hardReset_machineInv hs d
  · obtain ⟨r, rfl⟩ := openReader_cases h
    exact hs
  · obtain ⟨r, rfl⟩ := readerStep_cases h
    exact hs

/-- Every step keeps the machine's invariant. -/
theorem step_machineInv {s t : State} (hs : MachineInv s) (h : step s = .next t) : MachineInv t := by
  rcases step_cases h with ⟨e, rest, -, h⟩ | ⟨-, ⟨-, rfl⟩ | ⟨-, h⟩⟩
  · exact runEvent_machineInv (s := { s with events := rest }) hs h
  · exact hs
  · exact engineStep_machineInv hs h

end Sys2Proof.Machine
end

section
/-! SUPPORT. Outside a race, the transfers offered on a stream begin with `MAGIC_CHUNK`, and there are none before `HDR` is set
(30 R113, 42 R202, R204). -/

namespace Sys2Proof.Machine

/-! ### The transfers of the current stream -/

/-- The transfers recorded on the current stream, without the pending one. -/
def State.streamed (s : State) : List (List Byte) := (currentStream s.sinkLog).map Prod.fst

theorem currentStream_newStream (log : List SinkEvent) : currentStream (log ++ [.newStream]) = [] := by
  simp [currentStream]

theorem currentStream_transfer (log : List SinkEvent) (b : List Byte) (ending : TransferEnd) :
    currentStream (log ++ [.transfer b ending]) = currentStream log ++ [(b, ending)] := by
  simp [currentStream]

theorem offered_waiting {s : State} {p : Pending} (h : s.ctrl = .waiting p) : s.offered = s.streamed ++ [p.bytes] := by
  simp only [State.offered, State.streamed, h]

theorem offered_not_waiting {s : State} (h : ∀ p, s.ctrl ≠ .waiting p) : s.offered = s.streamed := by
  unfold State.offered State.streamed
  split
  · exact absurd (by assumption) (h _)
  all_goals exact List.append_nil _

/-- The answer to the pending transfer records it. -/
theorem streamed_logSink_pending {s : State} {p : Pending} (h : s.ctrl = .waiting p) (ending : TransferEnd) :
    (s.logSink (.transfer p.bytes ending)).streamed = s.offered := by
  rw [offered_waiting h, State.streamed, State.logSink, currentStream_transfer, List.map_append]
  rfl

/-! ### The head of a stream -/

/-- Without `HDR` a stream has no transfers; with it, the first begins with `MAGIC_CHUNK`. -/
def StreamHead (hdr : Bool) (transfers : List (List Byte)) : Prop :=
  (hdr = false → transfers = []) ∧ (hdr = true → ∃ b rest, transfers = b :: rest ∧ Config.magicChunk <+: b)

theorem StreamHead.append {hdr : Bool} {xs : List (List Byte)} (h : StreamHead hdr xs) (hhdr : hdr = true)
    (ys : List (List Byte)) : StreamHead hdr (xs ++ ys) := by
  obtain ⟨b, rest, rfl, hb⟩ := h.2 hhdr
  exact ⟨fun h => absurd (hhdr.symm.trans h) nofun, fun _ => ⟨b, rest ++ ys, rfl, hb⟩⟩

/-- The first transfer of a stream, with `MAGIC_CHUNK` before its chunk unless `HDR` was set (42 R202). -/
theorem StreamHead.first {hdr : Bool} {xs : List (List Byte)} (h : StreamHead hdr xs) {b : List Byte}
    (hb : hdr = false → Config.magicChunk <+: b) : StreamHead true (xs ++ [b]) := by
  cases hdr with
  | true => exact h.append rfl [b]
  | false => exact ⟨nofun, fun _ => ⟨b, [], by rw [h.1 rfl]; rfl, hb rfl⟩⟩

/-- The transfers offered have their head. -/
def Headed (s : State) : Prop := StreamHead s.writer.hdr s.offered

/-- The transfers recorded have their head. -/
def HeadedLog (s : State) : Prop := StreamHead s.writer.hdr s.streamed

theorem headed_iff {s : State} (h : ∀ p, s.ctrl ≠ .waiting p) : Headed s ↔ HeadedLog s := by
  rw [Headed, offered_not_waiting h, HeadedLog]

theorem HeadedLog.headed {s : State} (h : HeadedLog s) (hc : ∀ p, s.ctrl ≠ .waiting p) : Headed s := (headed_iff hc).2 h

theorem headed_finish (code : ResultCode) (r : Word) {s : State} (h : HeadedLog s) : Headed (finish code r s) :=
  HeadedLog.headed (s := finish code r s) h fun _ => Ctrl.noConfusion

theorem headed_finishData (code : ResultCode) (n : Nat) {s : State} (h : HeadedLog s) : Headed (finishData code n s) := by
  obtain ⟨r, k, heq⟩ := finishData_cases code n s
  rw [heq]
  exact headed_finish code r (s := { s with draws := k }) h

/-- A further transfer of a stream that has its head. -/
theorem headed_offer {s : State} {bytes : List Byte} (hr : s.raced = false)
    (h : StreamHead s.writer.hdr (s.streamed ++ [bytes])) (payload : List Byte) (after : After) : Headed (offer bytes payload after s) := by
  rw [offer_eq hr, Headed, offered_waiting rfl]
  exact h

/-! ### A chunk -/

theorem frameEncoded_uncompressed_length {u : List Byte} {e : Encoded}
    (h : isUncompressedChunk (frameEncoded u e).chunk = true) :
    (encodeInstr (frameEncoded u e).chunk).length = 8 + u.length := by
  unfold frameEncoded at h ⊢
  by_cases hsel : selectsCompressed e.bytes.length u.length = true
  · simp [hsel, isUncompressedChunk] at h
  · simp only [hsel, encodeInstr, encodeChunk]
    simp
    omega

/-- The first transfer of a chunk, split or not, begins with `MAGIC_CHUNK` unless `HDR` was set (42 R202). -/
theorem headed_emitFramed {s : State} (hr : s.raced = false) (h : HeadedLog s) (u : List Byte) (e : Encoded) (after : After) :
    Headed (emitFramed u (frameEncoded u e) after s) := by
  have hr' : (stageChunk (frameEncoded u e) s).raced = false := hr
  have hmagic : s.writer.hdr = false →
      stagedBytes (frameEncoded u e) s = Config.magicChunk ++ encodeInstr (frameEncoded u e).chunk := fun hhdr => by
    rw [stagedBytes, hhdr]
    rfl
  unfold emitFramed
  simp only
  split
  · rename_i hsplit
    have hlen := frameEncoded_uncompressed_length (Bool.and_eq_true_iff.1 hsplit).2
    refine headed_offer hr' (h.first fun hhdr => ?_) u after
    have hstaged : (stageChunk (frameEncoded u e) s).obuf = _ := hmagic hhdr
    rw [hstaged, List.prefix_take_iff, List.length_append, hlen]
    exact ⟨List.prefix_append .., by omega⟩
  · refine headed_offer hr' (h.first fun hhdr => ?_) [] after
    have hstaged : (stageChunk (frameEncoded u e) s).obuf = _ := hmagic hhdr
    rw [hstaged]
    exact List.prefix_append ..

/-- A way to emit chunks that keeps the head of the stream, outside a race. -/
abbrev EmitHeaded (emit : List Byte → After → State → State) : Prop :=
  ∀ {s}, s.raced = false → HeadedLog s → ∀ u after, Headed (emit u after s)

theorem headed_emitChunk : EmitHeaded emitChunk := fun hr h u after => headed_emitFramed hr h u _ after

theorem headed_beginChunk : EmitHeaded beginChunk := fun {s} _ h u after =>
  HeadedLog.headed (s := beginChunk u after s) h fun _ => Ctrl.noConfusion

/-! ### The rules of the commands -/

section
variable {emit : List Byte → After → State → State} (he : EmitHeaded emit) {s : State} (hr : s.raced = false)
  (h : HeadedLog s)
include he hr h

theorem headed_continueWrite (input : List Byte) (absorbed : Nat) (direct : Bool) :
    Headed (continueWrite emit input absorbed direct s) := by
  simp only [continueWrite, raceInput_eq hr, writeBlock]
  split
  · exact headed_finishData _ _ h
  · split
    · exact he hr h ..
    · split
      · exact he hr h ..
      · unfold fillBuffer
        simp only
        split
        · exact @he ((s.setIbuf (s.writer.ibuf ++ _)).setIbuf []) hr h _ _
        · exact headed_finishData (s := s.setIbuf (s.writer.ibuf ++ _)) _ _ h

theorem headed_afterOk (after : After) : Headed (afterOk emit after s) := by
  cases after with
  | write rest absorbed gain direct => exact headed_continueWrite he hr h ..
  | flush => exact headed_finish _ _ h
  | close => exact headed_finish (s := s.setWState .closed) _ _ h

end

theorem headed_afterErr {s : State} (h : HeadedLog s) (after : After) : Headed (afterErr after s) := by
  cases after with
  | write rest absorbed gain direct => exact headed_finishData _ _ h
  | flush => exact headed_finish _ _ h
  | close => exact headed_finish (s := s.setWState .closed) _ _ h

/-! ### The sink's answers -/

section
variable {s : State} (hm : MachineInv s) (hr : s.raced = false) (h : Headed s)

include h in
theorem headedLog_logSink {p : Pending} (hc : s.ctrl = .waiting p) (ending : TransferEnd) :
    HeadedLog (s.logSink (.transfer p.bytes ending)) := by
  rw [HeadedLog, streamed_logSink_pending hc]
  exact h

include hm hr h

theorem headed_takeAnswer {p : Pending} (hc : s.ctrl = .waiting p) (a : SinkAnswer) : Headed (takeAnswer a p s) := by
  have hlog := headedLog_logSink h hc (.answered a)
  obtain ⟨-, hhdr, -⟩ := hm.ctrl hc
  cases a with
  | ok =>
    simp only [takeAnswer]
    split
    · exact headed_afterOk headed_emitChunk (s := (s.logSink _).setWState .streaming) hr hlog p.after
    · exact headed_offer (s := s.logSink _) hr (hlog.append hhdr [p.payload]) [] p.after
  | err code consumed => exact headed_afterErr (s := ((s.logSink _).setWState .errored).setSinkErr code.val) hlog p.after

theorem headed_noteAnswer {p : Pending} (hc : s.ctrl = .waiting p) (a : SinkAnswer) : Headed (noteAnswer a p s) := by
  have hlog := headedLog_logSink h hc (.answered a)
  cases a with
  | ok =>
    simp only [noteAnswer]
    split
    · exact HeadedLog.headed hlog fun _ => Ctrl.noConfusion
    · exact HeadedLog.headed hlog fun _ => Ctrl.noConfusion
  | err code consumed => exact headed_takeAnswer hm hr h hc (.err code consumed)

theorem headed_takeAnswers (as : List SinkAnswer) : Headed (takeAnswers as s) := by
  induction as generalizing s with
  | nil => exact h
  | cons a as ih =>
    by_cases hp : ∃ p, s.ctrl = .waiting p
    · obtain ⟨p, hp⟩ := hp
      rw [takeAnswers_awaiting hp]
      exact ih (takeAnswer_machineInv hm.data (hm.ctrl hp) a) ((takeAnswer_frame a p s).raced.trans hr)
        (headed_takeAnswer hm hr h hp a)
    · rw [takeAnswers_of_not_awaiting (not_exists.1 hp)]
      exact h

theorem headed_settle : Headed (settle s) := headed_takeAnswers hm hr h s.answers

end

/-! ### The commands -/

/-- INIT_WRITER and RESET_STREAM leave an empty stream without `HDR` (42 R206, R216). -/
theorem headed_freshStream (mode : WriterMode) (trail : List WriterView) (s : State) :
    HeadedLog (freshStream mode trail s) := by
  have hempty : (freshStream mode trail s).streamed = [] := by
    rw [State.streamed, freshStream, currentStream_newStream]
    rfl
  rw [HeadedLog, hempty]
  exact ⟨fun _ => rfl, nofun⟩

theorem headed_storeEncoded (e : Encoded) {s : State} (h : HeadedLog s) : Headed (storeEncoded e s) := by
  obtain ⟨m, k, r, heq⟩ := storeEncoded_cases e s
  rw [heq]
  exact headed_finish (s := { s with table := e.table, dp := e.dp, mem := m, draws := k }) .ok r h

section
variable {s : State} (hs : DataInv s) (hfresh : s.writer.wstate = .fresh → s.writer.hdr = false) (hr : s.raced = false)
  (h : HeadedLog s)
include hs hfresh hr h

theorem headed_emitBuffered {after : After} (hlive : s.writer.live) (hafter : AfterInv s.writer after) :
    Headed (settle (emitBuffered after s)) :=
  headed_settle (emitBuffered_machineInv hs hfresh hlive hafter) ((emitBuffered_frame after s).raced.trans hr)
    (headed_emitChunk (s := s.setIbuf []) hr h _ after)

theorem headed_execWrite {t : State} (hexec : execWrite s = .next t) : Headed t := by
  unfold execWrite at hexec
  split at hexec <;> cases hexec
  · exact headed_finishData _ _ h
  · rename_i hcheck
    exact headed_settle (continueWrite_machineInv emitChunk_machineInv hs (writeCheck_resumes hs hfresh hcheck))
      ((continueWrite_frame emitChunk_frame _ _ _ s).raced.trans hr) (headed_continueWrite headed_emitChunk hr h ..)

theorem headed_execFlush {t : State} (hexec : execFlush s = .next t) : Headed t := by
  rcases execFlush_cases hexec with ⟨code, rfl⟩ | ⟨hlive, hmode, rfl⟩
  · exact headed_finish _ _ h
  · exact headed_emitBuffered hs hfresh hr h hlive hmode

theorem headed_execClose {t : State} (hexec : execClose s = .next t) : Headed t := by
  rcases execClose_cases hexec with ⟨code, rfl⟩ | ⟨code, rfl⟩ | ⟨hlive, hmode, rfl⟩
  · exact headed_finish _ _ h
  · exact headed_finish (s := s.setWState .closed) _ _ h
  · exact headed_emitBuffered hs hfresh hr h hlive hmode

theorem headed_exec {i : Instr} (hl : i.layer = .command) {t : State} (hexec : exec i s = .next t) : Headed t := by
  cases i with
  | litInline | lit1 | lit2 | lit3 | lit4 | copy1 | copy2 | copy4
  | chunkStreamId | chunkCompressed | chunkUncompressed => simp [Instr.layer] at hl
  | encode =>
    rcases execEncode_cases hexec with ⟨code, -, rfl⟩ | ⟨-, rfl⟩
    · exact headed_finishData _ _ h
    · exact headed_storeEncoded _ h
  | maxlen =>
    obtain ⟨r, rfl⟩ := execMaxlen_cases hexec
    exact headed_finish _ _ h
  | initWriter mode =>
    obtain ⟨trail, heq⟩ := execInitWriter_eq mode s
    cases heq.symm.trans hexec
    exact headed_finish _ _ (headed_freshStream ..)
  | write => exact headed_execWrite hs hfresh hr h hexec
  | flush => exact headed_execFlush hs hfresh hr h hexec
  | close => exact headed_execClose hs hfresh hr h hexec
  | resetStream =>
    obtain ⟨trail, heq⟩ := execResetStream_eq s
    cases heq.symm.trans hexec
    exact headed_finish _ _ (headed_freshStream ..)
  | illegal w =>
    cases hexec
    exact headed_finish _ _ h

end

/-! ### The head of the stream as long as the race mark is clear -/

/-- A raced command has set the race mark, and while it is clear the stream has its head. -/
def HeadInv (s : State) : Prop := (s.raced = true → s.raceMark = true) ∧ (s.raceMark = false → Headed s)

theorem streamHeadInv_iff {s : State} : StreamHeadInv s ↔ MachineInv s ∧ HeadInv s := Iff.rfl

theorem HeadInv.raced {s : State} (h : HeadInv s) (hmark : s.raceMark = false) : s.raced = false := by
  cases hr : s.raced with
  | false => rfl
  | true => exact nomatch hmark.symm.trans (h.1 hr)

/-- What keeps the marks of a race need only keep the head of the stream outside one. -/
theorem HeadInv.of_marks {s t : State} (hs : HeadInv s) (hraced : t.raced = s.raced) (hmark : t.raceMark = s.raceMark)
    (h : s.raced = false → Headed s → Headed t) : HeadInv t := by
  refine ⟨fun hr => hmark.trans (hs.1 (hraced ▸ hr)), fun hm => ?_⟩
  have hm' : s.raceMark = false := hmark ▸ hm
  exact h (hs.raced hm') (hs.2 hm')

theorem HeadInv.of_frame {s t : State} (hs : HeadInv s) (hframe : EngineFrame s t)
    (h : s.raced = false → Headed s → Headed t) : HeadInv t :=
  hs.of_marks hframe.raced hframe.raceMark h

/-! ### The engine's steps -/

theorem headedLog_of_ctrl {s : State} (h : Headed s) {c : Ctrl} (hc : s.ctrl = c) (hne : ∀ p, c ≠ .waiting p) : HeadedLog s :=
  (headed_iff (hc ▸ hne)).1 h

/-- A step between control states that await nothing, which leaves the record and the writer, keeps the head of the stream. -/
theorem HeadInv.of_ctrl {s t : State} (hs : HeadInv s) {c : Ctrl} (hc : s.ctrl = c) (hne : ∀ p, c ≠ .waiting p)
    (hraced : t.raced = s.raced) (hmark : t.raceMark = s.raceMark) (hlog : t.sinkLog = s.sinkLog)
    (hwriter : t.writer = s.writer) (hne' : ∀ p, t.ctrl ≠ .waiting p) : HeadInv t :=
  hs.of_marks hraced hmark fun _ h => by
    have hs' : StreamHead s.writer.hdr s.streamed := headedLog_of_ctrl h hc hne
    refine HeadedLog.headed ?_ hne'
    rwa [HeadedLog, State.streamed, hlog, hwriter]

theorem exec_headInv {s t : State} (hm : MachineInv s) (hs : HeadInv s) (hc : s.ctrl = .accepted) {i : Instr}
    (hl : i.layer = .command) (h : exec i s = .next t) : HeadInv t := by
  have hheaded : s.raced = false → Headed s → Headed t := fun hr hh =>
    headed_exec hm.data (hm.ctrl hc) hr (headedLog_of_ctrl hh hc nofun) hl h
  by_cases hi : i = .encode
  · subst hi
    rcases execEncode_cases h with ⟨code, -, rfl⟩ | ⟨-, rfl⟩
    · exact hs.of_frame (finishData_frame ..) hheaded
    · obtain ⟨m, k, r, heq⟩ := storeEncoded_cases s.encodeOutput s
      exact hs.of_marks (by rw [heq]; rfl) (by rw [heq]; rfl) hheaded
  · exact hs.of_frame (exec_frame hl hi h) hheaded

theorem advance_headInv {s : State} (hm : MachineInv s) (hs : HeadInv s) : HeadInv (advance s) := by
  unfold advance
  split <;> rename_i hc
  · obtain ⟨m, k, r, heq⟩ := storeEncoded_cases (finishEncoder s.params.tableSizeRule ⟨_, s.table, s.dp⟩) s
    exact hs.of_marks (by rw [heq]; rfl) (by rw [heq]; rfl) fun _ h =>
      headed_storeEncoded _ (headedLog_of_ctrl h hc nofun)
  · exact hs.of_frame (emitFramed_frame ..) fun hr h => headed_emitFramed hr (headedLog_of_ctrl h hc nofun) ..
  · obtain ⟨-, hhdr, -⟩ := hm.ctrl hc
    exact hs.of_frame (offer_frame ..) fun hr h =>
      headed_offer hr ((headedLog_of_ctrl h hc nofun).append hhdr _) ..
  · exact hs.of_frame (afterOk_frame emitChunk_frame ..) fun hr h =>
      headed_afterOk headed_emitChunk hr (headedLog_of_ctrl h hc nofun) ..
  all_goals exact hs

theorem engineStep_headInv {s t : State} (hm : MachineInv s) (hs : HeadInv s) (h : engineStep s = .next t) : HeadInv t := by
  rcases engineStep_cases h with ⟨-, rfl⟩ | ⟨hc, h⟩ | ⟨-, -, rfl⟩
  · exact hs
  · exact exec_headInv hm hs hc (decodeCommand_layer _) h
  · exact (advance_headInv hm hs).of_frame (settle_frame _) (headed_settle (advance_machineInv hm))

theorem startCommand_headInv {s t : State} (hm : MachineInv s) (hs : HeadInv s) (hc : s.ctrl = .accepted)
    (h : startCommand s = .next t) : HeadInv t := by
  have hbegin : ∀ after, HeadInv (beginChunk s.writer.ibuf after (s.setIbuf [])) := fun after =>
    hs.of_frame ((setWriter_frame ..).trans (beginChunk_frame ..)) fun hr hh =>
      headed_beginChunk (s := s.setIbuf []) hr (headedLog_of_ctrl hh hc nofun) ..
  rcases startCommand_cases h with h | ⟨-, rfl⟩ | ⟨-, rfl⟩ | ⟨-, ⟨-, rfl⟩ | ⟨-, rfl⟩⟩
  · exact exec_headInv hm hs hc (decodeCommand_layer _) h
  · unfold startEncode
    split
    · exact hs.of_frame (finishData_frame ..) fun _ hh => headed_finishData _ _ (headedLog_of_ctrl hh hc nofun)
    · exact hs.of_ctrl hc nofun rfl rfl rfl rfl nofun
  · unfold startWrite
    split
    · exact hs.of_frame (finishData_frame ..) fun _ hh => headed_finishData _ _ (headedLog_of_ctrl hh hc nofun)
    · exact hs.of_ctrl hc nofun rfl rfl rfl rfl nofun
  · exact hbegin .flush
  · exact hbegin .close

theorem tickStep_headInv {s t : State} (hm : MachineInv s) (hs : HeadInv s) (h : tickStep s = .next t) : HeadInv t := by
  rcases tickStep_cases h with rfl | ⟨hc, h⟩ | ⟨e, hc, rfl⟩ | ⟨u, after, e, hc, rfl⟩ | ⟨-, -, rfl⟩ | ⟨after, hc, rfl⟩
    | ⟨p, a, rest, hc, -, rfl⟩
  · exact hs
  · exact startCommand_headInv hm hs hc h
  · exact hs.of_ctrl hc nofun rfl rfl rfl rfl nofun
  · exact hs.of_ctrl hc nofun rfl rfl rfl rfl nofun
  · exact advance_headInv hm hs
  · exact hs.of_frame (afterOk_frame beginChunk_frame ..) fun hr hh =>
      headed_afterOk headed_beginChunk hr (headedLog_of_ctrl hh hc nofun) ..
  · have hs' : HeadInv { s with answers := rest } := hs
    exact hs'.of_frame (noteAnswer_frame ..) fun hr hh => headed_noteAnswer (s := { s with answers := rest }) hm hr hh hc a

/-! ### The host's steps and hardware reset -/

theorem csrStoreValue_headInv {s : State} (hs : HeadInv s) (offset : Nat) (w : Word) : HeadInv (csrStoreValue offset w s) := by
  unfold csrStoreValue
  repeat' split
  all_goals exact hs

/-- An accepted command is not raced, and awaits nothing. -/
theorem accept_headInv {s : State} (hs : HeadInv s) (hc : s.ctrl = .idle) (w : Word) :
    HeadInv (accept w s) ∧ HeadInv (finish .illegalCmd 0 (accept w s)) := by
  have hlog : s.raceMark = false → HeadedLog s := fun hm => headedLog_of_ctrl (hs.2 hm) hc nofun
  exact ⟨⟨nofun, fun hm => HeadedLog.headed (s := accept w s) (hlog hm) nofun⟩,
    ⟨nofun, fun hm => headed_finish (s := accept w s) _ _ (hlog hm)⟩⟩

theorem csrStore_headInv {addr : Word} {width : AccessWidth} {w : Word} {s t : State} (hs : HeadInv s)
    (h : csrStore addr width w s = .next t) : HeadInv t := by
  rcases csrStore_cases h with rfl | rfl | h | ⟨-, rfl⟩
  · exact hs
  · exact hs
  · rcases cmdStore_cases h with ⟨-, rfl⟩ | ⟨hidle, hcases⟩
    · exact hs
    · have haccept := accept_headInv hs (by simpa [State.busy] using hidle) w
      rcases hcases with rfl | rfl
      · exact haccept.1
      · exact haccept.2
  · exact csrStoreValue_headInv hs ..

theorem storeHostByte_headInv {s : State} (hs : HeadInv s) (addr : Word) (b : Byte) : HeadInv (storeHostByte addr b s) := by
  obtain ⟨v, rm, rb, k, h, hrm, -⟩ := storeHostByte_cases addr b s
  rw [h]
  refine ⟨fun hr => hrm (hs.1 hr), fun hm => hs.2 ?_⟩
  cases hmark : s.raceMark with
  | false => rfl
  | true => exact nomatch hm.symm.trans (hrm hmark)

/-- A race on the source sets the race mark. -/
theorem markRace_headInv (s : State) : HeadInv (markRace s) := by
  obtain ⟨c, k, log, h, -⟩ := markRace_cases s
  rw [h]
  exact ⟨fun _ => rfl, nofun⟩

theorem hostStep_headInv {op : HostOp} {s t : State} (hs : HeadInv s) (h : hostStep op s = .next t) : HeadInv t := by
  cases op with
  | csrLoad addr width =>
    obtain ⟨v, m, k, heq, -⟩ := csrLoad_cases addr width s
    cases h
    rw [heq]
    exact hs
  | csrStore addr width w => exact csrStore_headInv hs h
  | memLoad addr =>
    rcases memLoad_cases h with ⟨-, rfl⟩ | ⟨-, v, k, rfl⟩
    · exact hs
    · exact hs
  | memStore addr b =>
    rcases memStore_cases h with ⟨-, rfl⟩ | ⟨-, rfl | rfl⟩
    · exact hs
    · exact storeHostByte_headInv hs addr b
    · exact markRace_headInv _

/-- A hardware reset begins a new stream, and ends any race (70 R260). -/
theorem hardReset_headInv (d : ResetDraw) (s : State) : HeadInv (hardReset d s) := by
  obtain ⟨m, log, as, k, h, -⟩ := hardReset_cases d s
  rw [h]
  have hempty : currentStream (log ++ [.newStream]) = [] := currentStream_newStream log
  refine ⟨nofun, fun _ => HeadedLog.headed ⟨fun _ => ?_, nofun⟩ nofun⟩
  rw [State.streamed, hempty]
  rfl

/-! ### Every step -/

theorem runEvent_headInv {e : Event} {s t : State} (hm : MachineInv s) (hs : HeadInv s) (h : runEvent e s = .next t) :
    HeadInv t := by
  rcases runEvent_cases h with ⟨op, -, h⟩ | ⟨-, h⟩ | ⟨-, h⟩ | ⟨a, -, rfl⟩ | ⟨d, -, rfl⟩ | ⟨m, bs, -, h⟩ | ⟨-, h⟩
  · exact hostStep_headInv hs h
  · exact engineStep_headInv hm hs h
  · exact tickStep_headInv hm hs h
  · exact hs
  · exact hardReset_headInv d s
  · obtain ⟨r, rfl⟩ := openReader_cases h
    exact hs
  · obtain ⟨r, rfl⟩ := readerStep_cases h
    exact hs

/-- Settles O39, by the inversion of the step: outside a race only a command's first chunk puts a transfer on an empty stream,
and `MAGIC_CHUNK` stands before it. -/
theorem streamHeadInvKept : Obligations.StreamHeadInvKept := by
  intro s t hs h
  obtain ⟨hm, hs⟩ := streamHeadInv_iff.1 hs
  refine streamHeadInv_iff.2 ⟨step_machineInv hm h, ?_⟩
  rcases step_cases h with ⟨e, rest, -, h⟩ | ⟨-, ⟨-, rfl⟩ | ⟨-, h⟩⟩
  · exact runEvent_headInv (s := { s with events := rest }) hm hs h
  · exact hs
  · exact engineStep_headInv hm hs h

end Sys2Proof.Machine
end

section
/-! SUPPORT. What the reader's instructions do: a literal and a copy append to its output, a chunk appends its checked content
or stops the reader (30 R98 to R113). -/

namespace Sys2Proof.Machine

/-! ### Elements -/

/-- An element whose meaning is `out` leaves it as the reader's output, and sets the mark if the engine never emits it. -/
theorem readElement_eq {i : Instr} {s : State} {out : List Byte} {odd : Bool} (h : applyElement i s.reader.out = some out)
    (hodd : engineEmits i = !odd) :
    readElement i s = .next { s with reader := { s.reader with
      out := out, neverEmitted := s.reader.neverEmitted || odd } } := by
  simp only [readElement, h, hodd, Bool.not_not]

/-- Settles O56: each literal row reads as an element that appends its bytes; the mark tells the rows and lengths the engine
emits from the others. -/
theorem literalsAppend : Obligations.LiteralsAppend := by
  intro s lit
  refine ⟨fun h1 h60 => ?_, fun _ h256 => readElement_eq (i := .lit1 lit) rfl ?_,
    fun _ h65536 => readElement_eq (i := .lit2 lit) rfl ?_, ?_, ?_⟩
  · have hemits : engineEmits (.litInline lit) = !false := literalFits_iff.2 ⟨h1, h60⟩
    have hread := readElement_eq (i := .litInline lit) (s := s) rfl hemits
    rwa [Bool.or_false] at hread
  · simp only [engineEmits, h256, decide_true, Bool.and_true, ← decide_not, Nat.not_lt]
  · simp only [engineEmits, h65536, decide_true, Bool.and_true, ← decide_not, Nat.not_lt]
  · have hread := readElement_eq (i := .lit3 lit) (s := s) (odd := true) rfl rfl
    rwa [Bool.or_true] at hread
  · have hread := readElement_eq (i := .lit4 lit) (s := s) (odd := true) rfl rfl
    rwa [Bool.or_true] at hread

/-- A copy keeps the output it began with. -/
theorem copyBytes_getElem?_old (offset k : Nat) (out : List Byte) {j : Nat} (hj : j < out.length) :
    (copyBytes offset k out)[j]? = out[j]? := by
  induction k generalizing out with
  | zero => rfl
  | succ k ih => rw [copyBytes, ih _ (by simp; omega), List.getElem?_append_left hj]

/-- Each byte a copy appends is the one `offset` places before it (30 R105). -/
theorem copyBytes_getElem?_new {offset : Nat} (ho : 1 ≤ offset) {out : List Byte} (hout : offset ≤ out.length) {k i : Nat}
    (hi : i < k) :
    (copyBytes offset k out)[out.length + i]? = (copyBytes offset k out)[out.length - offset + i]? := by
  induction k generalizing out i with
  | zero => exact absurd hi (Nat.not_lt_zero i)
  | succ k ih =>
    have hlen : (out ++ [out.getD (out.length - offset) 0]).length = out.length + 1 := by simp
    rw [copyBytes]
    cases i with
    | zero =>
      have hback : out.length - offset < out.length := by omega
      rw [Nat.add_zero, Nat.add_zero, copyBytes_getElem?_old _ _ _ (by omega), copyBytes_getElem?_old _ _ _ (by omega),
        List.getElem?_concat_length, List.getElem?_append_left hback, List.getD_eq_getElem?_getD,
        List.getElem?_eq_getElem hback, Option.getD_some]
    | succ i =>
      have hstep := ih (out := out ++ [out.getD (out.length - offset) 0]) (by omega) (i := i) (by omega)
      rw [hlen] at hstep
      rw [show out.length + (i + 1) = out.length + 1 + i by omega, hstep,
        show out.length + 1 - offset + i = out.length - offset + (i + 1) by omega]

/-- What a copy row does, from its offset, its length and whether the engine may emit it (30 R105). -/
theorem exec_copy {i : Instr} {offset length : Nat} {odd : Bool} {s : State} (hexec : exec i s = readElement i s)
    (happly : applyElement i s.reader.out = applyCopy offset length s.reader.out)
    (hodd : 1 ≤ offset → engineEmits i = !odd) :
    (1 ≤ offset → offset ≤ s.reader.out.length →
        ∃ out, exec i s = .next { s with reader := { s.reader with
              out := out, neverEmitted := s.reader.neverEmitted || odd } }
          ∧ out.length = s.reader.out.length + length
          ∧ (∀ j, j < s.reader.out.length → out[j]? = s.reader.out[j]?)
          ∧ ∀ k, k < length → out[s.reader.out.length + k]? = out[s.reader.out.length - offset + k]?)
      ∧ (offset = 0 ∨ s.reader.out.length < offset → exec i s = .fault .copyOutOfRange) := by
  refine ⟨fun h1 hout => ⟨copyBytes offset length s.reader.out, ?_, copyBytes_length ..,
    fun _ hj => copyBytes_getElem?_old _ _ _ hj, fun _ hk => copyBytes_getElem?_new h1 hout hk⟩, fun h => ?_⟩
  · rw [hexec]
    exact readElement_eq (happly.trans (if_pos ⟨h1, hout⟩)) (hodd h1)
  · have hnone : applyElement i s.reader.out = none := happly.trans (if_neg (by omega))
    rw [hexec, readElement, hnone]

/-- Settles O57: each copy row is one copy of its offset and length. -/
theorem copiesAppend : Obligations.CopiesAppend := by
  rintro s i offset length odd (⟨o, l, rfl, rfl, rfl, rfl⟩ | ⟨o, l, rfl, rfl, rfl, rfl⟩ | ⟨o, l, rfl, rfl, rfl, rfl⟩)
  · refine exec_copy rfl rfl fun h1 => ?_
    have hne : o ≠ 0 := by rintro rfl; simp at h1
    exact decide_eq_true hne
  · refine exec_copy rfl rfl fun h1 => ?_
    have hne : o ≠ 0 := by rintro rfl; simp at h1
    rw [engineEmits, Bool.eq_iff_iff]
    simp only [Bool.and_eq_true, Bool.or_eq_true, Bool.not_eq_true', decide_eq_true_eq, decide_eq_false_iff_not]
    exact ⟨fun ⟨⟨_, h4⟩, h12⟩ => by omega, fun h => ⟨⟨hne, by omega⟩, by omega⟩⟩
  · exact exec_copy rfl rfl fun _ => rfl

/-! ### Chunks -/

section
variable {s : State} {crc : Word} {u : List Byte}

theorem readChunk_unheaded (h : s.reader.headed = false) : readChunk crc u s = .fault .missingStreamId := by
  simp only [readChunk, h, Bool.not_false, if_true]

theorem readChunk_mismatch (h : s.reader.headed = true) (hcrc : crc ≠ crcField u) :
    readChunk crc u s = .fault .crcMismatch := by
  simp only [readChunk, h, Bool.not_true, Bool.false_eq_true, if_false, hcrc, ne_eq, not_false_eq_true, if_true]

theorem exec_chunkCompressed {data : List Byte} (h : decodeBlock data = some u) :
    exec (.chunkCompressed crc data) s = readChunk crc u s := by
  simp only [exec, execChunkCompressed, h]

end

/-- Settles O58: the identifier by the head mark, a data chunk by what its data decodes to and its CRC. -/
theorem chunksRead : Obligations.ChunksRead := by
  intro s crc payload data u
  refine ⟨?_, fun hp => if_pos hp, ?_, ?_, ?_, fun hdata => ?_⟩
  · rintro rfl
    refine ⟨fun hhead => ?_, fun hhead => ?_⟩
    · simp [exec, execChunkStreamId, Config.streamIdPayload, hhead]
    · simp [exec, execChunkStreamId, Config.streamIdPayload, hhead]
  · rintro hhead rfl
    exact ⟨readChunk_headed hhead u, fun hdata => (exec_chunkCompressed hdata).trans (readChunk_headed hhead u)⟩
  · exact fun hhead => ⟨readChunk_unheaded hhead, fun hdata => (exec_chunkCompressed hdata).trans (readChunk_unheaded hhead)⟩
  · exact fun hhead hcrc =>
      ⟨readChunk_mismatch hhead hcrc, fun hdata => (exec_chunkCompressed hdata).trans (readChunk_mismatch hhead hcrc)⟩
  · simp only [exec, execChunkCompressed, hdata]

end Sys2Proof.Machine
end

section
/-! SUPPORT. The bytes of a data chunk, and the range of its length field (42 R200, R201; 30 R112, R115). -/

namespace Sys2Proof.Machine

theorem varintLoop_length_pos (k n : Nat) : 1 ≤ (varintLoop k n).length := by
  unfold varintLoop
  split
  · simp
  · split <;> simp

/-- An encoded block holds its varint (30 R94). -/
theorem encodeBytes_length_pos (rule : TableSizeRule) (u : List Byte) : 1 ≤ (encodeBytes rule u).length := by
  have hvarint := varintLoop_length_pos 4 u.length
  simp only [encodeBytes, encodeSrc, closeBlock, blockBytes, putVarint, List.length_append]
  omega

/-- The bytes of a data chunk: its type, the length of the CRC and the data, and these (30 R108, R112). -/
theorem encodeChunk_data (type : Byte) (crc : Word) (data : List Byte) :
    encodeChunk type (leBytes 4 crc.toNat ++ data) = type :: leBytes 3 (4 + data.length) ++ leBytes 4 crc.toNat ++ data := by
  simp only [encodeChunk, List.length_append, leBytes_length, List.append_assoc, List.cons_append]

/-- Settles O22, by the chunk's type: compressed, where the encoding is short enough, or uncompressed. -/
theorem dataChunkBytes : Obligations.DataChunkBytes := by
  intro rule u h1 hmax
  have hpos := encodeBytes_length_pos rule u
  by_cases hsel : selectsCompressed (encodeBytes rule u).length u.length = true
  · have hshort : (encodeBytes rule u).length < u.length - u.length / 8 := by simpa [selectsCompressed] using hsel
    refine ⟨0x00, encodeBytes rule u, ?_, by omega, by omega, .inl ⟨rfl, rfl, by omega⟩⟩
    have hchunk : (frameChunk rule u [] Datapath.zero).chunk = .chunkCompressed (crcField u) (encodeBytes rule u) :=
      if_pos hsel
    rw [frameBytes, hchunk]
    exact encodeChunk_data ..
  · have hlong : u.length - u.length / 8 ≤ (encodeBytes rule u).length := by simpa [selectsCompressed] using hsel
    refine ⟨0x01, u, ?_, by omega, by omega, .inr ⟨rfl, rfl, hlong⟩⟩
    have hchunk : (frameChunk rule u [] Datapath.zero).chunk = .chunkUncompressed (crcField u) u := if_neg hsel
    rw [frameBytes, hchunk]
    exact encodeChunk_data ..

end Sys2Proof.Machine
end

section
/-! SUPPORT. The leaf units: the header of a literal, the elements and bytes of a copy, the bytes of a varint (40 R130 to
R141). -/

namespace Sys2Proof.Machine

/-! ### Literals -/

theorem leBytes_one (v : Nat) : leBytes 1 v = [BitVec.ofNat 8 v] := rfl

/-- Two little-endian bytes, as 40 R130 writes them. -/
theorem leBytes_two (v : Nat) : leBytes 2 v = [BitVec.ofNat 8 (v % 256), BitVec.ofNat 8 (v >>> 8)] := by
  have hlow : BitVec.ofNat 8 (v % 256) = BitVec.ofNat 8 v := BitVec.eq_of_toNat_eq (by simp)
  have hhigh : v >>> 8 = v / 256 := Nat.shiftRight_eq_div_pow v 8
  rw [hlow, hhigh]
  rfl

theorem emitLiteral_eq (lit : List Byte) :
    emitLiteral lit =
      (if lit.length - 1 < 60 then [BitVec.ofNat 8 ((lit.length - 1) <<< 2)]
       else if lit.length - 1 < 256 then [0xF0, BitVec.ofNat 8 (lit.length - 1)]
       else [0xF4, BitVec.ofNat 8 ((lit.length - 1) % 256), BitVec.ofNat 8 ((lit.length - 1) >>> 8)]) ++ lit := by
  unfold emitLiteral literalElement
  split
  · rfl
  · split
    · rw [encodeInstr, encodeLongLiteral, leBytes_one]
    · rw [encodeInstr, encodeLongLiteral, leBytes_two]

theorem emitLiteral_length {lit : List Byte} (h : 1 ≤ lit.length) :
    (emitLiteral lit).length = lit.length + (if lit.length ≤ 60 then 1 else if lit.length ≤ 256 then 2 else 3) := by
  have hlen : (emitLiteral lit).length =
      lit.length + (if lit.length - 1 < 60 then 1 else if lit.length - 1 < 256 then 2 else 3) := by
    rw [emitLiteral_eq, List.length_append, Nat.add_comm]
    split_ifs <;> rfl
  have h60 : lit.length - 1 < 60 ↔ lit.length ≤ 60 := by omega
  have h256 : lit.length - 1 < 256 ↔ lit.length ≤ 256 := by omega
  rw [hlen]
  simp only [h60, h256]

/-- Settles O7, by the three tag encodings. The model's function has the name already, so this one stands in `Emitters`. -/
theorem Emitters.emitLiteral : Obligations.EmitLiteral := fun lit h _ => ⟨emitLiteral_eq lit, emitLiteral_length h⟩

/-! ### Copies -/

/-- `COPY_1` ends a copy exactly when the length is at most 11 and the offset at most 2047 (40 R133). -/
theorem finalCopy_eq (offset length : Nat) :
    finalCopy offset length =
      if length ≤ 11 ∧ offset ≤ 2047 then .copy1 (BitVec.ofNat 11 offset) (BitVec.ofNat 3 (length - 4))
      else copy2Element offset length := by
  unfold finalCopy
  split
  · rw [if_neg (by omega)]
  · rw [if_pos (by omega)]

theorem finalCopy_bytes (offset length : Nat) :
    (encodeInstr (finalCopy offset length)).length = if length ≤ 11 ∧ offset ≤ 2047 then 2 else 3 := by
  rw [finalCopy_eq]
  split
  · rfl
  · exact copy2Element_bytes offset length

/-- The length-60 peel, and the final element of what remains (40 R132). -/
theorem lastCopies_eq (offset length : Nat) :
    lastCopies offset length =
      (if 65 ≤ length then [copy2Element offset 60] else []) ++
        [finalCopy offset (if 65 ≤ length then length - 60 else length)] := by
  by_cases h : 65 ≤ length
  · rw [lastCopies, if_pos (by omega), if_pos h, if_pos h]
    rfl
  · rw [lastCopies, if_neg (by omega), if_neg h, if_neg h, List.nil_append]

theorem copyLoop_of_lt (n offset : Nat) {length : Nat} (h : length < 68) :
    copyLoop n offset length = lastCopies offset length := by
  cases n with
  | zero => rfl
  | succ n => exact if_neg (by omega)

/-- The length-64 loop turns once for each 64 bytes as long as four or more remain (40 R132, R134). -/
theorem copyLoop_eq_replicate {k n r : Nat} (offset : Nat) (hk : k ≤ n) (h4 : 4 ≤ r) (h67 : r ≤ 67) :
    copyLoop n offset (64 * k + r) = List.replicate k (copy2Element offset 64) ++ lastCopies offset r := by
  induction k generalizing n with
  | zero => rw [Nat.mul_zero, Nat.zero_add, copyLoop_of_lt n offset (by omega), List.replicate_zero, List.nil_append]
  | succ k ih =>
    obtain ⟨n, rfl⟩ := Nat.exists_eq_add_of_le' (Nat.one_le_of_lt hk)
    have hrest : 64 * (k + 1) + r - 64 = 64 * k + r := by omega
    rw [copyLoop, if_pos (by omega), hrest, ih (by omega), List.replicate_succ, List.cons_append]

/-- The elements of `emit_copy`, from how often the loop turns and how much of the length it leaves (40 R134). -/
theorem copyElements_eq {k r : Nat} (offset : Nat) (h4 : 4 ≤ r) (h67 : r ≤ 67) :
    copyElements offset (64 * k + r) = List.replicate k (copy2Element offset 64) ++ lastCopies offset r :=
  copyLoop_eq_replicate offset (by omega) h4 h67

theorem emitCopy_length (offset length : Nat) : (emitCopy offset length).length = elementBytes (copyElements offset length) :=
  rfl

theorem elementBytes_replicate (k : Nat) (i : Instr) : elementBytes (List.replicate k i) = k * (encodeInstr i).length := by
  simp [elementBytes]

theorem lastCopies_bytes (offset length : Nat) :
    elementBytes (lastCopies offset length) =
      (if 65 ≤ length then 3 else 0) +
        if (if 65 ≤ length then length - 60 else length) ≤ 11 ∧ offset ≤ 2047 then 2 else 3 := by
  have hpeel : elementBytes (if 65 ≤ length then [copy2Element offset 60] else []) = if 65 ≤ length then 3 else 0 := by
    split
    · exact copy2Element_bytes offset 60
    · rfl
  rw [lastCopies_eq, elementBytes_append, hpeel, elementBytes_cons, elementBytes_nil, finalCopy_bytes, Nat.add_zero]

/-- Settles O8: the loop leaves 4 to 67 of the length, and what it leaves takes the peel and the final element. -/
theorem emitCopyShape : Obligations.EmitCopyShape := by
  intro offset length _ _ hmin _ k r1 r hk hr1 hr
  have hleft : length = 64 * k + r1 ∧ 4 ≤ r1 ∧ r1 ≤ 67 := by
    split at hk <;> omega
  obtain ⟨rfl, h4, h67⟩ := hleft
  refine ⟨h4, h67, ?_, ?_⟩
  · rw [copyElements_eq offset h4 h67, lastCopies_eq, ← hr, finalCopy_eq, ← List.append_assoc]
    rfl
  · rw [emitCopy_length, copyElements_eq offset h4 h67, elementBytes_append, elementBytes_replicate, copy2Element_bytes,
      lastCopies_bytes, ← hr, Nat.mul_comm, Nat.add_assoc]

/-! ### Varints -/

/-- A turn more than the number needs changes nothing. -/
theorem varintLoop_succ (k : Nat) {n : Nat} (h : n < 128 ^ (k + 1)) : varintLoop (k + 1) n = varintLoop k n := by
  induction k generalizing n with
  | zero => exact if_neg (by omega)
  | succ k ih =>
    have hn : n / 0x80 < 128 ^ (k + 1) := Nat.div_lt_of_lt_mul (by omega)
    rw [varintLoop, ih hn]
    rfl

/-- A number from `128 ^ j` up to `128 ^ (j + 1)` takes `j + 1` bytes (40 R141); 0 takes one. -/
theorem varintLoop_length {j k n : Nat} (hk : j ≤ k) (hlow : j = 0 ∨ 128 ^ j ≤ n) (hhigh : n < 128 ^ (j + 1)) :
    (varintLoop k n).length = j + 1 := by
  induction j generalizing k n with
  | zero =>
    cases k with
    | zero => rfl
    | succ k => rw [varintLoop, if_neg (by omega), List.length_singleton]
  | succ j ih =>
    obtain ⟨k, rfl⟩ := Nat.exists_eq_add_of_le' (Nat.one_le_of_lt hk)
    have hpos : 1 ≤ 128 ^ j := Nat.one_le_pow _ _ (by omega)
    rw [varintLoop, if_pos (by omega), List.length_cons, ih (by omega) (.inr (by omega)) (by omega)]

/-- The recursion of 40 R140. -/
theorem putVarint_eq {n : Nat} (h : n < 2 ^ 32) :
    putVarint n =
      if 0x80 ≤ n then BitVec.ofNat 8 ((n &&& 0x7F) ||| 0x80) :: putVarint (n >>> 7) else [BitVec.ofNat 8 n] := by
  have hbyte : (n &&& 0x7F) ||| 0x80 = n % 0x80 + 0x80 := by
    have hmask : n &&& 0x7F = n % 0x80 := Nat.and_two_pow_sub_one_eq_mod n 7
    have hor : 0x80 + n % 0x80 = 0x80 ||| n % 0x80 := Nat.two_pow_add_eq_or_of_lt (i := 7) (Nat.mod_lt n (by omega)) 1
    rw [hmask, Nat.or_comm, ← hor, Nat.add_comm]
  have hrest : putVarint (n >>> 7) = varintLoop 3 (n / 0x80) := by
    rw [Nat.shiftRight_eq_div_pow]
    exact varintLoop_succ 3 (by omega)
  rw [hbyte, hrest]
  rfl

/-- The length of 40 R141. -/
theorem putVarint_length {n : Nat} (h : n < 2 ^ 32) :
    (putVarint n).length =
      if n < 2 ^ 7 then 1 else if n < 2 ^ 14 then 2 else if n < 2 ^ 21 then 3 else if n < 2 ^ 28 then 4 else 5 := by
  unfold putVarint
  split_ifs
  · exact varintLoop_length (j := 0) (by omega) (by omega) (by omega)
  · exact varintLoop_length (j := 1) (by omega) (by omega) (by omega)
  · exact varintLoop_length (j := 2) (by omega) (by omega) (by omega)
  · exact varintLoop_length (j := 3) (by omega) (by omega) (by omega)
  · exact varintLoop_length (j := 4) (by omega) (by omega) (by omega)

/-- Settles O9: four turns and a byte more are enough below 2^32, and each turn takes seven bits. -/
theorem varintEncoder : Obligations.VarintEncoder := fun _ h => ⟨putVarint_eq h, putVarint_length h⟩

end Sys2Proof.Machine
end

section
/-! SUPPORT. The size of the hash table under either rule, and the hash that names a slot of it (41 R152, R157). -/

namespace Sys2Proof.Machine

/-! ### The table size -/

theorem tableBits_ge (rule : TableSizeRule) (len : Nat) : 8 ≤ tableBits rule len := by
  unfold tableBits; split <;> exact Nat.le_max_left ..

/-- `FLOOR`: a power of two from 256 up is within the table's size when it exceeds neither 16384 nor the length (41 R157). -/
theorem le_tableBits_floor_iff {len : Nat} (h : len ≠ 0) (k : Nat) :
    k ≤ tableBits .floor len ↔ k ≤ 8 ∨ k ≤ 14 ∧ 2 ^ k ≤ len := by
  rw [tableBits, le_max_iff, le_min_iff, Nat.le_log2 h]

/-- `CEIL`: the table's size is within a power of two that is at least 256, and at least 16384 or the length (41 R157). -/
theorem tableBits_ceil_le_iff {len : Nat} (h : 2 ≤ len) (k : Nat) :
    tableBits .ceil len ≤ k ↔ 8 ≤ k ∧ (14 ≤ k ∨ len ≤ 2 ^ k) := by
  have hlog : (len - 1).log2 + 1 ≤ k ↔ len ≤ 2 ^ k := by
    rw [Nat.succ_le_iff, Nat.log2_lt (by omega)]
    omega
  rw [tableBits, max_le_iff, min_le_iff, hlog]

theorem two_pow_le_tsize_iff (rule : TableSizeRule) (len k : Nat) : 2 ^ k ≤ tsize rule len ↔ k ≤ tableBits rule len :=
  Nat.pow_le_pow_iff_right Nat.one_lt_two

theorem tsize_le_two_pow_iff (rule : TableSizeRule) (len k : Nat) : tsize rule len ≤ 2 ^ k ↔ tableBits rule len ≤ k :=
  Nat.pow_le_pow_iff_right Nat.one_lt_two

theorem tableShift_add_tableBits (rule : TableSizeRule) (len : Nat) : tableShift rule len + tableBits rule len = 32 := by
  have := tableBits_le rule len
  unfold tableShift
  omega

/-! ### The hash -/

theorem hash_eq (u : Word) (shift : Nat) : hash u shift = u.toNat * 0x1e35a7bd % 2 ^ 32 / 2 ^ shift := by
  rw [hash, BitVec.toNat_ushiftRight, Nat.shiftRight_eq_div_pow, BitVec.toNat_mul]
  rfl

/-- The bits the shift keeps are as many as the table's size has (41 R152, R157). -/
theorem hash_lt_tsize (u : Word) (rule : TableSizeRule) (len : Nat) : hash u (tableShift rule len) < tsize rule len := by
  rw [hash_eq, Nat.div_lt_iff_lt_mul (by positivity), tsize, ← Nat.pow_add, Nat.add_comm, tableShift_add_tableBits]
  exact Nat.mod_lt _ (by decide)

/-- Settles O11: each rule's size by the powers of two within it or above it, and the hash by the shift. -/
theorem tableSizeAndHash : Obligations.TableSizeAndHash := by
  intro len hmin _
  have hfloor := le_tableBits_floor_iff (len := len) (by omega)
  have hceil := tableBits_ceil_le_iff (len := len) (by omega)
  refine ⟨fun rule => ?_, fun h => ?_, fun k hk hk14 => ?_, fun h => ?_, fun h => ?_, fun k hk hk8 => ?_, fun h => ?_,
    fun rule u => ⟨hash_eq u _, hash_lt_tsize u rule len⟩⟩
  · have hge := tableBits_ge rule len
    have hle := tableBits_le rule len
    have hshift := tableShift_add_tableBits rule len
    refine ⟨(two_pow_le_tsize_iff rule len 8).2 hge, (tsize_le_two_pow_iff rule len 14).2 hle, by omega, by omega, ?_⟩
    rw [tsize, Nat.eq_sub_of_add_eq' hshift]
  · rcases (hfloor _).1 (Nat.le_refl _) with h8 | ⟨-, hlen⟩
    · exact ((tsize_le_two_pow_iff .floor len 8).2 h8).trans h
    · exact hlen
  · have h14 : k ≤ 14 := (Nat.pow_le_pow_iff_right Nat.one_lt_two).1 hk14
    exact (two_pow_le_tsize_iff .floor len k).2 ((hfloor k).2 (.inr ⟨h14, hk⟩))
  · have hbits : ¬ 9 ≤ tableBits .floor len := by rw [hfloor]; omega
    exact Nat.le_antisymm ((tsize_le_two_pow_iff .floor len 8).2 (by omega))
      ((two_pow_le_tsize_iff .floor len 8).2 (tableBits_ge .floor len))
  · rcases ((hceil _).1 (Nat.le_refl _)).2 with h14 | hlen
    · exact h.trans ((two_pow_le_tsize_iff .ceil len 14).2 h14)
    · exact hlen
  · have h8 : 8 ≤ k := (Nat.pow_le_pow_iff_right Nat.one_lt_two).1 hk8
    exact (tsize_le_two_pow_iff .ceil len k).2 ((hceil k).2 ⟨h8, .inr hk⟩)
  · have hbits : ¬ tableBits .ceil len ≤ 13 := by rw [hceil]; omega
    exact Nat.le_antisymm ((tsize_le_two_pow_iff .ceil len 14).2 (tableBits_le .ceil len))
      ((two_pow_le_tsize_iff .ceil len 14).2 (by omega))

end Sys2Proof.Machine
end

section
/-! SUPPORT. What `encode(src)` produces: segments that begin with a literal, a block that decodes to its input, within the
expansion bound, whatever the table held (41 R151, R176 to R179). -/

namespace Sys2Proof.Machine

/-! ### The first element of a segment -/

theorem applyCopy_nil (offset length : Nat) : applyCopy offset length [] = none := by
  rw [applyCopy, if_neg]
  simp only [List.length_nil]
  omega

/-- Before any output no copy can be applied (30 R105), and a literal that the engine may emit has the shortest form for its bytes
(40 R130, 30 R116). -/
theorem exists_literalElement_of_applyElement_nil {i : Instr} (he : engineEmits i = true) (ha : applyElement i [] ≠ none) :
    ∃ lit, i = literalElement lit ∧ lit ≠ [] := by
  cases i with
  | encode | maxlen | initWriter | write | flush | close | resetStream | illegal | lit3 | lit4 | copy4
  | chunkStreamId | chunkCompressed | chunkUncompressed => simp [engineEmits] at he
  | copy1 offset len | copy2 offset len => exact absurd (applyCopy_nil ..) ha
  | litInline lit =>
    obtain ⟨h1, h60⟩ := literalFits_iff.1 he
    exact ⟨lit, by rw [literalElement, if_pos (by omega)], List.length_pos_iff.1 h1⟩
  | lit1 lit =>
    simp only [engineEmits, Bool.and_eq_true, decide_eq_true_eq] at he
    exact ⟨lit, by rw [literalElement, if_neg (by omega), if_pos (by omega)], List.length_pos_iff.1 (by omega)⟩
  | lit2 lit =>
    simp only [engineEmits, Bool.and_eq_true, decide_eq_true_eq] at he
    exact ⟨lit, by rw [literalElement, if_neg (by omega), if_neg (by omega)], List.length_pos_iff.1 (by omega)⟩

/-- Elements that decode to something begin with a nonempty literal. -/
theorem Emits.literal_first {els : List Instr} {u : List Byte} (h : Emits els u) (hu : u ≠ []) :
    ∃ lit rest, els = literalElement lit :: rest ∧ lit ≠ [] := by
  obtain ⟨hemit, happly⟩ := h
  have hdecode : applyElements els [] = some u := happly []
  cases els with
  | nil => exact absurd (Option.some.inj hdecode).symm hu
  | cons i rest =>
    have happlies : applyElement i [] ≠ none := fun hnone => by simp [applyElements, hnone] at hdecode
    obtain ⟨lit, rfl, hlit⟩ := exists_literalElement_of_applyElement_nil (hemit i List.mem_cons_self) happlies
    exact ⟨lit, rest, rfl, hlit⟩

/-- Settles O12: the elements of a matcher run decode to its segment, so that no copy can come first. -/
theorem segmentEncoding : Obligations.SegmentEncoding := by
  intro rule seg t hmin hmax ht
  have hemits := encodeBlock_emits rule hmin hmax ht
  exact ⟨hemits.literal_first (List.length_pos_iff.1 (by omega)), hemits.1, hemits.2 []⟩

/-! ### The block -/

/-- Settles O13: a run reads only slots it has cleared. -/
theorem encodeIgnoresTable : Obligations.EncodeIgnoresTable := fun rule src _ dp ht => encodeSrc_bytes_eq rule src ht dp

theorem maxEncodedLen_eq_some_iff (n m : Nat) : maxEncodedLen n = some m ↔ n ≤ 3681400511 ∧ m = 32 + n + n / 6 := by
  rw [maxEncodedLen_eq, Option.ite_none_right_eq_some, Option.some.injEq, eq_comm]

/-- Settles O14: the elements decode to the source, and its length fits the varint. -/
theorem blockRoundTrip : Obligations.BlockRoundTrip := by
  intro rule src h
  obtain ⟨m, hm⟩ := Option.isSome_iff_exists.1 h
  obtain ⟨hlen, -⟩ := (maxEncodedLen_eq_some_iff _ _).1 hm
  exact decodeBlock_encodeSrc rule (by omega) reset_table_wf Datapath.zero

/-- Settles O15: the varint takes at most five bytes, and the elements at most a sixth more than the source. -/
theorem encodedLengthBound : Obligations.EncodedLengthBound := by
  intro rule src m hm
  obtain ⟨-, rfl⟩ := (maxEncodedLen_eq_some_iff _ _).1 hm
  exact encodeSrc_length_le rule src reset_table_wf Datapath.zero

end Sys2Proof.Machine
end

section
/-! SUPPORT. MAXLEN and ENCODE as commands: the bound, the checks in their order, and the state each one leaves (41 R180 to
R182). -/

namespace Sys2Proof.Machine

/-- Settles O10: the bound has a value up to 3681400511, and MAXLEN is a `finish` with it or with the sentinel. -/
theorem maxlenCommand : Obligations.MaxlenCommand := by
  refine ⟨maxEncodedLen_eq_some_iff, fun s => ?_⟩
  simp only [exec, execMaxlen, maxEncodedLen_eq]
  by_cases h : s.args.srcLen.toNat ≤ 3681400511
  · simp only [h, if_true]
    rfl
  · simp only [h, if_false]
    rfl

theorem not_rangeValid_iff {p : Params} {a : Word} {n : Nat} :
    (!rangeValid p a n) = true ↔ n ≠ 0 ∧ p.hostMemSize < a.toNat + n := by
  rw [Bool.not_eq_true', ← Bool.not_eq_true, rangeValid_iff, not_or, Nat.not_le]

theorem sourceOverlaps_iff {a b : Word} {n c : Nat} :
    (decide (0 < n) && overlap a n b c) = true ↔ n ≠ 0 ∧ a.toNat < b.toNat + c ∧ b.toNat < a.toNat + n := by
  rw [Bool.and_eq_true, decide_eq_true_eq, Nat.pos_iff_ne_zero, overlap_iff]

/-- The checks of ENCODE, in their order and in the spec's arithmetic (41 R180, 20 R62). -/
theorem encodeCheck_eq (p : Params) (a : Args) :
    encodeCheck p a =
      if 3681400511 < a.srcLen.toNat then some .tooLarge
      else if a.srcLen.toNat ≠ 0 ∧ p.hostMemSize < a.srcAddr.toNat + a.srcLen.toNat then some .address
      else if a.dstCap.toNat ≠ 0 ∧ p.hostMemSize < a.dstAddr.toNat + a.dstCap.toNat then some .address
      else if a.dstCap.toNat < 32 + a.srcLen.toNat + a.srcLen.toNat / 6 then some .dstTooSmall
      else if a.srcLen.toNat ≠ 0 ∧ a.srcAddr.toNat < a.dstAddr.toNat + a.dstCap.toNat
          ∧ a.dstAddr.toNat < a.srcAddr.toNat + a.srcLen.toNat then some .overlap
      else none := by
  unfold encodeCheck
  rw [maxEncodedLen_eq]
  by_cases h : a.srcLen.toNat ≤ 3681400511
  · rw [if_pos h, if_neg (Nat.not_lt.2 h)]
    simp only [not_rangeValid_iff, sourceOverlaps_iff]
  · rw [if_neg h, if_pos (Nat.not_le.1 h)]

section
variable {s : State} (hr : s.raced = false)
include hr

/-- Outside a race a check that fails finishes with its code and `RESULT` 0 (41 R180). -/
theorem exec_encode_of_check {code : ResultCode} (h : encodeCheck s.params s.args = some code) :
    exec .encode s = .next (finish code 0 s) := by
  simp only [exec, execEncode, h, finishData_eq hr, BitVec.ofNat_eq_ofNat]

/-- With no race at all, an ENCODE whose checks pass stores the encoded source and finishes with its length (41 R180). -/
theorem exec_encode_of_passes (hb : s.racedBytes = []) (h : encodeCheck s.params s.args = none) :
    exec .encode s = .next (finish .ok (BitVec.ofNat 32 s.encodeOutput.bytes.length)
      { s with
        table := s.encodeOutput.table
        dp := s.encodeOutput.dp
        mem := memWrite s.mem s.args.dstAddr.toNat s.encodeOutput.bytes }) := by
  simp only [exec, execEncode, h, storeEncoded_eq hr hb]

end

/-- Settles O16: check by check in their order, and the encoded source at the destination when all pass. -/
theorem encodeCommand : Obligations.EncodeCommand := by
  rintro s n cap out rfl rfl rfl htable hr hb
  have hbytes : s.encodeOutput.bytes = encodeBytes s.params.tableSizeRule s.source := encodeSrc_bytes_eq _ _ htable _
  have hcheck := encodeCheck_eq s.params s.args
  split_ifs at hcheck ⊢
  case neg =>
    rw [exec_encode_of_passes hr hb hcheck, hbytes]
    exact ⟨_, _, rfl⟩
  all_goals exact exec_encode_of_check hr hcheck

end Sys2Proof.Machine
end

section
/-! SUPPORT. The CRC mask undone, and the choice between a compressed and an uncompressed chunk (42 R193, R200). -/

namespace Sys2Proof.Machine

/-- Settles O20: bits 15 to 31 of the CRC come back from below the rotation's cut, bits 0 to 14 from above it. -/
theorem maskUnmask : Obligations.MaskUnmask := by
  intro c
  refine ⟨rfl, ?_⟩
  have hsub : mask c - Config.crcMaskConstant = c >>> 15 ||| c <<< 17 := BitVec.add_sub_cancel ..
  rw [unmask, hsub]
  ext k hk
  have hhigh : c.getLsbD (15 + (17 + k)) = false := BitVec.getLsbD_of_ge _ _ (by omega)
  by_cases h15 : k < 15
  · have h32 : 17 + k < 32 := by omega
    simp [h15, h32, hhigh]
  · have h32 : ¬17 + k < 32 := by omega
    have h17 : k - 15 < 17 := by omega
    have hback : 15 + (k - 15) = k := by omega
    simp [h15, h32, h17, hback, hhigh, BitVec.getLsbD_eq_getElem hk]

/-- At most a block of bytes is one segment (41 R166). -/
theorem segmentsOf_of_le {u : List Byte} (h1 : u ≠ []) (hmax : u.length ≤ 65536) : segmentsOf u = [u] := by
  rw [segmentsOf_cons h1, List.take_of_length_le (by rw [maxBlockSize_eq]; exact hmax),
    List.drop_of_length_le (by rw [maxBlockSize_eq]; exact hmax), segmentsOf_nil]

/-- An input of 1 to 7 bytes is encoded as its varint and one literal, which is longer than the input (41 R166). -/
theorem length_lt_encodeBytes_length (rule : TableSizeRule) {u : List Byte} (h1 : 1 ≤ u.length) (h7 : u.length ≤ 7) :
    u.length < (encodeBytes rule u).length := by
  have hsegments : segmentsOf u = [u] := segmentsOf_of_le (List.ne_nil_of_length_pos h1) (by omega)
  have hshort : u.length < Config.minNonLiteralBlockSize := by
    rw [Config.minNonLiteralBlockSize]
    omega
  have hbytes : encodeBytes rule u = putVarint u.length ++ emitLiteral u := by
    simp [encodeBytes, encodeSrc, closeBlock, blockBytes, encodeRun, hsegments, encodeSegment, hshort, emitLiteral]
  have hvarint := varintLoop_length_pos 4 u.length
  rw [hbytes, List.length_append, emitLiteral_length h1, putVarint]
  omega

/-- The chunk of `u` on any table, with the encoding of the pure function (42 R200, R201). -/
theorem frameChunk_chunk (rule : TableSizeRule) (u : List Byte) {t : Table} (ht : t.wf) (dp : Datapath) :
    (frameChunk rule u t dp).chunk =
      if (encodeBytes rule u).length < u.length - u.length / 8 then .chunkCompressed (crcField u) (encodeBytes rule u)
      else .chunkUncompressed (crcField u) u := by
  simp only [frameChunk, frameEncoded, encodeSrc_bytes_eq rule u ht dp, selectsCompressed, decide_eq_true_eq]

/-- Settles O21: 7 bytes or fewer have an encoding of more, and no eighth to take off. -/
theorem chunkSelection : Obligations.ChunkSelection := by
  rintro rule u t dp e ht rfl
  refine ⟨frameChunk_chunk rule u ht dp, by omega, fun h7 => ?_⟩
  rw [frameChunk_chunk rule u ht dp, if_neg]
  rcases Nat.eq_zero_or_pos u.length with h0 | h1
  · omega
  · have := length_lt_encodeBytes_length rule h1 h7
    omega

end Sys2Proof.Machine
end

section
/-! SUPPORT. ENCODE and MAXLEN beside the writer: their rules neither read nor change it (42 R217). -/

namespace Sys2Proof.Machine

/-- The state with another writer, unseen by the trail. -/
def State.replaceWriter (s : State) (w : Writer) : State := { s with writer := w }

/-- An operation neither reads nor changes the writer. -/
def IgnoresWriter (f : State → State) : Prop := ∀ s w, f (s.replaceWriter w) = (f s).replaceWriter w

theorem finishData_ignoresWriter (code : ResultCode) (n : Nat) : IgnoresWriter (finishData code n) := by
  intro s w
  have hraced : (s.replaceWriter w).raced = s.raced := rfl
  unfold finishData
  rw [hraced]
  split <;> rfl

theorem storeOutput_ignoresWriter (out : List Byte) : IgnoresWriter (State.storeOutput · out) := by
  intro s w
  have hraced : (s.replaceWriter w).raced = s.raced := rfl
  simp only [State.storeOutput, hraced]
  split <;> rfl

theorem drawRacedBytes_ignoresWriter (as : List Nat) : IgnoresWriter (State.drawRacedBytes · as) := by
  intro s w
  induction as generalizing s with
  | nil => rfl
  | cons a as ih => exact ih { (drawBytes 1 s).2 with mem := memPut s.mem a ((drawBytes 1 s).1.headD 0) }

theorem storeEncoded_ignoresWriter (e : Encoded) : IgnoresWriter (storeEncoded e) := by
  intro s w
  have hstore := storeOutput_ignoresWriter e.bytes (s.setInternals e.table e.dp) w
  have hdraw := drawRacedBytes_ignoresWriter s.racedBytes ((s.setInternals e.table e.dp).storeOutput e.bytes) w
  have hfinish := finishData_ignoresWriter .ok e.bytes.length
    (((s.setInternals e.table e.dp).storeOutput e.bytes).drawRacedBytes s.racedBytes) w
  calc storeEncoded e (s.replaceWriter w)
      = finishData .ok e.bytes.length
          ((((s.setInternals e.table e.dp).storeOutput e.bytes).replaceWriter w).drawRacedBytes s.racedBytes) :=
        congrArg (fun t : State => finishData .ok e.bytes.length (t.drawRacedBytes s.racedBytes)) hstore
    _ = (storeEncoded e s).replaceWriter w := (congrArg (finishData .ok e.bytes.length) hdraw).trans hfinish

/-- ENCODE and MAXLEN are one operation on the state, which ends the command and leaves the writer and the sink port alone. -/
theorem exec_block_command (s : State) {i : Instr} (hi : i = .encode ∨ i = .maxlen) :
    ∃ f : State → State, IgnoresWriter f ∧ (∀ w, exec i (s.replaceWriter w) = .next (f (s.replaceWriter w)))
      ∧ (f s).writer = s.writer ∧ (f s).sinkLog = s.sinkLog ∧ (f s).answers = s.answers ∧ (f s).ctrl = .idle := by
  rcases hi with rfl | rfl
  · cases hcheck : encodeCheck s.params s.args with
    | some code =>
      obtain ⟨r, k, hfinish⟩ := finishData_cases code 0 s
      refine ⟨finishData code 0, finishData_ignoresWriter code 0, fun w => ?_, ?_⟩
      · have hcheck' : encodeCheck (s.replaceWriter w).params (s.replaceWriter w).args = some code := hcheck
        simp only [exec, execEncode, hcheck']
      · rw [hfinish]
        exact ⟨rfl, rfl, rfl, rfl⟩
    | none =>
      obtain ⟨m, k, r, hstore⟩ := storeEncoded_cases s.encodeOutput s
      refine ⟨storeEncoded s.encodeOutput, storeEncoded_ignoresWriter _, fun w => ?_, ?_⟩
      · have hcheck' : encodeCheck (s.replaceWriter w).params (s.replaceWriter w).args = none := hcheck
        simp only [exec, execEncode, hcheck']
        rfl
      · rw [hstore]
        exact ⟨rfl, rfl, rfl, rfl⟩
  · refine ⟨finish .ok (if s.args.srcLen.toNat ≤ 3681400511 then
        BitVec.ofNat 32 (32 + s.args.srcLen.toNat + s.args.srcLen.toNat / 6) else 0xFFFFFFFF),
      fun _ _ => rfl, fun w => ?_, rfl, rfl, rfl, rfl⟩
    exact maxlenCommand.2 (s.replaceWriter w)

/-- Settles O18: each of the two is one operation that ignores the writer. -/
theorem encodeIgnoresWriter : Obligations.EncodeIgnoresWriter := by
  intro s w i hi
  obtain ⟨f, hignores, hexec, hkept⟩ := exec_block_command s hi
  exact ⟨f s, hexec s.writer, (hexec w).trans (congrArg _ (hignores s w)), hkept⟩

end Sys2Proof.Machine
end

section
/-! SUPPORT. INIT_WRITER and RESET_STREAM, and a WRITE that fails a check (42 R206, R207, R214, R216). -/

namespace Sys2Proof.Machine

/-- Settles O23: both are a new stream with a Fresh writer. -/
theorem writerResets : Obligations.WriterResets := ⟨fun s mode => execInitWriter_eq mode s, execResetStream_eq⟩

/-- Outside a race a WRITE whose check fails finishes with its code and `RESULT` 0 (42 R207). -/
theorem exec_write_of_check {s : State} (hr : s.raced = false) {code : ResultCode} (h : writeCheck s = some code) :
    exec .write s = .next (finish code 0 s) := by
  simp only [exec, execWrite, h, finishData_eq hr, BitVec.ofNat_eq_ofNat]

/-- Settles O24, check by check. -/
theorem writePreChecks : Obligations.WritePreChecks := by
  intro s hr
  refine ⟨fun h => ?_, fun h => ?_, fun hlive hlen hsrc => ?_⟩
  · exact exec_write_of_check hr (by simp only [writeCheck, latchedError, h])
  · exact exec_write_of_check hr (by simp only [writeCheck, latchedError, h])
  · have hrange : ¬rangeValid s.params s.args.srcAddr s.args.srcLen.toNat = true := by
      rw [rangeValid_iff, word_toNat_eq_zero]
      exact not_or.2 ⟨hlen, Nat.not_le.2 hsrc⟩
    exact exec_write_of_check hr (by rw [writeCheck, latchedError_live hlive]; exact if_neg hrange)

end Sys2Proof.Machine
end

section
/-! SUPPORT. A chunk of the framed writer with a failed transfer, and the commands of one chunk: FLUSH and CLOSE (42 R203,
R212 to R214). -/

namespace Sys2Proof.Machine

/-- The sink has taken the transfers `taken` and failed the next, `b`, with `code`. -/
def ChunkFailed (s t : State) (taken : List (List Byte)) (b : List Byte) (code : SinkCode) (consumed : Nat) : Prop :=
  ∃ table obuf dp ctrl trail, t = { s with
    writer := { s.writer with wstate := .errored, hdr := true, sinkErr := code.val }
    sinkLog := s.sinkLog ++ takenLog taken ++ [.transfer b (.answered (.err code consumed))]
    table := table, obuf := obuf, dp := dp, ctrl := ctrl, trail := trail }

/-- A transfer that fails ends the chunk, and no later one is offered (42 R203). -/
theorem takeAnswers_emitChunk_failed {s : State} (hr : s.raced = false) (ht : s.table.wf) {u : List Byte} (hu : u ≠ [])
    (after : After) {k : Nat} {b : List Byte} (hb : (chunkTransfers s.params s.writer.hdr u)[k]? = some b) (code : SinkCode)
    (consumed : Nat) (as : List SinkAnswer) :
    ∃ t, ChunkFailed s t ((chunkTransfers s.params s.writer.hdr u).take k) b code consumed
      ∧ takeAnswers (List.replicate k .ok ++ .err code consumed :: as) (emitChunk u after s) =
          takeAnswers as (afterErr after t) := by
  obtain ⟨t, payload, hawaits, -, htake⟩ := takeAnswers_emitChunk_awaits hr ht hu after hb (.err code consumed :: as)
  rw [htake, takeAnswers_awaiting hawaits.ctrl]
  obtain ⟨table, obuf, dp, trail, -, rfl⟩ := hawaits
  exact ⟨_, ⟨table, obuf, dp, _, _, rfl⟩, rfl⟩

/-- A command that has finished takes no answer. -/
theorem takeAnswers_finish (as : List SinkAnswer) (code : ResultCode) (r : Word) (s : State) :
    takeAnswers as (finish code r s) = finish code r (s.setAnswers as) :=
  takeAnswers_of_not_awaiting (fun _ => by simp) as

section
variable {s : State} (hr : s.raced = false) (ht : s.table.wf) (hbuf : s.writer.ibuf ≠ []) (after : After)
include hr ht hbuf

/-- Buffered bytes framed with an answer for each transfer: FLUSH or CLOSE goes on from an empty buffer (42 R212, R213). -/
theorem settle_emitBuffered_taken {rest : List SinkAnswer}
    (ha : s.answers = List.replicate (chunkTransfers s.params s.writer.hdr s.writer.ibuf).length .ok ++ rest) :
    ∃ t, ChunksTaken (s.setIbuf []) t (chunkTransfers s.params s.writer.hdr s.writer.ibuf)
      ∧ settle (emitBuffered after s) = takeAnswers rest (afterOk emitChunk after t) := by
  have hanswers : (emitBuffered after s).answers = s.answers := (emitChunk_ignoresAnswers _ after).answers_eq (s.setIbuf [])
  rw [settle, hanswers, ha]
  exact takeAnswers_emitChunk_taken (s := s.setIbuf []) hr ht hbuf after rest

/-- Buffered bytes framed with an answer that fails a transfer: FLUSH or CLOSE ends by it (42 R203, R212, R213). -/
theorem settle_emitBuffered_failed {k : Nat} {b : List Byte}
    (hb : (chunkTransfers s.params s.writer.hdr s.writer.ibuf)[k]? = some b) {code : SinkCode} {consumed : Nat}
    {rest : List SinkAnswer} (ha : s.answers = List.replicate k .ok ++ .err code consumed :: rest) :
    ∃ t, ChunkFailed (s.setIbuf []) t ((chunkTransfers s.params s.writer.hdr s.writer.ibuf).take k) b code consumed
      ∧ settle (emitBuffered after s) = takeAnswers rest (afterErr after t) := by
  have hanswers : (emitBuffered after s).answers = s.answers := (emitChunk_ignoresAnswers _ after).answers_eq (s.setIbuf [])
  rw [settle, hanswers, ha]
  exact takeAnswers_emitChunk_failed (s := s.setIbuf []) hr ht hbuf after hb code consumed rest

end

/-- Settles O31: the latched error, the no-op, and the one chunk of the buffer, taken or failed. -/
theorem flushCommand : Obligations.FlushCommand := by
  rintro s ts rfl
  refine ⟨fun h => ?_, fun h => ?_, fun hlive hnone => ?_, fun hlive hmode hbuf ht hr => ?_⟩
  · simp only [exec, execFlush, latchedError, h]
  · simp only [exec, execFlush, latchedError, h]
  · simp only [exec, execFlush, latchedError_live hlive, hnone, if_true]
  · have hexec : exec .flush s = .next (settle (emitBuffered .flush s)) := by
      simp only [exec, execFlush, latchedError_live hlive, hmode, hbuf, reduceCtorEq, or_self, if_false]
    rw [hexec]
    refine ⟨fun rest ha => ?_, fun k b code consumed rest hb ha => ?_⟩
    · obtain ⟨t, ⟨table, obuf, dp, ctrl, trail, -, rfl⟩, hsettle⟩ := settle_emitBuffered_taken hr ht hbuf .flush ha
      rw [hsettle, afterOk, takeAnswers_finish]
      exact ⟨table, obuf, dp, trail, rfl⟩
    · obtain ⟨t, ⟨table, obuf, dp, ctrl, trail, rfl⟩, hsettle⟩ := settle_emitBuffered_failed hr ht hbuf .flush hb ha
      rw [hsettle, afterErr, takeAnswers_finish]
      exact ⟨table, obuf, dp, trail, rfl⟩

/-- Settles O32: as FLUSH, but that the writer ends Closed. -/
theorem closeCommand : Obligations.CloseCommand := by
  rintro s ts rfl
  refine ⟨fun h => ?_, fun h => ?_, fun hlive hnone => ?_, fun hlive hmode hbuf ht hr => ?_⟩
  · simp only [exec, execClose, h]
  · simp only [exec, execClose, h]
    exact ⟨_, rfl⟩
  · have hframes : ¬(s.writer.wmode = .buffered ∧ s.writer.ibuf ≠ []) := by
      rintro ⟨hmode, hbuf⟩
      simp [hmode, hbuf] at hnone
    rcases hlive with hlive | hlive <;> simp only [exec, execClose, hlive, hframes, if_false] <;> exact ⟨_, rfl⟩
  · have hexec : exec .close s = .next (settle (emitBuffered .close s)) := by
      rcases hlive with hlive | hlive <;> simp [exec, execClose, hlive, hmode, hbuf]
    rw [hexec]
    refine ⟨fun rest ha => ?_, fun k b code consumed rest hb ha => ?_⟩
    · obtain ⟨t, ⟨table, obuf, dp, ctrl, trail, -, rfl⟩, hsettle⟩ := settle_emitBuffered_taken hr ht hbuf .close ha
      rw [hsettle, afterOk, takeAnswers_finish]
      exact ⟨table, obuf, dp, _, rfl⟩
    · obtain ⟨t, ⟨table, obuf, dp, ctrl, trail, rfl⟩, hsettle⟩ := settle_emitBuffered_failed hr ht hbuf .close hb ha
      rw [hsettle, afterErr, takeAnswers_finish]
      exact ⟨table, obuf, dp, _, rfl⟩

end Sys2Proof.Machine
end

section
/-! SUPPORT. A WRITE outside a race, turn by turn: the chunks it frames, the bytes it has absorbed, and what is left (42 R207 to
R211). Beside `WriteLeft`, which counts no bytes, and asks for room in the buffer of an unbuffered writer too. -/

namespace Sys2Proof.Machine

/-! ### The writer's buffer -/

/-- The bytes in the buffer of a buffered writer; an unbuffered one has no use for it (42 R207, R208). -/
def Writer.held (w : Writer) : List Byte := if w.wmode = .unbuffered then [] else w.ibuf

/-- The writer with `v` in its buffer, if it is a buffered one. -/
def Writer.holding (v : List Byte) (w : Writer) : Writer := { w with ibuf := if w.wmode = .unbuffered then w.ibuf else v }

/-- The writer once the sink has taken the chunks `us` of a WRITE (42 R202). -/
def Writer.wrote (us : List (List Byte)) (w : Writer) : Writer :=
  if us = [] then w else { w.holding [] with wstate := .streaming, hdr := true }

section
variable {w : Writer} {v : List Byte}

theorem held_unbuffered (h : w.wmode = .unbuffered) : w.held = [] := if_pos h

theorem held_buffered (h : w.wmode = .buffered) : w.held = w.ibuf := by simp [Writer.held, h]

theorem holding_unbuffered (h : w.wmode = .unbuffered) : w.holding v = w := by rw [Writer.holding, if_pos h]

theorem holding_buffered (h : w.wmode = .buffered) : w.holding v = { w with ibuf := v } := by simp [Writer.holding, h]

@[simp] theorem holding_held : w.holding w.held = w := by
  cases hm : w.wmode with
  | unbuffered => rw [holding_unbuffered hm]
  | buffered => rw [held_buffered hm, holding_buffered hm]

@[simp] theorem held_holding_nil : (w.holding []).held = [] := by
  simp only [Writer.held, Writer.holding]
  split_ifs <;> rfl

theorem wrote_nil : w.wrote [] = w := rfl

theorem wrote_of_ne_nil {us : List (List Byte)} (h : us ≠ []) :
    w.wrote us = { w.holding [] with wstate := .streaming, hdr := true } := if_neg h

theorem wrote_hdr (us : List (List Byte)) : (w.wrote us).hdr = (w.hdr || us ≠ []) := by
  by_cases h : us = []
  · simp [h, wrote_nil]
  · simp [h, wrote_of_ne_nil]

/-- The chunks before a failed one leave no trace in the writer (42 R203). -/
theorem errored_wrote (us : List (List Byte)) (code : Word) :
    { (w.wrote us).holding [] with wstate := .errored, hdr := true, sinkErr := code } =
      { w.holding [] with wstate := .errored, hdr := true, sinkErr := code } := by
  by_cases h : us = []
  · rw [h, wrote_nil]
  · simp only [wrote_of_ne_nil h, Writer.holding]
    split_ifs <;> rfl

theorem wrote_wrote (us vs : List (List Byte)) : (w.wrote us).wrote vs = w.wrote (us ++ vs) := by
  by_cases hu : us = []
  · rw [hu, wrote_nil, List.nil_append]
  · by_cases hv : vs = []
    · rw [hv, wrote_nil, List.append_nil]
    · simp only [Writer.wrote, Writer.holding, List.append_eq_nil_iff, hu, hv, and_self, if_false]
      split_ifs <;> rfl

end

/-! ### Chunks taken -/

/-- The states differ in what the chunks `us` of a WRITE change, once the sink has taken them. -/
def Wrote (s t : State) (us : List (List Byte)) : Prop :=
  ∃ table obuf dp ctrl trail, t = { s with
    writer := s.writer.wrote us
    sinkLog := s.sinkLog ++ takenLog (streamTransfers s.params s.writer.hdr us)
    table := table, obuf := obuf, dp := dp, ctrl := ctrl, trail := trail }

theorem streamTransfers_append (p : Params) (hdr : Bool) (us vs : List (List Byte)) :
    streamTransfers p hdr (us ++ vs) = streamTransfers p hdr us ++ streamTransfers p (hdr || us ≠ []) vs := by
  induction us generalizing hdr with
  | nil => simp [streamTransfers]
  | cons u us ih => simp [streamTransfers, ih]

theorem Wrote.refl (s : State) : Wrote s s [] :=
  ⟨s.table, s.obuf, s.dp, s.ctrl, s.trail, by rw [wrote_nil, streamTransfers, takenLog, List.map_nil, List.append_nil]⟩

theorem Wrote.trans {s t r : State} {us vs : List (List Byte)} (h : Wrote s t us) (k : Wrote t r vs) :
    Wrote s r (us ++ vs) := by
  obtain ⟨_, _, _, _, _, rfl⟩ := h
  obtain ⟨table, obuf, dp, ctrl, trail, rfl⟩ := k
  refine ⟨table, obuf, dp, ctrl, trail, ?_⟩
  rw [← wrote_wrote, streamTransfers_append, takenLog_append, ← List.append_assoc, ← wrote_hdr]

/-! ### Turns -/

/-- A turn of the loop of a WRITE: the state before it, the input left, the bytes absorbed so far, and whether the rest is
framed directly (42 R207, R208, R210). -/
structure WriteTurn where
  state : State
  input : List Byte
  absorbed : Nat
  direct : Bool

namespace WriteTurn

/-- The loop of the WRITE from this turn on, to its next transfer or its `finish`. -/
def run (c : WriteTurn) : State := continueWrite emitChunk c.input c.absorbed c.direct c.state

/-- The chunks left to frame. -/
def pieces (c : WriteTurn) : List (List Byte) := piecesLeft c.state.params c.state.writer c.input c.direct

/-- The bytes not yet framed. -/
def unframed (c : WriteTurn) : List Byte := c.state.writer.held ++ c.input

/-- The chunk after `us` goes through the buffer, so that its bytes count as absorbed even if it fails (42 R208 to R210). -/
def throughBuffer (c : WriteTurn) (us : List (List Byte)) : Bool :=
  !c.direct && goesThroughBuffer c.state.params c.state.writer c.input us

/-- What holds before every turn, outside a race (42 R207 to R210). -/
structure Stands (c : WriteTurn) : Prop where
  raced : c.state.raced = false
  table : c.state.table.wf
  buffered : c.direct = false → c.state.writer.wmode = .buffered
  empty : c.direct = true → c.state.writer.held = []
  room : c.state.writer.held.length < 65536

/-- Between the turns `c` and `d` the chunks `us` are framed, no byte is lost, and the absorbed bytes are the input's. -/
structure Counts (c : WriteTurn) (us : List (List Byte)) (d : WriteTurn) : Prop where
  pieces : c.pieces = us ++ d.pieces
  bytes : us.flatten ++ d.unframed = c.unframed
  absorbed : d.absorbed + d.input.length = c.absorbed + c.input.length
  through : ∀ vs, vs.length < d.pieces.length → d.throughBuffer vs = c.throughBuffer (us ++ vs)

theorem Counts.refl (c : WriteTurn) : c.Counts [] c := ⟨rfl, rfl, rfl, fun _ _ => rfl⟩

theorem Counts.trans {c d e : WriteTurn} {us vs : List (List Byte)} (h : c.Counts us d) (k : d.Counts vs e) :
    c.Counts (us ++ vs) e := by
  refine ⟨?_, ?_, k.absorbed.trans h.absorbed, fun ws hws => ?_⟩
  · rw [h.pieces, k.pieces, List.append_assoc]
  · rw [List.flatten_append, List.append_assoc, k.bytes, h.bytes]
  · have hlen : (vs ++ ws).length < d.pieces.length := by
      rw [k.pieces, List.length_append, List.length_append]
      omega
    rw [k.through ws hws, h.through _ hlen, List.append_assoc]

/-- The bytes the chunk `u`, emitted by this turn, adds to the absorbed ones once it is taken (42 R207 to R209). -/
def gain (c : WriteTurn) (u : List Byte) : Nat := if c.throughBuffer [] then 0 else u.length

/-- The turn emits the chunk `u`; the next turn is `d`, but for what the sink's taking of the chunk changes. -/
structure Emits (c : WriteTurn) (u : List Byte) (d : WriteTurn) : Prop where
  nonempty : u ≠ []
  run : ∃ count, count + c.gain u = d.absorbed ∧ c.run = emitChunk u (.write d.input count (c.gain u) d.direct) d.state
  state : ∃ trail, d.state = { c.state with writer := c.state.writer.holding [], trail := trail }
  counts : c.Counts [u] d
  stands : d.Stands

/-! ### A turn that frames a block of the input -/

section
variable {c : WriteTurn} (h : c.Stands)
include h

/-- The next block of the input is framed, with nothing in the buffer (42 R207, R208, R210). -/
theorem Stands.emits_block {direct : Bool} (hdirect : direct = false → c.direct = false) (hheld : c.state.writer.held = [])
    (hne : c.input ≠ []) (hrun : c.run = writeBlock emitChunk c.input c.absorbed direct c.state)
    (hpieces : c.pieces = c.input.take 65536 :: piecesLeft c.state.params c.state.writer (c.input.drop 65536) direct)
    (hthrough : ∀ us, c.throughBuffer us = false)
    (hthrough' : ∀ input absorbed us, throughBuffer ⟨c.state, input, absorbed, direct⟩ us = false) :
    c.Emits (c.input.take 65536) ⟨c.state, c.input.drop 65536, c.absorbed + (c.input.take 65536).length, direct⟩ := by
  have hgain : c.gain (c.input.take 65536) = (c.input.take 65536).length := by simp [gain, hthrough]
  have hsame : c.state.writer.holding [] = c.state.writer := by rw [← hheld, holding_held]
  refine ⟨by simp [hne], ⟨c.absorbed, by rw [hgain], by rw [hgain, hrun]; rfl⟩, ⟨c.state.trail, by rw [hsame]⟩,
    ⟨hpieces, ?_, ?_, fun us _ => ?_⟩, h.raced, h.table, fun hd => h.buffered (hdirect hd), fun _ => hheld, h.room⟩
  · rw [unframed, unframed, hheld, List.nil_append, List.nil_append, List.flatten_singleton, List.take_append_drop]
  · simp only [List.length_take, List.length_drop]
    omega
  · rw [hthrough, hthrough']

/-- A turn that goes direct frames a block, and the rest goes direct too (42 R207, R210). -/
theorem Stands.emits_direct (hne : c.input ≠ []) (hgoes : goesDirect c.input c.direct c.state = true) :
    ∃ u d, c.Emits u d := by
  have hrun : c.run = writeBlock emitChunk c.input c.absorbed true c.state := by
    simp only [run, continueWrite, raceInput_eq h.raced, hne, hgoes, if_true, if_false]
  have hsegments := segmentsOf_cons hne
  cases hd : c.direct with
  | true =>
    have hpieces : c.pieces = segmentsOf c.input := if_pos hd
    exact ⟨_, _, h.emits_block (direct := true) nofun (h.empty hd) hne hrun (hpieces.trans hsegments)
      (fun _ => by simp [throughBuffer, hd]) fun _ _ _ => rfl⟩
  | false =>
    obtain ⟨hwhole, hempty, hlen⟩ := (goesDirect_iff.1 hgoes).resolve_left (by simp [hd])
    have hmode := h.buffered hd
    have hpieces : c.pieces = segmentsOf c.input := by
      rw [pieces, piecesLeft, hd, if_neg Bool.false_ne_true, writePieces_wholePiece hmode hwhole hempty hlen.le]
    have h64 : c.input.length ≠ Config.maxBlockSize := by
      rw [maxBlockSize_eq]
      omega
    exact ⟨_, _, h.emits_block (direct := true) nofun ((held_buffered hmode).trans hempty) hne hrun (hpieces.trans hsegments)
      (fun _ => by simp [throughBuffer, goesThroughBuffer, hwhole, hempty, h64]) fun _ _ _ => rfl⟩

/-- In BLOCK mode a whole block passes an empty buffer by (42 R208). -/
theorem Stands.emits_through (hd : c.direct = false) (hgoes : ¬goesDirect c.input c.direct c.state = true)
    (hthrough : passesThrough c.input c.state = true) : ∃ u d, c.Emits u d := by
  obtain ⟨hblock, hempty, hlen⟩ := passesThrough_iff.1 hthrough
  have hmode := h.buffered hd
  have hne : c.input ≠ [] := List.ne_nil_of_length_pos (by omega)
  have hsame : { c.state.writer with ibuf := [] } = c.state.writer := by rw [← hempty]
  have hrun : c.run = writeBlock emitChunk c.input c.absorbed false c.state := by
    simp only [run, continueWrite, raceInput_eq h.raced, hne, hgoes, hthrough, if_true, if_false]
    rfl
  have hpieces : c.pieces = c.input.take 65536 ::
      piecesLeft c.state.params c.state.writer (c.input.drop 65536) false := by
    rw [pieces, piecesLeft, hd, if_neg Bool.false_ne_true, writePieces_of_le hmode (by simp [hempty]) (by omega) (.inl hblock),
      hsame, hempty]
    rfl
  exact ⟨_, _, h.emits_block (fun _ => hd) ((held_buffered hmode).trans hempty) hne hrun hpieces
    (fun _ => by simp [throughBuffer, goesThroughBuffer, hblock, hempty])
    fun _ _ _ => by simp [throughBuffer, goesThroughBuffer, hblock, hempty]⟩

end

/-! ### A turn that fills the buffer -/

/-- How many bytes more the buffer takes (10 R42). -/
def free (c : WriteTurn) : Nat := 65536 - c.state.writer.ibuf.length

/-- The buffer filled from the input (42 R208, R209). -/
def fullBuffer (c : WriteTurn) : List Byte := c.state.writer.ibuf ++ c.input.take c.free

/-- The turn after the one that fills the buffer: the buffer is empty, and its bytes are absorbed (42 R208, R209). -/
def afterFill (c : WriteTurn) : WriteTurn :=
  ⟨(c.state.setIbuf c.fullBuffer).setIbuf [], c.input.drop c.free, c.absorbed + c.free, false⟩

@[simp] theorem afterFill_direct (c : WriteTurn) : c.afterFill.direct = false := rfl
@[simp] theorem afterFill_params (c : WriteTurn) : c.afterFill.state.params = c.state.params := rfl
@[simp] theorem afterFill_ibuf (c : WriteTurn) : c.afterFill.state.writer.ibuf = [] := rfl
theorem afterFill_length (c : WriteTurn) :
    c.afterFill.input.length = c.input.length - (Config.maxBlockSize - c.state.writer.ibuf.length) := List.length_drop

/-- The turn fills the buffer of a buffered writer, since no other case of the loop applies (42 R208 to R210). -/
structure Fills (c : WriteTurn) : Prop where
  buffered : c.direct = false
  notDirect : ¬goesDirect c.input c.direct c.state = true
  notThrough : ¬passesThrough c.input c.state = true
  full : 65536 ≤ c.state.writer.ibuf.length + c.input.length

section
variable {c : WriteTurn} (h : c.Fills)
include h

/-- The case that goes direct in WHOLE_PIECE mode does not apply (42 R210). -/
theorem Fills.block_or_buffered_or_le :
    c.state.params.largeWriteMode = .block ∨ c.state.writer.ibuf ≠ [] ∨ c.input.length ≤ 65536 := by
  cases hp : c.state.params.largeWriteMode with
  | block => exact .inl rfl
  | wholePiece =>
    by_contra hno
    simp only [reduceCtorEq, false_or, not_or, not_not, Nat.not_le] at hno
    exact h.notDirect (goesDirect_iff.2 (.inr ⟨hp, hno⟩))

/-- The chunk at hand counts as one that goes through the buffer (42 R208 to R210). -/
theorem Fills.throughBuffer_nil : c.throughBuffer [] = true := by
  have hd := h.buffered
  cases hp : c.state.params.largeWriteMode with
  | block =>
    have hempty : c.state.writer.ibuf ≠ [] := fun hempty =>
      h.notThrough (passesThrough_iff.2 ⟨hp, hempty, by simpa [hempty] using h.full⟩)
    simp [throughBuffer, hd, goesThroughBuffer, hp, hempty]
  | wholePiece =>
    have hcases : c.state.writer.ibuf ≠ [] ∨ c.input.length = Config.maxBlockSize := by
      by_cases hempty : c.state.writer.ibuf = []
      · have hle := h.block_or_buffered_or_le
        have hfull := h.full
        simp only [hp, hempty, reduceCtorEq, ne_eq, not_true, false_or, List.length_nil] at hle hfull
        exact .inr (by rw [maxBlockSize_eq]; omega)
      · exact .inl hempty
    simpa [throughBuffer, hd, goesThroughBuffer, hp] using hcases

theorem Fills.length_fullBuffer (hbuf : c.state.writer.ibuf.length < 65536) : c.fullBuffer.length = 65536 := by
  have hfull := h.full
  rw [fullBuffer, free, List.length_append, List.length_take]
  omega

/-- A rest of exactly a block that WHOLE_PIECE mode puts through the buffer is all that is left (42 R210). -/
theorem Fills.throughBuffer_afterFill (hmode : c.state.writer.wmode = .buffered) {us : List (List Byte)}
    (hus : us.length < c.afterFill.pieces.length) : c.afterFill.throughBuffer us = c.throughBuffer (c.fullBuffer :: us) := by
  have hd := h.buffered
  cases hp : c.state.params.largeWriteMode with
  | block => simp [throughBuffer, hd, goesThroughBuffer, hp]
  | wholePiece =>
    by_cases hempty : c.state.writer.ibuf = []
    · have hle := h.block_or_buffered_or_le
      simp only [hp, hempty, reduceCtorEq, ne_eq, not_true, false_or] at hle
      have hrest : c.afterFill.input.length = 0 := by
        rw [afterFill_length, maxBlockSize_eq, hempty, List.length_nil]
        omega
      have hnone : c.afterFill.pieces = [] :=
        writePieces_of_lt (w := c.afterFill.state.writer) hmode (by rw [hrest]; exact Nat.zero_lt_succ _)
      rw [hnone] at hus
      exact absurd hus (Nat.not_lt_zero _)
    · have hlength := afterFill_length c
      by_cases hone : c.afterFill.input.length = Config.maxBlockSize
      · have hlast : c.afterFill.pieces = [c.afterFill.input] :=
          (writePieces_wholePiece (w := c.afterFill.state.writer) hmode hp rfl hone.ge).trans
            (segmentsOf_of_le (List.ne_nil_of_length_pos (by rw [hone]; exact Nat.zero_lt_succ _)) hone.le)
        rw [hlast, List.length_singleton, Nat.lt_one_iff, List.length_eq_zero_iff] at hus
        simp [throughBuffer, hd, goesThroughBuffer, hp, hempty, hus, hone, hlength.symm.trans hone]
      · simp [throughBuffer, hd, goesThroughBuffer, hp, hempty, hone, hlength ▸ hone]

/-- A buffer that becomes full is emptied and framed, its bytes absorbed already (42 R208, R209). -/
theorem Fills.emits (hs : c.Stands) : c.Emits c.fullBuffer c.afterFill := by
  have hmode := hs.buffered h.buffered
  have hheld : c.state.writer.held = c.state.writer.ibuf := held_buffered hmode
  have hbuf : c.state.writer.ibuf.length < 65536 := hheld ▸ hs.room
  have hfull := h.full
  have hne : c.input ≠ [] := List.ne_nil_of_length_pos (by omega)
  have hlength := h.length_fullBuffer hbuf
  have hmin : min c.input.length (Config.maxBlockSize - c.state.writer.ibuf.length) = c.free := by
    rw [maxBlockSize_eq, free]
    omega
  have hgain : c.gain c.fullBuffer = 0 := if_pos h.throughBuffer_nil
  refine ⟨List.ne_nil_of_length_pos (by omega), ⟨c.absorbed + c.free, by rw [hgain]; rfl, ?_⟩,
    ⟨c.afterFill.state.trail, by rw [holding_buffered hmode]; rfl⟩,
    ⟨?_, ?_, ?_, fun us hus => h.throughBuffer_afterFill hmode hus⟩, hs.raced, hs.table, fun _ => hmode, nofun, ?_⟩
  · rw [hgain]
    simp only [run, continueWrite, raceInput_eq hs.raced, hne, h.notDirect, h.notThrough, Bool.false_eq_true, if_false,
      fillBuffer, hmin, setIbuf_writer]
    exact if_pos hlength
  · rw [pieces, piecesLeft, h.buffered, if_neg Bool.false_ne_true,
      writePieces_of_le hmode hbuf hfull h.block_or_buffered_or_le]
    rfl
  · rw [unframed, unframed, hheld, List.flatten_singleton, fullBuffer, List.append_assoc,
      held_buffered (w := c.afterFill.state.writer) hmode]
    exact congrArg _ (List.take_append_drop ..)
  · simp only [afterFill, free, List.length_drop]
    omega
  · rw [held_buffered (w := c.afterFill.state.writer) hmode]
    exact Nat.zero_lt_succ _

end

/-! ### Every turn -/

/-- No turn is left that frames a chunk: all the input is taken, or the rest does not fill the buffer (42 R207, R208). -/
def Ends (c : WriteTurn) : Prop :=
  c.input = [] ∨ c.direct = false ∧ c.state.writer.ibuf.length + c.input.length < 65536

section
variable {c : WriteTurn} (h : c.Stands)
include h

theorem Stands.pieces_of_ends (hends : c.Ends) : c.pieces = [] := by
  cases hd : c.direct with
  | true =>
    have hnil : c.input = [] := hends.resolve_right (by simp [hd])
    rw [pieces, piecesLeft, if_pos hd, hnil, segmentsOf_nil]
  | false =>
    have hmode := h.buffered hd
    have hroom := h.room
    rw [held_buffered hmode] at hroom
    have hlt : c.state.writer.ibuf.length + c.input.length < 65536 := by
      rcases hends with hnil | ⟨-, hlt⟩
      · rwa [hnil, List.length_nil, Nat.add_zero]
      · exact hlt
    rw [pieces, piecesLeft, hd, if_neg Bool.false_ne_true, writePieces_of_lt hmode hlt]

/-- Every other turn emits a chunk, by the three cases of the loop (42 R207 to R210). -/
theorem Stands.emits_of_not_ends (hends : ¬c.Ends) : ∃ u d, c.Emits u d := by
  obtain ⟨hne, hfull⟩ := not_or.1 hends
  by_cases hgoes : goesDirect c.input c.direct c.state = true
  · exact h.emits_direct hne hgoes
  · have hd : c.direct = false := by
      by_contra hd
      exact hgoes (goesDirect_iff.2 (.inl (by simpa using hd)))
    by_cases hthrough : passesThrough c.input c.state = true
    · exact h.emits_through hd hgoes hthrough
    · exact ⟨_, _, Fills.emits ⟨hd, hgoes, hthrough, by simpa [hd] using hfull⟩ h⟩

theorem Stands.ends_of_pieces (hp : c.pieces = []) : c.Ends := by
  by_contra hends
  obtain ⟨u, d, hemits⟩ := h.emits_of_not_ends hends
  exact absurd (hp.symm.trans hemits.counts.pieces).symm (List.cons_ne_nil _ _)

/-- A turn with chunks left emits the first of them. -/
theorem Stands.emits {u : List Byte} {us : List (List Byte)} (hp : c.pieces = u :: us) : ∃ d, c.Emits u d := by
  have hends : ¬c.Ends := fun hends => absurd (hp.symm.trans (h.pieces_of_ends hends)) (List.cons_ne_nil _ _)
  obtain ⟨v, d, hemits⟩ := h.emits_of_not_ends hends
  obtain ⟨rfl, -⟩ := List.cons.inj (hp.symm.trans hemits.counts.pieces)
  exact ⟨d, hemits⟩

end

end WriteTurn

end Sys2Proof.Machine
end

section
/-! SUPPORT. The loop of a WRITE over answers that take its chunks, and over one that fails one of them (42 R203, R207 to
R211). -/

namespace Sys2Proof.Machine

/-- A WRITE from `s` has finished at `t`: the sink has taken the chunks `us`, a buffered writer keeps the bytes `kept`, and
`result` bytes are absorbed (42 R207 to R211). -/
def WriteFinishes (s t : State) (us : List (List Byte)) (kept : List Byte) (result : Nat) (rest : List SinkAnswer) : Prop :=
  ∃ table obuf dp trail, t = finish .ok (BitVec.ofNat 32 result) { s with
    writer := (s.writer.wrote us).holding kept
    sinkLog := s.sinkLog ++ takenLog (streamTransfers s.params s.writer.hdr us)
    answers := rest
    table := table, obuf := obuf, dp := dp, trail := trail }

/-- A WRITE from `s` has finished at `t`: the sink has taken the transfers `taken` and failed the next, `b`, and `result` bytes
are absorbed (42 R203, R207 to R211). -/
def WriteFails (s t : State) (taken : List (List Byte)) (b : List Byte) (code : SinkCode) (consumed result : Nat)
    (rest : List SinkAnswer) : Prop :=
  ∃ table obuf dp trail, t = finish .sink (BitVec.ofNat 32 result) { s with
    writer := { s.writer.holding [] with wstate := .errored, hdr := true, sinkErr := code.val }
    sinkLog := s.sinkLog ++ takenLog taken ++ [.transfer b (.answered (.err code consumed))]
    answers := rest
    table := table, obuf := obuf, dp := dp, trail := trail }

theorem Wrote.finishes {s t r : State} {us : List (List Byte)} {kept : List Byte} {result : Nat} {rest : List SinkAnswer}
    (h : Wrote s t us) (k : WriteFinishes t r [] kept result rest) : WriteFinishes s r us kept result rest := by
  obtain ⟨_, _, _, _, _, rfl⟩ := h
  obtain ⟨table, obuf, dp, trail, rfl⟩ := k
  refine ⟨table, obuf, dp, trail, ?_⟩
  simp only [wrote_nil, streamTransfers, takenLog, List.map_nil, List.append_nil]
  rfl

theorem Wrote.fails {s t r : State} {us taken : List (List Byte)} {b : List Byte} {code : SinkCode} {consumed result : Nat}
    {rest : List SinkAnswer} (h : Wrote s t us) (k : WriteFails t r taken b code consumed result rest) :
    WriteFails s r (streamTransfers s.params s.writer.hdr us ++ taken) b code consumed result rest := by
  obtain ⟨_, _, _, _, _, rfl⟩ := h
  obtain ⟨table, obuf, dp, trail, rfl⟩ := k
  refine ⟨table, obuf, dp, trail, ?_⟩
  rw [takenLog_append, ← errored_wrote (w := s.writer) us, ← List.append_assoc]
  rfl

namespace WriteTurn

/-! ### One chunk -/

/-- What stands and counts at a turn does not depend on the chunk that the sink takes before it. -/
theorem Stands.chunksTaken {c d : WriteTurn} {us taken : List (List Byte)} {t : State} (h : d.Stands) (hc : c.Counts us d)
    (ht : ChunksTaken d.state t taken) : ({ d with state := t } : WriteTurn).Stands ∧ c.Counts us { d with state := t } := by
  obtain ⟨table, obuf, dp, ctrl, trail, hwf, rfl⟩ := ht
  exact ⟨⟨h.raced, hwf, h.buffered, h.empty, h.room⟩, hc.pieces, hc.bytes, hc.absorbed, hc.through⟩

section
variable {c d : WriteTurn} {u : List Byte} (h : c.Emits u d)
include h

/-- The chunk's transfers are the same from the state it is emitted in. -/
theorem Emits.chunkTransfers_eq :
    chunkTransfers d.state.params d.state.writer.hdr u = chunkTransfers c.state.params c.state.writer.hdr u := by
  obtain ⟨trail, hstate⟩ := h.state
  rw [hstate]
  rfl

/-- Over an `OK` for each of its transfers the chunk of a turn is taken, and the next turn is there. -/
theorem Emits.taken (as : List SinkAnswer) :
    ∃ e : WriteTurn, e.Stands ∧ c.Counts [u] e ∧ Wrote c.state e.state [u]
      ∧ takeAnswers (List.replicate (chunkTransfers c.state.params c.state.writer.hdr u).length .ok ++ as) c.run =
          takeAnswers as e.run := by
  obtain ⟨count, hcount, hrun⟩ := h.run
  obtain ⟨t, htaken, htake⟩ :=
    takeAnswers_emitChunk_taken h.stands.raced h.stands.table h.nonempty (.write d.input count (c.gain u) d.direct) as
  obtain ⟨hstands, hcounts⟩ := h.stands.chunksTaken h.counts htaken
  rw [h.chunkTransfers_eq] at htaken htake
  refine ⟨{ d with state := t }, hstands, hcounts, ?_, ?_⟩
  · obtain ⟨trail, hstate⟩ := h.state
    obtain ⟨table, obuf, dp, ctrl, trail', -, rfl⟩ := htaken
    refine ⟨table, obuf, dp, ctrl, trail', ?_⟩
    rw [wrote_of_ne_nil (List.cons_ne_nil u []), streamTransfers, streamTransfers, List.append_nil, hstate]
  · rw [hrun, htake, afterOk, hcount]
    rfl

/-- Where one of its transfers fails, the bytes of the chunk count only if they went through the buffer (42 R203, R207 to
R210). -/
theorem Emits.fails {k : Nat} {b : List Byte} (hb : (chunkTransfers c.state.params c.state.writer.hdr u)[k]? = some b)
    (code : SinkCode) (consumed : Nat) (rest : List SinkAnswer) :
    ∃ count, WriteFails c.state (takeAnswers (List.replicate k .ok ++ .err code consumed :: rest) c.run)
        ((chunkTransfers c.state.params c.state.writer.hdr u).take k) b code consumed count rest
      ∧ count + c.state.writer.held.length = c.absorbed + if c.throughBuffer [] then u.length else 0 := by
  obtain ⟨count, hcount, hrun⟩ := h.run
  obtain ⟨trail, hstate⟩ := h.state
  rw [← h.chunkTransfers_eq] at hb ⊢
  obtain ⟨t, ⟨table, obuf, dp, ctrl, trail', rfl⟩, hfail⟩ := takeAnswers_emitChunk_failed h.stands.raced h.stands.table
    h.nonempty (.write d.input count (c.gain u) d.direct) hb code consumed rest
  refine ⟨count, ⟨table, obuf, dp, trail', ?_⟩, ?_⟩
  · rw [hrun, hfail, afterErr, finishData_eq (by exact h.stands.raced), takeAnswers_finish, hstate]
    rfl
  · have hheld : d.state.writer.held = [] := by rw [hstate, held_holding_nil]
    have hbytes := congrArg List.length h.counts.bytes
    have habsorbed := h.counts.absorbed
    simp only [unframed, hheld, List.length_append, List.length_nil, List.flatten_singleton] at hbytes
    rw [gain] at hcount
    split_ifs at hcount ⊢
    · omega
    · omega

end

/-! ### The chunks one after the other -/

section
variable {c : WriteTurn} (h : c.Stands)
include h

/-- Over an `OK` for each transfer of the next chunks `us`, they are taken, by induction on them. -/
theorem Stands.taken {us vs : List (List Byte)} (hp : c.pieces = us ++ vs) (as : List SinkAnswer) :
    ∃ d : WriteTurn, d.Stands ∧ c.Counts us d ∧ Wrote c.state d.state us
      ∧ takeAnswers (List.replicate (streamTransfers c.state.params c.state.writer.hdr us).length .ok ++ as) c.run =
          takeAnswers as d.run := by
  induction us generalizing c with
  | nil => exact ⟨c, h, .refl c, .refl c.state, rfl⟩
  | cons u us ih =>
    obtain ⟨d, hemits⟩ := h.emits hp
    obtain ⟨e, hstands, hcounts, hwrote, htake⟩ :=
      hemits.taken (List.replicate (streamTransfers c.state.params true us).length .ok ++ as)
    have hrest : e.pieces = us ++ vs := (List.cons.inj (hp.symm.trans hcounts.pieces)).2.symm
    obtain ⟨f, hstands', hcounts', hwrote', htake'⟩ := ih hstands hrest
    have hhead : e.state.params = c.state.params ∧ e.state.writer.hdr = true := by
      obtain ⟨table, obuf, dp, ctrl, trail, heq⟩ := hwrote
      rw [heq]
      exact ⟨rfl, rfl⟩
    rw [hhead.1, hhead.2] at htake'
    refine ⟨f, hstands', hcounts.trans hcounts', hwrote.trans hwrote', ?_⟩
    rw [streamTransfers, List.length_append, List.replicate_add, List.append_assoc, htake, htake']

/-- A turn with no chunks left puts the rest of the input into the buffer, if there is one, and finishes (42 R207, R208). -/
theorem Stands.run_of_no_pieces (hp : c.pieces = []) :
    ∃ trail, c.run = finish .ok (BitVec.ofNat 32 (c.absorbed + c.input.length))
      { c.state with writer := c.state.writer.holding c.unframed, trail := trail } := by
  by_cases hnil : c.input = []
  · refine ⟨c.state.trail, ?_⟩
    rw [unframed, hnil, List.append_nil, holding_held]
    simp only [run, continueWrite, raceInput_eq h.raced, hnil, if_true, finishData_eq h.raced, List.length_nil, Nat.add_zero]
  · obtain ⟨hd, hlt⟩ := (h.ends_of_pieces hp).resolve_left hnil
    have hmode := h.buffered hd
    have hgoes : ¬goesDirect c.input c.direct c.state = true := by
      rw [goesDirect_iff]
      rintro (hdirect | ⟨-, -, hlen⟩)
      · simp [hd] at hdirect
      · omega
    have hthrough : ¬passesThrough c.input c.state = true := by
      rw [passesThrough_iff]
      rintro ⟨-, -, hlen⟩
      omega
    have hmin : min c.input.length (Config.maxBlockSize - c.state.writer.ibuf.length) = c.input.length := by
      rw [maxBlockSize_eq]
      omega
    have hshort : (c.state.writer.ibuf ++ c.input).length ≠ Config.maxBlockSize := by
      rw [List.length_append, maxBlockSize_eq]
      omega
    refine ⟨(c.state.setIbuf (c.state.writer.ibuf ++ c.input)).trail, ?_⟩
    simp only [run, continueWrite, raceInput_eq h.raced, hnil, hgoes, hthrough, Bool.false_eq_true, if_false, fillBuffer, hmin,
      List.take_length, setIbuf_writer, hshort]
    rw [finishData_eq (by exact h.raced), unframed, held_buffered hmode, holding_buffered hmode]
    rfl

/-- Over an `OK` for each transfer of all the chunks left, a WRITE absorbs all its input and keeps in the buffer what it did not
frame (42 R207 to R211). -/
theorem Stands.finishes {us : List (List Byte)} (hp : c.pieces = us) (rest : List SinkAnswer) :
    WriteFinishes c.state
      (takeAnswers (List.replicate (streamTransfers c.state.params c.state.writer.hdr us).length .ok ++ rest) c.run) us
      (c.unframed.drop us.flatten.length) (c.absorbed + c.input.length) rest := by
  obtain ⟨d, hstands, hcounts, hwrote, htake⟩ := h.taken (vs := []) (hp.trans (List.append_nil us).symm) rest
  have hnone : d.pieces = [] := by simpa [hp] using hcounts.pieces
  obtain ⟨trail, hrun⟩ := hstands.run_of_no_pieces hnone
  have hkept : c.unframed.drop us.flatten.length = d.unframed := by rw [← hcounts.bytes, List.drop_left]
  refine hwrote.finishes ⟨d.state.table, d.state.obuf, d.state.dp, trail, ?_⟩
  rw [htake, hrun, takeAnswers_finish, hcounts.absorbed, hkept, wrote_nil, streamTransfers, takenLog, List.map_nil,
    List.append_nil]
  rfl

/-- Where the transfer `b` of the chunk `u` fails, the WRITE ends with the input absorbed up to the chunk, and with the chunk
too if it went through the buffer (42 R203, R207 to R210). -/
theorem Stands.fails {us vs : List (List Byte)} {u b : List Byte} (hp : c.pieces = us ++ u :: vs) {ts : List (List Byte)}
    (hts : ts = chunkTransfers c.state.params (c.state.writer.hdr || us ≠ []) u) {k : Nat} (hb : ts[k]? = some b)
    (code : SinkCode) (consumed : Nat) (rest : List SinkAnswer) :
    ∃ count, WriteFails c.state
        (takeAnswers (List.replicate ((streamTransfers c.state.params c.state.writer.hdr us).length + k) .ok
          ++ .err code consumed :: rest) c.run)
        (streamTransfers c.state.params c.state.writer.hdr us ++ ts.take k) b code consumed count rest
      ∧ count + c.state.writer.held.length =
          c.absorbed + (us ++ if c.throughBuffer us then [u] else []).flatten.length := by
  obtain ⟨d, hstands, hcounts, hwrote, htake⟩ := h.taken hp (List.replicate k .ok ++ .err code consumed :: rest)
  have hleft : d.pieces = u :: vs := (List.append_cancel_left (hp.symm.trans hcounts.pieces)).symm
  obtain ⟨e, hemits⟩ := hstands.emits hleft
  have hsame : ts = chunkTransfers d.state.params d.state.writer.hdr u := by
    obtain ⟨table, obuf, dp, ctrl, trail, hstate⟩ := hwrote
    rw [hts, hstate, ← wrote_hdr]
  rw [hsame] at hb ⊢
  obtain ⟨count, hfails, hcount⟩ := hemits.fails hb code consumed rest
  refine ⟨count, ?_, ?_⟩
  · rw [List.replicate_add, List.append_assoc, htake]
    exact hwrote.fails hfails
  · have hthrough : d.throughBuffer [] = c.throughBuffer us := by
      rw [hcounts.through [] (by simp [hleft]), List.append_nil]
    have hlen : (us ++ if c.throughBuffer us then [u] else []).flatten.length =
        us.flatten.length + if c.throughBuffer us then u.length else 0 := by
      split_ifs <;> simp
    have hbytes := congrArg List.length hcounts.bytes
    have habsorbed := hcounts.absorbed
    simp only [unframed, List.length_append] at hbytes
    rw [hthrough] at hcount
    omega

end

end WriteTurn

end Sys2Proof.Machine
end

section
/-! SUPPORT. WRITE as a command: unbuffered, and buffered in either mode, with its chunks taken or one of them failed (42 R203,
R207 to R211). -/

namespace Sys2Proof.Machine

/-! ### The start of a WRITE -/

/-- The first turn of a WRITE (42 R207). -/
def WriteTurn.start (s : State) : WriteTurn := ⟨s, s.source, 0, s.writer.writesDirect⟩

theorem writesDirect_eq_false_iff {w : Writer} : w.writesDirect = false ↔ w.wmode = .buffered := by
  cases h : w.wmode <;> simp [Writer.writesDirect, h]

theorem writesDirect_eq_true_iff {w : Writer} : w.writesDirect = true ↔ w.wmode = .unbuffered := by
  simp [Writer.writesDirect]

/-- A WRITE that is to run outside a race: its checks pass, and a buffered writer has room in its buffer (42 R207, 10 R42). -/
structure WriteReady (s : State) : Prop where
  live : s.writer.wstate = .fresh ∨ s.writer.wstate = .streaming
  range : s.args.srcLen = 0 ∨ s.args.srcAddr.toNat + s.args.srcLen.toNat ≤ s.params.hostMemSize
  table : s.table.wf
  raced : s.raced = false
  room : s.writer.held.length < 65536

theorem ofNat_toNat_word (w : Word) : BitVec.ofNat 32 w.toNat = w := by rw [BitVec.ofNat_toNat, BitVec.setWidth_eq]

theorem State.source_length (s : State) : s.source.length = s.args.srcLen.toNat := memRead_length ..

theorem segmentsOf_eq_nil_iff {p : List Byte} : segmentsOf p = [] ↔ p = [] := by
  refine ⟨fun h => ?_, fun h => h ▸ segmentsOf_nil⟩
  by_contra hne
  rw [segmentsOf_cons hne] at h
  exact absurd h (List.cons_ne_nil _ _)

theorem source_eq_nil_iff {s : State} : s.source = [] ↔ s.args.srcLen = 0 := by
  rw [← List.length_eq_zero_iff, s.source_length, word_toNat_eq_zero]

section
variable {s : State} (h : WriteReady s)
include h

theorem WriteReady.stands : (WriteTurn.start s).Stands :=
  ⟨h.raced, h.table, writesDirect_eq_false_iff.1, fun hd => held_unbuffered (writesDirect_eq_true_iff.1 hd), h.room⟩

omit h in
theorem start_pieces (s : State) : (WriteTurn.start s).pieces = writePieces s.params s.writer s.source := by
  cases hmode : s.writer.wmode with
  | unbuffered =>
    rw [WriteTurn.pieces, piecesLeft, WriteTurn.start, if_pos (writesDirect_eq_true_iff.2 hmode), writePieces, if_pos hmode]
  | buffered =>
    rw [WriteTurn.pieces, piecesLeft, WriteTurn.start, if_neg (by simp [writesDirect_eq_false_iff.2 hmode])]

theorem WriteReady.exec_eq : exec .write s = .next (takeAnswers s.answers (WriteTurn.start s).run) := by
  have hvalid : rangeValid s.params s.args.srcAddr s.args.srcLen.toNat = true :=
    rangeValid_iff.2 (h.range.imp_left word_toNat_eq_zero.2)
  refine (execWrite_eq h.live hvalid).trans ?_
  rw [settle, (continueWrite_ignoresAnswers _ _ _).answers_eq]
  rfl

/-- A WRITE whose chunks the sink takes absorbs its whole input. -/
theorem WriteReady.finishes {us : List (List Byte)} (hp : writePieces s.params s.writer s.source = us) {rest : List SinkAnswer}
    (ha : s.answers = List.replicate (streamTransfers s.params s.writer.hdr us).length .ok ++ rest) :
    ∃ t, exec .write s = .next t
      ∧ WriteFinishes s t us ((s.writer.held ++ s.source).drop us.flatten.length) s.args.srcLen.toNat rest := by
  refine ⟨_, h.exec_eq, ?_⟩
  rw [ha, ← s.source_length, ← Nat.zero_add s.source.length]
  exact h.stands.finishes ((start_pieces s).trans hp) rest

/-- A WRITE whose input only goes into the buffer changes nothing else, whatever the sink is ready to answer. -/
theorem WriteReady.finishes_of_no_pieces (hp : writePieces s.params s.writer s.source = []) :
    ∃ trail, exec .write s = .next (finish .ok s.args.srcLen
      { s with writer := s.writer.holding (s.writer.held ++ s.source), trail := trail }) := by
  obtain ⟨trail, hrun⟩ := h.stands.run_of_no_pieces ((start_pieces s).trans hp)
  have hresult : BitVec.ofNat 32 ((WriteTurn.start s).absorbed + (WriteTurn.start s).input.length) = s.args.srcLen := by
    rw [WriteTurn.start, Nat.zero_add, s.source_length, ofNat_toNat_word]
  refine ⟨trail, ?_⟩
  rw [h.exec_eq, hrun, takeAnswers_finish, hresult]
  rfl

/-- A WRITE with a failed transfer counts the bytes of the chunks before it, and those of its own chunk if that went through the
buffer, but for the bytes that stood in the buffer before. -/
theorem WriteReady.fails {us vs : List (List Byte)} {u b : List Byte}
    (hp : writePieces s.params s.writer s.source = us ++ u :: vs) {ts : List (List Byte)}
    (hts : ts = chunkTransfers s.params (s.writer.hdr || us ≠ []) u) {k : Nat} (hb : ts[k]? = some b) {code : SinkCode}
    {consumed : Nat} {rest : List SinkAnswer}
    (ha : s.answers =
      List.replicate ((streamTransfers s.params s.writer.hdr us).length + k) .ok ++ .err code consumed :: rest) :
    ∃ t count, exec .write s = .next t
      ∧ WriteFails s t (streamTransfers s.params s.writer.hdr us ++ ts.take k) b code consumed count rest
      ∧ count + s.writer.held.length =
          (us ++ if (WriteTurn.start s).throughBuffer us then [u] else []).flatten.length := by
  obtain ⟨count, hfails, hcount⟩ := h.stands.fails ((start_pieces s).trans hp) hts hb code consumed rest
  refine ⟨_, count, h.exec_eq, ?_, hcount.trans (Nat.zero_add _)⟩
  rw [ha]
  exact hfails

end

/-! ### The writer after a WRITE -/

section
variable {w : Writer} {us : List (List Byte)} {v : List Byte}

theorem holding_wrote_unbuffered (h : w.wmode = .unbuffered) :
    (w.wrote us).holding v =
      { w with wstate := if us = [] then w.wstate else .streaming, hdr := w.hdr || us ≠ [] } := by
  by_cases hu : us = []
  · simp [hu, wrote_nil, holding_unbuffered h]
  · simp [hu, wrote_of_ne_nil hu, Writer.holding, h]

theorem holding_wrote_buffered (h : w.wmode = .buffered) :
    (w.wrote us).holding v =
      { w with wstate := if us = [] then w.wstate else .streaming, hdr := w.hdr || us ≠ [], ibuf := v } := by
  by_cases hu : us = []
  · simp [hu, wrote_nil, holding_buffered h]
  · simp [hu, wrote_of_ne_nil hu, Writer.holding, h]

end

/-! ### The statements -/

/-- Settles O25: an unbuffered WRITE frames every segment of its source. -/
theorem unbufferedWrite : Obligations.UnbufferedWrite := by
  rintro s ts rest hlive hmode hrange ht hr rfl ha
  have hready : WriteReady s := ⟨hlive, hrange, ht, hr, by rw [held_unbuffered hmode]; exact Nat.zero_lt_succ _⟩
  have hp : writePieces s.params s.writer s.source = segmentsOf s.source := if_pos hmode
  obtain ⟨t, hexec, table, obuf, dp, trail, rfl⟩ := hready.finishes hp ha
  refine ⟨table, obuf, dp, trail, ?_⟩
  rw [hexec, ofNat_toNat_word, holding_wrote_unbuffered hmode]
  simp only [ne_eq, segmentsOf_eq_nil_iff, source_eq_nil_iff]
  rfl

/-- The first `k` segments are the first `k` blocks (41 R166). -/
theorem flatten_take_segmentsOf (k : Nat) (p : List Byte) : ((segmentsOf p).take k).flatten = p.take (65536 * k) := by
  induction k generalizing p with
  | zero => rfl
  | succ k ih =>
    by_cases hnil : p = []
    · simp [hnil, segmentsOf_nil]
    · rw [segmentsOf_cons hnil, List.take_succ_cons, List.flatten_cons, ih, Nat.mul_succ, Nat.add_comm, List.take_add,
        maxBlockSize_eq]

/-- Settles O26: a buffered WRITE in BLOCK mode frames the whole blocks, which are the segments but for a shorter last one. -/
theorem bufferedWrite : Obligations.BufferedWrite := by
  rintro s x k ts rest hlive hmode hblock hbuf hrange ht hr rfl rfl rfl ha
  have hheld := held_buffered hmode
  have hready : WriteReady s := ⟨hlive, hrange, ht, hr, hheld ▸ hbuf⟩
  have hp : writePieces s.params s.writer s.source =
      (segmentsOf (s.writer.ibuf ++ s.source)).take ((s.writer.ibuf ++ s.source).length / 65536) := by
    simp only [writePieces, hmode, hblock, reduceCtorEq, if_false]
    rfl
  have hlen := congrArg List.length
    (flatten_take_segmentsOf ((s.writer.ibuf ++ s.source).length / 65536) (s.writer.ibuf ++ s.source))
  rw [List.length_take, Nat.min_eq_left (Nat.mul_div_le _ _)] at hlen
  obtain ⟨t, hexec, table, obuf, dp, trail, rfl⟩ := hready.finishes hp ha
  refine ⟨table, obuf, dp, trail, ?_⟩
  have hnone : (segmentsOf (s.writer.ibuf ++ s.source)).take ((s.writer.ibuf ++ s.source).length / 65536) = [] ↔
      (s.writer.ibuf ++ s.source).length / 65536 = 0 := by
    refine ⟨fun h => ?_, fun h => by rw [h, List.take_zero]⟩
    rw [h, List.flatten_nil, List.length_nil] at hlen
    omega
  rw [hexec, ofNat_toNat_word, holding_wrote_buffered hmode, hheld, hlen]
  simp only [ne_eq, hnone]
  rfl

/-- Settles O28: none of an unbuffered WRITE's chunks goes through the buffer. -/
theorem failedUnbufferedWrite : Obligations.FailedUnbufferedWrite := by
  rintro s us vs u ok ts b k code consumed rest hlive hmode hrange ht hr hp rfl hts hb ha
  have hheld := held_unbuffered hmode
  have hready : WriteReady s := ⟨hlive, .inr hrange, ht, hr, by rw [hheld]; exact Nat.zero_lt_succ _⟩
  have hpieces : writePieces s.params s.writer s.source = us ++ u :: vs := (if_pos hmode).trans hp
  obtain ⟨t, count, hexec, ⟨table, obuf, dp, trail, rfl⟩, hcount⟩ := hready.fails hpieces hts hb ha
  have hdirect : (WriteTurn.start s).throughBuffer us = false := by
    simp [WriteTurn.throughBuffer, WriteTurn.start, writesDirect_eq_true_iff.2 hmode]
  rw [hdirect, hheld, if_neg Bool.false_ne_true, List.append_nil, List.length_nil, Nat.add_zero] at hcount
  refine ⟨table, obuf, dp, trail, ?_⟩
  rw [hexec, hcount, holding_unbuffered hmode]
  rfl

/-- Settles O29: the bytes of the chunks before the failed one, less those that stood in the buffer, are the input's. -/
theorem failedBufferedWrite : Obligations.FailedBufferedWrite := by
  rintro s us vs u ok ts b k code consumed rest hlive hmode hbuf hrange ht hr hp rfl hts hb ha
  have hheld := held_buffered hmode
  have hready : WriteReady s := ⟨hlive, .inr hrange, ht, hr, hheld ▸ hbuf⟩
  obtain ⟨t, count, hexec, ⟨table, obuf, dp, trail, rfl⟩, hcount⟩ := hready.fails hp hts hb ha
  have hthrough : (WriteTurn.start s).throughBuffer us = goesThroughBuffer s.params s.writer s.source us := by
    simp [WriteTurn.throughBuffer, WriteTurn.start, writesDirect_eq_false_iff.2 hmode]
  rw [hthrough, hheld] at hcount
  refine ⟨table, obuf, dp, trail, ?_⟩
  rw [hexec, holding_buffered hmode, ← hcount, Nat.add_sub_cancel]
  rfl

/-- What a WHOLE_PIECE write that fills the buffer frames: the buffer, and the rest if that is a block or more (42 R210). -/
theorem writePieces_wholePiece_fill {p : Params} {w : Writer} {src : List Byte} (hmode : w.wmode = .buffered)
    (hwhole : p.largeWriteMode = .wholePiece) (hbuf : w.ibuf.length < 65536) (hfull : 65536 - w.ibuf.length ≤ src.length)
    (hcase : w.ibuf ≠ [] ∨ src.length = 65536) :
    writePieces p w src = (w.ibuf ++ src.take (65536 - w.ibuf.length)) ::
      if (src.drop (65536 - w.ibuf.length)).length < 65536 then [] else segmentsOf (src.drop (65536 - w.ibuf.length)) := by
  rw [writePieces_of_le hmode hbuf (by omega) (.inr (hcase.imp_right Nat.le_of_eq))]
  congr 1
  split_ifs with hshort
  · exact writePieces_of_lt (w := { w with ibuf := [] }) hmode (by rwa [List.length_nil, Nat.zero_add])
  · exact writePieces_wholePiece (w := { w with ibuf := [] }) hmode hwhole rfl (Nat.not_lt.1 hshort)

/-- Once these chunks are framed, a rest of less than a block is left. -/
theorem drop_flatten_fill (ibuf src : List Byte) (room : Nat) :
    (ibuf ++ src).drop ((ibuf ++ src.take room) ::
        if (src.drop room).length < 65536 then [] else segmentsOf (src.drop room)).flatten.length =
      if (src.drop room).length < 65536 then src.drop room else [] := by
  have hsplit : ibuf ++ src = (ibuf ++ src.take room) ++ src.drop room := by rw [List.append_assoc, List.take_append_drop]
  split_ifs with hshort
  · rw [List.flatten_singleton, hsplit, List.drop_left]
  · rw [List.flatten_cons, segmentsOf_flatten, ← hsplit, List.drop_length]

/-- Settles O27: the source framed whole, or put into the buffer, or the filled buffer and then the rest either way. -/
theorem wholePieceWrite : Obligations.WholePieceWrite := by
  intro s ts rest hlive hmode hwhole hrange ht hr
  have hheld := held_buffered hmode
  have hready : s.writer.ibuf.length < 65536 → WriteReady s := fun hbuf => ⟨hlive, hrange, ht, hr, hheld ▸ hbuf⟩
  refine ⟨fun hempty hlen hts ha => ?_, fun hlen => ?_, fun room p hroom h1 hle hcase hrest hts ha => ?_⟩
  · subst hts
    have hp : writePieces s.params s.writer s.source = segmentsOf s.source :=
      writePieces_wholePiece hmode hwhole hempty (by rw [s.source_length]; exact hlen.le)
    have hkept : (s.writer.held ++ s.source).drop (segmentsOf s.source).flatten.length = s.writer.ibuf := by
      rw [segmentsOf_flatten, hheld, hempty, List.nil_append, List.drop_length]
    have hne : segmentsOf s.source ≠ [] := by
      rw [ne_eq, segmentsOf_eq_nil_iff, source_eq_nil_iff, ← word_toNat_eq_zero]
      omega
    obtain ⟨t, hexec, table, obuf, dp, trail, rfl⟩ := (hready (by simp [hempty])).finishes hp ha
    refine ⟨table, obuf, dp, trail, ?_⟩
    rw [hexec, ofNat_toNat_word, hkept, holding_wrote_buffered hmode, if_neg hne, decide_eq_true hne, Bool.or_true]
    rfl
  · have hp : writePieces s.params s.writer s.source = [] :=
      writePieces_of_lt hmode (by rw [s.source_length]; exact hlen)
    obtain ⟨trail, hexec⟩ := (hready (by omega)).finishes_of_no_pieces hp
    refine ⟨trail, ?_⟩
    rw [hexec, holding_buffered hmode, hheld]
    rfl
  · subst hroom hrest hts
    have hbuf : s.writer.ibuf.length < 65536 := by omega
    have hp := writePieces_wholePiece_fill hmode hwhole hbuf (by rw [s.source_length]; exact hle)
      (by rwa [s.source_length])
    obtain ⟨t, hexec, table, obuf, dp, trail, rfl⟩ := (hready hbuf).finishes hp ha
    refine ⟨table, obuf, dp, trail, ?_⟩
    rw [hexec, ofNat_toNat_word, holding_wrote_buffered hmode, hheld, if_neg (List.cons_ne_nil _ _),
      decide_eq_true (List.cons_ne_nil _ _), Bool.or_true, drop_flatten_fill]
    rfl

end Sys2Proof.Machine
end

section
/-! SUPPORT. What a store to `CMD` does, and what drives the interrupt output (60 R235, R237). -/

namespace Sys2Proof.Machine

/-! ### A store to `CMD` -/

/-- A word stored at the offset of `CMD` is a defined access, and goes to `CMD` (10 R20). -/
theorem hostStep_csrStore_cmd {s : State} {addr : Word} (h : csrOffset s.params addr = 0x0C) (w : Word) :
    hostStep (.csrStore addr .word w) s = cmdStore w s := by
  have hdefined : csrAccessDefined s.params addr .word = true := csrAccessDefined_iff.2 ⟨rfl, by omega, by omega⟩
  rw [hostStep, csrStore, if_pos hdefined, if_pos h]

theorem cmdStore_of_busy {s : State} (h : s.busy = true) (w : Word) : cmdStore w s = .next { s with cmdOverrun := true } :=
  if_pos h

theorem cmdStore_of_legal {s : State} {w : Word} (h : s.busy = false) (hw : w ∈ legalWords) :
    cmdStore w s = .next (accept w s) := by
  rw [cmdStore, if_neg (by simp [h])]
  split
  · exact absurd ‹_› (decodeCommand_ne_illegal hw _)
  · rfl

theorem cmdStore_of_not_legal {s : State} {w : Word} (h : s.busy = false) (hw : w ∉ legalWords) :
    cmdStore w s = .next (finish .illegalCmd 0 (accept w s)) := by
  rw [cmdStore, if_neg (by simp [h]), decodeCommand_of_not_legal hw]
  rfl

/-- Settles O6: a store to `CMD` is dropped while busy; else it accepts the word, and finishes it if it is not legal. -/
theorem commandAcceptance : Obligations.CommandAcceptance := by
  intro s addr w hoffset
  rw [hostStep_csrStore_cmd hoffset]
  refine ⟨fun hbusy => cmdStore_of_busy hbusy w, fun hidle => ?_⟩
  by_cases hw : w ∈ legalWords
  · simp only [cmdStore_of_legal hidle hw, if_pos hw]
    rfl
  · simp only [cmdStore_of_not_legal hidle hw, if_neg hw]
    rfl

/-! ### The interrupt output -/

/-- `DONE` is clear after hardware reset (10 R49). -/
@[simp] theorem hardReset_done (d : ResetDraw) (s : State) : (hardReset d s).done = false := rfl

@[simp] theorem csrStoreValue_ctrl_irqEn (w : Word) (s : State) : (csrStoreValue 0x08 w s).irqEn = w.getLsbD 0 := rfl
@[simp] theorem csrStoreValue_ctrl_done (w : Word) (s : State) : (csrStoreValue 0x08 w s).done = s.done := rfl
@[simp] theorem csrStoreValue_status_irqEn (w : Word) (s : State) : (csrStoreValue 0x10 w s).irqEn = s.irqEn := rfl
@[simp] theorem csrStoreValue_status_done (w : Word) (s : State) :
    (csrStoreValue 0x10 w s).done = (s.done && !w.getLsbD 1) := rfl

/-- Settles O53: `IRQ` is `DONE` and `IRQ_EN`, and each of these steps says what becomes of both. -/
theorem interrupt : Obligations.Interrupt := by
  intro s code r w d
  refine ⟨rfl, ?finish, ?accept, ?hardReset, ?ctrl, ?status⟩
  case finish => rw [State.irq, finish_done, finish_irqEn, Bool.true_and]
  case accept => rw [State.irq, accept_done, Bool.false_and]
  case hardReset => rw [State.irq, hardReset_done, Bool.false_and]
  case ctrl => rw [State.irq, csrStoreValue_ctrl_done, csrStoreValue_ctrl_irqEn]
  case status => rw [State.irq, csrStoreValue_status_done, csrStoreValue_status_irqEn]

end Sys2Proof.Machine
end

section
/-! SUPPORT. Host accesses to memory while a command runs: the refusal, the race on either range, and the plain access
(00 R18, 20 R61, 70 R270). -/

namespace Sys2Proof.Machine

/-! ### The sink port's record -/

theorem transfersOf_append (xs ys : List SinkEvent) : transfersOf (xs ++ ys) = transfersOf xs ++ transfersOf ys := by
  induction xs with
  | nil => rfl
  | cons x xs ih => cases x <;> simp [transfersOf, ih]

/-- A redrawn transfer keeps its answer (70 R270). -/
theorem Redrawn.answers_eq {xs ys : List SinkEvent} (h : Redrawn xs ys) :
    (transfersOf ys).map Prod.snd = (transfersOf xs).map Prod.snd := by
  induction h with
  | nil => rfl
  | @cons x y xs ys hxy _ ih =>
    cases x with
    | newStream => rw [show y = .newStream from hxy]; exact ih
    | transfer b ending =>
      obtain ⟨b', rfl, -⟩ := hxy
      exact congrArg (ending :: ·) ih

/-! ### Which range a store lies in -/

section
variable {addr : Word} {s : State}

theorem racesSource_iff : racesSource addr s = true ↔
    s.busy = true ∧ (s.args.instr = .encode ∨ s.args.instr = .write)
      ∧ s.args.srcAddr.toNat ≤ addr.toNat ∧ addr.toNat < s.args.srcAddr.toNat + s.args.srcLen.toNat := by
  simp [racesSource, Args.readsSource, inRange, and_assoc]

theorem racesDest_iff : racesDest addr s = true ↔
    s.busy = true ∧ s.args.instr = .encode
      ∧ s.args.dstAddr.toNat ≤ addr.toNat ∧ addr.toNat < s.args.dstAddr.toNat + s.args.dstCap.toNat := by
  simp [racesDest, Args.writesDest, inRange, and_assoc]

/-! ### Loads and stores -/

theorem memLoad_past_end (h : s.params.hostMemSize ≤ addr.toNat) : memLoad addr s = .next { s with refusalMark := true } :=
  if_pos h

theorem memStore_past_end (h : s.params.hostMemSize ≤ addr.toNat) (b : Byte) :
    memStore addr b s = .next { s with refusalMark := true } := if_pos h

theorem memStore_below (h : addr.toNat < s.params.hostMemSize) (b : Byte) :
    memStore addr b s = .next (if racesSource addr s then markRace (storeHostByte addr b s) else storeHostByte addr b s) := by
  rw [memStore, if_neg (Nat.not_le.2 h)]
  split <;> rfl

/-- A load below the end delivers a value: the byte, but in the destination range of a running ENCODE (70 R270). -/
theorem memLoad_below (h : addr.toNat < s.params.hostMemSize) :
    ∃ v k, memLoad addr s = .next { s with busData := v, draws := k }
      ∧ (racesDest addr s = false → v = (memGet s.mem addr.toNat).setWidth 32) := by
  rw [memLoad, if_neg (Nat.not_le.2 h), ← racesDest]
  split
  · rename_i hd
    exact ⟨_, _, rfl, fun hdst => absurd (hd.symm.trans hdst) nofun⟩
  · exact ⟨_, s.draws, rfl, fun _ => rfl⟩

theorem storeHostByte_of_not_racesDest (h : racesDest addr s = false) (b : Byte) :
    storeHostByte addr b s = { s with mem := memPut s.mem addr.toNat b } := by simp [storeHostByte, h]

/-- A store in the destination range of a running ENCODE is marked, with its byte. -/
theorem storeHostByte_of_racesDest (h : racesDest addr s = true) (b : Byte) :
    (storeHostByte addr b s).raceMark = true ∧ addr.toNat ∈ (storeHostByte addr b s).racedBytes := by
  simp [storeHostByte, h]

/-- A store, race or not, leaves the sink port's record as it was. -/
theorem storeHostByte_log (b : Byte) : (storeHostByte addr b s).sinkLog = s.sinkLog
    ∧ (storeHostByte addr b s).logMark = s.logMark := by
  obtain ⟨v, rm, rb, k, h, -⟩ := storeHostByte_cases addr b s
  rw [h]
  exact ⟨rfl, rfl⟩

end

/-- A race on the source sets both of its marks, keeps the destination's, and keeps the record but for the bytes of the
running command's transfers (70 R270). -/
theorem markRace_spec (s : State) :
    (markRace s).raceMark = true ∧ (markRace s).raced = true ∧ (markRace s).racedBytes = s.racedBytes
      ∧ (markRace s).sinkLog.take s.logMark = s.sinkLog.take s.logMark
      ∧ (transfersOf (markRace s).sinkLog).map Prod.snd = (transfersOf s.sinkLog).map Prod.snd := by
  obtain ⟨c, k, log, h, hlog, -⟩ := markRace_cases s
  rw [h]
  refine ⟨rfl, rfl, rfl, ?_, ?_⟩
  · rcases Nat.le_total s.logMark s.sinkLog.length with hle | hle
    · exact List.take_left' (List.length_take_of_le hle)
    · obtain rfl : log = [] := by rw [List.drop_of_length_le hle] at hlog; exact List.forall₂_nil_left_iff.1 hlog
      rw [List.append_nil, List.take_take, Nat.min_self]
  · rw [transfersOf_append, List.map_append, hlog.answers_eq, ← List.map_append, ← transfersOf_append, List.take_append_drop]

/-- Settles O55: the refusal past the end, and below it the two kinds of race, each apart from the plain access. -/
theorem hostMemoryRaces : Obligations.HostMemoryRaces := by
  intro s addr b src dst hsrc hdst
  rw [← racesSource_iff] at hsrc
  rw [← racesDest_iff] at hdst
  simp only [hsrc, hdst, hostStep, Bool.not_eq_true]
  refine ⟨fun hend => ⟨memStore_past_end hend b, memLoad_past_end hend⟩, fun hlt => ⟨⟨_, memStore_below hlt b, ?_⟩,
    memLoad_below hlt⟩⟩
  obtain ⟨hlog, hmark⟩ := storeHostByte_log (addr := addr) (s := s) b
  by_cases h : racesSource addr s = true
  · obtain ⟨hrace, hraced, hbytes, htake, hanswers⟩ := markRace_spec (storeHostByte addr b s)
    rw [hmark, hlog] at htake
    rw [hlog] at hanswers
    rw [if_pos h]
    exact ⟨fun _ => hrace, fun _ => hraced, fun hd => hbytes ▸ (storeHostByte_of_racesDest hd b).2,
      fun _ => ⟨htake, hanswers⟩, fun hno => absurd (h.symm.trans hno) nofun⟩
  · rw [if_neg h]
    exact ⟨fun hd => (storeHostByte_of_racesDest (hd.resolve_left h) b).1, fun hs => absurd hs h,
      fun hd => (storeHostByte_of_racesDest hd b).2, fun hs => absurd hs h,
      fun _ hno => storeHostByte_of_not_racesDest hno b⟩

end Sys2Proof.Machine
end

section
/-! SUPPORT. How many transfers a command can still come to: counted when it begins, and used up by the sink's answers
(70 R276). -/

namespace Sys2Proof.Machine

/-! ### The bound -/

/-- The transfers on the sink port's record. -/
def State.made (s : State) : Nat := (transfersOf s.sinkLog).length

/-- The transfers a chunk takes at most (42 R202). -/
def State.perChunk (s : State) : Nat := if s.params.splitUncompressedTransfer then 2 else 1

/-- The chunks that `n` bytes of input come to at most: their blocks, and one more if they meet a buffer that is not empty. -/
def Writer.chunksOf (w : Writer) (n : Nat) : Nat := (n + 65535) / 65536 + if w.ibuf = [] then 0 else 1

/-- The chunks a command comes to at most once the one at hand is taken. -/
def After.chunksLeft (w : Writer) : After → Nat
  | .write rest _ _ _ => w.chunksOf rest.length
  | .flush => 0
  | .close => 0

/-- The transfers a pending one stands for: itself, the payload behind it, and those of the chunks to come. -/
def Pending.transfers (p : Pending) (s : State) : Nat :=
  1 + (if p.payload = [] then 0 else 1) + s.perChunk * p.after.chunksLeft s.writer

/-- The transfers made or pending, and those that the command that waits still comes to at most. -/
def State.transferBound (s : State) : Nat :=
  match s.ctrl with
  | .waiting p => s.made + p.transfers s
  | .idle | .accepted | .encoding _ | .framing _ _ _ | .sending _ _ | .resuming _ => s.made

theorem transferBound_waiting {s : State} {p : Pending} (h : s.ctrl = .waiting p) : s.transferBound = s.made + p.transfers s := by
  rw [State.transferBound, h]

theorem made_le_transferCount (s : State) : s.made ≤ s.transferCount := Nat.le_add_right ..

theorem transferCount_le_transferBound (s : State) : s.transferCount ≤ s.transferBound := by
  simp only [State.transferCount, State.transferBound, State.made]
  cases s.ctrl with
  | waiting p =>
    simp only [Pending.transfers]
    omega
  | idle | accepted | encoding | framing | sending | resuming => exact Nat.le_refl _

/-- A transfer put on the record counts. -/
theorem made_logSink_transfer (s : State) (b : List Byte) (ending : TransferEnd) :
    (s.logSink (.transfer b ending)).made = s.made + 1 := by
  simp [State.made, State.logSink, transfersOf_append, transfersOf]

/-! ### The end of a command, and a chunk -/

theorem transferBound_finish (code : ResultCode) (r : Word) (s : State) : (finish code r s).transferBound = s.made := rfl

theorem transferBound_finishData (code : ResultCode) (n : Nat) (s : State) : (finishData code n s).transferBound = s.made := by
  obtain ⟨r, k, h⟩ := finishData_cases code n s
  rw [h]
  rfl

theorem transferBound_offer (bytes payload : List Byte) (after : After) (s : State) :
    (offer bytes payload after s).transferBound =
      s.made + (1 + (if payload = [] then 0 else 1) + s.perChunk * after.chunksLeft s.writer) := by
  obtain ⟨b, k, h, -⟩ := offer_cases bytes payload after s
  rw [h]
  rfl

/-- What is counted does not depend on a staged chunk, which sets only `HDR` of the writer. -/
theorem chunksLeft_stageChunk (f : Framed) (s : State) (after : After) :
    after.chunksLeft (stageChunk f s).writer = after.chunksLeft s.writer := by
  cases after <;> rfl

theorem one_le_perChunk (s : State) : 1 ≤ s.perChunk := by
  unfold State.perChunk
  split <;> decide

/-- A chunk is one transfer, or two where chunks are split (42 R202). -/
theorem transferBound_emitChunk_le (u : List Byte) (after : After) (s : State) :
    (emitChunk u after s).transferBound ≤ s.made + s.perChunk * (1 + after.chunksLeft s.writer) := by
  have hoffer : ∀ bytes payload : List Byte, 1 + (if payload = [] then 0 else 1) ≤ s.perChunk →
      (offer bytes payload after (stageChunk (s.frame u) s)).transferBound ≤
        s.made + s.perChunk * (1 + after.chunksLeft s.writer) := fun bytes payload hle => by
    rw [transferBound_offer, chunksLeft_stageChunk, Nat.mul_add, Nat.mul_one]
    exact Nat.add_le_add_left (Nat.add_le_add_right hle _) _
  unfold emitChunk emitFramed
  simp only
  split
  · rename_i hsplit
    have htwo : s.perChunk = 2 := if_pos (Bool.and_eq_true_iff.1 hsplit).1
    exact hoffer _ u (by split <;> omega)
  · exact hoffer _ [] (one_le_perChunk s)

/-! ### The loop of a WRITE -/

/-- A chunk emitted now and the chunks after it are at most those counted before. -/
theorem transferBound_emitChunk_of_le {s t : State} (hmade : t.made = s.made) (hper : t.perChunk = s.perChunk) (u : List Byte)
    {after : After} {n : Nat} (h : 1 + after.chunksLeft t.writer ≤ n) :
    (emitChunk u after t).transferBound ≤ s.made + s.perChunk * n := by
  rw [← hmade, ← hper]
  exact (transferBound_emitChunk_le u after t).trans (Nat.add_le_add_left (Nat.mul_le_mul_left _ h) _)

/-- A block of the input is one of its chunks. -/
theorem transferBound_writeBlock_le {p : List Byte} (hp : p ≠ []) (absorbed : Nat) (direct : Bool) (s : State) :
    (writeBlock emitChunk p absorbed direct s).transferBound ≤ s.made + s.perChunk * s.writer.chunksOf p.length := by
  have hpos := List.length_pos_iff.2 hp
  refine transferBound_emitChunk_of_le rfl rfl _ ?_
  simp only [After.chunksLeft, Writer.chunksOf, List.length_drop, maxBlockSize_eq]
  omega

/-- A full buffer is one chunk, of a block of the input or of what stood in the buffer too (42 R208, R209). -/
theorem transferBound_fillBuffer_le (p : List Byte) (absorbed : Nat) (s : State) :
    (fillBuffer emitChunk p absorbed s).transferBound ≤ s.made + s.perChunk * s.writer.chunksOf p.length := by
  unfold fillBuffer
  simp only
  split
  · rename_i hfull
    refine transferBound_emitChunk_of_le rfl rfl _ ?_
    simp only [setIbuf_writer, List.length_append, List.length_take, maxBlockSize_eq] at hfull
    simp only [After.chunksLeft, Writer.chunksOf, setIbuf_writer, if_true, List.length_drop, maxBlockSize_eq]
    split
    · rename_i hempty
      rw [hempty, List.length_nil] at hfull ⊢
      omega
    · omega
  · rw [transferBound_finishData]
    exact Nat.le_add_right ..

/-- A WRITE's turn comes to at most the chunks of its input; a race draws the input anew, at its length (70 R270). -/
theorem transferBound_continueWrite_le (input : List Byte) (absorbed : Nat) (direct : Bool) (s : State) :
    (continueWrite emitChunk input absorbed direct s).transferBound ≤
      s.made + s.perChunk * s.writer.chunksOf input.length := by
  obtain ⟨k, hk⟩ := raceInput_cases input s
  unfold continueWrite
  rw [hk, ← raceInput_length input s]
  generalize (raceInput input s).1 = p
  simp only
  split
  · rw [transferBound_finishData]
    exact Nat.le_add_right ..
  · split
    · exact transferBound_writeBlock_le (by assumption) absorbed true { s with draws := k }
    · split
      · exact transferBound_writeBlock_le (by assumption) absorbed false { s with draws := k }
      · exact transferBound_fillBuffer_le p absorbed { s with draws := k }

theorem transferBound_afterOk_le (after : After) (s : State) :
    (afterOk emitChunk after s).transferBound ≤ s.made + s.perChunk * after.chunksLeft s.writer := by
  cases after with
  | write rest absorbed gain direct => exact transferBound_continueWrite_le rest (absorbed + gain) direct s
  | flush => exact Nat.le_add_right ..
  | close => exact Nat.le_add_right ..

theorem transferBound_afterErr (after : After) (s : State) : (afterErr after s).transferBound = s.made := by
  cases after with
  | write rest absorbed gain direct => exact transferBound_finishData ..
  | flush => rfl
  | close => rfl

/-! ### The sink's answers -/

theorem made_setWState (s : State) (v : WState) : (s.setWState v).made = s.made := rfl

theorem perChunk_setWState (s : State) (v : WState) : (s.setWState v).perChunk = s.perChunk := rfl

theorem perChunk_logSink (s : State) (e : SinkEvent) : (s.logSink e).perChunk = s.perChunk := rfl

theorem chunksLeft_setWState (s : State) (v : WState) (after : After) :
    after.chunksLeft (s.setWState v).writer = after.chunksLeft s.writer := by
  cases after <;> rfl

/-- An answer moves the pending transfer to the record; what follows it was counted before. -/
theorem transferBound_takeAnswer_le {s : State} {p : Pending} (h : s.ctrl = .waiting p) (a : SinkAnswer) :
    (takeAnswer a p s).transferBound ≤ s.transferBound := by
  rw [transferBound_waiting h, Pending.transfers]
  cases a with
  | ok =>
    simp only [takeAnswer]
    split
    · refine (transferBound_afterOk_le ..).trans (Nat.le_of_eq ?_)
      rw [chunksLeft_setWState, perChunk_setWState, made_setWState, made_logSink_transfer, perChunk_logSink, logSink_writer]
      omega
    · rw [transferBound_offer, made_logSink_transfer, perChunk_logSink, logSink_writer, if_pos rfl]
      omega
  | err code consumed =>
    refine Nat.le_trans (Nat.le_of_eq ((transferBound_afterErr ..).trans (made_logSink_transfer ..))) ?_
    omega

theorem transferBound_takeAnswers_le (as : List SinkAnswer) (s : State) :
    (takeAnswers as s).transferBound ≤ s.transferBound := by
  induction as generalizing s with
  | nil => exact Nat.le_refl _
  | cons a as ih =>
    by_cases hp : ∃ p, s.ctrl = .waiting p
    · obtain ⟨p, hp⟩ := hp
      rw [takeAnswers_awaiting hp]
      exact (ih _).trans (transferBound_takeAnswer_le hp a)
    · rw [takeAnswers_of_not_awaiting (not_exists.1 hp)]
      exact Nat.le_refl _

theorem transferBound_settle_le (s : State) : (settle s).transferBound ≤ s.transferBound := transferBound_takeAnswers_le ..

/-! ### The commands -/

/-- The buffered bytes are one chunk (42 R212, R213). -/
theorem transferBound_emitBuffered_le {after : After} (h : ∀ w, after.chunksLeft w = 0) (s : State) :
    (settle (emitBuffered after s)).transferBound ≤ s.made + s.perChunk :=
  (transferBound_settle_le _).trans (by
    have hle := transferBound_emitChunk_le s.writer.ibuf after (s.setIbuf [])
    rwa [h, Nat.mul_one] at hle)

/-- What each command comes to at most, whatever state it runs in (70 R276). -/
theorem exec_transferBound_le {i : Instr} (hl : i.layer = .command) {s t : State} (h : exec i s = .next t) :
    t.transferBound ≤ s.made +
      (if i = .write then s.perChunk * ((s.args.srcLen.toNat + 65535) / 65536 + 1)
       else if i = .flush ∨ i = .close then s.perChunk else 0) := by
  cases i with
  | litInline | lit1 | lit2 | lit3 | lit4 | copy1 | copy2 | copy4
  | chunkStreamId | chunkCompressed | chunkUncompressed => simp [Instr.layer] at hl
  | encode =>
    rcases execEncode_cases h with ⟨code, -, rfl⟩ | ⟨-, rfl⟩
    · exact (transferBound_finishData ..).le
    · obtain ⟨m, k, r, heq⟩ := storeEncoded_cases s.encodeOutput s
      rw [heq]
      exact Nat.le_refl _
  | maxlen =>
    obtain ⟨r, rfl⟩ := execMaxlen_cases h
    exact Nat.le_refl _
  | initWriter mode =>
    obtain ⟨trail, heq⟩ := execInitWriter_eq mode s
    cases heq.symm.trans h
    simp [transferBound_finish, State.made, freshStream, transfersOf_append, transfersOf]
  | write =>
    rw [if_pos rfl]
    simp only [exec, execWrite] at h
    split at h <;> cases h
    · rw [transferBound_finishData]
      exact Nat.le_add_right ..
    · refine (transferBound_settle_le _).trans ((transferBound_continueWrite_le ..).trans ?_)
      refine Nat.add_le_add_left (Nat.mul_le_mul_left _ ?_) _
      rw [State.source_length, Writer.chunksOf]
      split <;> omega
  | flush =>
    rcases execFlush_cases h with ⟨code, rfl⟩ | ⟨-, -, rfl⟩
    · exact Nat.le_add_right ..
    · exact transferBound_emitBuffered_le (fun _ => rfl) s
  | close =>
    rcases execClose_cases h with ⟨code, rfl⟩ | ⟨code, rfl⟩ | ⟨-, -, rfl⟩
    · exact Nat.le_add_right ..
    · exact Nat.le_add_right ..
    · exact transferBound_emitBuffered_le (fun _ => rfl) s
  | resetStream =>
    obtain ⟨trail, heq⟩ := execResetStream_eq s
    cases heq.symm.trans h
    simp [transferBound_finish, State.made, freshStream, transfersOf_append, transfersOf]
  | illegal w =>
    cases h
    exact Nat.le_refl _

/-- Settles O36: what is made or pending at the end lies under the bound the command begins with. -/
theorem transfersBounded : Obligations.TransfersBounded := by
  rintro s t i per hl - - rfl h
  exact (transferCount_le_transferBound t).trans
    ((exec_transferBound_le hl h).trans (Nat.add_le_add_right (made_le_transferCount s) _))

end Sys2Proof.Machine
end

section
/-! SUPPORT. Commands raced on their source: ENCODE and the failed checks, an unbuffered WRITE, and a WRITE beside the same WRITE
without the race (42 R207 to R211, 70 R270). -/

namespace Sys2Proof.Machine

/-! ### The end of a raced command -/

/-- After a race a completion reports a free word (70 R270). -/
theorem finishData_of_raced {s : State} (h : s.raced = true) (code : ResultCode) (n : Nat) :
    ∃ j k, finishData code n s = finish code (Config.freeWord j) { s with draws := k } :=
  ⟨s.draws, s.draws + 1, if_pos h⟩

/-- A raced ENCODE that passes its checks stores some bytes and reports a free word. -/
theorem storeEncoded_of_raced {s : State} (h : s.raced = true) (e : Encoded) :
    ∃ m j k, storeEncoded e s =
      finish .ok (Config.freeWord j) { s with mem := m, table := e.table, dp := e.dp, draws := k } := by
  obtain ⟨bs, k1, hstore, -⟩ := storeOutput_cases (s.setInternals e.table e.dp) e.bytes
  obtain ⟨m, k2, hbytes, -⟩ := drawRacedBytes_cases ((s.setInternals e.table e.dp).storeOutput e.bytes) s.racedBytes
  have hraced : (((s.setInternals e.table e.dp).storeOutput e.bytes).drawRacedBytes s.racedBytes).raced = true := by
    rw [hbytes, hstore]
    exact h
  obtain ⟨j, k3, hfinish⟩ := finishData_of_raced hraced .ok e.bytes.length
  exact ⟨m, j, k3, by rw [storeEncoded, hfinish, hbytes, hstore]; rfl⟩

theorem exec_encode_raced {s : State} (h : s.raced = true) (hc : encodePasses s.params s.args) :
    ∃ m table dp j k, exec .encode s = .next
      (finish .ok (Config.freeWord j) { s with mem := m, table := table, dp := dp, draws := k }) := by
  obtain ⟨m, j, k, hstore⟩ := storeEncoded_of_raced h s.encodeOutput
  refine ⟨m, s.encodeOutput.table, s.encodeOutput.dp, j, k, ?_⟩
  simp only [exec, execEncode, encodeCheck_eq_none_iff.2 hc, hstore]

/-- A failed check ends a command with its code, raced or not. -/
theorem exec_failed_check {s : State} {i : Instr} {code : ResultCode}
    (h : i = .encode ∧ encodeCheck s.params s.args = some code ∨ i = .write ∧ writeCheck s = some code) :
    exec i s = .next (finishData code 0 s) := by
  rcases h with ⟨rfl, h⟩ | ⟨rfl, h⟩
  · simp only [exec, execEncode, h]
  · simp only [exec, execWrite, h]

/-! ### A turn of a WRITE and a chunk that goes whole, raced or not -/

/-- A turn of WRITE's loop on the input as the engine sees it (42 R207, R208, R210). -/
def turnOn (emit : List Byte → After → State → State) (p : List Byte) (absorbed : Nat) (direct : Bool) (s : State) : State :=
  if p = [] then finishData .ok absorbed s
  else if goesDirect p direct s then writeBlock emit p absorbed true s
  else if passesThrough p s then writeBlock emit p absorbed false s
  else fillBuffer emit p absorbed s

/-- A race draws the input anew, at its length (70 R270). -/
theorem continueWrite_eq_turnOn (emit : List Byte → After → State → State) (input : List Byte) (absorbed : Nat) (direct : Bool)
    (s : State) :
    ∃ p k, p.length = input.length
      ∧ continueWrite emit input absorbed direct s = turnOn emit p absorbed direct { s with draws := k } := by
  obtain ⟨k, hk⟩ := raceInput_cases input s
  exact ⟨(raceInput input s).1, k, raceInput_length input s, by rw [← hk]; rfl⟩

theorem turnOn_direct (emit : List Byte → After → State → State) {p : List Byte} (hp : p ≠ []) (absorbed : Nat) (s : State) :
    turnOn emit p absorbed true s = writeBlock emit p absorbed true s := by
  rw [turnOn, if_neg hp, if_pos (goesDirect_iff.2 (.inl rfl))]

/-- Where chunks are not split, `emit_chunk` sets `HDR` and awaits one transfer with nothing behind it (42 R202). -/
theorem emitChunk_whole {s : State} (h : s.params.splitUncompressedTransfer = false) (u : List Byte) (after : After) :
    ∃ b table obuf dp trail k, emitChunk u after s = { s with
      writer := { s.writer with hdr := true }, ctrl := .waiting ⟨b, [], after⟩
      table := table, obuf := obuf, dp := dp, trail := trail, draws := k } := by
  simp only [emitChunk, emitFramed, splitsChunk, h, Bool.false_and, Bool.false_eq_true, if_false]
  obtain ⟨b, k, hoffer, -⟩ := offer_cases (stageChunk (s.frame u) s).obuf [] after (stageChunk (s.frame u) s)
  exact ⟨b, _, _, _, _, k, hoffer⟩

/-- The sink has taken a chunk that went whole. -/
def WholeChunkTaken (s t : State) : Prop :=
  ∃ b table obuf dp trail k ctrl, t = { s with
    writer := { s.writer with wstate := .streaming, hdr := true }
    sinkLog := s.sinkLog ++ takenLog [b]
    table := table, obuf := obuf, dp := dp, trail := trail, draws := k, ctrl := ctrl }

theorem WholeChunkTaken.raced_params {s t : State} (h : WholeChunkTaken s t) : t.raced = s.raced ∧ t.params = s.params := by
  obtain ⟨b, table, obuf, dp, trail, k, ctrl, rfl⟩ := h
  exact ⟨rfl, rfl⟩

theorem WholeChunkTaken.of_draws {s t : State} {k : Nat} (h : WholeChunkTaken { s with draws := k } t) : WholeChunkTaken s t := h

theorem takeAnswers_emitChunk_whole {s : State} (h : s.params.splitUncompressedTransfer = false) (u : List Byte) (after : After) :
    ∃ t, WholeChunkTaken s t
      ∧ ∀ as, takeAnswers (.ok :: as) (emitChunk u after s) = takeAnswers as (afterOk emitChunk after t) := by
  obtain ⟨b, table, obuf, dp, trail, k, hemit⟩ := emitChunk_whole h u after
  rw [hemit]
  exact ⟨_, ⟨b, table, obuf, dp, _, k, _, rfl⟩, fun _ => rfl⟩

/-! ### A raced WRITE that frames directly -/

/-- A raced WRITE is over, and has taken the sink's answers to the transfers of its `n` bytes (42 R207, 70 R270). -/
def RacedWrote (s : State) (n : Nat) (rest : List SinkAnswer) (t : State) : Prop :=
  ∃ ts table obuf dp trail j k, ts.length = (n + 65535) / 65536 ∧ t =
    { s with
      writer := { s.writer with
        wstate := if n = 0 then s.writer.wstate else .streaming
        hdr := s.writer.hdr || n ≠ 0 }
      sinkLog := s.sinkLog ++ takenLog ts
      answers := rest
      table := table, obuf := obuf, dp := dp, trail := trail, result := Config.freeWord j, draws := k
      resultCode := .ok, done := true, ctrl := .idle }

/-- The first block's transfer, and those of the bytes after it. -/
theorem RacedWrote.of_chunk {s t r : State} {n : Nat} {rest : List SinkAnswer} (hn : n ≠ 0) (h : WholeChunkTaken s t)
    (k : RacedWrote t (n - 65536) rest r) : RacedWrote s n rest r := by
  obtain ⟨ts, table, obuf, dp, trail, j, k, hlen, rfl⟩ := k
  obtain ⟨b, _, _, _, _, _, _, rfl⟩ := h
  refine ⟨b :: ts, table, obuf, dp, trail, j, k, ?_, ?_⟩
  · rw [List.length_cons, hlen]
    omega
  · simp [hn, takenLog]

/-- Over `OK` answers a raced WRITE that frames directly makes a transfer for each block, by induction on the blocks. -/
theorem racedWrote_continueWrite {s : State} (hr : s.raced = true) (hs : s.params.splitUncompressedTransfer = false) {c : Nat}
    (input : List Byte) (hc : c = (input.length + 65535) / 65536) (absorbed : Nat) (rest : List SinkAnswer) :
    RacedWrote s input.length rest
      (takeAnswers (List.replicate c .ok ++ rest) (continueWrite emitChunk input absorbed true s)) := by
  induction c generalizing s input absorbed with
  | zero =>
    obtain rfl : input = [] := List.eq_nil_of_length_eq_zero (by omega)
    obtain ⟨p, k, hlen, hturn⟩ := continueWrite_eq_turnOn emitChunk [] absorbed true s
    obtain ⟨j, k', hfinish⟩ := finishData_of_raced (s := { s with draws := k }) hr .ok absorbed
    rw [hturn, turnOn, if_pos (List.eq_nil_of_length_eq_zero hlen), hfinish, List.replicate_zero, List.nil_append,
      takeAnswers_finish]
    exact ⟨[], s.table, s.obuf, s.dp, s.trail, j, k', rfl, by simp [finish, State.setAnswers, takenLog]⟩
  | succ c ih =>
    have hne : input.length ≠ 0 := by omega
    obtain ⟨p, k, hlen, hturn⟩ := continueWrite_eq_turnOn emitChunk input absorbed true s
    have hp : p ≠ [] := fun hnil => hne (by rw [← hlen, hnil, List.length_nil])
    obtain ⟨t, htaken, htake⟩ := takeAnswers_emitChunk_whole (s := { s with draws := k }) hs (p.take Config.maxBlockSize)
      (.write (p.drop Config.maxBlockSize) absorbed (p.take Config.maxBlockSize).length true)
    have hleft : (p.drop Config.maxBlockSize).length = input.length - 65536 := by rw [List.length_drop, hlen, maxBlockSize_eq]
    rw [hturn, turnOn_direct emitChunk hp, writeBlock, List.replicate_succ, List.cons_append, htake]
    obtain ⟨hraced, hparams⟩ := htaken.raced_params
    refine RacedWrote.of_chunk hne htaken.of_draws ?_
    rw [← hleft]
    exact ih (hraced.trans hr) (hparams ▸ hs) (p.drop Config.maxBlockSize) (by omega) _

/-- A raced unbuffered WRITE of a valid range whose transfers the sink takes. -/
theorem exec_write_raced {s : State} (hr : s.raced = true) (hs : s.params.splitUncompressedTransfer = false)
    (hmode : s.writer.wmode = .unbuffered) (hlive : s.writer.wstate = .fresh ∨ s.writer.wstate = .streaming)
    (hrange : s.args.srcLen.toNat = 0 ∨ s.args.srcAddr.toNat + s.args.srcLen.toNat ≤ s.params.hostMemSize)
    {rest : List SinkAnswer} (ha : s.answers = List.replicate ((s.args.srcLen.toNat + 65535) / 65536) .ok ++ rest) :
    ∃ t, exec .write s = .next t ∧ RacedWrote s s.args.srcLen.toNat rest t := by
  refine ⟨_, execWrite_eq hlive (rangeValid_iff.2 hrange), ?_⟩
  rw [settle, (continueWrite_ignoresAnswers _ _ _).answers_eq, ha, writesDirect_eq_true_iff.2 hmode, ← s.source_length]
  exact racedWrote_continueWrite hr hs s.source rfl 0 rest

/-! ### A WRITE and the same WRITE raced -/

/-- `r` is as `s`, but raced: it may differ in the bytes of the transfers and of the buffer, in `RESULT`, and in what chunks leave
inside the engine. Chunks go whole. -/
structure RacedTwin (s r : State) : Prop where
  unraced : s.raced = false
  whole : s.params.splitUncompressedTransfer = false
  differs : ∃ ibuf log result ctrl table obuf dp trail k,
    ibuf.length = s.writer.ibuf.length ∧ (transfersOf log).map Prod.snd = (transfersOf s.sinkLog).map Prod.snd
      ∧ r = { s with
        raced := true, writer := { s.writer with ibuf := ibuf }, sinkLog := log, result := result, ctrl := ctrl
        table := table, obuf := obuf, dp := dp, trail := trail, draws := k }

/-- Both await a transfer of a WRITE that goes on alike. -/
def AwaitAlike (p q : Pending) : Prop :=
  p.payload = [] ∧ q.payload = [] ∧ ∃ rest rest' absorbed gain direct, rest.length = rest'.length
    ∧ p.after = .write rest absorbed gain direct ∧ q.after = .write rest' absorbed gain direct

/-- Both have finished, the raced one with a free `RESULT`, or both await a transfer. -/
def StandAlike (s r : State) : Prop :=
  RacedTwin s r ∧ (s.ctrl = .idle ∧ r.ctrl = .idle ∧ (∃ j, r.result = Config.freeWord j)
    ∨ ∃ p q, s.ctrl = .waiting p ∧ r.ctrl = .waiting q ∧ AwaitAlike p q)

section
variable {s r : State} (h : RacedTwin s r)
include h

theorem RacedTwin.raced : r.raced = true := by
  obtain ⟨ibuf, log, result, ctrl, table, obuf, dp, trail, k, -, -, rfl⟩ := h.differs
  rfl

theorem RacedTwin.params_eq : r.params = s.params := by
  obtain ⟨ibuf, log, result, ctrl, table, obuf, dp, trail, k, -, -, rfl⟩ := h.differs
  rfl

theorem RacedTwin.ibuf_length : r.writer.ibuf.length = s.writer.ibuf.length := by
  obtain ⟨ibuf, log, result, ctrl, table, obuf, dp, trail, k, hlen, -, rfl⟩ := h.differs
  exact hlen

theorem RacedTwin.setDraws (j k : Nat) : RacedTwin { s with draws := j } { r with draws := k } := by
  obtain ⟨ibuf, log, result, ctrl, table, obuf, dp, trail, _, hlen, hlog, rfl⟩ := h.differs
  exact ⟨h.unraced, h.whole, ibuf, log, result, ctrl, table, obuf, dp, trail, k, hlen, hlog, rfl⟩

theorem RacedTwin.setIbuf {v v' : List Byte} (hv : v'.length = v.length) : RacedTwin (s.setIbuf v) (r.setIbuf v') := by
  obtain ⟨ibuf, log, result, ctrl, table, obuf, dp, trail, k, -, hlog, rfl⟩ := h.differs
  exact ⟨h.unraced, h.whole, v', log, result, ctrl, table, obuf, dp, _, k, hv, hlog, rfl⟩

theorem RacedTwin.setWState (v : WState) : RacedTwin (s.setWState v) (r.setWState v) := by
  obtain ⟨ibuf, log, result, ctrl, table, obuf, dp, trail, k, hlen, hlog, rfl⟩ := h.differs
  exact ⟨h.unraced, h.whole, ibuf, log, result, ctrl, table, obuf, dp, _, k, hlen, hlog, rfl⟩

theorem RacedTwin.setSinkErr (v : Word) : RacedTwin (s.setSinkErr v) (r.setSinkErr v) := by
  obtain ⟨ibuf, log, result, ctrl, table, obuf, dp, trail, k, hlen, hlog, rfl⟩ := h.differs
  exact ⟨h.unraced, h.whole, ibuf, log, result, ctrl, table, obuf, dp, _, k, hlen, hlog, rfl⟩

theorem RacedTwin.setAnswers (as : List SinkAnswer) : RacedTwin (s.setAnswers as) (r.setAnswers as) := by
  obtain ⟨ibuf, log, result, ctrl, table, obuf, dp, trail, k, hlen, hlog, rfl⟩ := h.differs
  exact ⟨h.unraced, h.whole, ibuf, log, result, ctrl, table, obuf, dp, trail, k, hlen, hlog, rfl⟩

theorem RacedTwin.logTransfer (b b' : List Byte) (ending : TransferEnd) :
    RacedTwin (s.logSink (.transfer b ending)) (r.logSink (.transfer b' ending)) := by
  obtain ⟨ibuf, log, result, ctrl, table, obuf, dp, trail, k, hlen, hlog, rfl⟩ := h.differs
  refine ⟨h.unraced, h.whole, ibuf, log ++ [.transfer b' ending], result, ctrl, table, obuf, dp, trail, k, hlen, ?_, rfl⟩
  rw [State.logSink, transfersOf_append, transfersOf_append, List.map_append, List.map_append, hlog]
  rfl

/-! ### Their turns -/

theorem RacedTwin.standAlike_finishData (code : ResultCode) (n : Nat) : StandAlike (finishData code n s) (finishData code n r) := by
  obtain ⟨j, k, hfinish⟩ := finishData_of_raced h.raced code n
  rw [finishData_eq h.unraced, hfinish]
  obtain ⟨ibuf, log, _, _, table, obuf, dp, trail, _, hlen, hlog, rfl⟩ := h.differs
  exact ⟨⟨h.unraced, h.whole, ibuf, log, _, _, table, obuf, dp, trail, k, hlen, hlog, rfl⟩, .inl ⟨rfl, rfl, j, rfl⟩⟩

/-- Chunks of any bytes are awaited alike: what they hold does not reach the transitions. -/
theorem RacedTwin.standAlike_emitChunk (u u' : List Byte) {rest rest' : List Byte} (hrest : rest.length = rest'.length)
    (absorbed gain : Nat) (direct : Bool) :
    StandAlike (emitChunk u (.write rest absorbed gain direct) s) (emitChunk u' (.write rest' absorbed gain direct) r) := by
  obtain ⟨b, _, _, _, _, _, hs⟩ := emitChunk_whole h.whole u (.write rest absorbed gain direct)
  obtain ⟨b', table', obuf', dp', trail', k', hr⟩ :=
    emitChunk_whole (h.params_eq ▸ h.whole) u' (.write rest' absorbed gain direct)
  rw [hs, hr]
  obtain ⟨ibuf, log, result, _, _, _, _, _, _, hlen, hlog, rfl⟩ := h.differs
  exact ⟨⟨h.unraced, h.whole, ibuf, log, _, _, table', obuf', dp', trail', k', hlen, hlog, rfl⟩,
    .inr ⟨_, _, rfl, rfl, rfl, rfl, rest, rest', absorbed, gain, direct, hrest, rfl, rfl⟩⟩

theorem RacedTwin.ibuf_eq_nil_iff : s.writer.ibuf = [] ↔ r.writer.ibuf = [] := by
  rw [← List.length_eq_zero_iff, ← List.length_eq_zero_iff, h.ibuf_length]

section
variable {p p' : List Byte} (hp : p'.length = p.length)
include hp

theorem RacedTwin.goesDirect_eq (direct : Bool) : goesDirect p direct s = goesDirect p' direct r := by
  rw [Bool.eq_iff_iff, goesDirect_iff, goesDirect_iff, h.params_eq, hp, h.ibuf_eq_nil_iff]

theorem RacedTwin.passesThrough_eq : passesThrough p s = passesThrough p' r := by
  rw [Bool.eq_iff_iff, passesThrough_iff, passesThrough_iff, h.params_eq, hp, h.ibuf_eq_nil_iff]

theorem RacedTwin.standAlike_writeBlock (absorbed : Nat) (direct : Bool) :
    StandAlike (writeBlock emitChunk p absorbed direct s) (writeBlock emitChunk p' absorbed direct r) := by
  have hblock : (p'.take Config.maxBlockSize).length = (p.take Config.maxBlockSize).length := by simp [hp]
  rw [writeBlock, writeBlock]
  simp only [hblock]
  exact h.standAlike_emitChunk _ _ (by simp [hp]) absorbed _ direct

theorem RacedTwin.standAlike_fillBuffer (absorbed : Nat) :
    StandAlike (fillBuffer emitChunk p absorbed s) (fillBuffer emitChunk p' absorbed r) := by
  unfold fillBuffer
  simp only [hp, h.ibuf_length]
  generalize min p.length (Config.maxBlockSize - s.writer.ibuf.length) = k
  have hlen : (r.setIbuf (r.writer.ibuf ++ p'.take k)).writer.ibuf.length =
      (s.setIbuf (s.writer.ibuf ++ p.take k)).writer.ibuf.length := by simp [hp, h.ibuf_length]
  have hfilled := h.setIbuf hlen
  by_cases hfull : (s.setIbuf (s.writer.ibuf ++ p.take k)).writer.ibuf.length = Config.maxBlockSize
  · rw [if_pos hfull, if_pos (hlen.trans hfull)]
    exact (hfilled.setIbuf rfl).standAlike_emitChunk _ _ (by simp [hp]) (absorbed + k) 0 false
  · rw [if_neg hfull, if_neg (hlen ▸ hfull)]
    exact hfilled.standAlike_finishData .ok (absorbed + k)

theorem RacedTwin.standAlike_turnOn (absorbed : Nat) (direct : Bool) :
    StandAlike (turnOn emitChunk p absorbed direct s) (turnOn emitChunk p' absorbed direct r) := by
  have hnil : p = [] ↔ p' = [] := by rw [← List.length_eq_zero_iff, ← List.length_eq_zero_iff, hp]
  unfold turnOn
  simp only [hnil, h.goesDirect_eq hp, h.passesThrough_eq hp]
  split_ifs
  · exact h.standAlike_finishData .ok absorbed
  · exact h.standAlike_writeBlock hp absorbed true
  · exact h.standAlike_writeBlock hp absorbed false
  · exact h.standAlike_fillBuffer hp absorbed

end

theorem RacedTwin.standAlike_continueWrite {input input' : List Byte} (hlen : input.length = input'.length) (absorbed : Nat)
    (direct : Bool) :
    StandAlike (continueWrite emitChunk input absorbed direct s) (continueWrite emitChunk input' absorbed direct r) := by
  obtain ⟨p, j, hp, hs⟩ := continueWrite_eq_turnOn emitChunk input absorbed direct s
  obtain ⟨p', k, hp', hr⟩ := continueWrite_eq_turnOn emitChunk input' absorbed direct r
  rw [hs, hr]
  exact (h.setDraws j k).standAlike_turnOn (by omega) absorbed direct

/-! ### The sink's answers to both -/

theorem RacedTwin.standAlike_takeAnswer {p q : Pending} (hpq : AwaitAlike p q) (a : SinkAnswer) :
    StandAlike (takeAnswer a p s) (takeAnswer a q r) := by
  obtain ⟨hp, hq, rest, rest', absorbed, gain, direct, hrest, hpafter, hqafter⟩ := hpq
  have hlogged := h.logTransfer p.bytes q.bytes (.answered a)
  cases a with
  | ok =>
    simp only [takeAnswer, hp, hq, hpafter, hqafter, if_true]
    exact (hlogged.setWState .streaming).standAlike_continueWrite hrest (absorbed + gain) direct
  | err code consumed =>
    simp only [takeAnswer, hpafter, hqafter]
    exact ((hlogged.setWState .errored).setSinkErr code.val).standAlike_finishData .sink absorbed

end

theorem standAlike_setAnswers {s r : State} (h : StandAlike s r) (as : List SinkAnswer) :
    StandAlike (s.setAnswers as) (r.setAnswers as) := ⟨h.1.setAnswers as, h.2⟩

theorem standAlike_takeAnswers (as : List SinkAnswer) {s r : State} (h : StandAlike s r) :
    StandAlike (takeAnswers as s) (takeAnswers as r) := by
  induction as generalizing s r with
  | nil => exact standAlike_setAnswers h []
  | cons a as ih =>
    obtain ⟨htwin, ⟨hs, hr, -⟩ | ⟨p, q, hs, hr, hpq⟩⟩ := id h
    · rw [takeAnswers_of_not_awaiting (by simp [hs]), takeAnswers_of_not_awaiting (by simp [hr])]
      exact standAlike_setAnswers h (a :: as)
    · rw [takeAnswers_awaiting hs, takeAnswers_awaiting hr]
      exact ih (htwin.standAlike_takeAnswer hpq a)

theorem standAlike_settle {s r : State} (h : StandAlike s r) : StandAlike (settle s) (settle r) := by
  have hanswers : r.answers = s.answers := by
    obtain ⟨ibuf, log, result, ctrl, table, obuf, dp, trail, k, -, -, rfl⟩ := h.1.differs
    rfl
  rw [settle, settle, hanswers]
  exact standAlike_takeAnswers s.answers h

theorem StandAlike.transitions {s r : State} (h : StandAlike s r) : sameTransitions s r := by
  have hbusy : s.busy = r.busy := by
    obtain ⟨-, ⟨hs, hr, -⟩ | ⟨p, q, hs, hr, -⟩⟩ := h <;> simp [State.busy, hs, hr]
  obtain ⟨ibuf, log, result, ctrl, table, obuf, dp, trail, k, hlen, hlog, rfl⟩ := h.1.differs
  exact ⟨rfl, rfl, rfl, rfl, hlen.symm, rfl, rfl, hbusy, rfl, rfl, hlog.symm⟩

theorem StandAlike.result_free {s r : State} (h : StandAlike s r) (hidle : s.busy = false) :
    ∃ j, r.result = Config.freeWord j := by
  obtain ⟨-, ⟨-, -, hfree⟩ | ⟨p, q, hs, -⟩⟩ := h
  · exact hfree
  · simp [State.busy, hs] at hidle

/-- A WRITE and the same WRITE raced: the checks do not read the source, and then the loops run alike. -/
theorem exec_write_standAlike {s t : State} (hr : s.raced = false) (hs : s.params.splitUncompressedTransfer = false)
    (h : exec .write s = .next t) : ∃ r, exec .write { s with raced := true } = .next r ∧ StandAlike t r := by
  have htwin : RacedTwin s { s with raced := true } := ⟨hr, hs, _, _, _, _, _, _, _, _, _, rfl, rfl, rfl⟩
  cases hcheck : writeCheck s with
  | some code =>
    rw [exec_failed_check (.inr ⟨rfl, hcheck⟩)] at h
    cases h
    exact ⟨_, exec_failed_check (.inr ⟨rfl, hcheck⟩), htwin.standAlike_finishData code 0⟩
  | none =>
    simp only [exec, execWrite, hcheck] at h
    cases h
    refine ⟨_, ?_, standAlike_settle (htwin.standAlike_continueWrite rfl 0 s.writer.writesDirect)⟩
    simp only [exec, execWrite, show writeCheck { s with raced := true } = none from hcheck]
    rfl

/-- Settles O19: a raced ENCODE, the failed checks, a raced WRITE by its blocks, and a WRITE beside its raced twin. -/
theorem racedCommandsFinish : Obligations.RacedCommandsFinish := by
  refine ⟨fun s hr hpasses => ?_, fun s i code hr hcheck => ?_, ?_, fun s t hr hs h => ?_⟩
  · exact exec_encode_raced hr hpasses
  · obtain ⟨j, k, hfinish⟩ := finishData_of_raced hr code 0
    exact ⟨j, k, (exec_failed_check hcheck).trans (congrArg _ hfinish)⟩
  · rintro s n rest rfl hr hs hmode hlive hrange ha
    obtain ⟨t, hexec, ts, table, obuf, dp, trail, j, k, hlen, rfl⟩ := exec_write_raced hr hs hmode hlive hrange ha
    exact ⟨ts, table, obuf, dp, trail, j, k, hlen, hexec⟩
  · obtain ⟨r, hexec, halike⟩ := exec_write_standAlike hr hs h
    exact ⟨r, hexec, halike.transitions, halike.result_free⟩

end Sys2Proof.Machine
end

section
/-! SUPPORT. What a rule of the engine and a host access can do: a rule finishes its command, or leaves it at a transfer or a
chunk with `RESULT` as it was (10 R29, R36; 60 R236). -/

namespace Sys2Proof.Machine

/-! ### How a rule ends -/

/-- The engine awaits the sink. -/
def Ctrl.awaits (c : Ctrl) : Prop := ∃ p, c = .waiting p

/-- The engine frames a chunk. -/
def Ctrl.frames (c : Ctrl) : Prop := ∃ u after e, c = .framing u after e

/-- The command has finished (60 R236). -/
def Finished (t : State) : Prop := t.ctrl = .idle ∧ t.done = true

/-- From `s` a rule ends at `t`: the command has finished, or it stands in one of the control states `Q` and has reported
nothing. -/
def RuleEnd (Q : Ctrl → Prop) (s t : State) : Prop :=
  Finished t ∨ Q t.ctrl ∧ t.result = s.result ∧ t.resultCode = s.resultCode

section
variable {Q : Ctrl → Prop}

theorem Finished.ruleEnd {s t : State} (h : Finished t) : RuleEnd Q s t := .inl h

/-- The end of a rule, from an earlier state that had reported the same. -/
theorem RuleEnd.of_same {s t u : State} (h : RuleEnd Q t u) (hr : t.result = s.result) (hc : t.resultCode = s.resultCode) :
    RuleEnd Q s u := by
  rcases h with h | ⟨hq, hr', hc'⟩
  · exact .inl h
  · exact .inr ⟨hq, hr'.trans hr, hc'.trans hc⟩

theorem finish_finished (code : ResultCode) (r : Word) (s : State) : Finished (finish code r s) := ⟨rfl, rfl⟩

theorem finishData_finished (code : ResultCode) (n : Nat) (s : State) : Finished (finishData code n s) := by
  obtain ⟨r, k, h⟩ := finishData_cases code n s
  rw [h]
  exact finish_finished ..

theorem storeEncoded_finished (e : Encoded) (s : State) : Finished (storeEncoded e s) := finishData_finished ..

theorem offer_ruleEnd (bytes payload : List Byte) (after : After) (s : State) :
    RuleEnd Ctrl.awaits s (offer bytes payload after s) := by
  obtain ⟨b, k, h, -⟩ := offer_cases bytes payload after s
  rw [h]
  exact .inr ⟨⟨_, rfl⟩, rfl, rfl⟩

theorem emitFramed_ruleEnd (u : List Byte) (f : Framed) (after : After) (s : State) :
    RuleEnd Ctrl.awaits s (emitFramed u f after s) := by
  unfold emitFramed
  simp only
  split
  · exact (offer_ruleEnd ..).of_same rfl rfl
  · exact (offer_ruleEnd ..).of_same rfl rfl

theorem emitChunk_ruleEnd (u : List Byte) (after : After) (s : State) : RuleEnd Ctrl.awaits s (emitChunk u after s) :=
  emitFramed_ruleEnd ..

theorem beginChunk_ruleEnd (u : List Byte) (after : After) (s : State) : RuleEnd Ctrl.frames s (beginChunk u after s) :=
  .inr ⟨⟨_, _, _, rfl⟩, rfl, rfl⟩

section
variable {emit : List Byte → After → State → State} (he : ∀ u after s, RuleEnd Q s (emit u after s))
include he

theorem fillBuffer_ruleEnd (p : List Byte) (absorbed : Nat) (s : State) : RuleEnd Q s (fillBuffer emit p absorbed s) := by
  unfold fillBuffer
  simp only
  split
  · exact (he ..).of_same rfl rfl
  · exact (finishData_finished ..).ruleEnd

theorem continueWrite_ruleEnd (input : List Byte) (absorbed : Nat) (direct : Bool) (s : State) :
    RuleEnd Q s (continueWrite emit input absorbed direct s) := by
  obtain ⟨k, hk⟩ := raceInput_cases input s
  unfold continueWrite writeBlock
  rw [hk]
  simp only
  split
  · exact (finishData_finished ..).ruleEnd
  · split
    · exact (he ..).of_same rfl rfl
    · split
      · exact (he ..).of_same rfl rfl
      · exact (fillBuffer_ruleEnd he ..).of_same rfl rfl

theorem afterOk_ruleEnd (after : After) (s : State) : RuleEnd Q s (afterOk emit after s) := by
  cases after with
  | write rest absorbed gain direct => exact continueWrite_ruleEnd he ..
  | flush => exact (finish_finished ..).ruleEnd
  | close => exact (finish_finished ..).ruleEnd

end

end

theorem afterErr_finished (after : After) (s : State) : Finished (afterErr after s) := by
  cases after with
  | write rest absorbed gain direct => exact finishData_finished ..
  | flush => exact finish_finished ..
  | close => exact finish_finished ..

theorem takeAnswer_ruleEnd (a : SinkAnswer) (p : Pending) (s : State) : RuleEnd Ctrl.awaits s (takeAnswer a p s) := by
  cases a with
  | ok =>
    simp only [takeAnswer]
    split
    · exact (afterOk_ruleEnd emitChunk_ruleEnd ..).of_same rfl rfl
    · exact (offer_ruleEnd ..).of_same rfl rfl
  | err code consumed => exact (afterErr_finished ..).ruleEnd

theorem takeAnswers_ruleEnd (as : List SinkAnswer) {s t : State} (h : RuleEnd Ctrl.awaits s t) :
    RuleEnd Ctrl.awaits s (takeAnswers as t) := by
  induction as generalizing t with
  | nil => exact h
  | cons a as ih =>
    rcases h with hfinished | ⟨⟨p, hp⟩, hr, hc⟩
    · have hidle : ∀ p, t.ctrl ≠ .waiting p := fun p => by rw [hfinished.1]; nofun
      rw [takeAnswers_of_not_awaiting hidle]
      exact .inl hfinished
    · rw [takeAnswers_awaiting hp]
      exact ih ((takeAnswer_ruleEnd a p t).of_same hr hc)

theorem settle_ruleEnd {s t : State} (h : RuleEnd Ctrl.awaits s t) : RuleEnd Ctrl.awaits s (settle t) :=
  takeAnswers_ruleEnd _ h

theorem emitBuffered_ruleEnd (after : After) (s : State) : RuleEnd Ctrl.awaits s (emitBuffered after s) :=
  (emitChunk_ruleEnd ..).of_same rfl rfl

/-- A command is in progress, past its start. -/
def InProgress (s : State) : Prop := s.ctrl ≠ .idle ∧ s.ctrl ≠ .accepted

theorem InProgress.of_ctrl {s : State} {c : Ctrl} (h : s.ctrl = c) (hidle : c ≠ .idle) (haccepted : c ≠ .accepted) :
    InProgress s := ⟨h ▸ hidle, h ▸ haccepted⟩

theorem advance_ruleEnd {s : State} (h : InProgress s) : RuleEnd Ctrl.awaits s (advance s) := by
  unfold advance
  split
  · exact (storeEncoded_finished ..).ruleEnd
  · exact emitFramed_ruleEnd ..
  · exact offer_ruleEnd ..
  · exact afterOk_ruleEnd emitChunk_ruleEnd ..
  · exact absurd (by assumption) h.1
  · exact absurd (by assumption) h.2
  · rename_i p hp
    exact .inr ⟨⟨p, hp⟩, rfl, rfl⟩

/-! ### The host's accesses -/

/-- An access that reaches neither the block's registers nor the engine: it may leave a byte, a loaded value and the marks. -/
def PlainAccess (s t : State) : Prop :=
  ∃ m v rm am rb k, t = { s with
    mem := m, busData := v, refusalMark := rm, raceMark := am, racedBytes := rb, draws := k }

/-- A store to the CSR window has an effect but a mark only as a word, on `CMD` or on another register (20 R66). -/
theorem csrStore_defined_cases {addr : Word} {width : AccessWidth} {w : Word} {s t : State}
    (h : csrStore addr width w s = .next t) :
    (∃ m, t = { s with refusalMark := m })
      ∨ width = .word ∧ (csrOffset s.params addr = 0x0C ∧ cmdStore w s = .next t
          ∨ csrOffset s.params addr ≠ 0x0C ∧ t = csrStoreValue (csrOffset s.params addr) w s) := by
  unfold csrStore at h
  split at h
  · rename_i hdefined
    refine .inr ⟨(csrAccessDefined_iff.1 hdefined).1, ?_⟩
    split at h
    · exact .inl ⟨by assumption, h⟩
    · cases h
      exact .inr ⟨by assumption, rfl⟩
  · split at h <;> cases h
    · exact .inl ⟨true, rfl⟩
    · exact .inl ⟨s.refusalMark, rfl⟩

theorem storeHostByte_plain (addr : Word) (b : Byte) (s : State) : PlainAccess s (storeHostByte addr b s) := by
  obtain ⟨v, rm, rb, k, h, -⟩ := storeHostByte_cases addr b s
  exact ⟨_, _, _, _, _, _, h⟩

/-- A host access is plain, or a store to the CSR window, or a store of a byte that is then a race on the source. -/
theorem hostStep_cases {op : HostOp} {s t : State} (h : hostStep op s = .next t) :
    PlainAccess s t
      ∨ (∃ addr w, op = .csrStore addr .word w
          ∧ (csrOffset s.params addr = 0x0C ∧ cmdStore w s = .next t
            ∨ csrOffset s.params addr ≠ 0x0C ∧ t = csrStoreValue (csrOffset s.params addr) w s))
      ∨ ∃ u, PlainAccess s u ∧ t = markRace u := by
  cases op with
  | csrLoad addr width =>
    obtain ⟨v, m, k, heq, -⟩ := csrLoad_cases addr width s
    cases h
    exact .inl ⟨_, _, _, _, _, _, heq⟩
  | csrStore addr width w =>
    rcases csrStore_defined_cases h with ⟨m, rfl⟩ | ⟨rfl, hstore⟩
    · exact .inl ⟨_, _, _, _, _, _, rfl⟩
    · exact .inr (.inl ⟨addr, w, rfl, hstore⟩)
  | memLoad addr =>
    rcases memLoad_cases h with ⟨-, rfl⟩ | ⟨-, v, k, rfl⟩
    · exact .inl ⟨_, _, _, _, _, _, rfl⟩
    · exact .inl ⟨_, _, _, _, _, _, rfl⟩
  | memStore addr b =>
    rcases memStore_cases h with ⟨-, rfl⟩ | ⟨-, rfl | rfl⟩
    · exact .inl ⟨_, _, _, _, _, _, rfl⟩
    · exact .inl (storeHostByte_plain addr b s)
    · exact .inr (.inr ⟨_, storeHostByte_plain addr b s, rfl⟩)

end Sys2Proof.Machine
end

section
/-! SUPPORT. The machine's invariant over every step, and after reset; what the engine does to the writer and the sink port's
record: it leaves both, records an answer, or begins a stream (10 R31, R37; 42 R203, R206, R216). -/

namespace Sys2Proof.Machine

/-- Settles O37, by the inversion of the step. -/
theorem machineInvKept : Obligations.MachineInvKept := fun _ _ => step_machineInv

/-! ### What takes no answer -/

/-- What an operation that takes no answer and begins no stream keeps of the writer and of the sink port's record. -/
structure SinkFrame (s t : State) : Prop where
  sinkLog : t.sinkLog = s.sinkLog
  sinkErr : t.writer.sinkErr = s.writer.sinkErr
  wmode : t.writer.wmode = s.writer.wmode
  hdr : s.writer.hdr = true → t.writer.hdr = true

theorem SinkFrame.refl (s : State) : SinkFrame s s := ⟨rfl, rfl, rfl, id⟩

theorem SinkFrame.trans {s t u : State} (h : SinkFrame s t) (k : SinkFrame t u) : SinkFrame s u :=
  ⟨k.sinkLog.trans h.sinkLog, k.sinkErr.trans h.sinkErr, k.wmode.trans h.wmode, k.hdr ∘ h.hdr⟩

/-- An update that leaves the writer and the record. -/
theorem SinkFrame.of_eq {s t : State} (hlog : t.sinkLog = s.sinkLog) (hwriter : t.writer = s.writer) : SinkFrame s t :=
  ⟨hlog, by rw [hwriter], by rw [hwriter], by rw [hwriter]; exact id⟩

theorem setIbuf_sinkFrame (s : State) (v : List Byte) : SinkFrame s (s.setIbuf v) := ⟨rfl, rfl, rfl, id⟩

theorem setWState_sinkFrame (s : State) (v : WState) : SinkFrame s (s.setWState v) := ⟨rfl, rfl, rfl, id⟩

theorem finish_sinkFrame (code : ResultCode) (r : Word) (s : State) : SinkFrame s (finish code r s) := .of_eq rfl rfl

theorem finishData_sinkFrame (code : ResultCode) (n : Nat) (s : State) : SinkFrame s (finishData code n s) := by
  obtain ⟨r, k, h⟩ := finishData_cases code n s
  exact .of_eq (by rw [h]; rfl) (by rw [h]; rfl)

theorem storeEncoded_sinkFrame (e : Encoded) (s : State) : SinkFrame s (storeEncoded e s) := by
  obtain ⟨m, k, r, h⟩ := storeEncoded_cases e s
  exact .of_eq (by rw [h]; rfl) (by rw [h]; rfl)

theorem offer_sinkFrame (bytes payload : List Byte) (after : After) (s : State) :
    SinkFrame s (offer bytes payload after s) := by
  obtain ⟨b, k, h, -⟩ := offer_cases bytes payload after s
  exact .of_eq (by rw [h]) (by rw [h])

theorem emitFramed_sinkFrame (u : List Byte) (f : Framed) (after : After) (s : State) :
    SinkFrame s (emitFramed u f after s) := by
  have hstage : SinkFrame s (stageChunk f s) := ⟨rfl, rfl, rfl, fun _ => rfl⟩
  unfold emitFramed
  simp only
  split
  · exact hstage.trans (offer_sinkFrame ..)
  · exact hstage.trans (offer_sinkFrame ..)

/-- A way to emit chunks that takes no answer. -/
abbrev EmitSinkFrame (emit : List Byte → After → State → State) : Prop := ∀ u after s, SinkFrame s (emit u after s)

theorem emitChunk_sinkFrame : EmitSinkFrame emitChunk := fun u after s => emitFramed_sinkFrame u (s.frame u) after s

theorem beginChunk_sinkFrame : EmitSinkFrame beginChunk := fun _ _ _ => .of_eq rfl rfl

theorem raceInput_sinkFrame (p : List Byte) (s : State) : SinkFrame s (raceInput p s).2 := by
  obtain ⟨k, h⟩ := raceInput_cases p s
  exact .of_eq (by rw [h]) (by rw [h])

section
variable {emit : List Byte → After → State → State} (he : EmitSinkFrame emit)
include he

theorem fillBuffer_sinkFrame (p : List Byte) (absorbed : Nat) (s : State) : SinkFrame s (fillBuffer emit p absorbed s) := by
  unfold fillBuffer
  simp only
  split
  · exact (setIbuf_sinkFrame ..).trans <| (setIbuf_sinkFrame ..).trans (he ..)
  · exact (setIbuf_sinkFrame ..).trans (finishData_sinkFrame ..)

theorem continueWrite_sinkFrame (input : List Byte) (absorbed : Nat) (direct : Bool) (s : State) :
    SinkFrame s (continueWrite emit input absorbed direct s) := by
  refine (raceInput_sinkFrame input s).trans ?_
  unfold continueWrite writeBlock
  simp only
  split
  · exact finishData_sinkFrame ..
  · split
    · exact he ..
    · split
      · exact he ..
      · exact fillBuffer_sinkFrame he ..

theorem afterOk_sinkFrame (after : After) (s : State) : SinkFrame s (afterOk emit after s) := by
  cases after with
  | write rest absorbed gain direct => exact continueWrite_sinkFrame he ..
  | flush => exact finish_sinkFrame ..
  | close => exact (setWState_sinkFrame s .closed).trans (finish_sinkFrame ..)

end

theorem afterErr_sinkFrame (after : After) (s : State) : SinkFrame s (afterErr after s) := by
  cases after with
  | write rest absorbed gain direct => exact finishData_sinkFrame ..
  | flush => exact finish_sinkFrame ..
  | close => exact (setWState_sinkFrame s .closed).trans (finish_sinkFrame ..)

theorem emitBuffered_sinkFrame (after : After) (s : State) : SinkFrame s (emitBuffered after s) :=
  (setIbuf_sinkFrame s []).trans (emitChunk_sinkFrame ..)

theorem startEncode_sinkFrame (s : State) : SinkFrame s (startEncode s) := by
  unfold startEncode
  split
  · exact finishData_sinkFrame ..
  · exact .of_eq rfl rfl

theorem startWrite_sinkFrame (s : State) : SinkFrame s (startWrite s) := by
  unfold startWrite
  split
  · exact finishData_sinkFrame ..
  · exact .of_eq rfl rfl

theorem advance_sinkFrame (s : State) : SinkFrame s (advance s) := by
  unfold advance
  split
  · exact storeEncoded_sinkFrame ..
  · exact emitFramed_sinkFrame ..
  · exact offer_sinkFrame ..
  · exact afterOk_sinkFrame emitChunk_sinkFrame ..
  all_goals exact .refl s

/-! ### An answer -/

/-- The answer to the pending transfer in the sink port's record, and in `SINK_ERR` if it is an error (42 R203). -/
def recordAnswer (a : SinkAnswer) (p : Pending) (s : State) : State :=
  match a with
  | .ok => s.logSink (.transfer p.bytes (.answered .ok))
  | .err code consumed => (s.logSink (.transfer p.bytes (.answered (.err code consumed)))).setSinkErr code.val

theorem takeAnswer_sinkFrame (a : SinkAnswer) (p : Pending) (s : State) :
    SinkFrame (recordAnswer a p s) (takeAnswer a p s) := by
  cases a with
  | ok =>
    simp only [takeAnswer, recordAnswer]
    split
    · exact (setWState_sinkFrame _ .streaming).trans (afterOk_sinkFrame emitChunk_sinkFrame ..)
    · exact offer_sinkFrame ..
  | err code consumed =>
    let logged := s.logSink (.transfer p.bytes (.answered (.err code consumed)))
    have herr : SinkFrame (recordAnswer (.err code consumed) p s) ((logged.setWState .errored).setSinkErr code.val) :=
      ⟨rfl, rfl, rfl, id⟩
    exact herr.trans (afterErr_sinkFrame ..)

theorem noteAnswer_sinkFrame (a : SinkAnswer) (p : Pending) (s : State) :
    SinkFrame (recordAnswer a p s) (noteAnswer a p s) := by
  cases a with
  | ok =>
    simp only [noteAnswer, recordAnswer]
    split
    · exact ⟨rfl, rfl, rfl, id⟩
    · exact .of_eq rfl rfl
  | err code consumed => exact takeAnswer_sinkFrame (.err code consumed) p s

/-- A relation between states that holds over what takes no answer, and over an answer to a pending transfer. -/
structure SinkRelation (R : State → State → Prop) : Prop where
  trans : ∀ {s t u}, R s t → R t u → R s u
  frame : ∀ {s t}, SinkFrame s t → R s t
  answer : ∀ {s p}, MachineInv s → s.ctrl = .waiting p → ∀ a, R s (recordAnswer a p s)

/-- The command begins a new stream (42 R206, R216). -/
def startsStream (i : Instr) : Prop := i = .resetStream ∨ ∃ mode, i = .initWriter mode

/-- The engine begins a new stream, with the command in its latch. -/
def BeginsStream (s t : State) : Prop :=
  s.ctrl = .accepted ∧ startsStream s.args.instr ∧ ∃ mode trail, t = finish .ok 0 (freshStream mode trail s)

/-- A WRITE that passes its checks runs the loop over its source (42 R207). -/
theorem execWrite_cases {s t : State} (h : execWrite s = .next t) :
    (∃ code, t = finishData code 0 s)
      ∨ writeCheck s = none ∧ t = settle (continueWrite emitChunk s.source 0 s.writer.writesDirect s) := by
  unfold execWrite at h
  split at h <;> cases h
  · exact .inl ⟨_, rfl⟩
  · exact .inr ⟨by assumption, rfl⟩

/-- A command finishes without an answer, or begins a stream, or comes to its first chunk and goes on over the answers given. -/
theorem exec_cases {s t : State} {i : Instr} (hl : i.layer = .command) (h : exec i s = .next t) :
    Finished t ∧ SinkFrame s t
      ∨ (∃ mode trail, (i = .initWriter mode ∨ i = .resetStream ∧ mode = s.writer.wmode)
          ∧ t = finish .ok 0 (freshStream mode trail s))
      ∨ ∃ u, RuleEnd Ctrl.awaits s u ∧ SinkFrame s u ∧ (MachineInv s → s.ctrl = .accepted → MachineInv u) ∧ t = settle u := by
  cases i with
  | litInline | lit1 | lit2 | lit3 | lit4 | copy1 | copy2 | copy4
  | chunkStreamId | chunkCompressed | chunkUncompressed => simp [Instr.layer] at hl
  | encode =>
    rcases execEncode_cases h with ⟨code, -, rfl⟩ | ⟨-, rfl⟩
    · exact .inl ⟨finishData_finished .., finishData_sinkFrame ..⟩
    · exact .inl ⟨storeEncoded_finished .., storeEncoded_sinkFrame ..⟩
  | maxlen =>
    obtain ⟨r, rfl⟩ := execMaxlen_cases h
    exact .inl ⟨finish_finished .., finish_sinkFrame ..⟩
  | initWriter mode =>
    obtain ⟨trail, heq⟩ := execInitWriter_eq mode s
    cases heq.symm.trans h
    exact .inr (.inl ⟨mode, trail, .inl rfl, rfl⟩)
  | write =>
    rcases execWrite_cases h with ⟨code, rfl⟩ | ⟨hcheck, rfl⟩
    · exact .inl ⟨finishData_finished .., finishData_sinkFrame ..⟩
    · exact .inr (.inr ⟨_, continueWrite_ruleEnd emitChunk_ruleEnd .., continueWrite_sinkFrame emitChunk_sinkFrame ..,
        fun hm hc => continueWrite_machineInv emitChunk_machineInv hm.data (writeCheck_resumes hm.data (hm.ctrl hc) hcheck),
        rfl⟩)
  | flush =>
    rcases execFlush_cases h with ⟨code, rfl⟩ | ⟨hlive, hmode, rfl⟩
    · exact .inl ⟨finish_finished .., finish_sinkFrame ..⟩
    · exact .inr (.inr ⟨_, emitBuffered_ruleEnd .., emitBuffered_sinkFrame .flush s, fun hm hc =>
        emitBuffered_machineInv (after := .flush) hm.data (hm.ctrl hc) hlive hmode, rfl⟩)
  | close =>
    rcases execClose_cases h with ⟨code, rfl⟩ | ⟨code, rfl⟩ | ⟨hlive, hmode, rfl⟩
    · exact .inl ⟨finish_finished .., finish_sinkFrame ..⟩
    · exact .inl ⟨finish_finished .., (setWState_sinkFrame s .closed).trans (finish_sinkFrame ..)⟩
    · exact .inr (.inr ⟨_, emitBuffered_ruleEnd .., emitBuffered_sinkFrame .close s, fun hm hc =>
        emitBuffered_machineInv (after := .close) hm.data (hm.ctrl hc) hlive hmode, rfl⟩)
  | resetStream =>
    obtain ⟨trail, heq⟩ := execResetStream_eq s
    cases heq.symm.trans h
    exact .inr (.inl ⟨_, trail, .inr ⟨rfl, rfl⟩, rfl⟩)
  | illegal w =>
    cases h
    exact .inl ⟨finish_finished .., finish_sinkFrame ..⟩

section
variable {R : State → State → Prop} (hR : SinkRelation R)
include hR

theorem SinkRelation.takeAnswers (as : List SinkAnswer) {s : State} (hm : MachineInv s) : R s (takeAnswers as s) := by
  induction as generalizing s with
  | nil => exact hR.frame (.of_eq rfl rfl)
  | cons a as ih =>
    by_cases hp : ∃ p, s.ctrl = .waiting p
    · obtain ⟨p, hp⟩ := hp
      rw [takeAnswers_awaiting hp]
      have htaken : R s (takeAnswer a p s) := hR.trans (hR.answer hm hp a) (hR.frame (takeAnswer_sinkFrame ..))
      exact hR.trans htaken (ih (takeAnswer_machineInv hm.data (hm.ctrl hp) a))
    · rw [takeAnswers_of_not_awaiting (not_exists.1 hp)]
      exact hR.frame (.of_eq rfl rfl)

theorem SinkRelation.settle {s t : State} (hframe : SinkFrame s t) (hm : MachineInv t) : R s (settle t) :=
  hR.trans (hR.frame hframe) (hR.takeAnswers t.answers hm)

/-- The command in the latch keeps the relation, or begins a stream. -/
theorem SinkRelation.exec {s t : State} (hm : MachineInv s) (hc : s.ctrl = .accepted) (h : exec s.args.instr s = .next t) :
    R s t ∨ BeginsStream s t := by
  rcases exec_cases (decodeCommand_layer _) h with ⟨-, hframe⟩ | ⟨mode, trail, hi, rfl⟩ | ⟨u, -, hframe, hu, rfl⟩
  · exact .inl (hR.frame hframe)
  · exact .inr ⟨hc, hi.elim (fun hi => .inr ⟨mode, hi⟩) fun hi => .inl hi.1, mode, trail, rfl⟩
  · exact .inl (hR.settle hframe (hu hm hc))

/-- The engine, running on, keeps the relation or begins a stream. -/
theorem SinkRelation.engineStep {s t : State} (hm : MachineInv s) (h : engineStep s = .next t) :
    R s t ∨ BeginsStream s t := by
  rcases engineStep_cases h with ⟨-, rfl⟩ | ⟨hc, h⟩ | ⟨-, -, rfl⟩
  · exact .inl (hR.frame (.refl t))
  · exact hR.exec hm hc h
  · exact .inl (hR.settle (advance_sinkFrame s) (advance_machineInv hm))

/-- A small step of the engine keeps the relation or begins a stream. -/
theorem SinkRelation.tickStep {s t : State} (hm : MachineInv s) (h : tickStep s = .next t) :
    R s t ∨ BeginsStream s t := by
  rcases tickStep_cases h with rfl | ⟨hc, h⟩ | ⟨e, -, rfl⟩ | ⟨u, after, e, -, rfl⟩ | ⟨-, -, rfl⟩ | ⟨after, -, rfl⟩
    | ⟨p, a, rest, hc, -, rfl⟩
  · exact .inl (hR.frame (.refl t))
  · rcases startCommand_cases h with h | ⟨-, rfl⟩ | ⟨-, rfl⟩ | ⟨-, ⟨-, rfl⟩ | ⟨-, rfl⟩⟩
    · exact hR.exec hm hc h
    · exact .inl (hR.frame (startEncode_sinkFrame s))
    · exact .inl (hR.frame (startWrite_sinkFrame s))
    · exact .inl (hR.frame ((setIbuf_sinkFrame s []).trans (beginChunk_sinkFrame ..)))
    · exact .inl (hR.frame ((setIbuf_sinkFrame s []).trans (beginChunk_sinkFrame ..)))
  · exact .inl (hR.frame (.of_eq rfl rfl))
  · exact .inl (hR.frame (.of_eq rfl rfl))
  · exact .inl (hR.frame (advance_sinkFrame s))
  · exact .inl (hR.frame (afterOk_sinkFrame beginChunk_sinkFrame ..))
  · have hrest : R s { s with answers := rest } := hR.frame (.of_eq rfl rfl)
    have hanswer : R { s with answers := rest } (recordAnswer a p { s with answers := rest }) :=
      hR.answer (s := { s with answers := rest }) hm hc a
    exact .inl (hR.trans hrest (hR.trans hanswer (hR.frame (noteAnswer_sinkFrame ..))))

end

/-! ### The host's accesses -/

theorem csrStoreValue_sinkFrame (offset : Nat) (w : Word) (s : State) : SinkFrame s (csrStoreValue offset w s) := by
  unfold csrStoreValue
  repeat' split
  all_goals exact .of_eq rfl rfl

theorem cmdStore_sinkFrame {w : Word} {s t : State} (h : cmdStore w s = .next t) : SinkFrame s t := by
  rcases cmdStore_cases h with ⟨-, rfl⟩ | ⟨-, rfl | rfl⟩
  · exact .of_eq rfl rfl
  · exact .of_eq rfl rfl
  · exact .of_eq rfl rfl

theorem PlainAccess.sinkFrame {s t : State} (h : PlainAccess s t) : SinkFrame s t := by
  obtain ⟨m, v, rm, am, rb, k, rfl⟩ := h
  exact .of_eq rfl rfl

/-- A host access leaves the writer and the sink port's record, but that a race draws the recorded transfers anew (70 R270). -/
theorem hostStep_sink {op : HostOp} {s t : State} (h : hostStep op s = .next t) :
    SinkFrame s t ∨ ∃ u, SinkFrame s u ∧ t = markRace u := by
  rcases hostStep_cases h with hplain | ⟨addr, w, -, ⟨-, hstore⟩ | ⟨-, rfl⟩⟩ | ⟨u, hplain, rfl⟩
  · exact .inl hplain.sinkFrame
  · exact .inl (cmdStore_sinkFrame hstore)
  · exact .inl (csrStoreValue_sinkFrame ..)
  · exact .inr ⟨u, hplain.sinkFrame, rfl⟩

theorem markRace_writer (s : State) : (markRace s).writer = s.writer := by
  obtain ⟨c, k, log, h, -⟩ := markRace_cases s
  rw [h]

/-! ### `SINK_ERR` and the last response -/

theorem not_streamFailed_newStream (log : List SinkEvent) : ¬streamFailed (log ++ [.newStream]) := by
  simp [streamFailed, currentStream_newStream]

theorem streamFailed_transfer_iff {log : List SinkEvent} {b : List Byte} {ending : TransferEnd} :
    streamFailed (log ++ [.transfer b ending]) ↔ ∃ code consumed, ending = .answered (.err code consumed) := by
  simp [streamFailed, currentStream_transfer]

/-- Whether the stream failed is a matter of how its transfers ended. -/
theorem streamFailed_iff {log : List SinkEvent} : streamFailed log ↔
    ∃ code consumed, ((currentStream log).map Prod.snd).getLast? = some (.answered (.err code consumed)) := by
  simp only [streamFailed, List.getLast?_map, Option.map_eq_some_iff, Prod.exists, exists_eq_right]
  constructor
  · rintro ⟨bytes, code, consumed, h⟩
    exact ⟨code, consumed, bytes, h⟩
  · rintro ⟨code, consumed, bytes, h⟩
    exact ⟨bytes, code, consumed, h⟩

/-- Transfers drawn anew, after records whose current streams ended alike, leave streams that ended alike. -/
theorem Redrawn.endings_eq {xs ys : List SinkEvent} (h : Redrawn xs ys) {zs zs' : List SinkEvent}
    (hz : (currentStream zs).map Prod.snd = (currentStream zs').map Prod.snd) :
    (currentStream (zs ++ xs)).map Prod.snd = (currentStream (zs' ++ ys)).map Prod.snd := by
  induction h generalizing zs zs' with
  | nil => simpa using hz
  | @cons x y xs ys hxy _ ih =>
    rw [List.append_cons, List.append_cons zs']
    refine ih ?_
    cases x with
    | newStream =>
      obtain rfl : y = .newStream := hxy
      rw [currentStream_newStream, currentStream_newStream]
    | transfer b ending =>
      obtain ⟨b', rfl, -⟩ := hxy
      simp only [currentStream_transfer, List.map_append, hz, List.map_cons, List.map_nil]

theorem streamFailed_markRace_iff (s : State) : streamFailed (markRace s).sinkLog ↔ streamFailed s.sinkLog := by
  obtain ⟨c, k, log, h, hlog, -⟩ := markRace_cases s
  rw [h, streamFailed_iff, streamFailed_iff, ← hlog.endings_eq rfl, List.take_append_drop]

/-- `SINK_ERR` shows whether the last response on the current stream was `ERR` (10 R31). -/
def SinkErrShown (s : State) : Prop := s.writer.sinkErr ≠ 0 ↔ streamFailed s.sinkLog

theorem sinkErrInv_iff {s : State} : SinkErrInv s ↔ MachineInv s ∧ SinkErrShown s := Iff.rfl

theorem SinkErrShown.of_frame {s t : State} (hs : SinkErrShown s) (h : SinkFrame s t) : SinkErrShown t := by
  rw [SinkErrShown, h.sinkErr, h.sinkLog]
  exact hs

/-- A stream that begins with a clear `SINK_ERR` shows no error. -/
theorem sinkErrShown_newStream {s : State} {log : List SinkEvent} (hlog : s.sinkLog = log ++ [.newStream])
    (herr : s.writer.sinkErr = 0) : SinkErrShown s := by
  rw [SinkErrShown, hlog]
  exact iff_of_false (not_not_intro herr) (not_streamFailed_newStream log)

/-- While a transfer is pending there was no error (10 R31). -/
theorem MachineInv.sinkErr_of_waiting {s : State} (hm : MachineInv s) {p : Pending} (hc : s.ctrl = .waiting p) :
    s.writer.sinkErr = 0 := by
  obtain ⟨hlive, -⟩ := hm.ctrl hc
  obtain ⟨-, -, -, -, hclear⟩ := hm.data.writer
  exact hclear hlive

/-- An answer shows itself: `OK` leaves `SINK_ERR` clear, and an error's code is not 0 (20 R70). -/
theorem recordAnswer_sinkErrShown {s : State} {p : Pending} (hm : MachineInv s) (hc : s.ctrl = .waiting p) (a : SinkAnswer) :
    SinkErrShown (recordAnswer a p s) := by
  cases a with
  | ok =>
    have hlog : ¬streamFailed (recordAnswer .ok p s).sinkLog := by
      rw [recordAnswer, logSink_sinkLog, streamFailed_transfer_iff]
      simp
    exact iff_of_false (not_not_intro (hm.sinkErr_of_waiting hc)) hlog
  | err code consumed => exact iff_of_true code.nonzero (streamFailed_transfer_iff.2 ⟨code, consumed, rfl⟩)

theorem sinkErrShown_sinkRelation : SinkRelation fun s t => SinkErrShown s → SinkErrShown t where
  trans h k := k ∘ h
  frame h hs := hs.of_frame h
  answer hm hc a _ := recordAnswer_sinkErrShown hm hc a

theorem hostStep_sinkErrShown {op : HostOp} {s t : State} (hs : SinkErrShown s) (h : hostStep op s = .next t) :
    SinkErrShown t := by
  rcases hostStep_sink h with hframe | ⟨u, hframe, rfl⟩
  · exact hs.of_frame hframe
  · rw [SinkErrShown, markRace_writer, streamFailed_markRace_iff]
    exact hs.of_frame hframe

theorem hardReset_sinkErrShown (d : ResetDraw) (s : State) : SinkErrShown (hardReset d s) := by
  obtain ⟨m, log, as, k, h, -⟩ := hardReset_cases d s
  exact sinkErrShown_newStream (log := log) (by rw [h]) (by rw [h]; rfl)

/-- What keeps the relation, or begins a stream, keeps `SINK_ERR` right. -/
theorem sinkErrShown_of_engine {s t : State} (hs : SinkErrShown s)
    (h : (SinkErrShown s → SinkErrShown t) ∨ BeginsStream s t) :
    SinkErrShown t := by
  rcases h with h | ⟨-, -, mode, trail, rfl⟩
  · exact h hs
  · exact sinkErrShown_newStream (log := s.sinkLog) rfl rfl

theorem runEvent_sinkErrShown {e : Event} {s t : State} (hm : MachineInv s) (hs : SinkErrShown s)
    (h : runEvent e s = .next t) : SinkErrShown t := by
  rcases runEvent_cases h with ⟨op, -, h⟩ | ⟨-, h⟩ | ⟨-, h⟩ | ⟨a, -, rfl⟩ | ⟨d, -, rfl⟩ | ⟨m, bs, -, h⟩ | ⟨-, h⟩
  · exact hostStep_sinkErrShown hs h
  · exact sinkErrShown_of_engine hs (sinkErrShown_sinkRelation.engineStep hm h)
  · exact sinkErrShown_of_engine hs (sinkErrShown_sinkRelation.tickStep hm h)
  · exact hs
  · exact hardReset_sinkErrShown d s
  · obtain ⟨r, rfl⟩ := openReader_cases h
    exact hs
  · obtain ⟨r, rfl⟩ := readerStep_cases h
    exact hs

/-- Settles O38: only an answer reaches the record of a stream, and it reaches `SINK_ERR` with it. -/
theorem sinkErrInvKept : Obligations.SinkErrInvKept := by
  intro s t hs h
  obtain ⟨hm, hs⟩ := sinkErrInv_iff.1 hs
  refine sinkErrInv_iff.2 ⟨step_machineInv hm h, ?_⟩
  rcases step_cases h with ⟨e, rest, -, h⟩ | ⟨-, ⟨-, rfl⟩ | ⟨-, h⟩⟩
  · exact runEvent_sinkErrShown (s := { s with events := rest }) hm hs h
  · exact hs
  · exact sinkErrShown_of_engine hs (sinkErrShown_sinkRelation.engineStep hm h)

/-- The machine's invariant holds after reset (10 R49). -/
theorem reset_machineInv : MachineInv State.reset :=
  DataInv.machineInv ⟨reset_mem_wf, reset_table_wf, Nat.zero_le _, writerInv_fresh _⟩ (fun _ => rfl) nofun

/-- Settles O41: after reset nothing is stored, no stream has begun, and the writer is Fresh. -/
theorem resetMeetsInvariants : Obligations.ResetMeetsInvariants := by
  have hquiet : ¬streamFailed State.reset.sinkLog := by simp [streamFailed, currentStream, State.reset]
  refine ⟨reset_machineInv, ?sinkErr, ?streamHead, ?memory⟩
  case sinkErr => exact ⟨reset_machineInv, iff_of_false (not_not_intro rfl) hquiet⟩
  case streamHead => exact ⟨reset_machineInv, nofun, fun _ => ⟨fun _ => rfl, nofun⟩⟩
  case memory => exact ⟨nofun, nofun, nofun⟩

/-! ### `HDR` and `SINK_ERR` stay -/

/-- A set `HDR` stays set, and an error stays shown (42 R204, 10 R37). -/
structure HeaderKept (s t : State) : Prop where
  hdr : s.writer.hdr = true → t.writer.hdr = true
  sinkErr : s.writer.sinkErr ≠ 0 → t.writer.sinkErr = s.writer.sinkErr

theorem SinkFrame.headerKept {s t : State} (h : SinkFrame s t) : HeaderKept s t := ⟨h.hdr, fun _ => h.sinkErr⟩

theorem HeaderKept.trans {s t u : State} (h : HeaderKept s t) (k : HeaderKept t u) : HeaderKept s u :=
  ⟨k.hdr ∘ h.hdr, fun herr => (k.sinkErr (h.sinkErr herr ▸ herr)).trans (h.sinkErr herr)⟩

theorem recordAnswer_hdr (a : SinkAnswer) (p : Pending) (s : State) : (recordAnswer a p s).writer.hdr = s.writer.hdr := by
  cases a <;> rfl

/-- An error is new where it comes: the answer is to a transfer, and while one is pending `SINK_ERR` is clear. -/
theorem headerKept_sinkRelation : SinkRelation HeaderKept where
  trans := .trans
  frame := SinkFrame.headerKept
  answer hm hc a := ⟨(recordAnswer_hdr a _ _).trans, fun herr => absurd (hm.sinkErr_of_waiting hc) herr⟩

theorem hostStep_headerKept {op : HostOp} {s t : State} (h : hostStep op s = .next t) : HeaderKept s t := by
  rcases hostStep_sink h with hframe | ⟨u, hframe, rfl⟩
  · exact hframe.headerKept
  · exact hframe.headerKept.trans ⟨(congrArg Writer.hdr (markRace_writer u)).trans,
      fun _ => congrArg Writer.sinkErr (markRace_writer u)⟩

theorem runEvent_headerKept {e : Event} {s t : State} (hm : MachineInv s) (h : runEvent e s = .next t) :
    HeaderKept s t ∨ (∃ d, e = .hardReset d) ∨ BeginsStream s t := by
  rcases runEvent_cases h with ⟨op, -, h⟩ | ⟨-, h⟩ | ⟨-, h⟩ | ⟨a, -, rfl⟩ | ⟨d, hd, -⟩ | ⟨m, bs, -, h⟩ | ⟨-, h⟩
  · exact .inl (hostStep_headerKept h)
  · exact (headerKept_sinkRelation.engineStep hm h).imp_right .inr
  · exact (headerKept_sinkRelation.tickStep hm h).imp_right .inr
  · exact .inl ⟨id, fun _ => rfl⟩
  · exact .inr (.inl ⟨d, hd⟩)
  · obtain ⟨r, rfl⟩ := openReader_cases h
    exact .inl ⟨id, fun _ => rfl⟩
  · obtain ⟨r, rfl⟩ := readerStep_cases h
    exact .inl ⟨id, fun _ => rfl⟩

/-- Settles O47: an engine that begins no stream only sets `HDR`, and `SINK_ERR` where it was clear. -/
theorem headerAndErrorCleared : Obligations.HeaderAndErrorCleared := by
  intro s t hm h
  have hstep : HeaderKept s t ∨ (∃ d rest, s.events = .hardReset d :: rest)
      ∨ s.ctrl = .accepted ∧ startsStream s.args.instr := by
    rcases step_cases h with ⟨e, rest, he, h⟩ | ⟨-, ⟨-, rfl⟩ | ⟨-, h⟩⟩
    · rcases runEvent_headerKept (s := { s with events := rest }) hm h with h | ⟨d, rfl⟩ | ⟨hc, hi, -⟩
      · exact .inl ⟨h.hdr, h.sinkErr⟩
      · exact .inr (.inl ⟨d, rest, he⟩)
      · exact .inr (.inr ⟨hc, hi⟩)
    · exact .inl (SinkFrame.refl t).headerKept
    · rcases headerKept_sinkRelation.engineStep hm h with h | ⟨hc, hi, -⟩
      · exact .inl h
      · exact .inr (.inr ⟨hc, hi⟩)
  exact hstep.imp_left fun h => ⟨h.hdr, h.sinkErr⟩

/-! ### The writer's mode, and the frame of the commands -/

/-- No answer changes the writer's mode. -/
theorem takeAnswers_wmode (as : List SinkAnswer) (s : State) : (takeAnswers as s).writer.wmode = s.writer.wmode := by
  induction as generalizing s with
  | nil => rfl
  | cons a as ih =>
    by_cases hp : ∃ p, s.ctrl = .waiting p
    · obtain ⟨p, hp⟩ := hp
      have hrecord : (recordAnswer a p s).writer.wmode = s.writer.wmode := by cases a <;> rfl
      rw [takeAnswers_awaiting hp, ih, (takeAnswer_sinkFrame a p s).wmode, hrecord]
    · rw [takeAnswers_of_not_awaiting (not_exists.1 hp)]
      rfl

/-- Only INIT_WRITER changes the writer's mode (42 R206, R216). -/
theorem exec_wmode {i : Instr} (hl : i.layer = .command) (hi : ∀ mode, i ≠ .initWriter mode) {s t : State}
    (h : exec i s = .next t) : t.writer.wmode = s.writer.wmode := by
  rcases exec_cases hl h with ⟨-, hframe⟩ | ⟨mode, trail, hmode | ⟨-, rfl⟩, rfl⟩ | ⟨u, -, hframe, -, rfl⟩
  · exact hframe.wmode
  · exact absurd hmode (hi mode)
  · rfl
  · exact (takeAnswers_wmode ..).trans hframe.wmode

/-- ENCODE changes memory, and the encoder's table and registers, or none of them, and finishes. -/
theorem execEncode_effect {s t : State} (h : execEncode s = .next t) :
    ∃ code r table dp m k, t = finish code r { s with table := table, dp := dp, mem := m, draws := k } := by
  rcases execEncode_cases h with ⟨code, -, rfl⟩ | ⟨-, rfl⟩
  · obtain ⟨r, k, heq⟩ := finishData_cases code 0 s
    exact ⟨code, r, s.table, s.dp, s.mem, k, heq⟩
  · obtain ⟨m, k, r, heq⟩ := storeEncoded_cases s.encodeOutput s
    exact ⟨.ok, r, _, _, m, k, heq⟩

/-- What stands outside the engine is left by every command (10 R47). -/
theorem exec_outside {i : Instr} (hl : i.layer = .command) {s t : State} (h : exec i s = .next t) :
    t.params = s.params ∧ t.irqEn = s.irqEn ∧ t.cmdOverrun = s.cmdOverrun ∧ t.srcAddr = s.srcAddr ∧ t.srcLen = s.srcLen
      ∧ t.dstAddr = s.dstAddr ∧ t.dstCap = s.dstCap ∧ t.args = s.args ∧ t.refusalMark = s.refusalMark
      ∧ t.raceMark = s.raceMark ∧ t.reader = s.reader ∧ t.busData = s.busData ∧ t.events = s.events := by
  by_cases hi : i = .encode
  · subst hi
    obtain ⟨code, r, table, dp, m, k, rfl⟩ := execEncode_effect h
    exact ⟨rfl, rfl, rfl, rfl, rfl, rfl, rfl, rfl, rfl, rfl, rfl, rfl, rfl⟩
  · have hframe := exec_frame hl hi h
    exact ⟨hframe.params, hframe.irqEn, hframe.cmdOverrun, hframe.srcAddr, hframe.srcLen, hframe.dstAddr, hframe.dstCap,
      hframe.args, hframe.refusalMark, hframe.raceMark, hframe.reader, hframe.busData, hframe.events⟩

/-- Settles O43, part by part: the engine's frame, ENCODE's effect, and `finish` for the commands that do not use the writer. -/
theorem commandFrame : Obligations.CommandFrame := by
  intro s t i hl h
  refine ⟨exec_outside hl h, fun hi a => by rw [(exec_frame hl hi h).mem], ?_, ?_, fun hi => exec_wmode hl hi h⟩
  · rintro (rfl | rfl | ⟨w, rfl⟩)
    · obtain ⟨code, r, table, dp, m, k, rfl⟩ := execEncode_effect h
      exact ⟨rfl, rfl, rfl⟩
    · obtain ⟨r, rfl⟩ := execMaxlen_cases h
      exact ⟨rfl, rfl, rfl⟩
    · cases h
      exact ⟨rfl, rfl, rfl⟩
  · rintro ⟨hencode, hwrite, hflush, hclose⟩
    cases i with
    | litInline | lit1 | lit2 | lit3 | lit4 | copy1 | copy2 | copy4
    | chunkStreamId | chunkCompressed | chunkUncompressed => simp [Instr.layer] at hl
    | encode => exact absurd rfl hencode
    | write => exact absurd rfl hwrite
    | flush => exact absurd rfl hflush
    | close => exact absurd rfl hclose
    | maxlen =>
      obtain ⟨r, rfl⟩ := execMaxlen_cases h
      exact ⟨rfl, rfl⟩
    | initWriter mode =>
      obtain ⟨trail, heq⟩ := execInitWriter_eq mode s
      cases heq.symm.trans h
      exact ⟨rfl, rfl⟩
    | resetStream =>
      obtain ⟨trail, heq⟩ := execResetStream_eq s
      cases heq.symm.trans h
      exact ⟨rfl, rfl⟩
    | illegal w =>
      cases h
      exact ⟨rfl, rfl⟩

end Sys2Proof.Machine
end

section
/-! SUPPORT. The engine neither reads nor changes the registers the host writes and the schedule (10 R40, 70 R273). -/

namespace Sys2Proof.Machine

/-- What the engine leaves to the host: `IRQ_EN`, `CMD_OVERRUN`, the argument CSRs, and the schedule. -/
structure HostRegs where
  irqEn : Bool
  cmdOverrun : Bool
  srcAddr : Word
  srcLen : Word
  dstAddr : Word
  dstCap : Word
  events : List Event

/-- The state with other host registers. -/
def State.withHost (s : State) (r : HostRegs) : State :=
  { s with
    irqEn := r.irqEn, cmdOverrun := r.cmdOverrun, srcAddr := r.srcAddr, srcLen := r.srcLen, dstAddr := r.dstAddr
    dstCap := r.dstCap, events := r.events }

/-- The host registers of a state. -/
def State.hostRegs (s : State) : HostRegs := ⟨s.irqEn, s.cmdOverrun, s.srcAddr, s.srcLen, s.dstAddr, s.dstCap, s.events⟩

@[simp] theorem withHost_params (s : State) (r : HostRegs) : (s.withHost r).params = s.params := rfl
@[simp] theorem withHost_args (s : State) (r : HostRegs) : (s.withHost r).args = s.args := rfl
@[simp] theorem withHost_ctrl (s : State) (r : HostRegs) : (s.withHost r).ctrl = s.ctrl := rfl
@[simp] theorem withHost_writer (s : State) (r : HostRegs) : (s.withHost r).writer = s.writer := rfl
@[simp] theorem withHost_raced (s : State) (r : HostRegs) : (s.withHost r).raced = s.raced := rfl
@[simp] theorem withHost_answers (s : State) (r : HostRegs) : (s.withHost r).answers = s.answers := rfl

theorem withHost_hostRegs (s : State) : s.withHost s.hostRegs = s := rfl

/-- An operation neither reads nor changes the host registers. -/
def IgnoresHost (f : State → State) : Prop := ∀ s r, f (s.withHost r) = (f s).withHost r

/-! ### The rules of the commands -/

theorem finishData_ignoresHost (code : ResultCode) (n : Nat) : IgnoresHost (finishData code n) := by
  intro s r
  unfold finishData
  rw [withHost_raced]
  split <;> rfl

theorem drawRacedBytes_ignoresHost (as : List Nat) : IgnoresHost (State.drawRacedBytes · as) := by
  induction as with
  | nil => exact fun _ _ => rfl
  | cons a as ih => exact fun s => ih { (drawBytes 1 s).2 with mem := memPut s.mem a ((drawBytes 1 s).1.headD 0) }

theorem storeOutput_ignoresHost (out : List Byte) : IgnoresHost (State.storeOutput · out) := by
  intro s r
  by_cases hr : s.raced = true
  · have hr' : (s.withHost r).raced = true := hr
    simp only [State.storeOutput, if_pos hr, if_pos hr']
    rfl
  · have hr' : ¬(s.withHost r).raced = true := hr
    simp only [State.storeOutput, if_neg hr, if_neg hr']
    rfl

theorem storeEncoded_ignoresHost (e : Encoded) : IgnoresHost (storeEncoded e) := by
  intro s r
  have hstore := storeOutput_ignoresHost e.bytes (s.setInternals e.table e.dp) r
  have hdraw := drawRacedBytes_ignoresHost s.racedBytes ((s.setInternals e.table e.dp).storeOutput e.bytes) r
  have hend := finishData_ignoresHost .ok e.bytes.length
    (((s.setInternals e.table e.dp).storeOutput e.bytes).drawRacedBytes s.racedBytes) r
  exact (congrArg (fun u => finishData .ok e.bytes.length (State.drawRacedBytes u s.racedBytes)) hstore).trans
    ((congrArg (finishData .ok e.bytes.length) hdraw).trans hend)

theorem offer_ignoresHost (bytes payload : List Byte) (after : After) : IgnoresHost (offer bytes payload after) := by
  intro s r
  unfold offer raceBytes
  rw [withHost_raced]
  split <;> rfl

theorem emitFramed_ignoresHost (u : List Byte) (f : Framed) (after : After) : IgnoresHost (emitFramed u f after) := by
  intro s r
  have hstage : stageChunk f (s.withHost r) = (stageChunk f s).withHost r := rfl
  have hsplit : splitsChunk f (s.withHost r) = splitsChunk f s := rfl
  simp only [emitFramed, hstage, hsplit]
  split
  · exact offer_ignoresHost ..
  · exact offer_ignoresHost ..

theorem emitChunk_ignoresHost (u : List Byte) (after : After) : IgnoresHost (emitChunk u after) :=
  fun s => emitFramed_ignoresHost u (s.frame u) after s

theorem beginChunk_ignoresHost (u : List Byte) (after : After) : IgnoresHost (beginChunk u after) := fun _ _ => rfl

theorem raceInput_withHost (p : List Byte) (s : State) (r : HostRegs) :
    raceInput p (s.withHost r) = ((raceInput p s).1, (raceInput p s).2.withHost r) := by
  unfold raceInput
  rw [withHost_raced]
  split <;> rfl

section
variable {emit : List Byte → After → State → State} (he : ∀ u after, IgnoresHost (emit u after))
include he

theorem fillBuffer_ignoresHost (p : List Byte) (absorbed : Nat) : IgnoresHost (fillBuffer emit p absorbed) := by
  intro s r
  have hfill : ∀ v, (s.withHost r).setIbuf v = (s.setIbuf v).withHost r := fun _ => rfl
  simp only [fillBuffer, withHost_writer, hfill]
  split
  · exact he _ _ ((s.setIbuf _).setIbuf []) r
  · exact finishData_ignoresHost _ _ (s.setIbuf _) r

theorem continueWrite_ignoresHost (input : List Byte) (absorbed : Nat) (direct : Bool) :
    IgnoresHost (continueWrite emit input absorbed direct) := by
  intro s r
  simp only [continueWrite, raceInput_withHost]
  generalize (raceInput input s).1 = p
  generalize (raceInput input s).2 = t
  have hdirect : goesDirect p direct (t.withHost r) = goesDirect p direct t := rfl
  have hthrough : passesThrough p (t.withHost r) = passesThrough p t := rfl
  simp only [hdirect, hthrough]
  split
  · exact finishData_ignoresHost ..
  · split
    · exact he ..
    · split
      · exact he ..
      · exact fillBuffer_ignoresHost he ..

theorem afterOk_ignoresHost (after : After) : IgnoresHost (afterOk emit after) := by
  cases after with
  | write rest absorbed gain direct => exact continueWrite_ignoresHost he rest (absorbed + gain) direct
  | flush => exact fun _ _ => rfl
  | close => exact fun _ _ => rfl

end

theorem afterErr_ignoresHost (after : After) : IgnoresHost (afterErr after) := by
  cases after with
  | write rest absorbed gain direct => exact finishData_ignoresHost .sink absorbed
  | flush => exact fun _ _ => rfl
  | close => exact fun _ _ => rfl

theorem takeAnswer_ignoresHost (a : SinkAnswer) (p : Pending) : IgnoresHost (takeAnswer a p) := by
  intro s r
  cases a with
  | ok =>
    simp only [takeAnswer]
    split
    · exact afterOk_ignoresHost emitChunk_ignoresHost _ ((s.logSink _).setWState .streaming) r
    · exact offer_ignoresHost _ _ _ (s.logSink _) r
  | err code consumed => exact afterErr_ignoresHost _ (((s.logSink _).setWState .errored).setSinkErr code.val) r

theorem noteAnswer_ignoresHost (a : SinkAnswer) (p : Pending) : IgnoresHost (noteAnswer a p) := by
  intro s r
  cases a with
  | ok =>
    simp only [noteAnswer]
    split <;> rfl
  | err code consumed => exact takeAnswer_ignoresHost (.err code consumed) p s r

theorem takeAnswers_ignoresHost (as : List SinkAnswer) : IgnoresHost (takeAnswers as) := by
  induction as with
  | nil => exact fun _ _ => rfl
  | cons a as ih =>
    intro s r
    by_cases hp : ∃ p, s.ctrl = .waiting p
    · obtain ⟨p, hp⟩ := hp
      rw [takeAnswers_awaiting hp, takeAnswers_awaiting (s := s.withHost r) hp, takeAnswer_ignoresHost, ih]
    · rw [takeAnswers_of_not_awaiting (not_exists.1 hp), takeAnswers_of_not_awaiting (s := s.withHost r) (not_exists.1 hp)]
      rfl

theorem settle_ignoresHost : IgnoresHost settle := fun s => takeAnswers_ignoresHost s.answers s

theorem emitBuffered_ignoresHost (after : After) : IgnoresHost (emitBuffered after) :=
  fun s => emitChunk_ignoresHost s.writer.ibuf after (s.setIbuf [])

theorem startEncode_ignoresHost : IgnoresHost startEncode := by
  intro s r
  unfold startEncode
  rw [withHost_params, withHost_args]
  split
  · exact finishData_ignoresHost ..
  · rfl

theorem startWrite_ignoresHost : IgnoresHost startWrite := by
  intro s r
  have hcheck : writeCheck (s.withHost r) = writeCheck s := rfl
  unfold startWrite
  rw [hcheck]
  split
  · exact finishData_ignoresHost ..
  · rfl

theorem advance_ignoresHost : IgnoresHost advance := by
  intro s r
  unfold advance
  rw [withHost_ctrl]
  split
  · exact storeEncoded_ignoresHost ..
  · exact emitFramed_ignoresHost ..
  · exact offer_ignoresHost ..
  · exact afterOk_ignoresHost emitChunk_ignoresHost ..
  all_goals rfl

/-! ### The commands and the engine's steps -/

/-- The outcome with other host registers. -/
def outcomeWithHost (r : HostRegs) : Host.Outcome State Fault Refusal → Host.Outcome State Fault Refusal
  | .next t => .next (t.withHost r)
  | .fault f => .fault f
  | .refused f => .refused f

/-- A move of the engine neither reads nor changes the host registers. -/
def MoveIgnoresHost (move : State → Host.Outcome State Fault Refusal) : Prop :=
  ∀ s r, move (s.withHost r) = outcomeWithHost r (move s)

theorem execEncode_ignoresHost : MoveIgnoresHost execEncode := by
  intro s r
  unfold execEncode
  rw [withHost_params, withHost_args]
  split
  · exact congrArg _ (finishData_ignoresHost ..)
  · exact congrArg _ (storeEncoded_ignoresHost s.encodeOutput s r)

theorem execMaxlen_ignoresHost : MoveIgnoresHost execMaxlen := by
  intro s r
  unfold execMaxlen
  rw [withHost_args]
  split <;> rfl

theorem execWrite_ignoresHost : MoveIgnoresHost execWrite := by
  intro s r
  have hcheck : writeCheck (s.withHost r) = writeCheck s := rfl
  unfold execWrite
  rw [hcheck]
  split
  · exact congrArg _ (finishData_ignoresHost ..)
  · have hloop := continueWrite_ignoresHost emitChunk_ignoresHost s.source 0 s.writer.writesDirect s r
    exact congrArg _ ((congrArg settle hloop).trans (settle_ignoresHost ..))

theorem settle_emitBuffered_ignoresHost (after : After) : IgnoresHost fun s => settle (emitBuffered after s) := fun s r =>
  (congrArg settle (emitBuffered_ignoresHost after s r)).trans (settle_ignoresHost ..)

theorem execFlush_ignoresHost : MoveIgnoresHost execFlush := by
  intro s r
  unfold execFlush
  rw [withHost_writer]
  split
  · rfl
  · split
    · rfl
    · exact congrArg _ (settle_emitBuffered_ignoresHost ..)

theorem execClose_ignoresHost : MoveIgnoresHost execClose := by
  intro s r
  unfold execClose
  rw [withHost_writer]
  split
  · rfl
  · rfl
  all_goals
    split
    · exact congrArg _ (settle_emitBuffered_ignoresHost ..)
    · rfl

theorem exec_ignoresHost {i : Instr} (hl : i.layer = .command) : MoveIgnoresHost (exec i) := by
  cases i with
  | litInline | lit1 | lit2 | lit3 | lit4 | copy1 | copy2 | copy4
  | chunkStreamId | chunkCompressed | chunkUncompressed => simp [Instr.layer] at hl
  | encode => exact execEncode_ignoresHost
  | maxlen => exact execMaxlen_ignoresHost
  | initWriter mode => exact fun _ _ => rfl
  | write => exact execWrite_ignoresHost
  | flush => exact execFlush_ignoresHost
  | close => exact execClose_ignoresHost
  | resetStream => exact fun _ _ => rfl
  | illegal w => exact fun _ _ => rfl

theorem engineStep_ignoresHost : MoveIgnoresHost engineStep := by
  intro s r
  unfold engineStep
  rw [withHost_ctrl]
  split
  · rfl
  · exact exec_ignoresHost (decodeCommand_layer _) s r
  all_goals exact congrArg _ ((congrArg settle (advance_ignoresHost s r)).trans (settle_ignoresHost ..))

theorem startCommand_ignoresHost : MoveIgnoresHost startCommand := by
  intro s r
  have hexec := fun {i} (hi : s.args.instr = i) => exec_ignoresHost (hi ▸ decodeCommand_layer _ : i.layer = .command) s r
  unfold startCommand
  rw [withHost_args, withHost_writer]
  split
  · exact congrArg _ (startEncode_ignoresHost s r)
  · exact congrArg _ (startWrite_ignoresHost s r)
  · split
    · rfl
    · exact hexec (by assumption)
  · split
    · rfl
    · exact hexec (by assumption)
  all_goals exact hexec (by assumption)

theorem tickStep_ignoresHost : MoveIgnoresHost tickStep := by
  intro s r
  unfold tickStep
  rw [withHost_ctrl, withHost_answers]
  split
  · rfl
  · exact startCommand_ignoresHost s r
  · split
    · exact congrArg _ (advance_ignoresHost s r)
    · rfl
  · split
    · exact congrArg _ (advance_ignoresHost s r)
    · rfl
  · exact congrArg _ (advance_ignoresHost s r)
  · exact congrArg _ (afterOk_ignoresHost beginChunk_ignoresHost _ s r)
  · split
    · rfl
    · rename_i rest _
      exact congrArg _ (noteAnswer_ignoresHost _ _ { s with answers := rest } r)

/-- What ignores the host registers leaves them as they were. -/
theorem MoveIgnoresHost.hostRegs_eq {move : State → Host.Outcome State Fault Refusal} (hm : MoveIgnoresHost move) {s t : State}
    (h : move s = .next t) : t.hostRegs = s.hostRegs := by
  have hsame := hm s s.hostRegs
  rw [withHost_hostRegs, h] at hsame
  have ht : t = t.withHost s.hostRegs := Host.Outcome.next.inj hsame
  calc t.hostRegs = (t.withHost s.hostRegs).hostRegs := congrArg State.hostRegs ht
    _ = s.hostRegs := rfl

/-- Settles O48: both moves ignore the host registers, of which the argument CSRs and `IRQ_EN` are a part. -/
theorem argumentsAreLatched : Obligations.ArgumentsAreLatched := by
  intro s t a b c d q move hmove h
  have hm : MoveIgnoresHost move := by
    rcases hmove with rfl | rfl
    · exact engineStep_ignoresHost
    · exact tickStep_ignoresHost
  obtain ⟨-, hoverrun, -, -, -, -, hevents⟩ := HostRegs.mk.inj (hm.hostRegs_eq h)
  have hwith := hm s ⟨q, s.cmdOverrun, a, b, c, d, s.events⟩
  rw [h] at hwith
  refine hwith.trans ?_
  rw [outcomeWithHost, State.withHost, ← hoverrun, ← hevents]

end Sys2Proof.Machine
end

section
/-! SUPPORT. What sets and clears `CMD_OVERRUN`, and when `RESULT` and `RESULT_CODE` change (10 R27, R29, R36; 60 R235,
R236). -/

namespace Sys2Proof.Machine

/-! ### `CMD_OVERRUN` -/

theorem MoveIgnoresHost.cmdOverrun_eq {move : State → Host.Outcome State Fault Refusal} (hm : MoveIgnoresHost move)
    {s t : State} (h : move s = .next t) : t.cmdOverrun = s.cmdOverrun := congrArg HostRegs.cmdOverrun (hm.hostRegs_eq h)

theorem markRace_cmdOverrun (s : State) : (markRace s).cmdOverrun = s.cmdOverrun := by
  obtain ⟨c, k, log, h, -⟩ := markRace_cases s
  rw [h]

theorem PlainAccess.cmdOverrun_eq {s t : State} (h : PlainAccess s t) : t.cmdOverrun = s.cmdOverrun := by
  obtain ⟨m, v, rm, am, rb, k, rfl⟩ := h
  rfl

/-- A store to `CMD` sets `CMD_OVERRUN` or leaves it (10 R27). -/
theorem cmdStore_cmdOverrun {w : Word} {s t : State} (hs : s.cmdOverrun = true) (h : cmdStore w s = .next t) :
    t.cmdOverrun = true := by
  rcases cmdStore_cases h with ⟨-, rfl⟩ | ⟨-, rfl | rfl⟩
  · rfl
  · exact hs
  · exact hs

/-- Of the registers only `STATUS` clears `CMD_OVERRUN`, by bit 2 (10 R27). -/
theorem csrStoreValue_cmdOverrun {s : State} (hs : s.cmdOverrun = true) {offset : Nat} {w : Word}
    (h : ¬(offset = 0x10 ∧ w.getLsbD 2 = true)) : (csrStoreValue offset w s).cmdOverrun = true := by
  by_cases hstatus : offset = 0x10
  · have hbit : w.getLsbD 2 = false := Bool.eq_false_iff.2 fun hw => h ⟨hstatus, hw⟩
    calc (csrStoreValue offset w s).cmdOverrun = (s.cmdOverrun && !w.getLsbD 2) := by rw [hstatus]; rfl
      _ = true := by rw [hs, hbit]; rfl
  · unfold csrStoreValue
    rw [if_neg hstatus]
    repeat' split
    all_goals exact hs

theorem hostStep_cmdOverrun {op : HostOp} {s t : State} (hs : s.cmdOverrun = true) (h : hostStep op s = .next t) :
    t.cmdOverrun = true
      ∨ ∃ addr w, op = .csrStore addr .word w ∧ csrOffset s.params addr = 0x10 ∧ w.getLsbD 2 = true := by
  rcases hostStep_cases h with hplain | ⟨addr, w, rfl, ⟨-, hstore⟩ | ⟨-, rfl⟩⟩ | ⟨u, hplain, rfl⟩
  · exact .inl (hplain.cmdOverrun_eq.trans hs)
  · exact .inl (cmdStore_cmdOverrun hs hstore)
  · by_cases hclear : csrOffset s.params addr = 0x10 ∧ w.getLsbD 2 = true
    · exact .inr ⟨addr, w, rfl, hclear⟩
    · exact .inl (csrStoreValue_cmdOverrun hs hclear)
  · exact .inl ((markRace_cmdOverrun u).trans (hplain.cmdOverrun_eq.trans hs))

theorem runEvent_cmdOverrun {e : Event} {s t : State} (hs : s.cmdOverrun = true) (h : runEvent e s = .next t) :
    t.cmdOverrun = true ∨ (∃ d, e = .hardReset d)
      ∨ ∃ addr w, e = .host (.csrStore addr .word w) ∧ csrOffset s.params addr = 0x10 ∧ w.getLsbD 2 = true := by
  rcases runEvent_cases h with ⟨op, rfl, h⟩ | ⟨-, h⟩ | ⟨-, h⟩ | ⟨a, -, rfl⟩ | ⟨d, rfl, -⟩ | ⟨m, bs, -, h⟩ | ⟨-, h⟩
  · rcases hostStep_cmdOverrun hs h with hkept | ⟨addr, w, rfl, hclear⟩
    · exact .inl hkept
    · exact .inr (.inr ⟨addr, w, rfl, hclear⟩)
  · exact .inl ((engineStep_ignoresHost.cmdOverrun_eq h).trans hs)
  · exact .inl ((tickStep_ignoresHost.cmdOverrun_eq h).trans hs)
  · exact .inl hs
  · exact .inr (.inl ⟨d, rfl⟩)
  · obtain ⟨r, rfl⟩ := openReader_cases h
    exact .inl hs
  · obtain ⟨r, rfl⟩ := readerStep_cases h
    exact .inl hs

/-- A scheduled store of a word to `CMD`. -/
theorem step_cmdStore {s : State} {addr w : Word} {rest : List Event} (he : s.events = .host (.csrStore addr .word w) :: rest)
    (hoffset : csrOffset s.params addr = 0x0C) : step s = cmdStore w { s with events := rest } := by
  rw [step, he]
  exact hostStep_csrStore_cmd (s := { s with events := rest }) hoffset w

/-- Settles O45, by the inversion of the step: the engine leaves `CMD_OVERRUN`, and a host access clears it in one register
only. -/
theorem overrunSticky : Obligations.OverrunSticky := by
  refine ⟨fun s addr w rest he hoffset hbusy => ?_, fun s t hs h => ?_⟩
  · exact (step_cmdStore he hoffset).trans (cmdStore_of_busy (s := { s with events := rest }) hbusy w)
  · rcases step_cases h with ⟨e, rest, he, h⟩ | ⟨-, ⟨-, rfl⟩ | ⟨-, h⟩⟩
    · rcases runEvent_cmdOverrun (s := { s with events := rest }) hs h with h | ⟨d, rfl⟩ | ⟨addr, w, rfl, hclear⟩
      · exact .inl h
      · exact .inr (.inl ⟨d, rest, he⟩)
      · exact .inr (.inr ⟨addr, w, rest, he, hclear⟩)
    · exact .inl hs
    · exact .inl ((engineStep_ignoresHost.cmdOverrun_eq h).trans hs)

/-! ### `RESULT` and `RESULT_CODE` -/

/-- `RESULT` and `RESULT_CODE` are unchanged, or a running command finished (10 R29, R36). -/
def ResultKept (s t : State) : Prop :=
  t.result = s.result ∧ t.resultCode = s.resultCode ∨ Finished t ∧ s.busy = true

theorem ResultKept.refl (s : State) : ResultKept s s := .inl ⟨rfl, rfl⟩

theorem RuleEnd.resultKept {Q : Ctrl → Prop} {s t : State} (h : RuleEnd Q s t) (hs : s.ctrl ≠ .idle) : ResultKept s t := by
  rcases h with h | ⟨-, h⟩
  · exact .inr ⟨h, by simpa [State.busy] using hs⟩
  · exact .inl h

theorem exec_ruleEnd {i : Instr} (hl : i.layer = .command) {s t : State} (h : exec i s = .next t) :
    RuleEnd Ctrl.awaits s t := by
  rcases exec_cases hl h with ⟨hfinished, -⟩ | ⟨mode, trail, -, rfl⟩ | ⟨u, hend, -, -, rfl⟩
  · exact hfinished.ruleEnd
  · exact (finish_finished ..).ruleEnd
  · exact settle_ruleEnd hend

theorem engineStep_resultKept {s t : State} (h : engineStep s = .next t) : ResultKept s t := by
  rcases engineStep_cases h with ⟨-, rfl⟩ | ⟨hc, h⟩ | ⟨hidle, haccepted, rfl⟩
  · exact .refl t
  · exact (exec_ruleEnd (decodeCommand_layer _) h).resultKept (by rw [hc]; nofun)
  · exact (settle_ruleEnd (advance_ruleEnd ⟨hidle, haccepted⟩)).resultKept hidle

/-- The first small step of a command finishes it, or leaves `RESULT` as it was. -/
theorem startCommand_resultKept {s t : State} (hc : s.ctrl ≠ .idle) (h : startCommand s = .next t) : ResultKept s t := by
  have hfinish : ∀ code, ResultKept s (finishData code 0 s) := fun code =>
    .inr ⟨finishData_finished code 0 s, by simpa [State.busy] using hc⟩
  rcases startCommand_cases h with h | ⟨-, rfl⟩ | ⟨-, rfl⟩ | ⟨-, ⟨-, rfl⟩ | ⟨-, rfl⟩⟩
  · exact (exec_ruleEnd (decodeCommand_layer _) h).resultKept hc
  · unfold startEncode
    split
    · exact hfinish _
    · exact .inl ⟨rfl, rfl⟩
  · unfold startWrite
    split
    · exact hfinish _
    · exact .inl ⟨rfl, rfl⟩
  · exact .inl ⟨rfl, rfl⟩
  · exact .inl ⟨rfl, rfl⟩

theorem noteAnswer_resultKept {s : State} (hs : s.ctrl ≠ .idle) (a : SinkAnswer) (p : Pending) :
    ResultKept s (noteAnswer a p s) := by
  cases a with
  | ok =>
    simp only [noteAnswer]
    split
    · exact .inl ⟨rfl, rfl⟩
    · exact .inl ⟨rfl, rfl⟩
  | err code consumed => exact (takeAnswer_ruleEnd (.err code consumed) p s).resultKept hs

theorem tickStep_resultKept {s t : State} (h : tickStep s = .next t) : ResultKept s t := by
  rcases tickStep_cases h with rfl | ⟨hc, h⟩ | ⟨e, -, rfl⟩ | ⟨u, after, e, -, rfl⟩ | ⟨hidle, haccepted, rfl⟩
    | ⟨after, hc, rfl⟩ | ⟨p, a, rest, hc, -, rfl⟩
  · exact .refl t
  · exact startCommand_resultKept (by rw [hc]; nofun) h
  · exact .inl ⟨rfl, rfl⟩
  · exact .inl ⟨rfl, rfl⟩
  · exact (advance_ruleEnd ⟨hidle, haccepted⟩).resultKept hidle
  · exact (afterOk_ruleEnd beginChunk_ruleEnd after s).resultKept (by rw [hc]; nofun)
  · exact noteAnswer_resultKept (s := { s with answers := rest }) (by rw [hc]; nofun) a p

theorem csrStoreValue_result (offset : Nat) (w : Word) (s : State) :
    (csrStoreValue offset w s).result = s.result ∧ (csrStoreValue offset w s).resultCode = s.resultCode := by
  unfold csrStoreValue
  repeat' split
  all_goals exact ⟨rfl, rfl⟩

theorem markRace_result (s : State) : (markRace s).result = s.result ∧ (markRace s).resultCode = s.resultCode := by
  obtain ⟨c, k, log, h, -⟩ := markRace_cases s
  rw [h]
  exact ⟨rfl, rfl⟩

theorem PlainAccess.result {s t : State} (h : PlainAccess s t) : t.result = s.result ∧ t.resultCode = s.resultCode := by
  obtain ⟨m, v, rm, am, rb, k, rfl⟩ := h
  exact ⟨rfl, rfl⟩

/-- A store to `CMD` leaves `RESULT` and `RESULT_CODE`, or is an illegal word's and finishes at once (60 R235). -/
theorem cmdStore_result {w : Word} {s t : State} (h : cmdStore w s = .next t) :
    t.result = s.result ∧ t.resultCode = s.resultCode ∨ Finished t ∧ w ∉ legalWords := by
  cases hbusy : s.busy with
  | true =>
    rw [cmdStore_of_busy hbusy] at h
    cases h
    exact .inl ⟨rfl, rfl⟩
  | false =>
    by_cases hw : w ∈ legalWords
    · rw [cmdStore_of_legal hbusy hw] at h
      cases h
      exact .inl ⟨rfl, rfl⟩
    · rw [cmdStore_of_not_legal hbusy hw] at h
      cases h
      exact .inr ⟨finish_finished .., hw⟩

theorem hostStep_result {op : HostOp} {s t : State} (h : hostStep op s = .next t) :
    t.result = s.result ∧ t.resultCode = s.resultCode
      ∨ Finished t ∧ ∃ addr w, op = .csrStore addr .word w ∧ csrOffset s.params addr = 0x0C ∧ w ∉ legalWords := by
  rcases hostStep_cases h with hplain | ⟨addr, w, rfl, ⟨hoffset, hstore⟩ | ⟨-, rfl⟩⟩ | ⟨u, hplain, rfl⟩
  · exact .inl hplain.result
  · exact (cmdStore_result hstore).imp_right fun hend => ⟨hend.1, addr, w, rfl, hoffset, hend.2⟩
  · exact .inl (csrStoreValue_result ..)
  · exact .inl ⟨(markRace_result u).1.trans hplain.result.1, (markRace_result u).2.trans hplain.result.2⟩

theorem runEvent_result {e : Event} {s t : State} (he : ∀ d, e ≠ .hardReset d) (h : runEvent e s = .next t) :
    ResultKept s t
      ∨ Finished t ∧ ∃ addr w, e = .host (.csrStore addr .word w) ∧ csrOffset s.params addr = 0x0C ∧ w ∉ legalWords := by
  rcases runEvent_cases h with ⟨op, rfl, h⟩ | ⟨-, h⟩ | ⟨-, h⟩ | ⟨a, -, rfl⟩ | ⟨d, hd, -⟩ | ⟨m, bs, -, h⟩ | ⟨-, h⟩
  · rcases hostStep_result h with hkept | ⟨hfinished, addr, w, rfl, hcmd⟩
    · exact .inl (.inl hkept)
    · exact .inr ⟨hfinished, addr, w, rfl, hcmd⟩
  · exact .inl (engineStep_resultKept h)
  · exact .inl (tickStep_resultKept h)
  · exact .inl (.inl ⟨rfl, rfl⟩)
  · exact absurd hd (he d)
  · obtain ⟨r, rfl⟩ := openReader_cases h
    exact .inl (.inl ⟨rfl, rfl⟩)
  · obtain ⟨r, rfl⟩ := readerStep_cases h
    exact .inl (.inl ⟨rfl, rfl⟩)

theorem Finished.busy {t : State} (h : Finished t) : t.busy = false := by simp [State.busy, h.1]

/-- Settles O46, by the inversion of the step: a rule of the engine ends in a `finish` or with `RESULT` as it was. -/
theorem resultChangesAtFinish : Obligations.ResultChangesAtFinish := by
  intro s t h hreset
  have hkept : ∀ {u : State}, u.busy = s.busy → u.result = s.result → u.resultCode = s.resultCode → ResultKept u t →
      t.result = s.result ∧ t.resultCode = s.resultCode ∨ t.busy = false ∧ t.done = true ∧ s.busy = true := by
    rintro u hbusy hr hc (⟨hr', hc'⟩ | ⟨hfinished, hu⟩)
    · exact .inl ⟨hr'.trans hr, hc'.trans hc⟩
    · exact .inr ⟨hfinished.busy, hfinished.2, hbusy ▸ hu⟩
  rcases step_cases h with ⟨e, rest, he, h⟩ | ⟨-, ⟨-, rfl⟩ | ⟨-, h⟩⟩
  · have hno : ∀ d, e ≠ .hardReset d := fun d hd => hreset d rest (hd ▸ he)
    rcases runEvent_result (s := { s with events := rest }) hno h with h | ⟨hfinished, addr, w, rfl, hcmd⟩
    · exact (hkept (u := { s with events := rest }) rfl rfl rfl h).imp_right fun ⟨hb, hd, hs⟩ => ⟨hb, hd, .inl hs⟩
    · exact .inr ⟨hfinished.busy, hfinished.2, .inr ⟨addr, w, rest, he, hcmd⟩⟩
  · exact .inl ⟨rfl, rfl⟩
  · exact (hkept rfl rfl rfl (engineStep_resultKept h)).imp_right fun ⟨hb, hd, hs⟩ => ⟨hb, hd, .inl hs⟩

end Sys2Proof.Machine
end

section
/-! SUPPORT. The engine in small steps: each leaves what running on leads to, and enough of them reach a finish or a wait (10
R45, 00 R16, 70 R276). -/

namespace Sys2Proof.Machine

/-! ### The end of a rule does not depend on the control state it began in -/

/-- The state in another control state. -/
def State.setCtrl (s : State) (c : Ctrl) : State := { s with ctrl := c }

@[simp] theorem setCtrl_raced (s : State) (c : Ctrl) : (s.setCtrl c).raced = s.raced := rfl
@[simp] theorem setCtrl_writer (s : State) (c : Ctrl) : (s.setCtrl c).writer = s.writer := rfl

/-- An operation sets the control state and does not read it. -/
def OverwritesCtrl (f : State → State) : Prop := ∀ s c, f (s.setCtrl c) = f s

theorem finishData_overwritesCtrl (code : ResultCode) (n : Nat) : OverwritesCtrl (finishData code n) := by
  intro s c
  unfold finishData
  rw [setCtrl_raced]
  split <;> rfl

theorem drawRacedBytes_setCtrl (as : List Nat) (s : State) (c : Ctrl) :
    (s.setCtrl c).drawRacedBytes as = (s.drawRacedBytes as).setCtrl c := by
  induction as generalizing s with
  | nil => rfl
  | cons a as ih => exact ih { (drawBytes 1 s).2 with mem := memPut s.mem a ((drawBytes 1 s).1.headD 0) }

theorem storeOutput_setCtrl (out : List Byte) (s : State) (c : Ctrl) :
    (s.setCtrl c).storeOutput out = (s.storeOutput out).setCtrl c := by
  by_cases hr : s.raced = true
  · have hr' : (s.setCtrl c).raced = true := hr
    simp only [State.storeOutput, if_pos hr, if_pos hr']
    rfl
  · have hr' : ¬(s.setCtrl c).raced = true := hr
    simp only [State.storeOutput, if_neg hr, if_neg hr']
    rfl

/-- The end of ENCODE neither reads the control state nor the table and the registers. -/
theorem storeEncoded_overwrites (e : Encoded) (s : State) (t : Table) (dp : Datapath) (c : Ctrl) :
    storeEncoded e ((s.setInternals t dp).setCtrl c) = storeEncoded e s := by
  have hstore := storeOutput_setCtrl e.bytes (s.setInternals e.table e.dp) c
  have hdraw := drawRacedBytes_setCtrl s.racedBytes ((s.setInternals e.table e.dp).storeOutput e.bytes) c
  calc storeEncoded e ((s.setInternals t dp).setCtrl c)
      = finishData .ok e.bytes.length
          ((((s.setInternals e.table e.dp).setCtrl c).storeOutput e.bytes).drawRacedBytes s.racedBytes) := rfl
    _ = finishData .ok e.bytes.length
          ((((s.setInternals e.table e.dp).storeOutput e.bytes).drawRacedBytes s.racedBytes).setCtrl c) := by rw [hstore, hdraw]
    _ = storeEncoded e s := finishData_overwritesCtrl ..

theorem offer_overwritesCtrl (bytes payload : List Byte) (after : After) : OverwritesCtrl (offer bytes payload after) := by
  intro s c
  unfold offer raceBytes
  rw [setCtrl_raced]
  split <;> rfl

/-- A framed chunk's rule neither reads the control state nor the table and the registers. -/
theorem emitFramed_overwrites (u : List Byte) (f : Framed) (after : After) (s : State) (t : Table) (dp : Datapath) (c : Ctrl) :
    emitFramed u f after ((s.setInternals t dp).setCtrl c) = emitFramed u f after s := by
  have hstage : stageChunk f ((s.setInternals t dp).setCtrl c) = (stageChunk f s).setCtrl c := rfl
  have hsplit : splitsChunk f ((s.setInternals t dp).setCtrl c) = splitsChunk f s := rfl
  simp only [emitFramed, hstage, hsplit]
  split
  · exact offer_overwritesCtrl ..
  · exact offer_overwritesCtrl ..

theorem emitChunk_overwritesCtrl (u : List Byte) (after : After) : OverwritesCtrl (emitChunk u after) :=
  fun s c => emitFramed_overwrites u (s.frame u) after s s.table s.dp c

theorem raceInput_setCtrl (p : List Byte) (s : State) (c : Ctrl) :
    raceInput p (s.setCtrl c) = ((raceInput p s).1, (raceInput p s).2.setCtrl c) := by
  unfold raceInput
  rw [setCtrl_raced]
  split <;> rfl

theorem fillBuffer_overwritesCtrl (p : List Byte) (absorbed : Nat) : OverwritesCtrl (fillBuffer emitChunk p absorbed) := by
  intro s c
  have hfill : ∀ v, (s.setCtrl c).setIbuf v = (s.setIbuf v).setCtrl c := fun _ => rfl
  simp only [fillBuffer, setCtrl_writer, hfill]
  split
  · exact emitChunk_overwritesCtrl _ _ ((s.setIbuf _).setIbuf []) c
  · exact finishData_overwritesCtrl _ _ (s.setIbuf _) c

theorem continueWrite_overwritesCtrl (input : List Byte) (absorbed : Nat) (direct : Bool) :
    OverwritesCtrl (continueWrite emitChunk input absorbed direct) := by
  intro s c
  simp only [continueWrite, raceInput_setCtrl]
  generalize (raceInput input s).1 = p
  generalize (raceInput input s).2 = t
  have hdirect : goesDirect p direct (t.setCtrl c) = goesDirect p direct t := rfl
  have hthrough : passesThrough p (t.setCtrl c) = passesThrough p t := rfl
  simp only [hdirect, hthrough]
  split
  · exact finishData_overwritesCtrl ..
  · split
    · exact emitChunk_overwritesCtrl ..
    · split
      · exact emitChunk_overwritesCtrl ..
      · exact fillBuffer_overwritesCtrl ..

theorem afterOk_overwritesCtrl (after : After) : OverwritesCtrl (afterOk emitChunk after) := by
  cases after with
  | write rest absorbed gain direct => exact continueWrite_overwritesCtrl rest (absorbed + gain) direct
  | flush => exact fun _ _ => rfl
  | close => exact fun _ _ => rfl

/-! ### Where running on leads -/

/-- The engine is idle or awaits the sink. -/
def Resting (t : State) : Prop := t.ctrl = .idle ∨ ∃ p, t.ctrl = .waiting p

theorem Finished.resting {t : State} (h : Finished t) : Resting t := .inl h.1

theorem RuleEnd.resting {s t : State} (h : RuleEnd Ctrl.awaits s t) : Resting t := h.imp And.left And.left

/-- From `s` the engine, running on, ends as it does over the answers given at `t`. -/
def GoesOn (s t : State) : Prop := engineStep s = .next (settle t)

theorem Resting.goesOn {t : State} (h : Resting t) : GoesOn t t := by
  rcases h with hc | ⟨p, hc⟩
  · rw [GoesOn, settle_idle hc, engineStep, hc]
  · have hadvance := advance_waiting hc
    simp only [GoesOn, engineStep, hc, hadvance]

/-- From a command in progress the engine goes on with its rule. -/
theorem goesOn_advance {s : State} (h : InProgress s) : GoesOn s (advance s) := by
  unfold GoesOn engineStep
  split
  · exact absurd (by assumption) h.1
  · exact absurd (by assumption) h.2
  all_goals rfl

/-- A chunk whose encoding has begun ends as the chunk emitted at once (41 R166). -/
theorem beginChunk_goesOn (u : List Byte) (after : After) (s : State) :
    GoesOn (beginChunk u after s) (emitChunk u after s) := by
  have hend : advance (beginChunk u after s) = emitChunk u after s := by
    let x := beginEncoder u s.table s.dp
    calc advance (beginChunk u after s)
        = emitFramed u (frameEncoded u (finishEncoder s.params.tableSizeRule x)) after
            ((s.setInternals x.table x.dp).setCtrl (.framing u after x.progress)) := rfl
      _ = emitFramed u (frameEncoded u (finishEncoder s.params.tableSizeRule x)) after s := emitFramed_overwrites ..
      _ = emitChunk u after s := by rw [finishEncoder_begin]; rfl
  rw [← hend]
  exact goesOn_advance (s := beginChunk u after s) ⟨nofun, nofun⟩

theorem finishData_goesOn (code : ResultCode) (n : Nat) (s : State) : GoesOn (finishData code n s) (finishData code n s) :=
  (finishData_finished ..).resting.goesOn

theorem fillBuffer_goesOn (p : List Byte) (absorbed : Nat) (s : State) :
    GoesOn (fillBuffer beginChunk p absorbed s) (fillBuffer emitChunk p absorbed s) := by
  unfold fillBuffer
  simp only
  split
  · exact beginChunk_goesOn ..
  · exact finishData_goesOn ..

theorem continueWrite_goesOn (input : List Byte) (absorbed : Nat) (direct : Bool) (s : State) :
    GoesOn (continueWrite beginChunk input absorbed direct s) (continueWrite emitChunk input absorbed direct s) := by
  unfold continueWrite
  simp only
  split
  · exact finishData_goesOn ..
  · split
    · exact beginChunk_goesOn ..
    · split
      · exact beginChunk_goesOn ..
      · exact fillBuffer_goesOn ..

theorem afterOk_goesOn (after : After) (s : State) : GoesOn (afterOk beginChunk after s) (afterOk emitChunk after s) := by
  cases after with
  | write rest absorbed gain direct => exact continueWrite_goesOn ..
  | flush => exact (finish_finished ..).resting.goesOn
  | close => exact (finish_finished ..).resting.goesOn

theorem noteAnswer_goesOn (a : SinkAnswer) (p : Pending) (s : State) : GoesOn (noteAnswer a p s) (takeAnswer a p s) := by
  cases a with
  | ok =>
    simp only [noteAnswer, takeAnswer]
    generalize s.logSink _ = t
    split
    · have hend : advance ((t.setWState .streaming).setCtrl (.resuming p.after)) =
          afterOk emitChunk p.after (t.setWState .streaming) := afterOk_overwritesCtrl p.after (t.setWState .streaming) _
      rw [← hend]
      exact goesOn_advance (s := (t.setWState .streaming).setCtrl _) ⟨nofun, nofun⟩
    · have hend : advance (t.setCtrl (.sending p.payload p.after)) = offer p.payload [] p.after t :=
        offer_overwritesCtrl _ _ _ t _
      rw [← hend]
      exact goesOn_advance (s := t.setCtrl _) ⟨nofun, nofun⟩
  | err code consumed => exact (takeAnswer_ruleEnd (.err code consumed) p s).resting.goesOn

/-- The first of the answers given, taken apart, leaves what all of them lead to. -/
theorem settle_takeAnswer {s : State} {p : Pending} {a : SinkAnswer} {rest : List SinkAnswer} (hc : s.ctrl = .waiting p)
    (ha : s.answers = a :: rest) : settle (takeAnswer a p (s.setAnswers rest)) = settle s := by
  calc settle (takeAnswer a p (s.setAnswers rest))
      = settle ((takeAnswer a p s).setAnswers rest) := by rw [takeAnswer_ignoresAnswers]
    _ = takeAnswers rest (takeAnswer a p s) := takeAnswers_setAnswers ..
    _ = settle s := by rw [settle, ha, takeAnswers_awaiting hc]

/-- What runs over all the answers given has taken them. -/
theorem settle_settle (s : State) : settle (settle s) = settle s := by
  calc settle (settle s) = takeAnswers ((settle s).answers ++ []) (settle s) := by rw [List.append_nil]; rfl
    _ = takeAnswers (s.answers ++ []) s := (takeAnswers_append ..).symm
    _ = settle s := by rw [List.append_nil]; rfl

/-- A command that was run stays where it ended. -/
theorem engineStep_of_exec {i : Instr} (hl : i.layer = .command) {s t : State} (h : exec i s = .next t) :
    engineStep t = .next t := by
  have hidle : ∀ {t : State}, t.ctrl = .idle → engineStep t = .next t := fun hc => by rw [engineStep, hc]
  rcases exec_cases hl h with ⟨hfinished, -⟩ | ⟨mode, trail, -, rfl⟩ | ⟨u, hend, -, -, rfl⟩
  · exact hidle hfinished.1
  · exact hidle rfl
  · have hgoes : GoesOn (settle u) (settle u) := (settle_ruleEnd hend).resting.goesOn
    rwa [GoesOn, settle_settle] at hgoes

/-! ### The start of a command -/

theorem engineStep_accepted {s : State} (hc : s.ctrl = .accepted) {i : Instr} (hi : s.args.instr = i) :
    engineStep s = exec i s := by rw [engineStep, hc, ← hi]

/-- A command that finishes at once stays where it ended. -/
theorem engineStep_finishData (code : ResultCode) (n : Nat) (s : State) :
    engineStep (finishData code n s) = .next (finishData code n s) := by
  rw [engineStep, (finishData_finished code n s).1]

theorem startEncode_agrees (s : State) : engineStep (startEncode s) = execEncode s := by
  cases hcheck : encodeCheck s.params s.args with
  | some code =>
    simp only [startEncode, execEncode, hcheck]
    exact engineStep_finishData code 0 s
  | none =>
    simp only [startEncode, execEncode, hcheck]
    let x := beginEncoder s.source s.table s.dp
    have hend : advance ((s.setInternals x.table x.dp).setCtrl (.encoding x.progress)) = storeEncoded s.encodeOutput s := by
      calc advance ((s.setInternals x.table x.dp).setCtrl (.encoding x.progress))
          = storeEncoded (finishEncoder s.params.tableSizeRule x)
              ((s.setInternals x.table x.dp).setCtrl (.encoding x.progress)) := rfl
        _ = storeEncoded (finishEncoder s.params.tableSizeRule x) s := storeEncoded_overwrites ..
        _ = storeEncoded s.encodeOutput s := by rw [finishEncoder_begin]; rfl
    have hgoes := goesOn_advance (s := (s.setInternals x.table x.dp).setCtrl (.encoding x.progress)) ⟨nofun, nofun⟩
    rw [hend, GoesOn, settle_idle (storeEncoded_finished ..).1] at hgoes
    exact hgoes

theorem startWrite_agrees (s : State) : engineStep (startWrite s) = execWrite s := by
  cases hcheck : writeCheck s with
  | some code =>
    simp only [startWrite, execWrite, hcheck]
    exact engineStep_finishData code 0 s
  | none =>
    simp only [startWrite, execWrite, hcheck]
    let c := Ctrl.resuming (.write s.source 0 0 s.writer.writesDirect)
    have hend : advance (s.setCtrl c) = continueWrite emitChunk s.source 0 s.writer.writesDirect s :=
      continueWrite_overwritesCtrl _ _ _ s c
    have hgoes := goesOn_advance (s := s.setCtrl c) ⟨nofun, nofun⟩
    rw [hend] at hgoes
    exact hgoes

theorem framesBuffer_iff {w : Writer} :
    w.framesBuffer = true ↔ latchedError w = none ∧ w.wmode = .buffered ∧ w.ibuf ≠ [] := by
  simp [Writer.framesBuffer, and_assoc]

theorem execFlush_of_framesBuffer {s : State} (h : s.writer.framesBuffer = true) :
    execFlush s = .next (settle (emitBuffered .flush s)) := by
  obtain ⟨hlatched, hmode, hbuf⟩ := framesBuffer_iff.1 h
  simp only [execFlush, hlatched]
  rw [if_neg (by simp [hmode, hbuf])]

theorem execClose_of_framesBuffer {s : State} (h : s.writer.framesBuffer = true) :
    execClose s = .next (settle (emitBuffered .close s)) := by
  obtain ⟨hlatched, hmode, hbuf⟩ := framesBuffer_iff.1 h
  rcases live_of_latchedError hlatched with hstate | hstate
  · simp only [execClose, hstate]
    rw [if_pos ⟨hmode, hbuf⟩]
  · simp only [execClose, hstate]
    rw [if_pos ⟨hmode, hbuf⟩]

theorem startCommand_agrees {s t : State} (hc : s.ctrl = .accepted) (h : startCommand s = .next t) :
    engineStep t = engineStep s := by
  rcases startCommand_cases h with hexec | ⟨hi, rfl⟩ | ⟨hi, rfl⟩ | ⟨hframes, ⟨hi, rfl⟩ | ⟨hi, rfl⟩⟩
  · rw [engineStep_accepted hc rfl, hexec]
    exact engineStep_of_exec (decodeCommand_layer _) hexec
  · exact (startEncode_agrees s).trans (engineStep_accepted hc hi).symm
  · exact (startWrite_agrees s).trans (engineStep_accepted hc hi).symm
  · rw [engineStep_accepted hc hi]
    exact (beginChunk_goesOn ..).trans (execFlush_of_framesBuffer hframes).symm
  · rw [engineStep_accepted hc hi]
    exact (beginChunk_goesOn ..).trans (execClose_of_framesBuffer hframes).symm

/-- A step of ENCODE's encoding leaves what the rule makes of its end. -/
theorem advance_encoding_step {s : State} {e : EncodeProgress} (hc : s.ctrl = .encoding e) :
    advance ((s.setInternals (s.encoderStep e).table (s.encoderStep e).dp).setCtrl (.encoding (s.encoderStep e).progress)) =
      advance s := by
  have hs : advance s = storeEncoded (finishEncoder s.params.tableSizeRule ⟨e, s.table, s.dp⟩) s := by simp only [advance, hc]
  rw [hs, ← finishEncoder_step]
  exact storeEncoded_overwrites ..

/-- A step of a chunk's encoding leaves what the rule makes of its end. -/
theorem advance_framing_step {s : State} {u : List Byte} {after : After} {e : EncodeProgress}
    (hc : s.ctrl = .framing u after e) :
    advance ((s.setInternals (s.encoderStep e).table (s.encoderStep e).dp).setCtrl
      (.framing u after (s.encoderStep e).progress)) = advance s := by
  have hs : advance s = emitFramed u (frameEncoded u (finishEncoder s.params.tableSizeRule ⟨e, s.table, s.dp⟩)) after s := by
    simp only [advance, hc]
  rw [hs, ← finishEncoder_step]
  exact emitFramed_overwrites ..

/-- Two states whose commands go on alike. -/
theorem engineStep_eq_of_advance_eq {s t : State} (hs : InProgress s) (ht : InProgress t) (h : advance t = advance s) :
    engineStep t = engineStep s := by
  calc engineStep t = .next (settle (advance t)) := goesOn_advance ht
    _ = .next (settle (advance s)) := by rw [h]
    _ = engineStep s := (goesOn_advance hs).symm

/-- A small step of the engine leaves where running on leads (10 R45). -/
theorem tickStep_agrees {s t : State} (h : tickStep s = .next t) : engineStep t = engineStep s := by
  rcases tickStep_cases h with rfl | ⟨hc, h⟩ | ⟨e, hc, rfl⟩ | ⟨u, after, e, hc, rfl⟩ | ⟨hidle, haccepted, rfl⟩
    | ⟨after, hc, rfl⟩ | ⟨p, a, rest, hc, ha, rfl⟩
  · rfl
  · exact startCommand_agrees hc h
  · exact engineStep_eq_of_advance_eq (.of_ctrl hc nofun nofun) ⟨nofun, nofun⟩ (advance_encoding_step hc)
  · exact engineStep_eq_of_advance_eq (.of_ctrl hc nofun nofun) ⟨nofun, nofun⟩ (advance_framing_step hc)
  · exact (advance_ruleEnd ⟨hidle, haccepted⟩).resting.goesOn.trans (goesOn_advance ⟨hidle, haccepted⟩).symm
  · have hs : advance s = afterOk emitChunk after s := by simp only [advance, hc]
    have hgoes : GoesOn s (advance s) := goesOn_advance (.of_ctrl hc nofun nofun)
    rw [hgoes, hs]
    exact afterOk_goesOn after s
  · have hgoes : GoesOn s s := Resting.goesOn (.inr ⟨p, hc⟩)
    rw [hgoes, ← settle_takeAnswer hc ha]
    exact noteAnswer_goesOn a p (s.setAnswers rest)

/-! ### Enough small steps -/

/-- The turns a matcher run has left, with its end and its closing. -/
def Run.left (r : Run) : Nat := if r.matcher.phase = .ended then 1 else r.turns + 2

/-- A bound on the small steps an encoding has left: a segment takes fewer than five for each of its bytes (log 20). -/
def EncodeProgress.left (e : EncodeProgress) : Nat := 5 * e.rest.length + (e.run.map Run.left).getD 0

theorem Run.left_of_going {r : Run} (h : r.matcher.phase ≠ .ended) : r.left = r.turns + 2 := if_neg h

theorem Run.left_le (r : Run) : r.left ≤ r.turns + 2 := by
  unfold Run.left
  split <;> omega

theorem stepRun_left (rule : TableSizeRule) {r : Run} (h : r.matcher.phase ≠ .ended) : (stepRun rule r).left < r.left := by
  unfold stepRun
  split
  · rename_i hturns
    simp [Run.left, stepTail, h, hturns]
  · rename_i n hturns
    rw [Run.left_of_going h, hturns]
    exact Nat.lt_succ_of_le (Run.left_le _)

/-- A small step of an encoding that is not done leaves fewer. -/
theorem stepEncoder_left (rule : TableSizeRule) {x : Encoder} (h : x.progress.done = false) :
    (stepEncoder rule x).progress.left < x.progress.left := by
  unfold stepEncoder Encoder.count
  cases hrun : x.progress.run with
  | none =>
    have hrest : x.progress.rest ≠ [] := by simpa [EncodeProgress.done, hrun] using h
    have hlen := List.length_pos_iff.2 hrest
    simp only [cutSegment, hrest, if_false]
    split
    · simp only [EncodeProgress.left, hrun, List.length_drop, Config.maxBlockSize]
      omega
    · rename_i hlong
      let seg := x.progress.rest.take Config.maxBlockSize
      have hleft := Run.left_le ⟨seg, initMatcher rule seg.length x.table, matcherBound seg.length⟩
      simp only [seg, matcherBound, List.length_take, Config.maxBlockSize, Config.minNonLiteralBlockSize] at hlong hleft
      simp only [Encoder.setRun, EncodeProgress.left, hrun, List.length_drop, List.length_take, Config.maxBlockSize,
        matcherBound, Option.map_some, Option.map_none, Option.getD_some, Option.getD_none]
      omega
  | some r =>
    simp only
    split
    · rename_i hended
      simp [closeRun, EncodeProgress.left, hrun, Run.left, hended]
    · rename_i hgoing
      have hleft := stepRun_left rule hgoing
      simpa [Encoder.setRun, EncodeProgress.left, hrun] using hleft

/-- Some number of small steps leads from one state to the other. -/
def TicksTo (s t : State) : Prop :=
  ∃ n, Host.Core.run Sys2Proof.core n { s with events := List.replicate n .tick ++ s.events } = .next t

theorem TicksTo.refl (s : State) : TicksTo s s := ⟨0, rfl⟩

/-- The schedule does not reach a small step, so that one may be put before those that follow it. -/
theorem TicksTo.tick {s t u : State} (h : tickStep s = .next t) (k : TicksTo t u) : TicksTo s u := by
  obtain ⟨n, hn⟩ := k
  obtain ⟨hirq, hoverrun, hsrc, hlen, hdst, hcap, hevents⟩ := HostRegs.mk.inj (tickStep_ignoresHost.hostRegs_eq h)
  have htick := tickStep_ignoresHost s { s.hostRegs with events := List.replicate n .tick ++ s.events }
  rw [h] at htick
  have hstep : step { s with events := List.replicate (n + 1) .tick ++ s.events } =
      .next { t with events := List.replicate n .tick ++ t.events } := by
    refine htick.trans ?_
    rw [outcomeWithHost, State.withHost, State.hostRegs, ← hirq, ← hoverrun, ← hsrc, ← hlen, ← hdst, ← hcap, ← hevents]
  exact ⟨n + 1, (run_succ n hstep).trans hn⟩

/-- Small steps lead to a finish or a wait, and running on to where it leads from there. -/
def Rests (s : State) : Prop := ∃ t, TicksTo s t ∧ Resting t ∧ engineStep t = engineStep s

theorem Resting.rests {s : State} (h : Resting s) : Rests s := ⟨s, .refl s, h, rfl⟩

theorem Rests.tick {s t : State} (h : tickStep s = .next t) (k : Rests t) : Rests s := by
  obtain ⟨u, hticks, hrest, hsame⟩ := k
  exact ⟨u, hticks.tick h, hrest, hsame.trans (tickStep_agrees h)⟩

theorem rests_of_advance {s : State} (hs : InProgress s) (h : tickStep s = .next (advance s)) : Rests s :=
  .tick h (advance_ruleEnd hs).resting.rests

/-- An encoding in progress takes a step, or is done and its rule goes on. -/
theorem tickStep_progress {s : State} {e : EncodeProgress} (h : s.ctrl.progress = some e) :
    (e.done = true ∧ tickStep s = .next (advance s))
      ∨ e.done = false ∧ ∃ t, tickStep s = .next t ∧ t.ctrl.progress = some (s.encoderStep e).progress := by
  cases hc : s.ctrl with
  | idle | accepted | sending | waiting | resuming => simp [hc, Ctrl.progress] at h
  | encoding e' =>
    obtain rfl : e' = e := by simpa [hc, Ctrl.progress] using h
    cases hd : e'.done with
    | true => exact .inl ⟨rfl, by simp only [tickStep, hc, hd, if_true]⟩
    | false => exact .inr ⟨rfl, _, by simp only [tickStep, hc, hd]; rfl, rfl⟩
  | framing u after e' =>
    obtain rfl : e' = e := by simpa [hc, Ctrl.progress] using h
    cases hd : e'.done with
    | true => exact .inl ⟨rfl, by simp only [tickStep, hc, hd, if_true]⟩
    | false => exact .inr ⟨rfl, _, by simp only [tickStep, hc, hd]; rfl, rfl⟩

theorem InProgress.of_progress {s : State} {e : EncodeProgress} (h : s.ctrl.progress = some e) : InProgress s := by
  constructor <;> (intro hc; simp [hc, Ctrl.progress] at h)

theorem rests_of_progress {s : State} {e : EncodeProgress} (h : s.ctrl.progress = some e) : Rests s := by
  induction hn : e.left using Nat.strong_induction_on generalizing s e with
  | _ n ih =>
    rcases tickStep_progress h with ⟨-, htick⟩ | ⟨hgoing, t, htick, ht⟩
    · exact rests_of_advance (.of_progress h) htick
    · have hleft : (s.encoderStep e).progress.left < e.left := stepEncoder_left _ (x := ⟨e, s.table, s.dp⟩) hgoing
      exact .tick htick (ih _ (hn ▸ hleft) ht rfl)

theorem rests_of_frames {s t : State} (h : RuleEnd Ctrl.frames s t) : Rests t := by
  rcases h with hfinished | ⟨⟨u, after, e, hc⟩, -⟩
  · exact hfinished.resting.rests
  · exact rests_of_progress (e := e) (by rw [hc]; rfl)

theorem rests_of_resuming {s : State} {after : After} (hc : s.ctrl = .resuming after) : Rests s :=
  .tick (by simp only [tickStep, hc]) (rests_of_frames (afterOk_ruleEnd beginChunk_ruleEnd after s))

/-- A command always has a next state. -/
theorem exec_next {i : Instr} (hl : i.layer = .command) (s : State) : ∃ t, exec i s = .next t := by
  cases i with
  | litInline | lit1 | lit2 | lit3 | lit4 | copy1 | copy2 | copy4
  | chunkStreamId | chunkCompressed | chunkUncompressed => simp [Instr.layer] at hl
  | encode => simp only [exec, execEncode]; split <;> exact ⟨_, rfl⟩
  | maxlen => simp only [exec, execMaxlen]; split <;> exact ⟨_, rfl⟩
  | initWriter mode => exact ⟨_, rfl⟩
  | write => simp only [exec, execWrite]; split <;> exact ⟨_, rfl⟩
  | flush => simp only [exec, execFlush]; split <;> [exact ⟨_, rfl⟩; (split <;> exact ⟨_, rfl⟩)]
  | close =>
    simp only [exec, execClose]
    split <;> [exact ⟨_, rfl⟩; exact ⟨_, rfl⟩; (split <;> exact ⟨_, rfl⟩); (split <;> exact ⟨_, rfl⟩)]
  | resetStream => exact ⟨_, rfl⟩
  | illegal w => exact ⟨_, rfl⟩

theorem startCommand_next (s : State) : ∃ t, startCommand s = .next t := by
  have hexec := fun {i} (hi : s.args.instr = i) => exec_next (hi ▸ decodeCommand_layer _ : i.layer = .command) s
  unfold startCommand
  split
  · exact ⟨_, rfl⟩
  · exact ⟨_, rfl⟩
  · split <;> [exact ⟨_, rfl⟩; exact hexec (by assumption)]
  · split <;> [exact ⟨_, rfl⟩; exact hexec (by assumption)]
  all_goals exact hexec (by assumption)

theorem rests_of_accepted {s : State} (hc : s.ctrl = .accepted) : Rests s := by
  obtain ⟨t, ht⟩ := startCommand_next s
  have htick : tickStep s = .next t := by simp only [tickStep, hc, ht]
  refine .tick htick ?_
  rcases startCommand_cases ht with hexec | ⟨-, rfl⟩ | ⟨-, rfl⟩ | ⟨-, ⟨-, rfl⟩ | ⟨-, rfl⟩⟩
  · exact (exec_ruleEnd (decodeCommand_layer _) hexec).resting.rests
  · unfold startEncode
    split
    · exact (finishData_finished ..).resting.rests
    · exact rests_of_progress rfl
  · unfold startWrite
    split
    · exact (finishData_finished ..).resting.rests
    · exact rests_of_resuming rfl
  · exact rests_of_frames (beginChunk_ruleEnd ..)
  · exact rests_of_frames (beginChunk_ruleEnd ..)

/-- From every state small steps lead to a finish or a wait. -/
theorem rests (s : State) : Rests s := by
  cases hc : s.ctrl with
  | idle => exact (show Resting s from .inl hc).rests
  | accepted => exact rests_of_accepted hc
  | encoding e => exact rests_of_progress (e := e) (by rw [hc]; rfl)
  | framing u after e => exact rests_of_progress (e := e) (by rw [hc]; rfl)
  | sending payload after =>
    exact rests_of_advance (.of_ctrl hc nofun nofun) (by simp only [tickStep, hc])
  | waiting p => exact (show Resting s from .inr ⟨p, hc⟩).rests
  | resuming after => exact rests_of_resuming hc

/-- Settles O35: each small step leaves where running on leads, and the steps of an encoding are bounded. -/
theorem smallStepsAgree : Obligations.SmallStepsAgree := by
  refine ⟨fun s t => tickStep_agrees, fun s => ?_⟩
  obtain ⟨t, ⟨n, hrun⟩, hrest, hsame⟩ := rests s
  exact ⟨n, t, hrun, hrest, hsame.symm.trans hrest.goesOn⟩

end Sys2Proof.Machine
end

section
/-! SUPPORT. The instruction a step runs (10 R45, 30 R93, 60 R235), what the CSRs read as and what a store to them does (10 R20
to R39), and hardware reset (10 R49, 70 R260, R261). -/

namespace Sys2Proof.Machine

/-! ### The instruction a step runs -/

/-- The latch keeps all of a legal word (10 R40, 30 R90). -/
theorem accept_instr {w : Word} (hw : w ∈ legalWords) (s : State) : (accept w s).args.instr = decodeCommand w := by
  obtain ⟨hreserved, -, -⟩ := mem_legalWords_iff.1 hw
  have hword : (accept w s).args.word = w := by
    calc (accept w s).args.word = (w.extractLsb' 9 23 ++ w.extractLsb' 8 1 ++ w.extractLsb' 0 8 : BitVec 32) := by
          rw [hreserved]; rfl
      _ = w := word_fields w
  rw [Args.instr, hword]

theorem readerStep_of_decode {s : State} {i : Instr} {left : List Byte}
    (h : decode s.reader.layer s.reader.input = .ok i left) :
    readerStep s = exec i { s with reader := { s.reader with input := left } } := by
  have hinput : s.reader.input ≠ [] := by
    intro hempty
    rw [hempty] at h
    cases hmode : s.reader.mode <;> simp [Reader.layer, hmode, decode, decodeElement, decodeChunk] at h
  rw [readerStep, if_neg hinput, h]

/-- Settles O5: the engine fetches from the latch, a store to `CMD` runs an illegal word, and the reader decodes its input. -/
theorem stepRunsInstruction : Obligations.StepRunsInstruction := by
  refine ⟨fun s he hc => ?_, fun s rest he hc => ?_, fun s w hw => accept_instr hw s, ?_, fun s rest i left he h => ?_⟩
  · simp only [step, he, runUnscheduled, hc, engineStep]
  · simp only [step, he, runEvent, engineStep, hc]
  · intro s addr w rest he hoffset hidle hw
    exact (step_cmdStore he hoffset).trans (cmdStore_of_not_legal (s := { s with events := rest }) hidle hw)
  · rw [step, he]
    exact readerStep_of_decode (s := { s with events := rest }) h

/-! ### `STATUS` -/

/-- A bit of `STATUS`, found from the lowest field upwards (10 R24). -/
theorem statusWord_bit (s : State) (v : WriterView) (k : Nat) :
    (statusWord s v).getLsbD k =
      if k < 1 then (BitVec.ofBool s.busy).getLsbD k
      else if k < 2 then (BitVec.ofBool s.done).getLsbD (k - 1)
      else if k < 3 then (BitVec.ofBool s.cmdOverrun).getLsbD (k - 2)
      else if k < 4 then false
      else if k < 6 then v.wstate.code.getLsbD (k - 4)
      else if k < 7 then (modeBit v.wmode).getLsbD (k - 6)
      else if k < 8 then (BitVec.ofBool v.hdr).getLsbD (k - 7)
      else if k < 16 then s.resultCode.code.getLsbD (k - 8)
      else false := by
  have hsub : ∀ a b : Nat, 0 < b → (k - a < b ↔ k < a + b) := by omega
  simp (disch := decide) only [statusWord, BitVec.getLsbD_append, Nat.sub_sub, hsub]
  simp only [BitVec.ofNat_eq_ofNat, BitVec.getLsbD_zero, Nat.reduceAdd]

/-- A field of `STATUS` is what its bits are. -/
theorem statusWord_field {s : State} {v : WriterView} {n w : Nat} {x : BitVec w}
    (h : ∀ i < w, (statusWord s v).getLsbD (n + i) = x.getLsbD i) : (statusWord s v).extractLsb' n w = x :=
  BitVec.eq_of_getLsbD_eq fun i hi => by rw [BitVec.getLsbD_extractLsb', h i hi, decide_eq_true hi, Bool.true_and]

/-- Settles O50: each field's bits, from the lowest field upwards. -/
theorem statusLayout : Obligations.StatusLayout := by
  intro s v
  have hstate : (statusWord s v).extractLsb' 4 2 = v.wstate.code :=
    statusWord_field fun i hi => by rw [statusWord_bit]; interval_cases i <;> rfl
  have hcode : (statusWord s v).extractLsb' 8 8 = s.resultCode.code :=
    statusWord_field fun i hi => by rw [statusWord_bit]; interval_cases i <;> rfl
  have hreserved : (statusWord s v).extractLsb' 16 16 = 0 :=
    statusWord_field fun i hi => by rw [statusWord_bit]; interval_cases i <;> rfl
  have hbit : ∀ b : Bool, (BitVec.ofBool b).getLsbD 0 = b := by decide
  refine ⟨?_, ?_, ?_, ?_, hstate.trans ?_, ?_, ?_, hcode.trans ?_, hreserved⟩
  · exact (statusWord_bit s v 0).trans (hbit _)
  · exact (statusWord_bit s v 1).trans (hbit _)
  · exact (statusWord_bit s v 2).trans (hbit _)
  · exact statusWord_bit s v 3
  · cases v.wstate <;> rfl
  · exact (statusWord_bit s v 6).trans (by cases v.wmode <;> rfl)
  · exact (statusWord_bit s v 7).trans (hbit _)
  · cases s.resultCode <;> rfl

/-! ### The registers -/

section
variable {s : State} {addr : Word}

theorem csrLoad_idle (hbegins : csrOffset s.params addr < 256) (halign : csrOffset s.params addr % 4 = 0)
    (hidle : s.busy = false) :
    csrLoad addr .word s = { s with busData := csrValue s s.writer.view (csrOffset s.params addr) } := by
  rw [csrLoad, if_pos (csrAccessDefined_iff.2 ⟨rfl, hbegins, halign⟩)]
  simp only [hidle, Bool.false_eq_true, if_false]

theorem csrLoad_busy (hbegins : csrOffset s.params addr < 256) (halign : csrOffset s.params addr % 4 = 0)
    (hbusy : s.busy = true) :
    ∃ k, csrLoad addr .word s = { s with
      busData := csrValue s ((busyViews s).getD k s.writer.view) (csrOffset s.params addr), draws := s.draws + 1 } := by
  rw [csrLoad, if_pos (csrAccessDefined_iff.2 ⟨rfl, hbegins, halign⟩)]
  simp only [hbusy, if_true]
  exact ⟨_, rfl⟩

theorem csrStore_register (hbegins : csrOffset s.params addr < 256) (halign : csrOffset s.params addr % 4 = 0)
    (hoffset : csrOffset s.params addr ≠ 0x0C) (w : Word) :
    csrStore addr .word w s = .next (csrStoreValue (csrOffset s.params addr) w s) := by
  rw [csrStore, if_pos (csrAccessDefined_iff.2 ⟨rfl, hbegins, halign⟩), if_neg hoffset]

end

/-- `IBUF_LEN` shows 17 bits of the buffer's length (10 R38). -/
theorem ibufLen_word (n : Nat) : (BitVec.ofNat 17 n).setWidth 32 = BitVec.ofNat 32 (n % 2 ^ 17) := by
  apply BitVec.eq_of_toNat_eq
  simp [BitVec.toNat_setWidth]

/-- A store to a register but `CMD` is its effect on the five registers and the two flags it may reach (10 R22, R24, R32 to
R35). -/
theorem csrStoreValue_eq (off : Nat) (w : Word) (s : State) :
    csrStoreValue off w s = { s with
      irqEn := if off = 0x08 then w.getLsbD 0 else s.irqEn
      done := if off = 0x10 then s.done && !w.getLsbD 1 else s.done
      cmdOverrun := if off = 0x10 then s.cmdOverrun && !w.getLsbD 2 else s.cmdOverrun
      srcAddr := if off = 0x14 then w else s.srcAddr
      srcLen := if off = 0x18 then w else s.srcLen
      dstAddr := if off = 0x1C then w else s.dstAddr
      dstCap := if off = 0x20 then w else s.dstCap } := by
  obtain rfl | hctrl := eq_or_ne off 0x08
  · rfl
  obtain rfl | hstatus := eq_or_ne off 0x10
  · rfl
  obtain rfl | hsrcAddr := eq_or_ne off 0x14
  · rfl
  obtain rfl | hsrcLen := eq_or_ne off 0x18
  · rfl
  obtain rfl | hdstAddr := eq_or_ne off 0x1C
  · rfl
  obtain rfl | hdstCap := eq_or_ne off 0x20
  · rfl
  simp only [csrStoreValue, hctrl, hstatus, hsrcAddr, hsrcLen, hdstAddr, hdstCap, if_false]

/-- Settles O51: a load from an idle engine reads the register's value, and a store has its effect. -/
theorem csrRegisters : Obligations.CsrRegisters := by
  rintro s addr w off rfl hbegins halign
  refine ⟨fun hidle => ?_, fun hoffset => ?_⟩
  · have hirq : (BitVec.ofBool s.irqEn).setWidth 32 = if s.irqEn then 1 else 0 := by cases s.irqEn <;> rfl
    rw [hostStep, csrLoad_idle hbegins halign hidle, csrValue, hirq, Writer.view, ibufLen_word]
    rfl
  · rw [hostStep, csrStore_register hbegins halign hoffset, csrStoreValue_eq]

/-- Settles O52: the view drawn is one of the command's, or, if it has none, the writer's own. -/
theorem busyReads : Obligations.BusyReads := by
  intro s addr hbusy hbegins halign
  obtain ⟨k, hload⟩ := csrLoad_busy hbegins halign hbusy
  refine ⟨(busyViews s).getD k s.writer.view, ?_, congrArg _ hload⟩
  rcases Nat.lt_or_ge k (busyViews s).length with hk | hk
  · exact .inl (by rw [List.getD_eq_getElem _ _ hk]; exact List.getElem_mem hk)
  · exact .inr (List.getD_eq_default _ _ hk)

/-! ### Hardware reset -/

theorem landBytes_of_some {out : List Byte} {s : State} (hr : s.raced = false) {k : Nat} {b : Byte} (hb : out[k]? = some b)
    (ks : List Nat) :
    landBytes out s (k :: ks) = landBytes out { s with mem := memPut s.mem (s.args.dstAddr.toNat + k) b } ks := by
  rw [landBytes, if_neg (by simp [hr]), hb]

theorem landBytes_of_none {out : List Byte} {s : State} (hr : s.raced = false) {k : Nat} (hb : out[k]? = none)
    (ks : List Nat) : landBytes out s (k :: ks) = landBytes out s ks := by
  rw [landBytes, if_neg (by simp [hr]), hb]

/-- Outside a race a reset leaves each byte as it was, or as the command would have written it (70 R261). -/
theorem memGet_landBytes {out : List Byte} {s : State} (hwf : s.mem.wf) (hr : s.raced = false) (ks : List Nat) (a : Nat) :
    memGet (landBytes out s ks).mem a = memGet s.mem a
      ∨ ∃ k, a = s.args.dstAddr.toNat + k ∧ out[k]? = some (memGet (landBytes out s ks).mem a) := by
  induction ks generalizing s with
  | nil => exact .inl rfl
  | cons k ks ih =>
    cases hb : out[k]? with
    | none =>
      rw [landBytes_of_none hr hb]
      exact ih hwf hr
    | some b =>
      rw [landBytes_of_some hr hb]
      rcases ih (s := { s with mem := memPut s.mem (s.args.dstAddr.toNat + k) b }) (memPut_wf hwf _ b) hr with h | h
      · rw [memGet_memPut hwf] at h
        by_cases ha : s.args.dstAddr.toNat + k = a
        · rw [if_pos ha] at h
          exact .inr ⟨k, ha.symm, hb.trans (congrArg some h.symm)⟩
        · rw [if_neg ha] at h
          exact .inl h
      · exact .inr h

theorem abandonMemory_eq_of_not_encodes {s : State} (h : s.ctrl.encodes = false) (written : List Nat) :
    abandonMemory written s = s := by
  rw [abandonMemory, if_neg (by simp [h])]

theorem abandonMemory_cases (written : List Nat) (s : State) :
    ∃ m k, abandonMemory written s = { s with mem := m, draws := k }
      ∧ (s.mem.wf → s.raced = false → ∀ a, memGet m a = memGet s.mem a
          ∨ (s.args.instr = .encode ∧ ∃ k, a = s.args.dstAddr.toNat + k
              ∧ s.pendingOutput.bytes[k]? = some (memGet m a))) := by
  by_cases h : s.ctrl.encodes ∧ s.args.writesDest ∧ encodeCheck s.params s.args = none
  · obtain ⟨m, k, hland, -⟩ := landBytes_cases s.pendingOutput.bytes s written
    have hencode : s.args.instr = .encode := by simpa [Args.writesDest] using h.2.1
    refine ⟨m, k, by rw [abandonMemory, if_pos h, hland], fun hwf hr a => ?_⟩
    have hbyte := memGet_landBytes (out := s.pendingOutput.bytes) hwf hr written a
    rw [hland] at hbyte
    exact hbyte.imp_right fun hwritten => ⟨hencode, hwritten⟩
  · exact ⟨s.mem, s.draws, by rw [abandonMemory, if_neg h], fun _ _ _ => .inl rfl⟩

theorem abandonTransfer_of_not_waiting {s : State} (h : ∀ p, s.ctrl ≠ .waiting p) (consumed : Nat) :
    abandonTransfer consumed s = s := by
  unfold abandonTransfer
  split
  · exact absurd (by assumption) (h _)
  all_goals rfl

theorem abandonTransfer_of_waiting {s : State} {p : Pending} (h : s.ctrl = .waiting p) (consumed : Nat) :
    abandonTransfer consumed s =
      { s.logSink (.transfer p.bytes (resetEnding consumed s.answers)) with answers := s.answers.drop 1 } := by
  rw [abandonTransfer, h]

/-- What stands outside the block over a hardware reset: the parameters and the marks (70 R260). -/
theorem hardReset_outside (d : ResetDraw) (s : State) :
    (hardReset d s).params = s.params ∧ (hardReset d s).refusalMark = s.refusalMark
      ∧ (hardReset d s).raceMark = s.raceMark := by
  obtain ⟨m, log, as, k, h, -⟩ := hardReset_cases d s
  rw [h]
  exact ⟨rfl, rfl, rfl⟩

/-- The record over a hardware reset: the pending transfer, if there is one, and the mark of a new stream (70 R261; log 18). -/
theorem hardReset_sinkLog_of_waiting (d : ResetDraw) {s : State} {p : Pending} (h : s.ctrl = .waiting p) :
    (hardReset d s).sinkLog =
      s.sinkLog ++ [.transfer p.bytes (resetEnding d.consumed s.answers), .newStream] := by
  have hmem : abandonMemory d.written s = s := abandonMemory_eq_of_not_encodes (by rw [h]; rfl) _
  rw [hardReset, hmem, abandonTransfer_of_waiting h, List.append_cons]
  rfl

theorem hardReset_sinkLog_of_not_waiting (d : ResetDraw) {s : State} (h : ∀ p, s.ctrl ≠ .waiting p) :
    (hardReset d s).sinkLog = s.sinkLog ++ [.newStream] := by
  obtain ⟨m, k, hmem, -⟩ := abandonMemory_cases d.written s
  rw [hardReset, hmem, abandonTransfer_of_not_waiting (s := { s with mem := m, draws := k }) h]
  rfl

theorem hardReset_mem (d : ResetDraw) (s : State) : (hardReset d s).mem = (abandonMemory d.written s).mem :=
  abandonTransfer_mem ..

theorem hardReset_mem_of_not_encodes (d : ResetDraw) {s : State} (h : s.ctrl.encodes = false) :
    (hardReset d s).mem = s.mem := by
  rw [hardReset_mem, abandonMemory_eq_of_not_encodes h]

theorem hardReset_status (d : ResetDraw) (s : State) : (hardReset d s).status = 0 := by
  have hcode : (hardReset d s).resultCode = .ok := rfl
  have hwriter : (hardReset d s).writer = Writer.reset := rfl
  have hoverrun : (hardReset d s).cmdOverrun = false := rfl
  have hidle : (hardReset d s).busy = false := rfl
  rw [State.status, statusWord, hcode, hwriter, hoverrun, hardReset_done, hidle]
  decide

/-- Settles O54: the block's state is written out by the reset; the record and memory follow what the control state abandons. -/
theorem hardwareReset : Obligations.HardwareReset := by
  refine ⟨fun s d rest he => by rw [step, he]; rfl, ?_⟩
  rintro s t d rfl
  refine ⟨?block, fun p hp => ⟨?record, ?kept⟩, fun h => hardReset_sinkLog_of_not_waiting d h, fun hc => ?idle,
    fun hwf hr a => ?byte, hardReset_outside d s⟩
  case block => exact ⟨rfl, hardReset_status d s, rfl, rfl, rfl, rfl, rfl, rfl, rfl, rfl, rfl, rfl, rfl⟩
  case record =>
    rw [hardReset_sinkLog_of_waiting d hp]
    cases s.answers <;> rfl
  case kept => exact hardReset_mem_of_not_encodes d (by rw [hp]; rfl)
  case idle => exact hardReset_mem_of_not_encodes d (by rw [hc]; rfl)
  case byte =>
    obtain ⟨m, k, hmem, hbytes⟩ := abandonMemory_cases d.written s
    rw [hardReset_mem, hmem]
    exact hbytes hwf hr a

end Sys2Proof.Machine
end
